-- ==== Sys2Proof/Word.lean ====
section
/-! DEFINITION. The word types of the AAF block engine (spec/00_scope.md R10, R13, R17): bytes of system memory,
16-bit colours and geometry fields, 32-bit registers and addresses. -/

namespace Sys2Proof

/-- A byte of system memory (20_memory.md R80). -/
abbrev Byte := BitVec 8

/-- A 16-bit colour or geometry field (00_scope.md R10, 42_compositor.md R301). -/
abbrev Half := BitVec 16

/-- A 32-bit register or system address (00_scope.md R13, 10_state.md R31). -/
abbrev Word := BitVec 32

/-- The number of bytes of system memory, `2^32` (20_memory.md R80). -/
abbrev spaceSize : Nat := 0x100000000

end Sys2Proof
end

