-- ==== Sys2Proof/Config.lean ====
section
/-! DEFINITION. What an implementation or a platform fixes: the OPEN parameters of the spec (00_scope.md R14 to R16,
93_implementation_defined.md U7 to U10) as plain data that every statement ranges over, and the free values, which
have no body. -/

namespace Sys2Proof

/-- `Region(base, len)` of 00_scope.md R21: the bytes `base .. base+len-1` of system memory. -/
structure Region where
  base : Nat
  len : Nat
  deriving DecidableEq, Repr

/-- The address is one of the region's bytes. -/
def Region.has (r : Region) (a : Nat) : Bool :=
  r.base ≤ a && a < r.base + r.len

/-- Well-formed: the region does not pass `2^32`; an empty region always is (00_scope.md R21). -/
def Region.fits (r : Region) : Bool :=
  r.len == 0 || r.base + r.len ≤ spaceSize

/-- Two regions have a byte in common (20_memory.md R93). -/
def Region.meets (r q : Region) : Bool :=
  r.len != 0 && q.len != 0 && r.base < q.base + q.len && q.base < r.base + r.len

/-- The spec's OPEN parameters. A step never writes them, and no value is assumed: a statement about every state is a
statement about every platform.
DESIGN CHOICE (unsafe only where a statement fixed a value): the values `Platform.atReset` below. -/
structure Platform where
  /-- `NODE_CAP - 511`: the node store holds `511 + nodeSpare` nodes (00_scope.md R14, `NODE_CAP >= 511`). -/
  nodeSpare : Nat
  /-- `REG_BASE`, the system address of the register block (00_scope.md R15). -/
  regBase : Word
  /-- `CMD_LATENCY`, the steps from acceptance to completion (70_reset_and_hazards.md R480). -/
  cmdLatency : Nat
  /-- The addresses whose reads memory refuses, `MEM_REFUSES(addr, read)` (93_implementation_defined.md U7). -/
  refusedReads : List Region
  /-- The addresses whose writes memory refuses, `MEM_REFUSES(addr, write)` (93_implementation_defined.md U7). -/
  refusedWrites : List Region
  /-- Windows of other devices: not ordinary memory (20_memory.md R88, 93_implementation_defined.md U4). -/
  devices : List Region
  deriving DecidableEq, Repr

/-- `NODE_CAP` (00_scope.md R14). -/
def Platform.nodeCap (p : Platform) : Nat :=
  p.nodeSpare + 511

/-- The register block's 2048 bytes at `REG_BASE` (10_state.md R31). -/
def Platform.regWindow (p : Platform) : Region :=
  ⟨p.regBase.toNat, 2048⟩

/-- DESIGN CHOICE: the parameter values that `State.reset` carries, with NODE_CAP = 511 as in the vectors of
95_test_vectors.md; the spec leaves each OPEN and no statement rests on them. -/
def Platform.atReset : Platform :=
  { nodeSpare := 0, regBase := 0x40000000#32, cmdLatency := 0, refusedReads := [], refusedWrites := [], devices := [] }

/-- Free value: what a 32-bit result register shows of a result variable that does not fit 32 bits. 10_state.md R37
makes the register 32 bits and 00_scope.md R18 the variable an exact integer; no rule says which bits are kept. -/
opaque Config.wideResult : Nat → Word

/-- Free value: how many of the newest byte writes of an abandoned command had not been made when the reset came
(70_reset_and_hazards.md R451, 93_implementation_defined.md U6), for the `n`-th such reset. -/
opaque Config.unmadeWrites : Nat → Nat

end Sys2Proof
end

