-- ==== Sys2Proof/Machine/Bus.lean ====
section
/-! DEFINITION. What the world outside the block does to it: host bus transactions in the notation of 30_encoding.md
R140 and R141, and the platform's reset input (70_reset_and_hazards.md R450). -/

namespace Sys2Proof.Machine

/-- The width of a bus access to the register block (10_state.md R32). -/
inductive AccessWidth where
  | byte
  | half
  | word
  deriving DecidableEq, Repr

/-- One transaction of the outside world. -/
inductive Input where
  /-- `WR <off>, <data>`: a host write to `REG_BASE + off` (30_encoding.md R140). -/
  | wr (off : BitVec 11) (width : AccessWidth) (data : Word)
  /-- `RD <off>`: a host read of `REG_BASE + off` (30_encoding.md R140). -/
  | rd (off : BitVec 11) (width : AccessWidth)
  /-- `WAIT`: `RD STATUS` repeated until BUSY is 0 (30_encoding.md R141). -/
  | wait
  /-- The host stores one byte of system memory (the `MEM` line of 30_encoding.md R140). -/
  | memWr (addr : Word) (data : Byte)
  /-- The host loads one byte of system memory. -/
  | memRd (addr : Word)
  /-- The host does nothing in this step. -/
  | idle
  /-- The platform drives the reset input (70_reset_and_hazards.md R450). -/
  | reset
  deriving DecidableEq, Repr

end Sys2Proof.Machine
end

