-- ==== Sys2Proof/Machine/State.lean ====
section
/-! DEFINITION. The state of the AAF block engine: plain data, every piece of state the spec gives the machine
(10_state.md; the list is INVENTORY.md '## State'), the reasons a step can stop, and the state after reset. -/

namespace Sys2Proof.Machine

/-- System memory (20_memory.md R80): (address, byte) pairs, addresses rising, no entry equal to what an unlisted
address reads as. -/
abbrev Memory := List Host.Cell

/-- DESIGN CHOICE (unsafe, log 8): what a byte that nothing has written reads as. The spec gives memory no reset
contents (70_reset_and_hazards.md R450); the vectors of 95_test_vectors.md say "Memory not listed holds 0x00". -/
def unlistedByte : Byte := 0x00#8

/-- The status codes of STATUS.ERR (60_exceptions.md R400). -/
inductive Code where
  | ok
  | decodeOverflow
  | unsupportedEncoding
  | invalidHeader
  | allocFailure
  | badCode
  | truncatedCode
  | sizeMismatch
  | badTable
  | rleOdd
  | notDecoded
  | jpegHandoff
  | badParam
  | busError
  | badCmd
  | noTree
  deriving DecidableEq, Repr

/-- CTRL and the parameter registers 0x020 to 0x084, in the order of 10_state.md R31. -/
inductive ParamReg where
  | ctrl
  | frameFmt
  | frameSize
  | blkGeom
  | palAddr
  | blkAddr
  | blkLen
  | blkIndex
  | dbufAddr
  | dbufCap
  | scrAddr
  | scrCap
  | tblAddr
  | tblLen
  | inAddr
  | inLen
  | outAddr
  | outCap
  | destAddr
  | destStride
  | destRows
  | destOrigin
  | objPos
  | clipMin
  | clipMax
  | mirrorOfs
  | palIdx
  deriving DecidableEq, Repr

/-- The contents of CTRL and the parameter registers: the live copy, and the copy a command latches at acceptance
(10_state.md R70). -/
structure Params where
  ctrl : Word := 0#32
  frameFmt : Word := 0#32
  frameSize : Word := 0#32
  blkGeom : Word := 0#32
  palAddr : Word := 0#32
  blkAddr : Word := 0#32
  blkLen : Word := 0#32
  blkIndex : Word := 0#32
  dbufAddr : Word := 0#32
  dbufCap : Word := 0#32
  scrAddr : Word := 0#32
  scrCap : Word := 0#32
  tblAddr : Word := 0#32
  tblLen : Word := 0#32
  inAddr : Word := 0#32
  inLen : Word := 0#32
  outAddr : Word := 0#32
  outCap : Word := 0#32
  destAddr : Word := 0#32
  destStride : Word := 0#32
  destRows : Word := 0#32
  destOrigin : Word := 0#32
  objPos : Word := 0#32
  clipMin : Word := 0#32
  clipMax : Word := 0#32
  mirrorOfs : Word := 0#32
  palIdx : Word := 0#32
  deriving DecidableEq, Repr

/-- The bound frame `F` (10_state.md R60). -/
structure Frame where
  depth : Byte
  w : Half
  h : Half
  count : Half
  blkH : Half
  palAddr : Word
  deriving DecidableEq, Repr

/-- The Huffman tree `T` (10_state.md R62, 41_huffman.md R251, R257): a node is the place its path of bits leads to;
`child0` is followed by bit 0 and `child1` by bit 1; `absent` is no node. -/
inductive Tree where
  | absent
  | leaf (value : Byte)
  | node (child0 child1 : Tree)
  deriving DecidableEq, Repr

/-- The tree of the root alone (41_huffman.md R258). -/
def Tree.root : Tree := .node .absent .absent

/-- The in-flight command's position in its algorithm (10_state.md R65). -/
inductive Position where
  /-- DECODE_BLOCK, past its first checks, about to read and dispatch on the tag (40_block_decoder.md R200). -/
  | atTag
  /-- Run to its end with this status; completion comes when the steps left have passed (70_reset_and_hazards.md
  R482). -/
  | held (code : Code) (left : Nat)
  deriving DecidableEq, Repr

/-- The in-flight command (10_state.md R65). -/
structure InFlight where
  /-- The accepted command code. -/
  op : Byte
  /-- The latched parameters (10_state.md R70). -/
  params : Params
  /-- The result variables, exact integers (00_scope.md R18, R20). -/
  r0 : Nat := 0
  r1 : Nat := 0
  r2 : Nat := 0
  /-- DECODE_BLOCK has written a byte of DBUF (40_block_decoder.md R200, R204). -/
  wrote : Bool := false
  /-- The output of the stage that is running goes to DBUF (40_block_decoder.md R209, R210, R215). -/
  toDbuf : Bool := false
  pos : Position := .atTag
  /-- The regions the command reads (20_memory.md R81). -/
  reads : List Region := []
  /-- The regions the command writes (20_memory.md R81). -/
  writes : List Region := []
  /-- For each byte write made, newest first: its address and the byte it replaced (70_reset_and_hazards.md R451). -/
  undo : List Host.Cell := []
  deriving DecidableEq, Repr

/-- Why the machine stops with a fault. The block itself has none: every failure it reports is a status code
(60_exceptions.md). -/
inductive Fault where
  /-- Raised by the engine's byte access at an address of `2^32` or more, which does not exist (20_memory.md R80). The
  commands check their regions first (20_memory.md R90), so no well-formed state raises it (log 20). Safe: the
  machine stops. -/
  | outsideSpace
  deriving DecidableEq, Repr

/-- Why a step has no meaning in this model. -/
inductive Refusal where
  /-- Raised by an arm of `exec` whose instruction has no meaning yet (none is left). Safe. -/
  | notModelled (mnemonic : String)
  /-- Raised by a command whose regions overlap: "a model refuses the command" (20_memory.md R93,
  93_implementation_defined.md U2). Safe. -/
  | regionOverlap
  /-- Raised by a host access, while a command is in flight, to a region it writes, or a host store to one it reads:
  "a model refuses such a schedule" (20_memory.md R92, 93_implementation_defined.md U1). Safe. -/
  | hostTouchesRegion
  /-- Raised by a register access that is not 32 bits at a 4-byte-aligned offset: "a model refuses it" (10_state.md
  R32, 93_implementation_defined.md U3). Safe. -/
  | registerAccess
  /-- Raised by an engine or host memory access to a device window: not ordinary memory (20_memory.md R88,
  93_implementation_defined.md U4). Safe. -/
  | deviceMemory
  /-- Raised by a host access to an address that memory refuses: the spec says what the engine sees of it (20_memory.md
  R86), not what the host sees. Safe. -/
  | hostBusError
  /-- Raised by the meaning of a block tag when no DECODE_BLOCK stands at its tag dispatch: a tag is no command
  (30_encoding.md R120), and no step asks for it there (log 25). Safe. -/
  | noBlockAtTag
  deriving DecidableEq, Repr

/-- The state of the machine. -/
structure State where
  /-- CTRL and the parameter registers (10_state.md R34, R38 to R52). -/
  params : Params
  /-- RESULT0 to RESULT2 (10_state.md R37). -/
  result0 : Word
  result1 : Word
  result2 : Word
  /-- STATUS.DONE, DROPPED, ERR (10_state.md R36); BUSY is the presence of `inflight`. -/
  done : Bool
  dropped : Bool
  err : Code
  /-- STATUS.FRAME_BOUND, DBUF_VALID, TREE_VALID (10_state.md R61, R62, R64). -/
  frameBound : Bool
  dbufValid : Bool
  treeValid : Bool
  /-- DBUF_BLOCK (10_state.md R64). -/
  dbufBlock : Word
  /-- The bound frame (10_state.md R60). -/
  frame : Frame
  /-- The Huffman tree and TREE_PAD (10_state.md R62). -/
  tree : Tree
  treePad : BitVec 3
  /-- The palette cache: each slot unresolved or a colour (10_state.md R63). -/
  pcache : Vector (Option Half) 256
  /-- The in-flight command (10_state.md R65). -/
  inflight : Option InFlight
  /-- System memory (20_memory.md R80). -/
  mem : Memory
  /-- The model's: the platform's OPEN parameters, written by no step. -/
  platform : Platform
  /-- The model's: what the outside world will do, in order. -/
  inputs : List Input
  /-- The model's: what the host's last read returned. -/
  readData : Option Word
  /-- The model's: how many free values have been drawn. -/
  freeIndex : Nat
  deriving DecidableEq, Repr

/-- Every palette cache slot unresolved. -/
def emptyCache : Vector (Option Half) 256 := Vector.replicate 256 none

/-- DBUF_BLOCK when DBUF holds no block: -1 (10_state.md R64). -/
def noBlock : Word := 0xFFFFFFFF#32

/-- DESIGN CHOICE (log 9): the bound frame's fields after reset, unspecified and unreachable (10_state.md R75). -/
def Frame.unspecified : Frame :=
  { depth := 0#8, w := 0#16, h := 0#16, count := 0#16, blkH := 0#16, palAddr := 0#32 }

/-- The machine right after reset (10_state.md R75, 70_reset_and_hazards.md R450). -/
def State.reset : State :=
  { params := {}
    result0 := 0#32
    result1 := 0#32
    result2 := 0#32
    done := false
    dropped := false
    err := .ok
    frameBound := false
    dbufValid := false
    treeValid := false
    dbufBlock := noBlock
    frame := Frame.unspecified
    tree := Tree.root
    treePad := 0#3
    pcache := emptyCache
    inflight := none
    mem := []
    platform := Platform.atReset
    inputs := []
    readData := none
    freeIndex := 0 }

end Sys2Proof.Machine
end

