-- ==== Sys2Proof/Machine/Flags.lean ====
section
/-! DEFINITION. The status codes' numbers, the STATUS word, its write-one-to-clear bits, the interrupt output and the
result registers' words (10_state.md R36, R37, R54, 60_exceptions.md R400, R420). -/

namespace Sys2Proof.Machine

/-- The 4-bit number of a status code (60_exceptions.md R400). -/
def Code.bits : Code → BitVec 4
  | .ok => 0#4
  | .decodeOverflow => 1#4
  | .unsupportedEncoding => 2#4
  | .invalidHeader => 3#4
  | .allocFailure => 4#4
  | .badCode => 5#4
  | .truncatedCode => 6#4
  | .sizeMismatch => 7#4
  | .badTable => 8#4
  | .rleOdd => 9#4
  | .notDecoded => 10#4
  | .jpegHandoff => 11#4
  | .badParam => 12#4
  | .busError => 13#4
  | .badCmd => 14#4
  | .noTree => 15#4

/-- STATUS.BUSY: a command is in flight (10_state.md R36, R65). -/
def State.busy (s : State) : Bool :=
  s.inflight.isSome

/-- The value a read of STATUS returns (10_state.md R36): bit 0 BUSY, 1 DONE, 2 DROPPED, 7:4 ERR, 8 FRAME_BOUND,
9 DBUF_VALID, 10 TREE_VALID, every other bit 0. -/
def State.statusWord (s : State) : Word :=
  0#21 ++ BitVec.ofBool s.treeValid ++ BitVec.ofBool s.dbufValid ++ BitVec.ofBool s.frameBound ++ s.err.bits
    ++ 0#1 ++ BitVec.ofBool s.dropped ++ BitVec.ofBool s.done ++ BitVec.ofBool s.busy

/-- A write to STATUS: a 1 in bit 1 clears DONE, a 1 in bit 2 clears DROPPED; every other bit is ignored (10_state.md
R36). -/
def State.clearStatus (s : State) (data : Word) : State :=
  { s with done := s.done && !data.getLsbD 1, dropped := s.dropped && !data.getLsbD 2 }

/-- The interrupt output: DONE and IRQ_EN, a level (10_state.md R54, 60_exceptions.md R420). -/
def State.irq (s : State) : Bool :=
  s.done && s.params.ctrl.getLsbD 2

/-- The word a 32-bit result register gets from a result variable (00_scope.md R20, 10_state.md R37). A value that
does not fit is a free value (log 13). -/
def resultWord (n : Nat) : Word :=
  if n < 0x100000000 then BitVec.ofNat 32 n else Config.wideResult n

end Sys2Proof.Machine
end

