-- ==== Sys2Proof/Machine/Operands.lean ====
section
/-! DEFINITION. The operand forms: fields of the latched parameters `P.X` and of the bound frame `F.X`
(00_scope.md R22), the derived quantities `rows` and `block_bytes` (R23), and the regions a command names
(20_memory.md R81). -/

namespace Sys2Proof.Machine

/-- `v[15:0]` of a register. -/
def low16 (v : Word) : Half := v.extractLsb' 0 16

/-- `v[31:16]` of a register. -/
def high16 (v : Word) : Half := v.extractLsb' 16 16

/-- `sext_16` of a coordinate field (00_scope.md R18). -/
def coord (v : Half) : Int := v.toInt

/-- CTRL.SWAP (10_state.md R34). -/
def Params.swap (p : Params) : Bool := p.ctrl.getLsbD 0

/-- CTRL.MIRROR_EN (10_state.md R34). -/
def Params.mirrorEn (p : Params) : Bool := p.ctrl.getLsbD 1

/-- FRAME_FMT.DEPTH (10_state.md R38). -/
def Params.depth (p : Params) : Byte := p.frameFmt.extractLsb' 0 8

/-- BLK_INDEX[15:0], the block index `k` (10_state.md R41). -/
def Params.index (p : Params) : Half := low16 p.blkIndex

/-- PAL_IDX[7:0] (10_state.md R52). -/
def Params.palIndex (p : Params) : Byte := p.palIdx.extractLsb' 0 8

/-- DEST_STRIDE[15:0], pixels (10_state.md R47). -/
def Params.stride (p : Params) : Nat := (low16 p.destStride).toNat

/-- DEST_ROWS[15:0] (10_state.md R47). -/
def Params.rows (p : Params) : Nat := (low16 p.destRows).toNat

/-- Region(BLK_ADDR, BLK_LEN) (10_state.md R41). -/
def Params.blkRegion (p : Params) : Region := ⟨p.blkAddr.toNat, p.blkLen.toNat⟩

/-- Region(DBUF_ADDR, DBUF_CAP) (10_state.md R43). -/
def Params.dbufRegion (p : Params) : Region := ⟨p.dbufAddr.toNat, p.dbufCap.toNat⟩

/-- Region(SCR_ADDR, SCR_CAP) (10_state.md R44). -/
def Params.scrRegion (p : Params) : Region := ⟨p.scrAddr.toNat, p.scrCap.toNat⟩

/-- Region(TBL_ADDR, TBL_LEN) (10_state.md R45). -/
def Params.tblRegion (p : Params) : Region := ⟨p.tblAddr.toNat, p.tblLen.toNat⟩

/-- Region(IN_ADDR, IN_LEN) (10_state.md R46). -/
def Params.inRegion (p : Params) : Region := ⟨p.inAddr.toNat, p.inLen.toNat⟩

/-- Region(OUT_ADDR, OUT_CAP) (10_state.md R46). -/
def Params.outRegion (p : Params) : Region := ⟨p.outAddr.toNat, p.outCap.toNat⟩

/-- Region(DEST_ADDR, 2*DEST_STRIDE*DEST_ROWS) (42_compositor.md R310). -/
def Params.destRegion (p : Params) : Region := ⟨p.destAddr.toNat, 2 * p.stride * p.rows⟩

/-- `rows(k)` (00_scope.md R23). The subtraction never cuts off for a bound frame, whose final block has at least one
row (43_frame_context.md R351, R352). -/
def Frame.rows (f : Frame) (k : Nat) : Nat :=
  if k < f.count.toNat - 1 then f.blkH.toNat else f.h.toNat - (f.count.toNat - 1) * f.blkH.toNat

/-- `ceil(w/2)`, the bytes of a depth-4 row (00_scope.md R18, 30_encoding.md R136). -/
def halfWidth (w : Nat) : Nat := (w + 1) / 2

/-- `block_bytes(depth, w, r)` (00_scope.md R23). -/
def blockBytes (depth : Byte) (w r : Nat) : Nat :=
  if depth = 8#8 then w * r else if depth = 4#8 then halfWidth w * r else 2 * w * r

/-- `E`, the expected decoded size of block `k` (40_block_decoder.md R202). -/
def Frame.blockSize (f : Frame) (k : Nat) : Nat :=
  blockBytes f.depth f.w.toNat (f.rows k)

/-- `4 * 2^depth`, the bytes of a palette at depth 4 or 8 (30_encoding.md R133). -/
def paletteBytes (depth : Byte) : Nat := 4 * 2 ^ depth.toNat

/-- Region(F.PAL_ADDR, 4*2^F.DEPTH) (20_memory.md R81). -/
def Frame.palRegion (f : Frame) : Region := ⟨f.palAddr.toNat, paletteBytes f.depth⟩

/-- Depths 4 and 8 are indexed (00_scope.md R11). -/
def indexedDepth (depth : Byte) : Bool := depth == 4#8 || depth == 8#8

/-- The three bit depths (00_scope.md R11). -/
def legalDepth (depth : Byte) : Bool := indexedDepth depth || depth == 24#8

end Sys2Proof.Machine
end

