-- ==== Sys2Proof/Machine/Ops.lean ====
section
/-! DEFINITION. The shared operations: system memory, the engine's byte accesses (00_scope.md R19), acceptance,
completion (the block's one analogue of taking an exception, 60_exceptions.md R422) and the reset input. -/

namespace Sys2Proof

/-- Memory answers a read at this address (20_memory.md R86, 93_implementation_defined.md U7). -/
def Platform.answersRead (p : Platform) (a : Nat) : Bool :=
  !p.refusedReads.any (·.has a)

/-- Memory answers a write at this address (20_memory.md R86, 93_implementation_defined.md U7). -/
def Platform.answersWrite (p : Platform) (a : Nat) : Bool :=
  !p.refusedWrites.any (·.has a)

/-- The address is in a device window, the block's own registers among them: not ordinary memory (20_memory.md R88,
60_exceptions.md R432). -/
def Platform.isDevice (p : Platform) (a : Nat) : Bool :=
  p.regWindow.has a || p.devices.any (·.has a)

end Sys2Proof

namespace Sys2Proof.Machine

/-! ### System memory -/

/-- The byte at an address. -/
def Memory.read : Memory → Nat → Byte
  | [], _ => unlistedByte
  | (a, b) :: m, x => if a = x then b else Memory.read m x

/-- Put an entry in its place in the rising order. -/
def Memory.insert : Memory → Nat → Byte → Memory
  | [], x, v => [(x, v)]
  | (a, b) :: m, x, v => if x < a then (x, v) :: (a, b) :: m else (a, b) :: Memory.insert m x v

/-- Store a byte: the canonical form is kept, so a byte equal to the unlisted one leaves no entry. -/
def Memory.write (m : Memory) (x : Nat) (v : Byte) : Memory :=
  let rest := m.filter (fun c => c.1 != x)
  if v = unlistedByte then rest else Memory.insert rest x v

/-- Every entry above `low`, strictly rising, inside the address space and unlike the unlisted byte. -/
def Memory.risingFrom : Nat → Memory → Bool
  | _, [] => true
  | low, (a, b) :: m => low ≤ a && a < spaceSize && b != unlistedByte && Memory.risingFrom (a + 1) m

/-- The canonical form of memory. -/
def Memory.wf (m : Memory) : Bool := Memory.risingFrom 0 m

/-! ### The running command -/

/-- A command while the engine runs it: the machine without its in-flight record, and that record. -/
structure Run where
  st : State
  c : InFlight
  deriving DecidableEq, Repr

/-- How a stretch of a command ends before its last line. -/
inductive Stop where
  /-- `raise CmdError(code)` or `finish(code)` (00_scope.md R20). -/
  | ended (code : Code) (u : Run)
  | refuse (r : Refusal)
  | fault (f : Fault)
  deriving DecidableEq, Repr

/-- `MemRead(a, 1)` (00_scope.md R19, 20_memory.md R86, 60_exceptions.md R401). -/
def Run.read (u : Run) (a : Nat) : Except Stop Byte :=
  if spaceSize ≤ a then .error (.fault .outsideSpace)
  else if !u.st.platform.answersRead a then .error (.ended .busError u)
  else if u.st.platform.isDevice a then .error (.refuse .deviceMemory)
  else .ok (u.st.mem.read a)

/-- `MemWrite(a, 1, v)` (00_scope.md R19, 20_memory.md R86, 60_exceptions.md R401). The byte replaced is kept for a
reset that abandons the command (70_reset_and_hazards.md R451); `wrote` becomes true when the stage's output is DBUF
(40_block_decoder.md R200). -/
def Run.write (u : Run) (a : Nat) (v : Byte) : Except Stop Run :=
  if spaceSize ≤ a then .error (.fault .outsideSpace)
  else if !u.st.platform.answersWrite a then .error (.ended .busError u)
  else if u.st.platform.isDevice a then .error (.refuse .deviceMemory)
  else .ok
    { st := { u.st with mem := u.st.mem.write a v }
      c := { u.c with wrote := u.c.wrote || u.c.toDbuf, undo := (a, u.st.mem.read a) :: u.c.undo } }

/-- `MemRead(a, 2)`, little-endian, the low byte first (00_scope.md R19, 20_memory.md R82). -/
def Run.read16 (u : Run) (a : Nat) : Except Stop Half := do
  let lo ← u.read a
  let hi ← u.read (a + 1)
  pure (hi ++ lo)

/-- `MemWrite(a, 2, v)`: `v[7:0]` at `a`, then `v[15:8]` at `a + 1` (00_scope.md R19, 20_memory.md R83, R87). -/
def Run.write16 (u : Run) (a : Nat) (v : Half) : Except Stop Run := do
  let u ← u.write a (v.extractLsb' 0 8)
  u.write (a + 1) (v.extractLsb' 8 8)

/-- `n` bytes from `a`, in ascending order. -/
def Run.readBytes (u : Run) (a : Nat) : Nat → Except Stop (List Byte)
  | 0 => pure []
  | n + 1 => do
    let b ← u.read a
    let bs ← Run.readBytes u (a + 1) n
    pure (b :: bs)

/-- `raise CmdError(code)` unless the condition holds. -/
def Run.require (u : Run) (cond : Bool) (code : Code) : Except Stop Unit :=
  if cond then .ok () else .error (.ended code u)

/-- Two of the regions overlap: a read region and a write region, or two write regions (20_memory.md R93). -/
def regionsClash (reads writes : List Region) : Bool :=
  match writes with
  | [] => false
  | w :: ws => reads.any w.meets || ws.any w.meets || regionsClash reads ws

/-- A command names the regions that 20_memory.md R81 gives it, as soon as its operands determine them; a model refuses a
command whose regions overlap (R93; log 11). -/
def Run.declare (u : Run) (reads writes : List Region) : Except Stop Run :=
  if regionsClash reads writes then .error (.refuse .regionOverlap)
  else .ok { u with c := { u.c with reads := reads, writes := writes } }

/-- The machine with every palette cache slot unresolved (10_state.md R63). -/
def State.flushCache (s : State) : State :=
  { s with pcache := emptyCache }

/-- DBUF holds no decoded block (10_state.md R64). -/
def State.dropBlock (s : State) : State :=
  { s with dbufValid := false, dbufBlock := noBlock }

/-- The unbinding part of BIND_FRAME and UNBIND: Unbound, cache empty, DBUF not valid (43_frame_context.md R351,
R355). -/
def State.unbindFrame (s : State) : State :=
  ({ s with frameBound := false }).flushCache.dropBlock

/-! ### Acceptance and completion -/

/-- Acceptance (30_encoding.md R111): latch CTRL and the parameters (10_state.md R70), zero the result variables,
clear DONE; BUSY is the presence of the in-flight record. -/
def acceptRun (op : Byte) (s : State) : Run :=
  { st := { s with done := false, inflight := none }, c := { op := op, params := s.params } }

/-- The completion clause of DECODE_BLOCK (40_block_decoder.md R204). -/
def decodeClause (c : InFlight) (code : Code) (s : State) : State :=
  if code = .ok then { s with dbufValid := true, dbufBlock := c.params.index.zeroExtend 32 }
  else if code = .jpegHandoff || c.wrote then s.dropBlock
  else s

/-- The completion clause of HUFF_BUILD (41_huffman.md R270). -/
def buildClause (code : Code) (s : State) : State :=
  { s with treeValid := code == .ok }

/-- The completion clause of the command, for those that have one (00_scope.md R20). -/
def completionClause (c : InFlight) (code : Code) (s : State) : State :=
  if c.op = 0x02#8 then decodeClause c code s
  else if c.op = 0x05#8 then buildClause code s
  else s

/-- Completion, the block's one analogue of trap entry (60_exceptions.md R422): RESULT0 to RESULT2 and ERR are
written, the completion clause runs, BUSY falls and DONE rises, in one step (30_encoding.md R111, 00_scope.md R20). -/
def complete (c : InFlight) (code : Code) (s : State) : State :=
  { completionClause c code s with
    result0 := resultWord c.r0
    result1 := resultWord c.r1
    result2 := resultWord c.r2
    err := code
    done := true
    inflight := none }

/-- A command has run to its end: complete it, or hold its completion for `CMD_LATENCY` steps
(70_reset_and_hazards.md R480, R482). -/
def settle (u : Run) (code : Code) : State :=
  if u.st.platform.cmdLatency = 0 then complete u.c code u.st
  else { u.st with inflight := some { u.c with pos := .held code u.st.platform.cmdLatency } }

/-- The outcome of a command's body; a body that comes to its last line finishes OK. -/
def conclude : Except Stop Run → Host.Outcome State Fault Refusal
  | .ok u => .next (settle u .ok)
  | .error (.ended code u) => .next (settle u code)
  | .error (.refuse r) => .refused r
  | .error (.fault f) => .fault f

/-- A write of CMD (30_encoding.md R111): while BUSY it is dropped and flagged, and changes nothing else; while idle
the command is accepted and run. -/
def runCommand (op : Byte) (body : Run → Except Stop Run) (s : State) : Host.Outcome State Fault Refusal :=
  if s.busy then .next { s with dropped := true }
  else conclude (body (acceptRun op s))

/-- A reserved command code: accepted like any command, and finished at once with BAD_CMD and results 0; nothing else
changes (30_encoding.md R113, 43_frame_context.md R362). -/
def reservedCommand (op : Byte) (s : State) : Host.Outcome State Fault Refusal :=
  if s.busy then .next { s with dropped := true }
  else .next (complete (acceptRun op s).c .badCmd (acceptRun op s).st)

/-- The engine's turn while a completion is held: one step less, and completion when none is left
(70_reset_and_hazards.md R482). -/
def tick (s : State) : State :=
  match s.inflight with
  | some c =>
    match c.pos with
    | .held code left =>
      if left ≤ 1 then complete c code s
      else { s with inflight := some { c with pos := .held code (left - 1) } }
    | .atTag => s
  | none => s

/-! ### The reset input -/

/-- Take back byte writes, the newest first. -/
def undoWrites : Memory → List Host.Cell → Memory
  | m, [] => m
  | m, (a, old) :: us => undoWrites (m.write a old) us

/-- Memory after a reset: untouched, but that of an abandoned command's writes only a prefix, in order, was made; how
long a prefix is a free value (70_reset_and_hazards.md R450, R451, 93_implementation_defined.md U6; log 14). -/
def memoryAtReset (s : State) : Memory :=
  match s.inflight with
  | some c => undoWrites s.mem (c.undo.take (Config.unmadeWrites s.freeIndex))
  | none => s.mem

/-- The reset input: every register and every piece of internal state as 10_state.md R75 says, memory kept, the
in-flight command abandoned (70_reset_and_hazards.md R450, R451). -/
def resetBlock (s : State) : State :=
  { State.reset with
    mem := memoryAtReset s
    platform := s.platform
    inputs := s.inputs
    readData := s.readData
    freeIndex := if s.busy then s.freeIndex + 1 else s.freeIndex }

end Sys2Proof.Machine
end

