-- ==== Sys2Proof/Machine/Huffman.lean ====
section
/-! DEFINITION. The Huffman engine of 41_huffman.md: BuildTree (R251 to R258), HuffDecode (R260 to R265), and the
commands HUFF_BUILD (R270) and HUFF_DECODE (R272). -/

namespace Sys2Proof.Machine

/-! ### Trees -/

/-- The node one bit below, absent where there is none (41_huffman.md R257). -/
def Tree.child (t : Tree) (bit : Bool) : Tree :=
  match t with
  | .node c0 c1 => if bit then c1 else c0
  | .leaf _ | .absent => .absent

/-- The node a path of bits leads to (10_state.md R62). -/
def Tree.follow : Tree → List Bool → Tree
  | t, [] => t
  | t, b :: path => Tree.follow (t.child b) path

/-- Put a subtree one bit below a node. -/
def Tree.setChild (t : Tree) (bit : Bool) (c : Tree) : Tree :=
  match t with
  | .node c0 c1 => if bit then .node c0 c else .node c c1
  | .leaf _ | .absent => if bit then .node .absent c else .node c .absent

/-- `|T|`, the number of nodes (41_huffman.md R251, R256). -/
def Tree.size : Tree → Nat
  | .absent => 0
  | .leaf _ => 1
  | .node c0 c1 => c0.size + c1.size + 1

/-- What the insertion of one code comes to (41_huffman.md R251). -/
inductive Inserted where
  /-- The tree with the code, and the number of nodes it took. -/
  | done (t : Tree) (fresh : Nat)
  /-- The code equals, extends or is a prefix of an earlier one: BAD_TABLE (41_huffman.md R252). -/
  | conflict
  /-- A node is needed when `|T| = NODE_CAP`: ALLOC_FAILURE, after taking `fresh` nodes (41_huffman.md R256). -/
  | full (fresh : Nat)
  deriving DecidableEq, Repr

/-- The insertion below one bit, told of the node above it. -/
def Inserted.under (t : Tree) (bit : Bool) (taken : Nat) : Inserted → Inserted
  | .done c fresh => .done (t.setChild bit c) (fresh + taken)
  | .conflict => .conflict
  | .full fresh => .full (fresh + taken)

/-- Insert a code below a node, bit by bit: the inner loop of BuildTree (41_huffman.md R251). `room` is how many more
nodes the store holds. -/
def Tree.insert (v : Byte) : Tree → List Bool → Nat → Inserted
  | _, [], _ => .conflict
  | t, b :: rest, room =>
    match t.child b with
    | .absent =>
      if room = 0 then .full 0
      else if rest.isEmpty then .done (t.setChild b (.leaf v)) 1
      else (Tree.insert v Tree.root rest (room - 1)).under t b 1
    | .leaf _ => .conflict
    | .node c0 c1 =>
      if rest.isEmpty then .conflict
      else (Tree.insert v (.node c0 c1) rest room).under t b 0

/-! ### BuildTree -/

/-- The big-endian number of a code's bytes (30_encoding.md R126). -/
def codeNumber (bytes : List Byte) : Nat :=
  bytes.foldl (fun c b => c * 256 + b.toNat) 0

/-- `C[L-1], C[L-2], ..., C[0]`, the bit string of a code; bits at `L` and above are ignored (30_encoding.md R126,
41_huffman.md R255). -/
def codeBits (c : Nat) : Nat → List Bool
  | 0 => []
  | n + 1 => c.testBit n :: codeBits c n

/-- `NB = ceil(L/8)` (30_encoding.md R126). -/
def codeBytes (len : Nat) : Nat := (len + 7) / 8

/-- What BuildTree returns: `ok` when the code is `.ok`, else `err` (41_huffman.md R250, R251). -/
structure BuildResult where
  code : Code
  tree : Tree
  pad : BitVec 3
  ncodes : Nat
  nodes : Nat
  pos : Nat
  deriving DecidableEq, Repr

/-- The `while` loop of BuildTree (41_huffman.md R251), from table offset `p`. Each triple takes at least three bytes,
so `fuel` no smaller than `tlen - p` never runs out. -/
def buildTriples (u : Run) (t tlen cap : Nat) (pad : BitVec 3) :
    (fuel : Nat) → (tree : Tree) → (ncodes nodes p : Nat) → Except Stop BuildResult
  | 0, tree, ncodes, nodes, p => pure ⟨.ok, tree, pad, ncodes, nodes, p⟩
  | fuel + 1, tree, ncodes, nodes, p =>
    if tlen ≤ p then pure ⟨.ok, tree, pad, ncodes, nodes, p⟩
    else if tlen < p + 2 then pure ⟨.badTable, tree, pad, ncodes, nodes, p⟩
    else do
      let v ← u.read (t + p)
      let len ← u.read (t + p + 1)
      if len = 0#8 then pure ⟨.badTable, tree, pad, ncodes, nodes, p⟩
      else if tlen < p + 2 + codeBytes len.toNat then pure ⟨.badTable, tree, pad, ncodes, nodes, p⟩
      else do
        let bytes ← u.readBytes (t + p + 2) (codeBytes len.toNat)
        match tree.insert v (codeBits (codeNumber bytes) len.toNat) (cap - nodes) with
        | .done tree' fresh =>
          buildTriples u t tlen cap pad fuel tree' (ncodes + 1) (nodes + fresh) (p + 2 + codeBytes len.toNat)
        | .conflict => pure ⟨.badTable, tree, pad, ncodes, nodes, p⟩
        | .full fresh => pure ⟨.allocFailure, tree, pad, ncodes, nodes + fresh, p⟩

/-- `BuildTree(t, tlen)` (41_huffman.md R251). -/
def buildTree (u : Run) (t tlen : Nat) : Except Stop BuildResult :=
  if tlen = 0 then pure ⟨.badTable, Tree.root, 0#3, 0, 0, 0⟩
  else do
    let pad ← u.read t
    if 7 < pad.toNat then pure ⟨.badTable, Tree.root, 0#3, 0, 0, 0⟩
    else buildTriples u t tlen u.st.platform.nodeCap (pad.extractLsb' 0 3) tlen Tree.root 0 1 1

/-! ### HuffDecode -/

/-- What HuffDecode returns: `ok` when the code is `.ok`, else `err` (41_huffman.md R250, R260). -/
structure HuffResult where
  code : Code
  count : Nat
  bits : Nat
  deriving DecidableEq, Repr

/-- Bit `j` of the stream, in the byte that holds it: bit `7 - (j mod 8)` (30_encoding.md R127, 20_memory.md R84). -/
def streamBit (byte : Byte) (j : Nat) : Bool := byte.getLsbD (7 - j % 8)

/-- The stream byte of bit `j`: read when the bit is the first of its byte, else the one already held (41_huffman.md
R260, 30_encoding.md R127). -/
def streamByte (u : Run) (a j : Nat) (byte : Byte) : Except Stop Byte :=
  if j % 8 = 0 then u.read (a + j / 8) else .ok byte

/-- The `for` loop of HuffDecode (41_huffman.md R260): `left` bits to go, `j` bits read, `cur` the node the walk has
come to and `mid` whether that is below the root (`s != ""`). -/
def huffBits (root : Tree) (a o cap : Nat) :
    (left : Nat) → (j count : Nat) → (byte : Byte) → (cur : Tree) → (mid : Bool) → Run →
      Except Stop (HuffResult × Run)
  | 0, j, count, _, _, mid, u => pure (⟨if mid then .truncatedCode else .ok, count, j⟩, u)
  | left + 1, j, count, byte, cur, _, u => do
    let byte ← streamByte u a j byte
    match cur.child (streamBit byte j) with
    | .absent => pure (⟨.badCode, count, j + 1⟩, u)
    | .leaf v =>
      if count = cap then pure (⟨.decodeOverflow, count, j + 1⟩, u)
      else do
        let u ← u.write (o + count) v
        huffBits root a o cap left (j + 1) (count + 1) byte root false u
    | .node c0 c1 => huffBits root a o cap left (j + 1) count byte (.node c0 c1) true u

/-- `HuffDecode(T, PAD, a, n, o, cap)` (41_huffman.md R260, R264). -/
def huffDecode (u : Run) (root : Tree) (pad : BitVec 3) (a n o cap : Nat) : Except Stop (HuffResult × Run) :=
  if 8 * n < pad.toNat then pure (⟨.badTable, 0, 0⟩, u)
  else huffBits root a o cap (8 * n - pad.toNat) 0 0 0#8 root false u

/-! ### Commands -/

/-- The body of HUFF_BUILD (41_huffman.md R270); its completion clause is `buildClause`. -/
def buildBody (u : Run) : Except Stop Run := do
  let u ← u.declare [u.c.params.tblRegion] []
  u.require u.c.params.tblRegion.fits .badParam
  let res ← buildTree u u.c.params.tblRegion.base u.c.params.tblRegion.len
  if res.code = .ok then
    pure { st := { u.st with tree := res.tree, treePad := res.pad }
           c := { u.c with r0 := res.ncodes, r1 := res.nodes, r2 := 0 } }
  else .error (.ended res.code { u with c := { u.c with r0 := res.ncodes, r1 := res.nodes, r2 := res.pos } })

/-- HUFF_BUILD (41_huffman.md R270, R271). -/
def execHuffBuild (s : State) : Host.Outcome State Fault Refusal :=
  runCommand 0x05#8 buildBody s

/-- The body of HUFF_DECODE (41_huffman.md R272). -/
def huffDecodeBody (u : Run) : Except Stop Run := do
  let u ← u.declare [u.c.params.inRegion] [u.c.params.outRegion]
  u.require u.st.treeValid .noTree
  u.require (u.c.params.inRegion.fits && u.c.params.outRegion.fits) .badParam
  let (res, u) ← huffDecode u u.st.tree u.st.treePad u.c.params.inRegion.base u.c.params.inRegion.len
    u.c.params.outRegion.base u.c.params.outRegion.len
  let u : Run := { u with c := { u.c with r0 := res.count, r1 := res.bits } }
  u.require (res.code == .ok) res.code
  pure u

/-- HUFF_DECODE (41_huffman.md R272). -/
def execHuffDecode (s : State) : Host.Outcome State Fault Refusal :=
  runCommand 0x06#8 huffDecodeBody s

end Sys2Proof.Machine
end

