-- ==== Sys2Proof/Machine/BlockDecoder.lean ====
section
/-! DEFINITION. The block decoder and the run-length decoder of 40_block_decoder.md: DECODE_BLOCK (R200 to R204), the
four block tags (R209, R210, R215, R218), RLE_EXPAND (R230) and MARK_DECODED (R235). -/

namespace Sys2Proof.Machine

/-! ### The RLE procedure -/

/-- What RleExpand returns: `ok` when the code is `.ok`, else `err` (41_huffman.md R250, 40_block_decoder.md R205). -/
structure RleResult where
  code : Code
  count : Nat
  pairs : Nat
  deriving DecidableEq, Repr

/-- Write `n` copies of a value from address `a` up: the inner loop of RleExpand (40_block_decoder.md R205). -/
def writeCopies (v : Byte) : (n : Nat) → (a : Nat) → Run → Except Stop Run
  | 0, _, u => pure u
  | n + 1, a, u => do
    let u ← u.write a v
    writeCopies v n (a + 1) u

/-- The pair loop of RleExpand (40_block_decoder.md R205, R206, R208): `left` pairs to go, the next one number `q`. -/
def rlePairs (a o cap : Nat) : (left : Nat) → (q count : Nat) → Run → Except Stop (RleResult × Run)
  | 0, q, count, u => pure (⟨.ok, count, q⟩, u)
  | left + 1, q, count, u => do
    let c ← u.read (a + 2 * q)
    let v ← u.read (a + 2 * q + 1)
    if cap < count + c.toNat then pure (⟨.decodeOverflow, count, q⟩, u)
    else do
      let u ← writeCopies v c.toNat (o + count) u
      rlePairs a o cap left (q + 1) (count + c.toNat) u

/-- `RleExpand(a, n, o, cap)` (40_block_decoder.md R205, R207). -/
def rleExpand (u : Run) (a n o cap : Nat) : Except Stop (RleResult × Run) :=
  if n % 2 = 1 then pure (⟨.rleOdd, 0, 0⟩, u)
  else rlePairs a o cap (n / 2) 0 0 u

/-! ### DECODE_BLOCK -/

/-- The rows of DECODE_BLOCK in the table of 20_memory.md R81: the regions it reads and those it writes, by its tag and the
region of DBUF that it fills, where that is determined. SCR, which tag 1 writes and reads back, stands among those written. -/
def tagRegionsWith (dbuf : List Region) (tag : Byte) (p : Params) : List Region × List Region :=
  if tag = 0x00#8 ∨ tag = 0x03#8 then ([p.blkRegion], dbuf)
  else if tag = 0x01#8 then ([p.blkRegion], p.scrRegion :: dbuf)
  else ([⟨p.blkAddr.toNat, 1⟩], [])

/-- The regions of a DECODE_BLOCK with this tag (20_memory.md R81). -/
def tagRegions (tag : Byte) (f : Frame) (p : Params) : List Region × List Region :=
  tagRegionsWith [⟨p.dbufAddr.toNat, f.blockSize p.index.toNat⟩] tag p

/-- BLK_INDEX names a block of the bound frame, so that its size `E` is determined (00_scope.md R23). -/
def blockNamed (s : State) (p : Params) : Bool :=
  s.frameBound && decide (p.index.toNat < s.frame.count.toNat)

/-- The regions of a DECODE_BLOCK whose tag byte has not been read, as far as the machine determines them: by the tag that
its payload holds, where there is one that memory answers, and the block's size, where there is a block. The block does not
read them; a model that refuses overlaps looks (20_memory.md R81, R93; log 11). -/
def decodeKnown (s : State) (p : Params) : List Region × List Region :=
  if p.blkLen = 0#32 || !s.platform.answersRead p.blkAddr.toNat || s.platform.isDevice p.blkAddr.toNat then ([], [])
  else
    tagRegionsWith (if blockNamed s p then [⟨p.dbufAddr.toNat, s.frame.blockSize p.index.toNat⟩] else [])
      (s.mem.read p.blkAddr.toNat) p

/-- The checks of DECODE_BLOCK before the tag is read, which all report BAD_PARAM: a frame is bound, BLK_INDEX names one of
its blocks, the payload is not empty, and its region and DBUF's are well-formed (40_block_decoder.md R200). A command that
fails them is refused instead where its regions overlap (20_memory.md R93; log 11); for one that passes them, its tag asks
that (`tagChecks`). -/
def decodeChecks (u : Run) : Except Stop Unit :=
  if blockNamed u.st u.c.params && u.c.params.blkLen != 0#32
      && (u.c.params.blkRegion.fits && u.c.params.dbufRegion.fits) then .ok ()
  else do
    let regions := decodeKnown u.st u.c.params
    let u ← u.declare regions.1 regions.2
    .error (.ended .badParam u)

/-- DECODE_BLOCK, accepted: TREE_VALID is cleared (40_block_decoder.md R200, R221). -/
def acceptDecode (s : State) : Run :=
  acceptRun 0x02#8 { s with treeValid := false }

/-- DECODE_BLOCK (40_block_decoder.md R200): accepted, its first checks pass, and it stands at its tag dispatch; the
tag's own meaning goes on from there in the next step (log 2). -/
def execDecodeBlock (s : State) : Host.Outcome State Fault Refusal :=
  if s.busy then .next { s with dropped := true }
  else
    match decodeChecks (acceptDecode s) with
    | .ok _ => .next { (acceptDecode s).st with inflight := some (acceptDecode s).c }
    | .error e => conclude (.error e)

/-- The running command of a machine whose DECODE_BLOCK stands at its tag dispatch. -/
def blockAtTag (s : State) : Option Run :=
  match s.inflight with
  | some c => if c.pos = .atTag then some { st := { s with inflight := none }, c := c } else none
  | none => none

/-- The size `E` of the block being decoded (40_block_decoder.md R202). -/
def Run.blockSize (u : Run) : Nat := u.st.frame.blockSize u.c.params.index.toNat

/-- The running DECODE_BLOCK names the tag byte as the region it reads; until that byte is read no more is determined
(20_memory.md R81, R92; log 12). -/
def Run.nameTag (u : Run) : Run :=
  { u with c := { u.c with reads := [⟨u.c.params.blkAddr.toNat, 1⟩] } }

/-- What every tag does first: its regions must not overlap (20_memory.md R93; log 11), `r1` is the tag, the tag must be
valid at the frame's depth (40_block_decoder.md R201), and DBUF must hold the block (R203). -/
def tagChecks (tag : Byte) (valid : Bool) (u : Run) : Except Stop Run := do
  let regions := tagRegions tag u.st.frame u.c.params
  let u ← u.declare regions.1 regions.2
  let u : Run := { u with c := { u.c with r1 := tag.toNat } }
  u.require valid .unsupportedEncoding
  u.require (u.blockSize ≤ u.c.params.dbufCap.toNat) .allocFailure
  pure u

/-- The meaning of a block tag: the rest of the DECODE_BLOCK that stands at its tag dispatch (40_block_decoder.md
R200). -/
def runTag (body : Run → Except Stop Run) (s : State) : Host.Outcome State Fault Refusal :=
  match blockAtTag s with
  | some u => conclude (body u)
  | none => .refused .noBlockAtTag

/-- A reserved tag, read by DECODE_BLOCK (40_block_decoder.md R220). -/
def reservedTag (tag : Byte) (u : Run) : Host.Outcome State Fault Refusal :=
  conclude ((tagChecks tag false u).bind fun u => .error (.ended .unsupportedEncoding u))

/-! ### The tags -/

/-- Tag 0, RLE, after its checks (40_block_decoder.md R209). -/
def rleBlock (u : Run) : Except Stop Run := do
  let u : Run := { u with c := { u.c with toDbuf := true } }
  let (res, u) ← rleExpand u (u.c.params.blkAddr.toNat + 1) (u.c.params.blkLen.toNat - 1) u.c.params.dbufAddr.toNat
    u.blockSize
  let u : Run := { u with c := { u.c with r0 := res.count } }
  u.require (res.code == .ok) res.code
  pure u

/-- BLK_RLE (40_block_decoder.md R209). -/
def execBlkRle (s : State) : Host.Outcome State Fault Refusal :=
  runTag (fun u => do rleBlock (← tagChecks 0x00#8 (indexedDepth u.st.frame.depth) u)) s

/-- The section header of tags 1 and 3: TLEN (40_block_decoder.md R211, 30_encoding.md R121). -/
def sectionHeader (u : Run) : Except Stop Nat := do
  u.require (3 ≤ u.c.params.blkLen.toNat) .badTable
  let tlen ← u.read16 (u.c.params.blkAddr.toNat + 1)
  u.require (3 + tlen.toNat ≤ u.c.params.blkLen.toNat) .badTable
  pure tlen.toNat

/-- The table of a Huffman section, built (40_block_decoder.md R210, R215). -/
def sectionTree (u : Run) (tlen : Nat) : Except Stop BuildResult := do
  let bt ← buildTree u (u.c.params.blkAddr.toNat + 3) tlen
  u.require (bt.code == .ok) bt.code
  pure bt

/-- Tag 1, Huffman then RLE, after its checks (40_block_decoder.md R210, R212). -/
def huffmanBlock (u : Run) : Except Stop Run := do
  u.require u.c.params.scrRegion.fits .badParam
  let tlen ← sectionHeader u
  let bt ← sectionTree u tlen
  let (hd, u) ← huffDecode u bt.tree bt.pad (u.c.params.blkAddr.toNat + 3 + tlen) (u.c.params.blkLen.toNat - 3 - tlen)
    u.c.params.scrAddr.toNat u.c.params.scrCap.toNat
  let u : Run := { u with c := { u.c with r2 := hd.count } }
  u.require (hd.code == .ok) hd.code
  let u : Run := { u with c := { u.c with toDbuf := true } }
  let (rl, u) ← rleExpand u u.c.params.scrAddr.toNat hd.count u.c.params.dbufAddr.toNat u.blockSize
  let u : Run := { u with c := { u.c with r0 := rl.count } }
  u.require (rl.code == .ok) rl.code
  u.require (rl.count == u.blockSize) .sizeMismatch
  pure u

/-- BLK_HUFFMAN (40_block_decoder.md R210). -/
def execBlkHuffman (s : State) : Host.Outcome State Fault Refusal :=
  runTag (fun u => do huffmanBlock (← tagChecks 0x01#8 (indexedDepth u.st.frame.depth) u)) s

/-- Tag 2, JPEG, after its checks: the block is left to the host's decoder (40_block_decoder.md R218). -/
def jpegBlock (u : Run) : Except Stop Run :=
  .error (.ended .jpegHandoff { u with c := { u.c with r0 := u.blockSize } })

/-- BLK_JPEG (40_block_decoder.md R218). -/
def execBlkJpeg (s : State) : Host.Outcome State Fault Refusal :=
  runTag (fun u => do jpegBlock (← tagChecks 0x02#8 (u.st.frame.depth == 24#8) u)) s

/-- Tag 3, Huffman-Direct, after its checks (40_block_decoder.md R215, R216). -/
def directBlock (u : Run) : Except Stop Run := do
  let tlen ← sectionHeader u
  let bt ← sectionTree u tlen
  let u : Run := { u with c := { u.c with toDbuf := true } }
  let (hd, u) ← huffDecode u bt.tree bt.pad (u.c.params.blkAddr.toNat + 3 + tlen) (u.c.params.blkLen.toNat - 3 - tlen)
    u.c.params.dbufAddr.toNat u.blockSize
  let u : Run := { u with c := { u.c with r0 := hd.count, r2 := hd.count } }
  u.require (hd.code == .ok) hd.code
  u.require (hd.count == u.blockSize) .sizeMismatch
  pure u

/-- BLK_HUFFMAN_DIRECT (40_block_decoder.md R215). -/
def execBlkHuffmanDirect (s : State) : Host.Outcome State Fault Refusal :=
  runTag (fun u => do directBlock (← tagChecks 0x03#8 (indexedDepth u.st.frame.depth) u)) s

/-! ### Standalone RLE and buffer marking -/

/-- The body of RLE_EXPAND (40_block_decoder.md R230). -/
def rleExpandBody (u : Run) : Except Stop Run := do
  let u ← u.declare [u.c.params.inRegion] [u.c.params.outRegion]
  u.require (u.c.params.inRegion.fits && u.c.params.outRegion.fits) .badParam
  let (res, u) ← rleExpand u u.c.params.inRegion.base u.c.params.inRegion.len u.c.params.outRegion.base
    u.c.params.outRegion.len
  let u : Run := { u with c := { u.c with r0 := res.count, r1 := res.pairs } }
  u.require (res.code == .ok) res.code
  pure u

/-- RLE_EXPAND (40_block_decoder.md R230). -/
def execRleExpand (s : State) : Host.Outcome State Fault Refusal :=
  runCommand 0x07#8 rleExpandBody s

/-- The body of MARK_DECODED (40_block_decoder.md R235). -/
def markBody (u : Run) : Except Stop Run := do
  u.require u.st.frameBound .badParam
  u.require (u.c.params.index.toNat < u.st.frame.count.toNat) .badParam
  pure { u with st := { u.st with dbufValid := true, dbufBlock := u.c.params.index.zeroExtend 32 } }

/-- MARK_DECODED (40_block_decoder.md R235). -/
def execMarkDecoded (s : State) : Host.Outcome State Fault Refusal :=
  runCommand 0x04#8 markBody s

end Sys2Proof.Machine
end

