-- ==== Sys2Proof/Machine/Compositor.lean ====
section
/-! DEFINITION. The compositor of 42_compositor.md: palette resolution (R301), the lazy palette cache (R305), the pixel
fetch (R307), and the commands PAL_RESOLVE (R303), PCACHE_FLUSH (R304) and COMPOSITE (R310). -/

namespace Sys2Proof.Machine

/-! ### Palette resolution -/

/-- 5-6-5 truncation: `c[15:11] = R[7:3]`, `c[10:5] = G[7:2]`, `c[4:0] = B[7:3]` (42_compositor.md R301). -/
def packColor (b g r : Byte) : Half :=
  r.extractLsb' 3 5 ++ g.extractLsb' 2 6 ++ b.extractLsb' 3 5

/-- The two bytes exchanged (42_compositor.md R301). -/
def swapBytes (c : Half) : Half :=
  c.extractLsb' 0 8 ++ c.extractLsb' 8 8

/-- The colour of three palette bytes under SWAP (42_compositor.md R301). -/
def paletteColor (b g r : Byte) (swap : Bool) : Half :=
  if swap then swapBytes (packColor b g r) else packColor b g r

/-- `Resolve(base, i, swap)`: byte +3 of the entry is never read (42_compositor.md R301, 30_encoding.md R129). -/
def resolveColor (u : Run) (base i : Nat) (swap : Bool) : Except Stop Half := do
  let b ← u.read (base + 4 * i)
  let g ← u.read (base + 4 * i + 1)
  let r ← u.read (base + 4 * i + 2)
  pure (paletteColor b g r swap)

/-- The body of PAL_RESOLVE (42_compositor.md R303). -/
def palResolveBody (u : Run) : Except Stop Run := do
  u.require u.st.frameBound .badParam
  u.require (u.st.frame.depth != 24#8) .badParam
  u.require (u.c.params.palIndex.toNat < 2 ^ u.st.frame.depth.toNat) .badParam
  let u ← u.declare [⟨u.st.frame.palAddr.toNat + 4 * u.c.params.palIndex.toNat, 3⟩] []
  let color ← resolveColor u u.st.frame.palAddr.toNat u.c.params.palIndex.toNat u.c.params.swap
  pure { u with c := { u.c with r0 := color.toNat } }

/-- PAL_RESOLVE (42_compositor.md R303). -/
def execPalResolve (s : State) : Host.Outcome State Fault Refusal :=
  runCommand 0x08#8 palResolveBody s

/-- PCACHE_FLUSH (42_compositor.md R304). -/
def execPcacheFlush (s : State) : Host.Outcome State Fault Refusal :=
  runCommand 0x09#8 (fun u => .ok { u with st := u.st.flushCache }) s

/-! ### Pixel fetch -/

/-- `CacheColor(i)` (42_compositor.md R305): a slot is filled only when its colour has been resolved, and `r2` counts the
slots newly resolved. The slots filled here are the running command's; `compositeBody` says when the palette cache takes
them. -/
def cacheColor (u : Run) (i : Byte) : Except Stop (Half × Run) :=
  match u.st.pcache[i.toNat]'i.isLt with
  | some color => pure (color, u)
  | none => do
    let color ← resolveColor u u.st.frame.palAddr.toNat i.toNat u.c.params.swap
    pure (color,
      { st := { u.st with pcache := u.st.pcache.set i.toNat (some color) i.isLt }
        c := { u.c with r2 := u.c.r2 + 1 } })

/-- The index in a depth-4 byte: the high nibble at even columns, the low nibble at odd ones (30_encoding.md R136). -/
def nibble (b : Byte) (sx : Nat) : Byte :=
  if sx % 2 = 0 then (b.extractLsb' 4 4).zeroExtend 8 else (b.extractLsb' 0 4).zeroExtend 8

/-- `Fetch(sx, sy)` (42_compositor.md R307, R309; layouts 30_encoding.md R135 to R137). -/
def fetchPixel (u : Run) (sx sy : Nat) : Except Stop (Half × Run) :=
  if u.st.frame.depth = 8#8 then do
    let i ← u.read (u.c.params.dbufAddr.toNat + sy * u.st.frame.w.toNat + sx)
    cacheColor u i
  else if u.st.frame.depth = 4#8 then do
    let b ← u.read (u.c.params.dbufAddr.toNat + sy * halfWidth u.st.frame.w.toNat + sx / 2)
    cacheColor u (nibble b sx)
  else do
    let color ← u.read16 (u.c.params.dbufAddr.toNat + 2 * (sy * u.st.frame.w.toNat + sx))
    pure (color, u)

/-! ### COMPOSITE -/

/-- The geometry COMPOSITE works out before it draws: origins, the block's first row, and the drawn rectangle
(42_compositor.md R310, R311, R317). -/
structure Drawing where
  ox : Int
  dx0 : Int
  dy0 : Int
  by1 : Int
  x1 : Int
  x2 : Int
  y1 : Int
  y2 : Int
  deriving DecidableEq, Repr

/-- The geometry of block `k` of a frame under the latched parameters (42_compositor.md R310). -/
def drawing (f : Frame) (p : Params) : Drawing :=
  let k := p.index.toNat
  let ox := coord (low16 p.objPos)
  let oy := coord (high16 p.objPos)
  let dx0 := coord (low16 p.destOrigin)
  let dy0 := coord (high16 p.destOrigin)
  let by1 := oy + (k * f.blkH.toNat : Nat)
  let by2 := by1 + (f.rows k : Int) - 1
  { ox := ox
    dx0 := dx0
    dy0 := dy0
    by1 := by1
    x1 := max (coord (low16 p.clipMin)) (max ox dx0)
    x2 := min (coord (low16 p.clipMax)) (min (ox + f.w.toNat - 1) (dx0 + p.stride - 1))
    y1 := max (coord (high16 p.clipMin)) (max by1 dy0)
    y2 := min (coord (high16 p.clipMax)) (min by2 (dy0 + p.rows - 1)) }

/-- The drawn rectangle is empty (42_compositor.md R315). -/
def Drawing.empty (d : Drawing) : Bool := d.x2 < d.x1 || d.y2 < d.y1

/-- The address of destination pixel (col, row) (10_state.md R47). -/
def pixelAddr (p : Params) (col row : Nat) : Nat :=
  p.destAddr.toNat + 2 * (row * p.stride + col)

/-- The destination column of the mirror copy of source column `sx`: `ox + (W + mo + W - 1 - sx) - dx0`
(42_compositor.md R310, R312). -/
def mirrorCol (f : Frame) (p : Params) (d : Drawing) (sx : Int) : Int :=
  d.ox + (f.w.toNat + coord (low16 p.mirrorOfs) + f.w.toNat - 1 - sx) - d.dx0

/-- The mirror write of one pixel, skipped where its column is outside the stride (42_compositor.md R312, R313). -/
def drawMirror (d : Drawing) (sx : Int) (row : Nat) (color : Half) (u : Run) : Except Stop Run :=
  let col := mirrorCol u.st.frame u.c.params d sx
  if u.c.params.mirrorEn && decide (0 ≤ col) && decide (col < u.c.params.stride) then do
    let u ← u.write16 (pixelAddr u.c.params col.toNat row) color
    pure { u with c := { u.c with r1 := u.c.r1 + 1 } }
  else pure u

/-- One pixel of COMPOSITE: the fetch, the primary write, the mirror write (42_compositor.md R310, R316). -/
def drawPixel (d : Drawing) (x y : Int) (u : Run) : Except Stop Run := do
  let row := (y - d.dy0).toNat
  let (color, u) ← fetchPixel u (x - d.ox).toNat (y - d.by1).toNat
  let u ← u.write16 (pixelAddr u.c.params (x - d.dx0).toNat row) color
  let u : Run := { u with c := { u.c with r0 := u.c.r0 + 1 } }
  drawMirror d (x - d.ox) row color u

/-- `n` pixels of a row from column `x`, ascending (42_compositor.md R316). -/
def drawRow (d : Drawing) (y : Int) : (n : Nat) → (x : Int) → Run → Except Stop Run
  | 0, _, u => pure u
  | n + 1, x, u => do
    let u ← drawPixel d x y u
    drawRow d y n (x + 1) u

/-- `n` rows from row `y`, ascending (42_compositor.md R316). -/
def drawRows (d : Drawing) : (n : Nat) → (y : Int) → Run → Except Stop Run
  | 0, _, u => pure u
  | n + 1, y, u => do
    let u ← drawRow d y (d.x2 - d.x1 + 1).toNat d.x1 u
    drawRows d n (y + 1) u

/-- The palette, at depths 4 and 8 (20_memory.md R81). -/
def paletteReads (f : Frame) : List Region := if indexedDepth f.depth then [f.palRegion] else []

/-- The regions COMPOSITE reads: the decoded block, and the palette at depths 4 and 8 (20_memory.md R81). -/
def compositeReads (f : Frame) (p : Params) : List Region :=
  ⟨p.dbufAddr.toNat, f.blockSize p.index.toNat⟩ :: paletteReads f

/-- Those of them that the machine determines: the palette belongs to a bound frame, and the block's size `E` to one of its
blocks (10_state.md R60, 00_scope.md R23; log 11). -/
def compositeKnown (s : State) (p : Params) : List Region :=
  if s.frameBound then
    if p.index.toNat < s.frame.count.toNat then compositeReads s.frame p else paletteReads s.frame
  else []

/-- The checks of COMPOSITE (42_compositor.md R310, 60_exceptions.md R411). -/
def compositeChecks (u : Run) : Except Stop Unit := do
  u.require u.st.frameBound .badParam
  u.require (u.c.params.index.toNat < u.st.frame.count.toNat) .badParam
  u.require (u.st.dbufValid && u.st.dbufBlock == u.c.params.index.zeroExtend 32) .notDecoded
  u.require (Region.fits ⟨u.c.params.dbufAddr.toNat, u.st.frame.blockSize u.c.params.index.toNat⟩
    && u.c.params.destRegion.fits) .badParam

/-- The pseudocode of COMPOSITE (42_compositor.md R310). An overlap of the regions that are determined refuses it before any
check, a drawing of no pixel (R315) included (20_memory.md R93; log 11). -/
def compositeDraw (u : Run) : Except Stop Run := do
  let u ← u.declare (compositeKnown u.st u.c.params) [u.c.params.destRegion]
  compositeChecks u
  let d := drawing u.st.frame u.c.params
  if d.empty then pure u
  else drawRows d (d.y2 - d.y1 + 1).toNat d.y1 u

/-- A stretch that ends with an error leaves the palette cache as it was before it (60_exceptions.md R404). -/
def keepCacheOnError (cache : Vector (Option Half) 256) : Except Stop Run → Except Stop Run
  | .ok u => .ok u
  | .error (.ended code u) => .error (.ended code { u with st := { u.st with pcache := cache } })
  | .error (.refuse r) => .error (.refuse r)
  | .error (.fault f) => .error (.fault f)

/-- The body of COMPOSITE (42_compositor.md R310). The palette cache takes the slots it resolved where it finishes OK
(R305); a COMPOSITE that fails leaves the cache as it was (60_exceptions.md R404), while its pixels stay written and its
results stay counted (60_exceptions.md R401; log 16). -/
def compositeBody (u : Run) : Except Stop Run :=
  keepCacheOnError u.st.pcache (compositeDraw u)

/-- COMPOSITE (42_compositor.md R310). -/
def execComposite (s : State) : Host.Outcome State Fault Refusal :=
  runCommand 0x03#8 compositeBody s

end Sys2Proof.Machine
end

