-- ==== Sys2Proof/Machine/FrameContext.lean ====
section
/-! DEFINITION. The frame context and housekeeping commands of 43_frame_context.md: BIND_FRAME (R351 to R354), UNBIND
(R355) and NOP (R360). -/

namespace Sys2Proof.Machine

/-- The frame the frame registers describe (43_frame_context.md R351). -/
def Params.frame (p : Params) : Frame :=
  { depth := p.depth
    w := low16 p.frameSize
    h := high16 p.frameSize
    count := low16 p.blkGeom
    blkH := high16 p.blkGeom
    palAddr := p.palAddr }

/-- `last = H - (C - 1) * BH`, the rows of the final block, an exact integer (43_frame_context.md R351). -/
def Frame.last (f : Frame) : Int :=
  f.h.toNat - (f.count.toNat - 1) * f.blkH.toNat

/-- No zero dimension (43_frame_context.md R351, R352). -/
def Frame.nonzero (f : Frame) : Bool :=
  f.w != 0#16 && f.h != 0#16 && f.count != 0#16 && f.blkH != 0#16

/-- The checks of BIND_FRAME (43_frame_context.md R351, R352, 60_exceptions.md R411). -/
def bindChecks (f : Frame) (u : Run) : Except Stop Unit := do
  u.require (legalDepth f.depth) .invalidHeader
  u.require f.nonzero .invalidHeader
  u.require (decide (1 ≤ f.last) && decide (f.last ≤ f.blkH.toNat)) .invalidHeader
  u.require (f.depth == 24#8 || f.palRegion.fits) .badParam

/-- The body of BIND_FRAME (43_frame_context.md R351): unbind for every outcome, check, then bind. -/
def bindBody (u : Run) : Except Stop Run := do
  let f := u.c.params.frame
  let u : Run := { u with st := u.st.unbindFrame }
  bindChecks f u
  pure
    { st := { u.st with frame := f, frameBound := true }
      c := { u.c with r0 := f.last.toNat, r1 := min (blockBytes f.depth f.w.toNat f.blkH.toNat) 0xFFFFFFFF } }

/-- BIND_FRAME (43_frame_context.md R351). -/
def execBindFrame (s : State) : Host.Outcome State Fault Refusal :=
  runCommand 0x01#8 bindBody s

/-- UNBIND (43_frame_context.md R355). -/
def execUnbind (s : State) : Host.Outcome State Fault Refusal :=
  runCommand 0x0A#8 (fun u => .ok { u with st := u.st.unbindFrame }) s

/-- NOP (43_frame_context.md R360). -/
def execNop (s : State) : Host.Outcome State Fault Refusal :=
  runCommand 0x00#8 (fun u => .ok u) s

end Sys2Proof.Machine
end

