-- ==== Sys2Proof/Syntax.lean ====
section
/-! DEFINITION. The instructions of spec/opcode_table.json: the eleven command codes of 30_encoding.md R112 and the
four block encoding tags of R120. None has an operand field (R110): a command's operands are the latched parameter
registers. -/

namespace Sys2Proof

/-- One constructor per row of spec/opcode_table.json. -/
inductive Instr where
  /-- NOP, command code 0x00 (43_frame_context.md R360). -/
  | nop
  /-- BIND_FRAME, command code 0x01 (43_frame_context.md R351). -/
  | bindFrame
  /-- DECODE_BLOCK, command code 0x02 (40_block_decoder.md R200). -/
  | decodeBlock
  /-- COMPOSITE, command code 0x03 (42_compositor.md R310). -/
  | composite
  /-- MARK_DECODED, command code 0x04 (40_block_decoder.md R235). -/
  | markDecoded
  /-- HUFF_BUILD, command code 0x05 (41_huffman.md R270). -/
  | huffBuild
  /-- HUFF_DECODE, command code 0x06 (41_huffman.md R272). -/
  | huffDecode
  /-- RLE_EXPAND, command code 0x07 (40_block_decoder.md R230). -/
  | rleExpand
  /-- PAL_RESOLVE, command code 0x08 (42_compositor.md R303). -/
  | palResolve
  /-- PCACHE_FLUSH, command code 0x09 (42_compositor.md R304). -/
  | pcacheFlush
  /-- UNBIND, command code 0x0A (43_frame_context.md R355). -/
  | unbind
  /-- BLK_RLE, block tag 0x00 (40_block_decoder.md R209). -/
  | blkRle
  /-- BLK_HUFFMAN, block tag 0x01 (40_block_decoder.md R210). -/
  | blkHuffman
  /-- BLK_JPEG, block tag 0x02 (40_block_decoder.md R218). -/
  | blkJpeg
  /-- BLK_HUFFMAN_DIRECT, block tag 0x03 (40_block_decoder.md R215). -/
  | blkHuffmanDirect
  deriving DecidableEq, Repr

end Sys2Proof
end

