-- ==== Sys2Proof/Machine/Dispatch.lean ====
section
/-! DEFINITION. One arm per row of spec/opcode_table.json. -/

namespace Sys2Proof.Machine

def exec (i : Instr) (s : State) : Host.Outcome State Fault Refusal :=
  match i with
  | .nop => Sys2Proof.Machine.execNop s
  | .bindFrame => Sys2Proof.Machine.execBindFrame s
  | .decodeBlock => Sys2Proof.Machine.execDecodeBlock s
  | .composite => Sys2Proof.Machine.execComposite s
  | .markDecoded => Sys2Proof.Machine.execMarkDecoded s
  | .huffBuild => Sys2Proof.Machine.execHuffBuild s
  | .huffDecode => Sys2Proof.Machine.execHuffDecode s
  | .rleExpand => Sys2Proof.Machine.execRleExpand s
  | .palResolve => Sys2Proof.Machine.execPalResolve s
  | .pcacheFlush => Sys2Proof.Machine.execPcacheFlush s
  | .unbind => Sys2Proof.Machine.execUnbind s
  | .blkRle => Sys2Proof.Machine.execBlkRle s
  | .blkHuffman => Sys2Proof.Machine.execBlkHuffman s
  | .blkJpeg => Sys2Proof.Machine.execBlkJpeg s
  | .blkHuffmanDirect => Sys2Proof.Machine.execBlkHuffmanDirect s

end Sys2Proof.Machine
end

