-- ==== Sys2Proof/WellFormed.lean ====
section
/-! DEFINITION. Well-formedness. An instruction has no operand field (30_encoding.md R110), so there is nothing to
check in it; a register transaction must be 32 bits wide at a 4-byte-aligned offset (10_state.md R32). That a platform is
well-formed only where REG_BASE is aligned and the block fits is the model's choice (log 6). -/

namespace Sys2Proof

/-- Every term of `Instr` is well-formed: no row of spec/opcode_table.json has an operand field. -/
def Instr.wf : Instr → Bool
  | .nop | .bindFrame | .decodeBlock | .composite | .markDecoded | .huffBuild | .huffDecode | .rleExpand
  | .palResolve | .pcacheFlush | .unbind | .blkRle | .blkHuffman | .blkJpeg | .blkHuffmanDirect => true

/-- A register access as 10_state.md R32 allows it: 32 bits at a 4-byte-aligned offset. -/
def regAccessWf (off : BitVec 11) (width : Machine.AccessWidth) : Bool :=
  width == .word && off.toNat % 4 == 0

/-- A transaction is well-formed when it is no register access, or an allowed one (10_state.md R32). -/
def Machine.Input.wf : Machine.Input → Bool
  | .wr off width _ => regAccessWf off width
  | .rd off width => regAccessWf off width
  | .wait | .memWr _ _ | .memRd _ | .idle | .reset => true

/-- REG_BASE is 4-byte aligned and the 2048 bytes of the register block lie below `2^32`.
DESIGN CHOICE (log 6): 00_scope.md R15, 10_state.md R31, 20_memory.md R89 and 93_implementation_defined.md U10 leave
REG_BASE OPEN with no such condition. No step and no statement uses it, so the machine runs at every REG_BASE. -/
def Platform.wf (p : Platform) : Bool :=
  p.regBase.toNat % 4 == 0 && p.regWindow.fits

end Sys2Proof
end

