-- ==== Sys2Proof/Decode.lean ====
section
/-! DEFINITION. The two decoders of 30_encoding.md: the command word (R110 to R113) and the block tag (R120, R124),
total and rejecting by name, and the encoder. -/

namespace Sys2Proof

/-- What a decoder reads: an instruction, or a reserved encoding by name. -/
inductive Decoded where
  | instr (i : Instr)
  /-- A reserved command code, 0x0B to 0xFF (30_encoding.md R113). -/
  | reservedCommand (code : Byte)
  /-- A reserved block tag, 0x04 to 0xFF (30_encoding.md R124). -/
  | reservedTag (tag : Byte)
  deriving DecidableEq, Repr

/-- The two kinds of encoded word: the 32-bit command word written to CMD (30_encoding.md R110) and byte 0 of a block
payload (R120). -/
inductive Encoded where
  | command (w : Word)
  | tag (b : Byte)
  deriving DecidableEq, Repr

/-- The field OP, bits 7:0 of a command word; bits 31:8 are ignored (30_encoding.md R110, 10_state.md R35). -/
def commandCode (w : Word) : Byte :=
  w.extractLsb' 0 8

/-- 30_encoding.md R112, R113. -/
def decodeCode (code : Byte) : Decoded :=
  match code with
  | 0x00#8 => .instr .nop
  | 0x01#8 => .instr .bindFrame
  | 0x02#8 => .instr .decodeBlock
  | 0x03#8 => .instr .composite
  | 0x04#8 => .instr .markDecoded
  | 0x05#8 => .instr .huffBuild
  | 0x06#8 => .instr .huffDecode
  | 0x07#8 => .instr .rleExpand
  | 0x08#8 => .instr .palResolve
  | 0x09#8 => .instr .pcacheFlush
  | 0x0A#8 => .instr .unbind
  | c => .reservedCommand c

/-- The instruction of a command word (30_encoding.md R110). -/
def decodeCommand (w : Word) : Decoded :=
  decodeCode (commandCode w)

/-- The instruction of a block tag (30_encoding.md R120, R124). -/
def decodeTag (b : Byte) : Decoded :=
  match b with
  | 0x00#8 => .instr .blkRle
  | 0x01#8 => .instr .blkHuffman
  | 0x02#8 => .instr .blkJpeg
  | 0x03#8 => .instr .blkHuffmanDirect
  | t => .reservedTag t

/-- Decode a word of either kind. -/
def decode : Encoded → Decoded
  | .command w => decodeCommand w
  | .tag b => decodeTag b

/-- The word of an instruction; a command's ignored bits are 0, as software writes them (30_encoding.md R110, R112,
R120). -/
def encode : Instr → Encoded
  | .nop => .command 0x00000000#32
  | .bindFrame => .command 0x00000001#32
  | .decodeBlock => .command 0x00000002#32
  | .composite => .command 0x00000003#32
  | .markDecoded => .command 0x00000004#32
  | .huffBuild => .command 0x00000005#32
  | .huffDecode => .command 0x00000006#32
  | .rleExpand => .command 0x00000007#32
  | .palResolve => .command 0x00000008#32
  | .pcacheFlush => .command 0x00000009#32
  | .unbind => .command 0x0000000A#32
  | .blkRle => .tag 0x00#8
  | .blkHuffman => .tag 0x01#8
  | .blkJpeg => .tag 0x02#8
  | .blkHuffmanDirect => .tag 0x03#8

/-- The kind of word that `nbits` bits of the opcode table stand for: a row of at most 8 bits is a block tag where the
byte is one, else a command word whose upper bits are zero (log 27); a longer row is a command word. -/
def tableWord (nbits w : Nat) : Encoded :=
  if nbits ≤ 8 then
    match decodeTag (BitVec.ofNat 8 w) with
    | .instr _ => .tag (BitVec.ofNat 8 w)
    | _ => .command (BitVec.ofNat 32 w)
  else .command (BitVec.ofNat 32 w)

/-- The instruction the decoders read from a row of spec/opcode_table.json. -/
def decodeTableWord (nbits w : Nat) : Option Instr :=
  match decode (tableWord nbits w) with
  | .instr i => some i
  | _ => none

end Sys2Proof
end

