-- ==== Sys2Proof/Machine/Registers.lean ====
section
/-! DEFINITION. The register map of 10_state.md R31: which register stands at an offset, what a read of it returns and
what a write of it does (R32 to R53). A write of CMD is not here: it runs a command (30_encoding.md R111). -/

namespace Sys2Proof.Machine

/-- A place of the register map (10_state.md R31). -/
inductive Reg where
  | id
  | cmd
  | status
  | result0
  | result1
  | result2
  | dbufBlock
  | param (r : ParamReg)
  | pcache (i : Fin 256)
  | reserved
  deriving DecidableEq, Repr

/-- The register at a 4-byte-aligned offset from `REG_BASE` (10_state.md R31). -/
def Reg.ofOffset (off : BitVec 11) : Reg :=
  match off.toNat with
  | 0x000 => .id
  | 0x004 => .param .ctrl
  | 0x008 => .cmd
  | 0x00C => .status
  | 0x010 => .result0
  | 0x014 => .result1
  | 0x018 => .result2
  | 0x01C => .dbufBlock
  | 0x020 => .param .frameFmt
  | 0x024 => .param .frameSize
  | 0x028 => .param .blkGeom
  | 0x02C => .param .palAddr
  | 0x030 => .param .blkAddr
  | 0x034 => .param .blkLen
  | 0x038 => .param .blkIndex
  | 0x03C => .param .dbufAddr
  | 0x040 => .param .dbufCap
  | 0x044 => .param .scrAddr
  | 0x048 => .param .scrCap
  | 0x04C => .param .tblAddr
  | 0x050 => .param .tblLen
  | 0x054 => .param .inAddr
  | 0x058 => .param .inLen
  | 0x05C => .param .outAddr
  | 0x060 => .param .outCap
  | 0x064 => .param .destAddr
  | 0x068 => .param .destStride
  | 0x06C => .param .destRows
  | 0x070 => .param .destOrigin
  | 0x074 => .param .objPos
  | 0x078 => .param .clipMin
  | 0x07C => .param .clipMax
  | 0x080 => .param .mirrorOfs
  | 0x084 => .param .palIdx
  | n => if 0x400 ≤ n then .pcache (Fin.ofNat 256 ((n - 0x400) / 4)) else .reserved

/-- The offset of a parameter register (10_state.md R31). -/
def ParamReg.offset : ParamReg → BitVec 11
  | .ctrl => 0x004#11
  | .frameFmt => 0x020#11
  | .frameSize => 0x024#11
  | .blkGeom => 0x028#11
  | .palAddr => 0x02C#11
  | .blkAddr => 0x030#11
  | .blkLen => 0x034#11
  | .blkIndex => 0x038#11
  | .dbufAddr => 0x03C#11
  | .dbufCap => 0x040#11
  | .scrAddr => 0x044#11
  | .scrCap => 0x048#11
  | .tblAddr => 0x04C#11
  | .tblLen => 0x050#11
  | .inAddr => 0x054#11
  | .inLen => 0x058#11
  | .outAddr => 0x05C#11
  | .outCap => 0x060#11
  | .destAddr => 0x064#11
  | .destStride => 0x068#11
  | .destRows => 0x06C#11
  | .destOrigin => 0x070#11
  | .objPos => 0x074#11
  | .clipMin => 0x078#11
  | .clipMax => 0x07C#11
  | .mirrorOfs => 0x080#11
  | .palIdx => 0x084#11

/-- The bits of a parameter register that are fields; the others are reserved, read 0 and ignore writes (10_state.md
R32, R34, R38 to R52). -/
def ParamReg.mask : ParamReg → Word
  | .ctrl => 0x00000007#32
  | .frameFmt => 0x000000FF#32
  | .blkIndex => 0x0000FFFF#32
  | .destStride => 0x0000FFFF#32
  | .destRows => 0x0000FFFF#32
  | .mirrorOfs => 0x0000FFFF#32
  | .palIdx => 0x000000FF#32
  | .frameSize | .blkGeom | .palAddr | .blkAddr | .blkLen | .dbufAddr | .dbufCap | .scrAddr | .scrCap | .tblAddr
  | .tblLen | .inAddr | .inLen | .outAddr | .outCap | .destAddr | .destOrigin | .objPos | .clipMin | .clipMax => 0xFFFFFFFF#32

/-- The contents of one parameter register. -/
def Params.get (p : Params) : ParamReg → Word
  | .ctrl => p.ctrl
  | .frameFmt => p.frameFmt
  | .frameSize => p.frameSize
  | .blkGeom => p.blkGeom
  | .palAddr => p.palAddr
  | .blkAddr => p.blkAddr
  | .blkLen => p.blkLen
  | .blkIndex => p.blkIndex
  | .dbufAddr => p.dbufAddr
  | .dbufCap => p.dbufCap
  | .scrAddr => p.scrAddr
  | .scrCap => p.scrCap
  | .tblAddr => p.tblAddr
  | .tblLen => p.tblLen
  | .inAddr => p.inAddr
  | .inLen => p.inLen
  | .outAddr => p.outAddr
  | .outCap => p.outCap
  | .destAddr => p.destAddr
  | .destStride => p.destStride
  | .destRows => p.destRows
  | .destOrigin => p.destOrigin
  | .objPos => p.objPos
  | .clipMin => p.clipMin
  | .clipMax => p.clipMax
  | .mirrorOfs => p.mirrorOfs
  | .palIdx => p.palIdx

/-- Replace the contents of one parameter register. -/
def Params.set (p : Params) (r : ParamReg) (v : Word) : Params :=
  match r with
  | .ctrl => { p with ctrl := v }
  | .frameFmt => { p with frameFmt := v }
  | .frameSize => { p with frameSize := v }
  | .blkGeom => { p with blkGeom := v }
  | .palAddr => { p with palAddr := v }
  | .blkAddr => { p with blkAddr := v }
  | .blkLen => { p with blkLen := v }
  | .blkIndex => { p with blkIndex := v }
  | .dbufAddr => { p with dbufAddr := v }
  | .dbufCap => { p with dbufCap := v }
  | .scrAddr => { p with scrAddr := v }
  | .scrCap => { p with scrCap := v }
  | .tblAddr => { p with tblAddr := v }
  | .tblLen => { p with tblLen := v }
  | .inAddr => { p with inAddr := v }
  | .inLen => { p with inLen := v }
  | .outAddr => { p with outAddr := v }
  | .outCap => { p with outCap := v }
  | .destAddr => { p with destAddr := v }
  | .destStride => { p with destStride := v }
  | .destRows => { p with destRows := v }
  | .destOrigin => { p with destOrigin := v }
  | .objPos => { p with objPos := v }
  | .clipMin => { p with clipMin := v }
  | .clipMax => { p with clipMax := v }
  | .mirrorOfs => { p with mirrorOfs := v }
  | .palIdx => { p with palIdx := v }

/-- The read value of a palette cache slot: 0xFFFFFFFF while unresolved, else the colour zero-extended (10_state.md
R53). -/
def slotWord : Option Half → Word
  | none => 0xFFFFFFFF#32
  | some c => c.zeroExtend 32

/-- What a 32-bit read of a register returns (10_state.md R31 to R53). -/
def State.readReg (s : State) : Reg → Word
  | .id => 0x41414601#32
  | .cmd => 0#32
  | .status => s.statusWord
  | .result0 => s.result0
  | .result1 => s.result1
  | .result2 => s.result2
  | .dbufBlock => s.dbufBlock
  | .param r => s.params.get r &&& r.mask
  | .pcache i => slotWord s.pcache[i]
  | .reserved => 0#32

/-- What a 32-bit write of a register other than CMD does: a parameter register takes its fields, STATUS clears its
write-one-to-clear bits, and a read-only register or a reserved offset ignores it (10_state.md R32, R36, R70). -/
def State.writeReg (s : State) (r : Reg) (data : Word) : State :=
  match r with
  | .param q => { s with params := s.params.set q (data &&& q.mask) }
  | .status => s.clearStatus data
  | .id | .cmd | .result0 | .result1 | .result2 | .dbufBlock | .pcache _ | .reserved => s

end Sys2Proof.Machine
end

