-- ==== Sys2Proof/Machine/Fetch.lean ====
section
/-! DEFINITION. Where a step's instruction comes from: a host write of CMD (30_encoding.md R111), or the tag byte of the
payload a DECODE_BLOCK is dispatching on (40_block_decoder.md R200); and what a transaction that brings no instruction
does. Also the states that hold a given instruction where the next step fetches it. -/

namespace Sys2Proof.Machine

/-- What a step has to do. -/
inductive Fetched where
  /-- Run this instruction at this state. -/
  | run (i : Instr) (s : State)
  /-- No instruction of the table: the step's outcome, before the engine's turn. -/
  | plain (o : Host.Outcome State Fault Refusal)

/-- A write of CMD (30_encoding.md R111 to R113). -/
def fetchCommand (w : Word) (s : State) : Fetched :=
  match decodeCommand w with
  | .instr i => .run i s
  | _ => .plain (reservedCommand (commandCode w) s)

/-- A register write of the host (10_state.md R32): an access of another width or alignment is refused; a write of CMD
brings a command; any other goes to its register. -/
def hostWrite (off : BitVec 11) (width : AccessWidth) (data : Word) (s : State) : Fetched :=
  if regAccessWf off width then
    match Reg.ofOffset off with
    | .cmd => fetchCommand data s
    | r => .plain (.next (s.writeReg r data))
  else .plain (.refused .registerAccess)

/-- A register read of the host (10_state.md R32). -/
def hostRead (off : BitVec 11) (width : AccessWidth) (s : State) : Host.Outcome State Fault Refusal :=
  if regAccessWf off width then .next { s with readData := some (s.readReg (Reg.ofOffset off)) }
  else .refused .registerAccess

/-- The running command writes a region that holds this address (20_memory.md R81, R92). -/
def State.regionWritten (s : State) (a : Nat) : Bool :=
  match s.inflight with
  | some c => c.writes.any (·.has a)
  | none => false

/-- The running command reads a region that holds this address (20_memory.md R81, R92). -/
def State.regionRead (s : State) (a : Nat) : Bool :=
  match s.inflight with
  | some c => c.reads.any (·.has a)
  | none => false

/-- The host stores a byte of system memory (20_memory.md R91, R92). A byte access to the register block is no 32-bit
access (10_state.md R32). -/
def hostStore (addr : Word) (data : Byte) (s : State) : Host.Outcome State Fault Refusal :=
  if s.platform.regWindow.has addr.toNat then .refused .registerAccess
  else if s.platform.isDevice addr.toNat then .refused .deviceMemory
  else if !s.platform.answersWrite addr.toNat then .refused .hostBusError
  else if s.regionWritten addr.toNat || s.regionRead addr.toNat then .refused .hostTouchesRegion
  else .next { s with mem := s.mem.write addr.toNat data }

/-- The host loads a byte of system memory (20_memory.md R91, R92). -/
def hostLoad (addr : Word) (s : State) : Host.Outcome State Fault Refusal :=
  if s.platform.regWindow.has addr.toNat then .refused .registerAccess
  else if s.platform.isDevice addr.toNat then .refused .deviceMemory
  else if !s.platform.answersRead addr.toNat then .refused .hostBusError
  else if s.regionWritten addr.toNat then .refused .hostTouchesRegion
  else .next { s with readData := some ((s.mem.read addr.toNat).zeroExtend 32) }

/-- `WAIT` (30_encoding.md R141): read STATUS; while BUSY is 1 the poll stands to be made again. -/
def hostWait (s : State) : Host.Outcome State Fault Refusal :=
  if s.busy then .next { s with readData := some s.statusWord, inputs := .wait :: s.inputs }
  else .next { s with readData := some s.statusWord }

/-- One transaction of the outside world, already taken from the list. -/
def hostInput (i : Input) (s : State) : Fetched :=
  match i with
  | .wr off width data => hostWrite off width data s
  | .rd off width => .plain (hostRead off width s)
  | .wait => .plain (hostWait s)
  | .memWr addr data => .plain (hostStore addr data s)
  | .memRd addr => .plain (hostLoad addr s)
  | .idle => .plain (.next s)
  | .reset => .plain (.next (resetBlock s))

/-- The outside world's turn; with nothing left to do the machine idles (60_exceptions.md R435). -/
def hostTurn (s : State) : Fetched :=
  match s.inputs with
  | [] => .plain (.next s)
  | i :: rest => hostInput i { s with inputs := rest }

/-- The tag dispatch of DECODE_BLOCK: name byte 0 of the payload, read it and decode it (20_memory.md R81, R92,
40_block_decoder.md R200, R201, R220). -/
def fetchTag (u : Run) (s : State) : Fetched :=
  match u.nameTag.read u.c.params.blkAddr.toNat with
  | .error e => .plain (conclude (.error e))
  | .ok b =>
    match decodeTag b with
    | .instr i => .run i s
    | _ => .plain (reservedTag b u)

/-- What the next step has to do: the engine goes on with a tag dispatch before the outside world has its turn (log
2). -/
def fetch (s : State) : Fetched :=
  match blockAtTag s with
  | some u => fetchTag u s
  | none => hostTurn s

/-- The engine's turn after the outside world's, when a completion was held at the start of the step (log 19). -/
def engineTurn (before : State) (o : Host.Outcome State Fault Refusal) : Host.Outcome State Fault Refusal :=
  match o with
  | .next t => if (blockAtTag before).isNone && before.busy then .next (tick t) else .next t
  | .fault f => .fault f
  | .refused r => .refused r

/-! ### Placing an instruction -/

/-- The host is about to write this word to CMD, and no command is in flight. -/
def State.placeCommand (s : State) (w : Word) : State :=
  { s with inputs := .wr 0x008#11 .word w :: s.inputs, inflight := none }

/-- A DECODE_BLOCK of the only block of a 1x1 frame stands at its tag dispatch, and this tag is the payload's only
byte; DBUF is elsewhere and large enough (log 28). -/
def State.placeTag (s : State) (tag : Byte) : State :=
  { s with
    done := false
    frameBound := true
    frame := { depth := if tag = 0x02#8 then 24#8 else 8#8, w := 1#16, h := 1#16, count := 1#16, blkH := 1#16, palAddr := 0#32 }
    dbufValid := false
    dbufBlock := noBlock
    treeValid := false
    mem := s.mem.write 0 tag
    inflight := some
      { op := 0x02#8
        params := { s.params with blkAddr := 0#32, blkLen := 1#32, blkIndex := 0#32, dbufAddr := 0x1000#32, dbufCap := 2#32 } } }

end Sys2Proof.Machine
end

