-- ==== Sys2Proof/Machine/Step.lean ====
section
/-! DEFINITION. One step of the machine: the instruction that is fetched, or the transaction that brings none, and then
the engine's turn where a completion is held. -/

namespace Sys2Proof.Machine

def step (s : State) : Host.Outcome State Fault Refusal :=
  match fetch s with
  | .run i t => engineTurn s (exec i t)
  | .plain o => engineTurn s o

/-- The machine with the instruction of a row of spec/opcode_table.json placed where the next step fetches it: a
command word in the host's next write of CMD, a block tag at the tag dispatch of a DECODE_BLOCK (log 18, log 28). -/
def State.withFetchWord (s : State) (nbits w : Nat) : State :=
  match tableWord nbits w with
  | .command c => s.placeCommand c
  | .tag b => s.placeTag b

end Sys2Proof.Machine
end

