-- ==== Sys2Proof/Safety.lean ====
section
/-! DEFINITION. The terms statements use: which states are well-formed and stay so, what a held completion will show,
and what a command's memory has to answer. -/

namespace Sys2Proof.Machine

/-! ### Completion, seen past its latency -/

/-- The machine once the completion it holds has come (70_reset_and_hazards.md R482); itself where it holds none. -/
def State.settled (s : State) : State :=
  match s.inflight with
  | some c =>
    match c.pos with
    | .held code _ => complete c code s
    | .atTag => s
  | none => s

/-- The machine with a command's completion written: ERR, RESULT0 to RESULT2, DONE, BUSY (30_encoding.md R111). -/
def State.finishing (s : State) (code : Code) (r0 r1 r2 : Nat) : State :=
  { s with
    err := code
    result0 := resultWord r0
    result1 := resultWord r1
    result2 := resultWord r2
    done := true
    inflight := none }

/-- The machine one step nearer to the completion of `c`, with `left` steps still to go: that completion where none is left
(70_reset_and_hazards.md R482). -/
def State.oneStepOn (s : State) (c : InFlight) (code : Code) (left : Nat) : State :=
  if left = 0 then s.settled else { s with inflight := some { c with pos := .held code left } }

/-! ### What memory answers -/

/-- Every byte of the region is ordinary memory that answers reads (20_memory.md R86, R88). -/
def State.readsPlain (s : State) (r : Region) : Prop :=
  ∀ a, r.has a = true → a < spaceSize ∧ s.platform.answersRead a = true ∧ s.platform.isDevice a = false

/-- Every byte of the region is ordinary memory that answers writes (20_memory.md R86, R88). -/
def State.writesPlain (s : State) (r : Region) : Prop :=
  ∀ a, r.has a = true → a < spaceSize ∧ s.platform.answersWrite a = true ∧ s.platform.isDevice a = false

/-- The `n` bytes from `a`. -/
def Memory.bytes (m : Memory) (a n : Nat) : List Byte :=
  (List.range n).map fun i => Memory.read m (a + i)

/-- The `n` bits of the stream whose byte 0 is at `a` (30_encoding.md R127). -/
def Memory.bits (m : Memory) (a n : Nat) : List Bool :=
  (List.range n).map fun j => streamBit (Memory.read m (a + j / 8)) j

/-- `m'` reads as `m` outside the `n` bytes from `a`. -/
def Memory.sameOutside (m m' : Memory) (a n : Nat) : Prop :=
  ∀ x, x < a ∨ a + n ≤ x → Memory.read m' x = Memory.read m x

/-- The bytes of run-length pairs (30_encoding.md R128). -/
def pairBytes (pairs : List (Byte × Byte)) : List Byte :=
  pairs.flatMap fun p => [p.1, p.2]

/-- What run-length pairs expand to (30_encoding.md R128). -/
def expanded (pairs : List (Byte × Byte)) : List Byte :=
  pairs.flatMap fun p => List.replicate p.1.toNat p.2

/-! ### Code tables -/

/-- A code book: each entry a value and the bit string of its code. -/
abbrev CodeBook := List (Byte × List Bool)

/-- The triples of a code table, from table offset `p`, are these entries, and the table ends at offset `stop`
(30_encoding.md R125, R126). -/
def tableHolds (m : Memory) (t stop : Nat) : CodeBook → Nat → Prop
  | [], p => p = stop
  | (v, bits) :: rest, p =>
    0 < bits.length ∧ bits.length < 256
      ∧ Memory.read m (t + p) = v
      ∧ Memory.read m (t + p + 1) = BitVec.ofNat 8 bits.length
      ∧ codeBits (codeNumber (Memory.bytes m (t + p + 2) (codeBytes bits.length))) bits.length = bits
      ∧ tableHolds m t stop rest (p + 2 + codeBytes bits.length)

/-- Two codes clash: they are equal, or one is a prefix of the other (41_huffman.md R252). -/
def codesClash (a b : List Bool) : Prop := a <+: b ∨ b <+: a

/-- No two codes of the book clash. -/
def CodeBook.prefixFree (book : CodeBook) : Prop :=
  book.Pairwise fun a b => ¬ codesClash a.2 b.2

/-- The distinct prefixes of a book's codes, the empty string included: the nodes of its tree (41_huffman.md R256). -/
def CodeBook.nodes (book : CodeBook) : Nat :=
  ([] :: book.flatMap fun e => e.2.inits).dedup.length

/-- The tree has exactly this book's codes as its leaves. -/
def Tree.codesAre (t : Tree) (book : CodeBook) : Prop :=
  ∀ path v, t.follow path = .leaf v ↔ (v, path) ∈ book

/-- A message: each symbol a code and the value of its leaf. -/
abbrev Message := List (List Bool × Byte)

/-- Every symbol of the message is a leaf of the tree, below its root. -/
def Tree.spells (t : Tree) (msg : Message) : Prop :=
  ∀ e ∈ msg, e.1 ≠ [] ∧ t.follow e.1 = .leaf e.2

/-- The bits of a message. -/
def Message.bits (msg : Message) : List Bool := msg.flatMap fun e => e.1

/-- The values of a message. -/
def Message.values (msg : Message) : List Byte := msg.map fun e => e.2

/-! ### Pixels -/

/-- The palette index of block pixel (sx, sy) of the block in DBUF, at depth 4 or 8 (30_encoding.md R135, R136). -/
def pixelIndex (s : State) (sx sy : Nat) : Byte :=
  if s.frame.depth = 8#8 then s.mem.read (s.params.dbufAddr.toNat + sy * s.frame.w.toNat + sx)
  else nibble (s.mem.read (s.params.dbufAddr.toNat + sy * halfWidth s.frame.w.toNat + sx / 2)) sx

/-- The colour COMPOSITE uses for an index: the slot's colour where it is resolved, else the palette's (42_compositor.md
R305, R306). -/
def slotColor (s : State) (i : Byte) : Half :=
  match s.pcache[i.toNat]'i.isLt with
  | some color => color
  | none =>
    paletteColor (s.mem.read (s.frame.palAddr.toNat + 4 * i.toNat)) (s.mem.read (s.frame.palAddr.toNat + 4 * i.toNat + 1))
      (s.mem.read (s.frame.palAddr.toNat + 4 * i.toNat + 2)) s.params.swap

/-- The 16-bit value of block pixel (sx, sy) (42_compositor.md R307, R309). -/
def pixelColor (s : State) (sx sy : Nat) : Half :=
  if indexedDepth s.frame.depth then slotColor s (pixelIndex s sx sy)
  else
    s.mem.read (s.params.dbufAddr.toNat + 2 * (sy * s.frame.w.toNat + sx) + 1)
      ++ s.mem.read (s.params.dbufAddr.toNat + 2 * (sy * s.frame.w.toNat + sx))

/-- The drawing of the block BLK_INDEX names. -/
def State.drawing (s : State) : Drawing := Machine.drawing s.frame s.params

/-- A point of the drawn rectangle (42_compositor.md R310). -/
def Drawing.has (d : Drawing) (x y : Int) : Prop :=
  d.x1 ≤ x ∧ x ≤ d.x2 ∧ d.y1 ≤ y ∧ y ≤ d.y2

/-- The palette index of some drawn block pixel, at depth 4 or 8 (42_compositor.md R305, R316). -/
def State.drawsIndex (s : State) (i : Nat) : Prop :=
  indexedDepth s.frame.depth = true
    ∧ ∃ x y, s.drawing.has x y ∧ (pixelIndex s (x - s.drawing.ox).toNat (y - s.drawing.by1).toNat).toNat = i

/-- The address of the primary pixel of screen point (x, y) (42_compositor.md R310). -/
def primaryAddr (s : State) (x y : Int) : Nat :=
  pixelAddr s.params (x - s.drawing.dx0).toNat (y - s.drawing.dy0).toNat

/-- The destination column of the mirror copy of screen column `x` (42_compositor.md R310, R312). -/
def mirrorColumn (s : State) (x : Int) : Int :=
  mirrorCol s.frame s.params s.drawing (x - s.drawing.ox)

/-- The mirror copy of screen column `x` lies in the stride (42_compositor.md R313). -/
def mirrorFits (s : State) (x : Int) : Prop :=
  0 ≤ mirrorColumn s x ∧ mirrorColumn s x < s.params.stride

/-- The screen column of the mirror copy of screen column `x` (42_compositor.md R312). -/
def mirrorPoint (s : State) (x : Int) : Int :=
  mirrorColumn s x + s.drawing.dx0

/-- The screen column whose colour the pixels of drawn column `x` end with under MIRROR_EN, its primary one and its
mirror one: the later of `x` and its mirror column, where that is drawn too (42_compositor.md R316). -/
def shownColumn (s : State) (x : Int) : Int :=
  if s.drawing.x1 ≤ mirrorPoint s x ∧ mirrorPoint s x ≤ s.drawing.x2 then max x (mirrorPoint s x) else x

/-- The address of the mirror pixel of screen point (x, y) (42_compositor.md R312). -/
def mirrorAddr (s : State) (x y : Int) : Nat :=
  pixelAddr s.params (mirrorColumn s x).toNat (y - s.drawing.dy0).toNat

/-- The two bytes at an address are a colour, low byte first (20_memory.md R83). -/
def Memory.pixelIs (m : Memory) (a : Nat) (color : Half) : Prop :=
  Memory.read m a = color.extractLsb' 0 8 ∧ Memory.read m (a + 1) = color.extractLsb' 8 8

/-- What COMPOSITE needs to draw: a bound frame of a legal depth, the block in DBUF, regions that fit and do not
overlap, ordinary memory that answers (42_compositor.md R310, 20_memory.md R81, R86, R88, R93). -/
structure State.canDraw (s : State) : Prop where
  idle : s.inflight = none
  bound : s.frameBound = true
  depth : legalDepth s.frame.depth = true
  index : s.params.index.toNat < s.frame.count.toNat
  decoded : s.dbufValid = true ∧ s.dbufBlock = s.params.index.zeroExtend 32
  dbufFits : Region.fits ⟨s.params.dbufAddr.toNat, s.frame.blockSize s.params.index.toNat⟩ = true
  destFits : s.params.destRegion.fits = true
  apart : regionsClash (compositeReads s.frame s.params) [s.params.destRegion] = false
  reads : ∀ r ∈ compositeReads s.frame s.params, s.readsPlain r
  writes : s.writesPlain s.params.destRegion

/-! ### Well-formed states -/

/-- No reserved bit of a parameter register is set (10_state.md R32). -/
def Params.reservedClear (p : Params) : Prop :=
  ∀ r : ParamReg, p.get r &&& ~~~ r.mask = 0#32

/-- What BIND_FRAME checks of a frame (43_frame_context.md R351, R352). -/
structure Frame.legal (f : Frame) : Prop where
  depth : legalDepth f.depth = true
  nonzero : f.nonzero = true
  last : 1 ≤ f.last ∧ f.last ≤ f.blkH.toNat
  palette : f.depth = 24#8 ∨ f.palRegion.fits = true

/-- A node below the root of a built tree: a leaf, or on the way to one (41_huffman.md R252). -/
def Tree.live : Tree → Bool
  | .absent => false
  | .leaf _ => true
  | .node c0 c1 => (c0.live || c0 == .absent) && (c1.live || c1 == .absent) && (c0.live || c1.live)

/-- A built tree: its root is internal and every other node is on the path of some code (41_huffman.md R252). -/
def Tree.built : Tree → Bool
  | .node c0 c1 => (c0.live || c0 == .absent) && (c1.live || c1 == .absent)
  | .leaf _ | .absent => false

/-- The held tree is one BuildTree makes in this node store (41_huffman.md R252, R256). -/
def State.treeLegal (s : State) : Prop :=
  s.tree.built = true ∧ s.tree.size ≤ s.platform.nodeCap

/-- The in-flight command is one the machine can have come to. -/
structure State.inflightLegal (s : State) (c : InFlight) : Prop where
  params : c.params.reservedClear
  undo : ∀ w ∈ c.undo, w.1 < spaceSize
  notDone : s.done = false
  decode : c.op = 0x02#8 → s.treeValid = false
  atTag : c.pos = .atTag →
    c = { op := 0x02#8, params := c.params } ∧ s.frameBound = true
      ∧ c.params.index.toNat < s.frame.count.toNat ∧ c.params.blkLen ≠ 0#32
      ∧ c.params.blkRegion.fits = true ∧ c.params.dbufRegion.fits = true
  held : ∀ code left, c.pos = .held code left → 0 < left
    ∧ (c.op = 0x02#8 → code = .ok → s.frameBound = true ∧ c.params.index.toNat < s.frame.count.toNat)
    ∧ (c.op = 0x05#8 → code = .ok → s.treeLegal)

/-- The invariant of the machine: memory in canonical form, reserved bits clear, a bound frame legal, DBUF_BLOCK and
DBUF_VALID in step (10_state.md R64, 43_frame_context.md R350), a held tree a prefix code (41_huffman.md R252), and a
legal in-flight command. -/
structure State.Inv (s : State) : Prop where
  mem : s.mem.wf = true
  params : s.params.reservedClear
  frame : s.frameBound = true → s.frame.legal
  noBlock : s.dbufValid = false → s.dbufBlock = noBlock
  block : s.dbufValid = true → s.frameBound = true ∧ s.dbufBlock.toNat < s.frame.count.toNat
  tree : s.treeValid = true → s.treeLegal
  inflight : ∀ c, s.inflight = some c → s.inflightLegal c

/-! ### Writes in order, and the regions a command writes -/

/-- Byte writes made one after another by the running command. -/
def Run.writeAll (u : Run) : List Host.Cell → Except Stop Run
  | [] => .ok u
  | (a, v) :: ws =>
    match u.write a v with
    | .ok u => Run.writeAll u ws
    | .error e => .error e

/-- The regions an instruction may write, as 20_memory.md R81 lists them: a command's at its acceptance, a tag's for the
block being decoded. -/
def writeRegions (i : Instr) (s : State) : List Region :=
  match i with
  | .rleExpand | .huffDecode => [s.params.outRegion]
  | .composite => [s.params.destRegion]
  | .blkRle | .blkHuffmanDirect =>
    match blockAtTag s with
    | some u => [⟨u.c.params.dbufAddr.toNat, u.blockSize⟩]
    | none => []
  | .blkHuffman =>
    match blockAtTag s with
    | some u => [u.c.params.scrRegion, ⟨u.c.params.dbufAddr.toNat, u.blockSize⟩]
    | none => []
  | .nop | .bindFrame | .decodeBlock | .markDecoded | .huffBuild | .palResolve | .pcacheFlush | .unbind | .blkJpeg => []

end Sys2Proof.Machine
end

