-- ==== Sys2Proof/Certificates/Slice0/Obligations.lean ====
section
/-! DEFINITION. The statements for the provers, made from the numbered rules of spec/ (OBLIGATIONS.json says which). In
all of them a command's completion is read through `State.settled`, so that they hold for every CMD_LATENCY
(70_reset_and_hazards.md R480, R482); the last-but-one group says when the completion comes. -/

section

open Sys2Proof Sys2Proof.Machine

/-! ### Reset, registers, the status word and the interrupt -/

/-- 10_state.md R75, 70_reset_and_hazards.md R450: the state after the reset input, whatever the state before it; an idle
machine's memory is not touched. The unspecified frame, tree and TREE_PAD are left out, as the rules leave them. The step
whose input is the reset answers that state; that a machine at a tag dispatch takes the reset one step later is the model's
choice (log 2). -/
def Obligations.ResetInputLeavesTheListedState : Prop :=
  ∀ s : State,
    (∀ r : Reg, (resetBlock s).readReg r =
      match r with
      | .id => 0x41414601#32
      | .dbufBlock | .pcache _ => 0xFFFFFFFF#32
      | .cmd | .status | .result0 | .result1 | .result2 | .param _ | .reserved => 0#32)
    ∧ (∀ r : ParamReg, (resetBlock s).params.get r = 0#32)
    ∧ (∀ i : Fin 256, (resetBlock s).pcache[i] = none)
    ∧ (resetBlock s).busy = false ∧ (resetBlock s).done = false ∧ (resetBlock s).dropped = false
    ∧ (resetBlock s).err = .ok ∧ (resetBlock s).frameBound = false ∧ (resetBlock s).dbufValid = false
    ∧ (resetBlock s).treeValid = false ∧ (resetBlock s).dbufBlock = 0xFFFFFFFF#32
    ∧ (resetBlock s).inflight = none ∧ (resetBlock s).irq = false
    ∧ (s.inflight = none → (resetBlock s).mem = s.mem)
    ∧ ∀ rest : List Input, blockAtTag s = none → s.inputs = .reset :: rest →
      step s = .next (resetBlock { s with inputs := rest })

/-- 70_reset_and_hazards.md R451, 93_implementation_defined.md U6: a reset that comes while a command's byte writes stand
abandons it, and what memory then holds is some prefix, in order, of those writes (which prefix is a free value, log 14:
the statement holds for every one). -/
def Obligations.AbandonedCommandLeavesAPrefixOfItsWrites : Prop :=
  ∀ (s : State) (u u' : Run) (ws : List Host.Cell),
    u.st.mem.wf = true → u.c.undo = [] → u.writeAll ws = .ok u' →
    s.mem = u'.st.mem → s.inflight = some u'.c →
    (resetBlock s).inflight = none
    ∧ ∃ n ≤ ws.length, ∃ v, u.writeAll (ws.take n) = .ok v ∧ (resetBlock s).mem = v.st.mem

/-- 10_state.md R31, R32, R37, R53, R64: every offset of the register map names its register; a 32-bit read returns that
register's value and changes nothing, on an idle machine and while a completion is held; RESULT0 to RESULT2, DBUF_BLOCK and the
palette cache read as they are held, an unresolved slot as 0xFFFFFFFF. That the read comes before the engine's turn of that
step is the model's choice (log 19). -/
def Obligations.RegistersStandAndReadAtTheirOffsets : Prop :=
  (Reg.ofOffset 0x000#11 = .id ∧ Reg.ofOffset 0x008#11 = .cmd ∧ Reg.ofOffset 0x00C#11 = .status
    ∧ Reg.ofOffset 0x010#11 = .result0 ∧ Reg.ofOffset 0x014#11 = .result1 ∧ Reg.ofOffset 0x018#11 = .result2
    ∧ Reg.ofOffset 0x01C#11 = .dbufBlock)
  ∧ (∀ r : ParamReg, Reg.ofOffset r.offset = .param r ∧ r.offset =
      match r with
      | .ctrl => 0x004#11
      | .frameFmt => 0x020#11 | .frameSize => 0x024#11 | .blkGeom => 0x028#11 | .palAddr => 0x02C#11
      | .blkAddr => 0x030#11 | .blkLen => 0x034#11 | .blkIndex => 0x038#11
      | .dbufAddr => 0x03C#11 | .dbufCap => 0x040#11 | .scrAddr => 0x044#11 | .scrCap => 0x048#11
      | .tblAddr => 0x04C#11 | .tblLen => 0x050#11
      | .inAddr => 0x054#11 | .inLen => 0x058#11 | .outAddr => 0x05C#11 | .outCap => 0x060#11
      | .destAddr => 0x064#11 | .destStride => 0x068#11 | .destRows => 0x06C#11 | .destOrigin => 0x070#11
      | .objPos => 0x074#11 | .clipMin => 0x078#11 | .clipMax => 0x07C#11 | .mirrorOfs => 0x080#11 | .palIdx => 0x084#11)
  ∧ (∀ i : Fin 256, Reg.ofOffset (BitVec.ofNat 11 (0x400 + 4 * i.val)) = .pcache i)
  ∧ (∀ n : Nat, 0x088 ≤ n → n ≤ 0x3FC → n % 4 = 0 → Reg.ofOffset (BitVec.ofNat 11 n) = .reserved)
  ∧ (∀ (s : State) (off : BitVec 11) (rest : List Input),
      s.inflight = none → off.toNat % 4 = 0 → s.inputs = .rd off .word :: rest →
      step s = .next { s with inputs := rest, readData := some (s.readReg (Reg.ofOffset off)) })
  ∧ (∀ (s : State) (c : InFlight) (code : Code) (n : Nat) (off : BitVec 11) (rest : List Input),
      s.inflight = some c → c.pos = .held code (n + 1) → off.toNat % 4 = 0 → s.inputs = .rd off .word :: rest →
      step s = .next (({ s with inputs := rest, readData := some (s.readReg (Reg.ofOffset off)) }).oneStepOn c code n))
  ∧ ∀ s : State, s.readReg .result0 = s.result0 ∧ s.readReg .result1 = s.result1 ∧ s.readReg .result2 = s.result2
    ∧ s.readReg .dbufBlock = s.dbufBlock
    ∧ ∀ i : Fin 256, (s.pcache[i] = none → s.readReg (.pcache i) = 0xFFFFFFFF#32)
      ∧ ∀ color : Half, s.pcache[i] = some color → s.readReg (.pcache i) = color.zeroExtend 32

/-- 10_state.md R32, R34, R38 to R52, R70: a 32-bit write of a parameter register puts its fields there, reserved bits
read 0, and nothing else of an idle machine changes. The fields are CTRL[2:0], FRAME_FMT[7:0], the low halves of BLK_INDEX,
DEST_STRIDE, DEST_ROWS and MIRROR_OFS, PAL_IDX[7:0], and all 32 bits of every other register. -/
def Obligations.ParameterWriteIsReadBackWithoutReservedBits : Prop :=
  (∀ (s : State) (r : ParamReg) (data : Word) (rest : List Input),
    s.inflight = none → s.inputs = .wr r.offset .word data :: rest →
    ∃ t, step s = .next t ∧ t = { s with inputs := rest, params := t.params }
      ∧ t.readReg (.param r) = data &&& r.mask ∧ t.params.get r = data &&& r.mask
      ∧ ∀ q : ParamReg, q ≠ r → t.params.get q = s.params.get q)
  ∧ ∀ r : ParamReg, r.mask =
      match r with
      | .ctrl => 0x00000007#32
      | .frameFmt | .palIdx => 0x000000FF#32
      | .blkIndex | .destStride | .destRows | .mirrorOfs => 0x0000FFFF#32
      | .frameSize | .blkGeom | .palAddr | .blkAddr | .blkLen | .dbufAddr | .dbufCap | .scrAddr | .scrCap | .tblAddr
      | .tblLen | .inAddr | .inLen | .outAddr | .outCap | .destAddr | .destOrigin | .objPos | .clipMin | .clipMax =>
        0xFFFFFFFF#32

/-- 10_state.md R32: a 32-bit write to a reserved offset or a read-only register is ignored, on an idle machine and while a
completion is held; reserved offsets and CMD read 0, ID reads its constant, and an access of another width or alignment is
refused. -/
def Obligations.ReservedAndReadOnlyOffsetsAndOddAccesses : Prop :=
  (∀ (s : State) (off : BitVec 11) (data : Word) (rest : List Input),
    off.toNat % 4 = 0 → s.inputs = .wr off .word data :: rest →
    (Reg.ofOffset off = .reserved ∨ Reg.ofOffset off = .id ∨ Reg.ofOffset off = .result0 ∨ Reg.ofOffset off = .result1
      ∨ Reg.ofOffset off = .result2 ∨ Reg.ofOffset off = .dbufBlock ∨ ∃ i, Reg.ofOffset off = .pcache i) →
    (s.inflight = none → step s = .next { s with inputs := rest })
    ∧ ∀ (c : InFlight) (code : Code) (n : Nat), s.inflight = some c → c.pos = .held code (n + 1) →
      step s = .next (({ s with inputs := rest }).oneStepOn c code n))
  ∧ (∀ s : State, s.readReg .reserved = 0#32 ∧ s.readReg .cmd = 0#32 ∧ s.readReg .id = 0x41414601#32)
  ∧ ∀ (s : State) (off : BitVec 11) (width : AccessWidth) (data : Word) (rest : List Input),
    blockAtTag s = none → (width ≠ .word ∨ off.toNat % 4 ≠ 0) →
    (s.inputs = .wr off width data :: rest ∨ s.inputs = .rd off width :: rest) →
    step s = .refused .registerAccess

/-- 10_state.md R36, 60_exceptions.md R400: what a read of STATUS shows, bit by bit, and the number ERR shows for each
status code. -/
def Obligations.StatusWordShowsTheFlags : Prop :=
  (∀ s : State,
    (s.readReg .status).getLsbD 0 = s.inflight.isSome ∧ (s.readReg .status).getLsbD 1 = s.done
    ∧ (s.readReg .status).getLsbD 2 = s.dropped ∧ (s.readReg .status).getLsbD 3 = false
    ∧ (s.readReg .status).extractLsb' 4 4 = s.err.bits ∧ (s.readReg .status).getLsbD 8 = s.frameBound
    ∧ (s.readReg .status).getLsbD 9 = s.dbufValid ∧ (s.readReg .status).getLsbD 10 = s.treeValid
    ∧ ∀ i, 11 ≤ i → (s.readReg .status).getLsbD i = false)
  ∧ Code.ok.bits = 0#4 ∧ Code.decodeOverflow.bits = 1#4 ∧ Code.unsupportedEncoding.bits = 2#4
  ∧ Code.invalidHeader.bits = 3#4 ∧ Code.allocFailure.bits = 4#4 ∧ Code.badCode.bits = 5#4
  ∧ Code.truncatedCode.bits = 6#4 ∧ Code.sizeMismatch.bits = 7#4 ∧ Code.badTable.bits = 8#4
  ∧ Code.rleOdd.bits = 9#4 ∧ Code.notDecoded.bits = 10#4 ∧ Code.jpegHandoff.bits = 11#4
  ∧ Code.badParam.bits = 12#4 ∧ Code.busError.bits = 13#4 ∧ Code.badCmd.bits = 14#4 ∧ Code.noTree.bits = 15#4

/-- 10_state.md R36, 60_exceptions.md R420, R423: a write of STATUS clears DONE and DROPPED where it has a 1, and does
nothing else, on an idle machine and while a completion is held; with DONE the interrupt falls. That the write comes before
the engine's turn of that step, so that the completion of the last held step sets DONE after it, is the model's choice (log
19). -/
def Obligations.StatusWriteAcknowledges : Prop :=
  ∀ (s t : State) (data : Word) (rest : List Input),
    s.inputs = .wr 0x00C#11 .word data :: rest →
    t = { s with
      inputs := rest
      done := if data.getLsbD 1 then false else s.done
      dropped := if data.getLsbD 2 then false else s.dropped } →
    (s.inflight = none → step s = .next t)
    ∧ (∀ (c : InFlight) (code : Code) (n : Nat), s.inflight = some c → c.pos = .held code (n + 1) →
      step s = .next (t.oneStepOn c code n))
    ∧ (data.getLsbD 1 = true → t.irq = false)

/-- 10_state.md R54, 60_exceptions.md R420: the interrupt output is high exactly while DONE and IRQ_EN are 1. -/
def Obligations.InterruptIsDoneAndEnabled : Prop :=
  ∀ s : State, s.irq = true ↔
    (s.readReg .status).getLsbD 1 = true ∧ (s.readReg (.param .ctrl)).getLsbD 2 = true

/-! ### Encodings, and the step that runs what they decode to -/

/-- 30_encoding.md R110, R112, R120: a word decodes to an instruction exactly when it is of that instruction's kind and
has its low byte; a command's upper bits are ignored. Every instruction's own word decodes to it. -/
def Obligations.DecodingReadsExactlyTheLowByte : Prop :=
  (∀ (w : Word) (i : Instr), decode (.command w) = .instr i ↔
    ∃ v : Word, encode i = .command v ∧ w.extractLsb' 0 8 = v.extractLsb' 0 8)
  ∧ (∀ (b : Byte) (i : Instr), decode (.tag b) = .instr i ↔ encode i = .tag b)
  ∧ (∀ w : Word, decode (.command w) = .reservedCommand (w.extractLsb' 0 8) ↔ 0x0B ≤ (w.extractLsb' 0 8).toNat)
  ∧ (∀ b : Byte, decode (.tag b) = .reservedTag b ↔ 0x04 ≤ b.toNat)
  ∧ ∀ i : Instr, i.wf = true → decode (encode i) = .instr i

/-- 30_encoding.md R112, R120: words written out from the tables decode to the instructions they stand for. -/
def Obligations.WrittenOutWordsDecode : Prop :=
  decode (.command 0x00000000#32) = .instr .nop ∧ decode (.command 0xFFFFFF02#32) = .instr .decodeBlock
    ∧ decode (.command 0x00000006#32) = .instr .huffDecode ∧ decode (.command 0x00000003#32) = .instr .composite
    ∧ decode (.command 0x0000000B#32) = .reservedCommand 0x0B#8
    ∧ decode (.tag 0x03#8) = .instr .blkHuffmanDirect ∧ decode (.tag 0x04#8) = .reservedTag 0x04#8

/-- 30_encoding.md R111: where the host's next transaction is a write of CMD whose word decodes to a command, the step is
that command at the machine that has taken the transaction, and then the engine's turn where a completion is held. That
the host's transaction comes before the engine's turn in that step, the last held one included, is the model's choice (log
19). -/
def Obligations.StepRunsTheCommandWritten : Prop :=
  ∀ (s : State) (w : Word) (i : Instr) (rest : List Input),
    blockAtTag s = none → s.inputs = .wr 0x008#11 .word w :: rest → decode (.command w) = .instr i → i.wf = true →
    step s = engineTurn s (exec i { s with inputs := rest })
    ∧ (s.inflight = none → step s = exec i { s with inputs := rest })

/-- 40_block_decoder.md R200: where a DECODE_BLOCK stands at its tag dispatch and byte 0 of its payload decodes to a tag,
the step is that tag's meaning. That the dispatch is a step of its own is the model's choice (log 2). -/
def Obligations.StepRunsTheTagOfThePayload : Prop :=
  ∀ (s : State) (c : InFlight) (i : Instr),
    s.inflight = some c → c.pos = .atTag → s.readsPlain ⟨c.params.blkAddr.toNat, 1⟩ →
    decode (.tag (s.mem.read c.params.blkAddr.toNat)) = .instr i → i.wf = true →
    step s = exec i s

/-! ### Acceptance, completion, dropping -/

/-- 30_encoding.md R111: a write of CMD while BUSY, of whatever word, a reserved code included, is dropped: DROPPED is set
and nothing else changes, the held completion going on. That the write comes before the engine's turn of that step, the last
held one included, is the model's choice (log 19). -/
def Obligations.CommandWhileBusyIsDropped : Prop :=
  (∀ (s : State) (i : Instr) (w : Word), encode i = .command w → s.inflight.isSome = true →
    exec i s = .next { s with dropped := true })
  ∧ ∀ (s : State) (c : InFlight) (code : Code) (n : Nat) (w : Word) (rest : List Input),
    s.inflight = some c → c.pos = .held code (n + 1) → s.inputs = .wr 0x008#11 .word w :: rest →
    step s = .next (({ s with inputs := rest, dropped := true }).oneStepOn c code n)

/-- 30_encoding.md R113, 43_frame_context.md R362: a reserved command code completes at once with BAD_CMD and results 0,
and changes no other state. That 'at once' is the very step of the write, whatever CMD_LATENCY, is the model's reading (log
24). -/
def Obligations.ReservedCodeCompletesWithBadCmd : Prop :=
  ∀ (s : State) (w : Word) (rest : List Input),
    s.inflight = none → s.inputs = .wr 0x008#11 .word w :: rest → 0x0B ≤ (w.extractLsb' 0 8).toNat →
    step s = .next { s with
      inputs := rest
      err := .badCmd
      result0 := 0#32
      result1 := 0#32
      result2 := 0#32
      done := true }

/-- 10_state.md R37, R70, 30_encoding.md R111: with a CMD_LATENCY, an accepted command leaves BUSY set, DONE clear, its
parameters latched, and the previous command's results and status in place. That the command's own effects stand by then is
the model's choice, as R482 allows (log 1). -/
def Obligations.AcceptedCommandLatchesAndHoldsItsResults : Prop :=
  ∀ (s t : State) (i : Instr) (w : Word),
    encode i = .command w → s.inflight = none → s.platform.cmdLatency ≠ 0 → exec i s = .next t →
    ∃ c, t.inflight = some c ∧ c.op = w.extractLsb' 0 8 ∧ c.params = s.params
      ∧ (i ≠ .decodeBlock → ∃ code, c.pos = .held code s.platform.cmdLatency)
      ∧ t.done = false ∧ t.dropped = s.dropped ∧ t.err = s.err ∧ t.result0 = s.result0 ∧ t.result1 = s.result1
      ∧ t.result2 = s.result2 ∧ t.params = s.params

/-- 30_encoding.md R111, 60_exceptions.md R422: the completion of a held command that has no clause of its own writes
RESULT0 to RESULT2 and ERR, clears BUSY and sets DONE, in one step, and changes nothing else. -/
def Obligations.CompletionWritesResultsAndStatusInOneStep : Prop :=
  ∀ (s : State) (c : InFlight) (code : Code),
    s.inflight = some c → c.pos = .held code 1 → s.inputs = [] → c.op ≠ 0x02#8 → c.op ≠ 0x05#8 →
    c.r0 < 2 ^ 32 → c.r1 < 2 ^ 32 → c.r2 < 2 ^ 32 →
    step s = .next { s with
      err := code
      result0 := BitVec.ofNat 32 c.r0
      result1 := BitVec.ofNat 32 c.r1
      result2 := BitVec.ofNat 32 c.r2
      done := true
      inflight := none }

/-- 70_reset_and_hazards.md R480, R482: a held completion comes after exactly the steps it was held for, and until then
BUSY stays set. That a command is held for the same number of steps whatever it does is the model's choice (log 3). -/
def Obligations.HeldCompletionComesInTime : Prop :=
  ∀ (n : Nat) (s : State) (c : InFlight) (code : Code),
    s.inflight = some c → c.pos = .held code (n + 1) → s.inputs = [] →
    Host.Core.run core (n + 1) s = .next s.settled ∧ s.settled.busy = false ∧ s.settled.done = true
    ∧ ∀ k ≤ n, ∃ t, Host.Core.run core k s = .next t ∧ t.busy = true

/-- 10_state.md R70: a parameter register written while a command is in flight takes the value at once and does not
reach the command: its record is as it was but for the step gone by, and no other register changes. That the write comes
before the engine's turn of that step is the model's choice (log 19). -/
def Obligations.ParameterWriteWhileBusySparesTheCommand : Prop :=
  ∀ (s : State) (c : InFlight) (code : Code) (n : Nat) (r : ParamReg) (data : Word) (rest : List Input),
    s.inflight = some c → c.pos = .held code (n + 1) → s.inputs = .wr r.offset .word data :: rest →
    ∃ t : State, step s = .next (t.oneStepOn c code n) ∧ t = { s with inputs := rest, params := t.params }
      ∧ t.readReg (.param r) = data &&& r.mask ∧ (t.oneStepOn c code n).readReg (.param r) = data &&& r.mask
      ∧ ∀ q : ParamReg, q ≠ r → t.params.get q = s.params.get q

/-- 20_memory.md R92, 93_implementation_defined.md U1: while a command is in flight, a host store to a region it reads or
writes, and a host load from a region it writes, is refused. Which regions a command has named is the model's reading of
20_memory.md R81 (log 12). -/
def Obligations.HostAccessToRegionsInFlightIsRefused : Prop :=
  ∀ (s : State) (c : InFlight) (code : Code) (n : Nat) (a : Word) (v : Byte) (rest : List Input),
    s.inflight = some c → c.pos = .held code n → s.readsPlain ⟨a.toNat, 1⟩ → s.writesPlain ⟨a.toNat, 1⟩ →
    ((s.inputs = .memWr a v :: rest ∧ ((∃ r ∈ c.writes, r.has a.toNat = true) ∨ ∃ r ∈ c.reads, r.has a.toNat = true))
      ∨ (s.inputs = .memRd a :: rest ∧ ∃ r ∈ c.writes, r.has a.toNat = true)) →
    step s = .refused .hostTouchesRegion

/-- 20_memory.md R91: a byte the host stores is what it then loads, and no other byte changes. -/
def Obligations.HostStoreIsLoadedBack : Prop :=
  ∀ (s : State) (a : Word) (v : Byte) (rest : List Input),
    s.inflight = none → s.readsPlain ⟨a.toNat, 1⟩ → s.writesPlain ⟨a.toNat, 1⟩ →
    s.inputs = .memWr a v :: .memRd a :: rest →
    ∃ t m, Host.Core.run core 2 s = .next t ∧ t = { s with inputs := rest, mem := m, readData := some (v.zeroExtend 32) }
      ∧ m.read a.toNat = v ∧ ∀ x, x ≠ a.toNat → m.read x = s.mem.read x

/-! ### Frame context and housekeeping -/

/-- 43_frame_context.md R360: NOP changes nothing but its completion, OK with results 0. -/
def Obligations.NopOnlyCompletes : Prop :=
  ∀ s : State, s.inflight = none →
    ∃ t, exec .nop s = .next t ∧ t.settled = s.finishing .ok 0 0 0 ∧ t.mem = s.mem

/-- 42_compositor.md R304: PCACHE_FLUSH empties the palette cache and changes nothing else but its completion, OK with
results 0. -/
def Obligations.PcacheFlushEmptiesTheCache : Prop :=
  ∀ s : State, s.inflight = none →
    ∃ t, exec .pcacheFlush s = .next t
      ∧ t.settled = ({ s with pcache := t.pcache }).finishing .ok 0 0 0
      ∧ (∀ i : Fin 256, t.pcache[i] = none) ∧ t.mem = s.mem

/-- 43_frame_context.md R355: UNBIND goes to Unbound, cache empty, DBUF not valid; nothing else changes but its
completion, OK with results 0. That the fields of F, which are unspecified while Unbound (93_implementation_defined.md U5),
stay as they were is the model's choice (log 10). -/
def Obligations.UnbindReturnsToUnbound : Prop :=
  ∀ s : State, s.inflight = none →
    ∃ t, exec .unbind s = .next t
      ∧ t.settled = ({ s with frameBound := false, pcache := t.pcache, dbufValid := false, dbufBlock := 0xFFFFFFFF#32 }).finishing
          .ok 0 0 0
      ∧ (∀ i : Fin 256, t.pcache[i] = none) ∧ t.mem = s.mem

/-- 43_frame_context.md R351: BIND_FRAME of legal frame registers binds the frame they describe, empties the cache and
the DBUF state, and reports the final block's rows and a full block's size. -/
def Obligations.BindFrameBindsALegalFrame : Prop :=
  ∀ s : State, s.inflight = none → s.params.frame.legal →
    ∃ t, exec .bindFrame s = .next t
      ∧ t.settled = ({ s with
            frame :=
              { depth := s.params.frameFmt.extractLsb' 0 8
                w := s.params.frameSize.extractLsb' 0 16
                h := s.params.frameSize.extractLsb' 16 16
                count := s.params.blkGeom.extractLsb' 0 16
                blkH := s.params.blkGeom.extractLsb' 16 16
                palAddr := s.params.palAddr }
            frameBound := true
            pcache := t.pcache
            dbufValid := false
            dbufBlock := 0xFFFFFFFF#32 }).finishing .ok s.params.frame.last.toNat
          (min (blockBytes s.params.frame.depth s.params.frame.w.toNat s.params.frame.blkH.toNat) 0xFFFFFFFF) 0
      ∧ (∀ i : Fin 256, t.pcache[i] = none) ∧ t.mem = s.mem

/-- 43_frame_context.md R351, R352, R353, 60_exceptions.md R411: BIND_FRAME of illegal frame registers reports the first failing
check and leaves the block Unbound, cache empty, DBUF not valid, with results 0. That the fields of F, which are then
unspecified (93_implementation_defined.md U5), stay as they were is the model's choice (log 10). -/
def Obligations.BindFrameOfAnIllegalFrameUnbinds : Prop :=
  ∀ s : State, s.inflight = none → ¬ s.params.frame.legal →
    ∃ t, exec .bindFrame s = .next t
      ∧ t.settled = ({ s with frameBound := false, pcache := t.pcache, dbufValid := false, dbufBlock := 0xFFFFFFFF#32 }).finishing
          (if legalDepth s.params.frame.depth = true ∧ s.params.frame.nonzero = true ∧ 1 ≤ s.params.frame.last
              ∧ s.params.frame.last ≤ s.params.frame.blkH.toNat
            then .badParam else .invalidHeader) 0 0 0
      ∧ (∀ i : Fin 256, t.pcache[i] = none) ∧ t.mem = s.mem

/-- 60_exceptions.md R411, 40_block_decoder.md R200, R235, 42_compositor.md R303, R310: with no frame bound,
DECODE_BLOCK, COMPOSITE, MARK_DECODED and PAL_RESOLVE end with BAD_PARAM and results 0, and but for DECODE_BLOCK's
TREE_VALID (40_block_decoder.md R221) change nothing else. A DECODE_BLOCK whose determined regions overlap is refused instead
(20_memory.md R93, OverlappingRegionsAreRefused); that this comes before the check is the model's reading (log 11). That T and
TREE_PAD, unspecified while TREE_VALID is 0 (93_implementation_defined.md U5), stay as they were is the model's choice (log
10). -/
def Obligations.UnboundCommandsEndWithBadParam : Prop :=
  ∀ s : State, s.inflight = none → s.frameBound = false →
    (∀ i : Instr, i = .composite ∨ i = .markDecoded ∨ i = .palResolve →
      ∃ t, exec i s = .next t ∧ t.settled = s.finishing .badParam 0 0 0 ∧ t.mem = s.mem)
    ∧ (regionsClash (decodeKnown s s.params).1 (decodeKnown s s.params).2 = false →
      ∃ t, exec .decodeBlock s = .next t
        ∧ t.settled = ({ s with treeValid := false }).finishing .badParam 0 0 0 ∧ t.mem = s.mem)

/-- 42_compositor.md R310, 41_huffman.md R270, R272, 40_block_decoder.md R200, R230, 60_exceptions.md R410, R411: the checks
made before any access. COMPOSITE of a block that DBUF does not hold ends with NOT_DECODED, HUFF_DECODE with no held tree
with NO_TREE; a block index past the frame, an empty payload, or a region that passes 2^32, ends its command with BAD_PARAM,
SCR's at tag 1 (40_block_decoder.md R210) included; a TREE_PAD past an empty stream ends HUFF_DECODE with BAD_TABLE
(41_huffman.md R264). The results are 0 (RESULT1 of a tag the tag) and nothing else changes but TREE_VALID, which DECODE_BLOCK
clears at acceptance and HUFF_BUILD on failure. Where the command's regions are determined and overlap, it is refused instead
(20_memory.md R93; OverlappingRegionsAreRefused); that this comes before these checks is the model's reading (log 11). That T
and TREE_PAD stay as they were while TREE_VALID is 0 is the model's choice (log 10). -/
def Obligations.FailedPreconditionsAreReported : Prop :=
  (∀ s : State, s.inflight = none →
    (s.frameBound = true → s.params.index.toNat < s.frame.count.toNat →
      regionsClash (compositeReads s.frame s.params) [s.params.destRegion] = false →
      (s.dbufValid = false ∨ s.dbufBlock ≠ s.params.index.zeroExtend 32) →
      ∃ t, exec .composite s = .next t ∧ t.settled = s.finishing .notDecoded 0 0 0 ∧ t.mem = s.mem)
    ∧ (s.frameBound = true → s.frame.count.toNat ≤ s.params.index.toNat →
      regionsClash (paletteReads s.frame) [s.params.destRegion] = false →
      ∃ t, exec .composite s = .next t ∧ t.settled = s.finishing .badParam 0 0 0 ∧ t.mem = s.mem)
    ∧ (s.frameBound = true → s.params.index.toNat < s.frame.count.toNat →
      s.dbufValid = true → s.dbufBlock = s.params.index.zeroExtend 32 →
      regionsClash (compositeReads s.frame s.params) [s.params.destRegion] = false →
      (Region.fits ⟨s.params.dbufAddr.toNat, s.frame.blockSize s.params.index.toNat⟩ = false
        ∨ s.params.destRegion.fits = false) →
      ∃ t, exec .composite s = .next t ∧ t.settled = s.finishing .badParam 0 0 0 ∧ t.mem = s.mem)
    ∧ (s.frameBound = true →
      (s.frame.count.toNat ≤ s.params.index.toNat ∨ s.params.blkLen = 0#32 ∨ s.params.blkRegion.fits = false
        ∨ s.params.dbufRegion.fits = false) →
      regionsClash (decodeKnown s s.params).1 (decodeKnown s s.params).2 = false →
      ∃ t, exec .decodeBlock s = .next t
        ∧ t.settled = ({ s with treeValid := false }).finishing .badParam 0 0 0 ∧ t.mem = s.mem)
    ∧ (s.treeValid = false → regionsClash [s.params.inRegion] [s.params.outRegion] = false →
      ∃ t, exec .huffDecode s = .next t ∧ t.settled = s.finishing .noTree 0 0 0 ∧ t.mem = s.mem)
    ∧ ((s.params.inRegion.fits = false ∨ s.params.outRegion.fits = false) →
      regionsClash [s.params.inRegion] [s.params.outRegion] = false →
      (s.treeValid = true → ∃ t, exec .huffDecode s = .next t ∧ t.settled = s.finishing .badParam 0 0 0 ∧ t.mem = s.mem)
      ∧ ∃ t, exec .rleExpand s = .next t ∧ t.settled = s.finishing .badParam 0 0 0 ∧ t.mem = s.mem)
    ∧ (s.treeValid = true → s.params.inRegion.fits = true → s.params.outRegion.fits = true →
      regionsClash [s.params.inRegion] [s.params.outRegion] = false → 8 * s.params.inLen.toNat < s.treePad.toNat →
      ∃ t, exec .huffDecode s = .next t ∧ t.settled = s.finishing .badTable 0 0 0 ∧ t.mem = s.mem)
    ∧ (s.params.tblRegion.fits = false →
      ∃ t, exec .huffBuild s = .next t
        ∧ t.settled = ({ s with treeValid := false }).finishing .badParam 0 0 0 ∧ t.mem = s.mem))
  ∧ ∀ (s : State) (p : Params),
    s.inflight = some { op := 0x02#8, params := p } → indexedDepth s.frame.depth = true →
    s.frame.blockSize p.index.toNat ≤ p.dbufCap.toNat → p.scrRegion.fits = false →
    regionsClash [p.blkRegion] [p.scrRegion, ⟨p.dbufAddr.toNat, s.frame.blockSize p.index.toNat⟩] = false →
    ∃ t, exec .blkHuffman s = .next t ∧ t.settled = s.finishing .badParam 0 1 0 ∧ t.mem = s.mem

/-- 40_block_decoder.md R235: MARK_DECODED of a block of the bound frame records it; of another index it ends with
BAD_PARAM. -/
def Obligations.MarkDecodedRecordsTheBlock : Prop :=
  ∀ s : State, s.inflight = none → s.frameBound = true →
    (s.params.index.toNat < s.frame.count.toNat →
      ∃ t, exec .markDecoded s = .next t
        ∧ t.settled = ({ s with dbufValid := true, dbufBlock := (s.params.blkIndex.extractLsb' 0 16).zeroExtend 32 }).finishing
            .ok 0 0 0
        ∧ t.mem = s.mem)
    ∧ (s.frame.count.toNat ≤ s.params.index.toNat →
      ∃ t, exec .markDecoded s = .next t ∧ t.settled = s.finishing .badParam 0 0 0 ∧ t.mem = s.mem)

/-! ### The run-length decoder -/

/-- 40_block_decoder.md R205, R206, R230: RLE_EXPAND of pairs whose expansion fits writes exactly the expansion and
reports its length and the number of pairs; nothing else changes. -/
def Obligations.RleExpandWritesTheExpansion : Prop :=
  ∀ (s : State) (pairs : List (Byte × Byte)),
    s.inflight = none → s.params.inRegion.fits = true → s.params.outRegion.fits = true →
    regionsClash [s.params.inRegion] [s.params.outRegion] = false →
    s.readsPlain s.params.inRegion → s.writesPlain s.params.outRegion →
    s.params.inLen.toNat = 2 * pairs.length →
    s.mem.bytes s.params.inAddr.toNat s.params.inLen.toNat = pairBytes pairs →
    (expanded pairs).length ≤ s.params.outCap.toNat →
    ∃ t m, exec .rleExpand s = .next t ∧ t.mem = m
      ∧ t.settled = ({ s with mem := m }).finishing .ok (expanded pairs).length pairs.length 0
      ∧ m.bytes s.params.outAddr.toNat (expanded pairs).length = expanded pairs
      ∧ Memory.sameOutside s.mem m s.params.outAddr.toNat (expanded pairs).length

/-- 40_block_decoder.md R208, R230: a pair that would pass the capacity ends RLE_EXPAND with DECODE_OVERFLOW before any
byte of it is written; the earlier pairs' bytes stay. -/
def Obligations.RleOverflowStopsBeforeThePair : Prop :=
  ∀ (s : State) (front back : List (Byte × Byte)) (pair : Byte × Byte),
    s.inflight = none → s.params.inRegion.fits = true → s.params.outRegion.fits = true →
    regionsClash [s.params.inRegion] [s.params.outRegion] = false →
    s.readsPlain s.params.inRegion → s.writesPlain s.params.outRegion →
    s.params.inLen.toNat = 2 * (front ++ pair :: back).length →
    s.mem.bytes s.params.inAddr.toNat s.params.inLen.toNat = pairBytes (front ++ pair :: back) →
    (expanded front).length ≤ s.params.outCap.toNat →
    s.params.outCap.toNat < (expanded front).length + pair.1.toNat →
    ∃ t m, exec .rleExpand s = .next t ∧ t.mem = m
      ∧ t.settled = ({ s with mem := m }).finishing .decodeOverflow (expanded front).length front.length 0
      ∧ m.bytes s.params.outAddr.toNat (expanded front).length = expanded front
      ∧ Memory.sameOutside s.mem m s.params.outAddr.toNat (expanded front).length

/-- 40_block_decoder.md R207, R230: an odd input length ends RLE_EXPAND with RLE_ODD before any access, whatever the
regions hold and whatever memory answers there. Regions that overlap are refused (20_memory.md R93,
OverlappingRegionsAreRefused). -/
def Obligations.OddRleInputIsReportedBeforeAnyAccess : Prop :=
  ∀ s : State, s.inflight = none → s.params.inRegion.fits = true → s.params.outRegion.fits = true →
    regionsClash [s.params.inRegion] [s.params.outRegion] = false →
    s.params.inLen.toNat % 2 = 1 →
    ∃ t, exec .rleExpand s = .next t ∧ t.settled = s.finishing .rleOdd 0 0 0 ∧ t.mem = s.mem

/-- 60_exceptions.md R401, 20_memory.md R86: where memory refuses byte `j` of RLE_EXPAND's output, the command ends with
BUS_ERROR; the `j` bytes before it stay written, and the results are 0. -/
def Obligations.RefusedByteEndsRleExpandWithBusError : Prop :=
  ∀ (s : State) (pairs : List (Byte × Byte)) (j : Nat),
    s.inflight = none → s.params.inRegion.fits = true → s.params.outRegion.fits = true →
    regionsClash [s.params.inRegion] [s.params.outRegion] = false →
    s.readsPlain s.params.inRegion → s.params.inLen.toNat = 2 * pairs.length →
    s.mem.bytes s.params.inAddr.toNat s.params.inLen.toNat = pairBytes pairs →
    (expanded pairs).length ≤ s.params.outCap.toNat → j < (expanded pairs).length →
    s.writesPlain ⟨s.params.outAddr.toNat, j⟩ → s.platform.answersWrite (s.params.outAddr.toNat + j) = false →
    ∃ t m, exec .rleExpand s = .next t ∧ t.mem = m
      ∧ t.settled = ({ s with mem := m }).finishing .busError 0 0 0
      ∧ m.bytes s.params.outAddr.toNat j = (expanded pairs).take j
      ∧ Memory.sameOutside s.mem m s.params.outAddr.toNat j

/-! ### The Huffman engine -/

/-- 41_huffman.md R251, R256, R270: HUFF_BUILD of a table that holds a prefix-free code book whose prefixes the node store
can hold succeeds; the held tree has exactly the book's codes, and the results are the numbers of codes and nodes.
Nothing else changes. -/
def Obligations.HuffBuildHoldsTheCodeBook : Prop :=
  ∀ (s : State) (book : CodeBook),
    s.inflight = none → s.params.tblRegion.fits = true → s.readsPlain s.params.tblRegion → 0 < s.params.tblLen.toNat →
    (s.mem.read s.params.tblAddr.toNat).toNat ≤ 7 →
    tableHolds s.mem s.params.tblAddr.toNat s.params.tblLen.toNat book 1 →
    book.prefixFree → book.nodes ≤ s.platform.nodeCap →
    ∃ t tree, exec .huffBuild s = .next t
      ∧ t.settled = ({ s with
            tree := tree
            treePad := (s.mem.read s.params.tblAddr.toNat).extractLsb' 0 3
            treeValid := true }).finishing .ok book.length book.nodes 0
      ∧ tree.codesAre book ∧ tree.size = book.nodes ∧ t.mem = s.mem

/-- 41_huffman.md R251, R252, R254, R256, R270: a HUFF_BUILD that fails reports its table's first fault. A table with no
PAD byte or a PAD above 7 is a BAD_TABLE with results 0. After triples that hold a good code book, a triple cut short, a
length of 0, or a code that equals an earlier code, is a prefix of one or has one as a prefix is a BAD_TABLE, and a code that
needs a node when the store is full an ALLOC_FAILURE; the results are the codes, the nodes and the table offset so far.
TREE_VALID falls and nothing else changes. That T and TREE_PAD, unspecified while TREE_VALID is 0
(93_implementation_defined.md U5), stay as they were is the model's choice (log 10). -/
def Obligations.HuffBuildReportsTheFirstBadTriple : Prop :=
  (∀ s : State, s.inflight = none → s.params.tblRegion.fits = true →
    (s.params.tblLen = 0#32
      ∨ (s.params.tblLen ≠ 0#32 ∧ s.readsPlain ⟨s.params.tblAddr.toNat, 1⟩
        ∧ 7 < (s.mem.read s.params.tblAddr.toNat).toNat)) →
    ∃ t, exec .huffBuild s = .next t
      ∧ t.settled = ({ s with treeValid := false }).finishing .badTable 0 0 0 ∧ t.mem = s.mem)
  ∧ ∀ (s : State) (book : CodeBook) (p : Nat),
    s.inflight = none → s.params.tblRegion.fits = true → s.readsPlain s.params.tblRegion →
    (s.mem.read s.params.tblAddr.toNat).toNat ≤ 7 →
    tableHolds s.mem s.params.tblAddr.toNat p book 1 → p < s.params.tblLen.toNat →
    book.prefixFree → book.nodes ≤ s.platform.nodeCap →
    ((s.params.tblLen.toNat < p + 2 ∨ s.mem.read (s.params.tblAddr.toNat + p + 1) = 0#8
        ∨ s.params.tblLen.toNat < p + 2 + codeBytes (s.mem.read (s.params.tblAddr.toNat + p + 1)).toNat) →
      ∃ t, exec .huffBuild s = .next t
        ∧ t.settled = ({ s with treeValid := false }).finishing .badTable book.length book.nodes p ∧ t.mem = s.mem)
    ∧ ∀ code : Byte × List Bool,
      tableHolds s.mem s.params.tblAddr.toNat (p + 2 + codeBytes code.2.length) [code] p →
      p + 2 + codeBytes code.2.length ≤ s.params.tblLen.toNat →
      ((∃ e ∈ book, codesClash e.2 code.2) →
        ∃ t, exec .huffBuild s = .next t
          ∧ t.settled = ({ s with treeValid := false }).finishing .badTable book.length book.nodes p ∧ t.mem = s.mem)
      ∧ ((∀ e ∈ book, ¬ codesClash e.2 code.2) → s.platform.nodeCap < CodeBook.nodes (book ++ [code]) →
        ∃ t, exec .huffBuild s = .next t
          ∧ t.settled = ({ s with treeValid := false }).finishing .allocFailure book.length s.platform.nodeCap p
          ∧ t.mem = s.mem)

/-- 41_huffman.md R252, R256, R270: whatever the table, a HUFF_BUILD that leaves TREE_VALID set leaves a tree in which
every node but the root is on the path of some code, of no more nodes than the store holds, and RESULT1 is its size. -/
def Obligations.BuiltTreesArePrefixCodes : Prop :=
  ∀ s t : State, s.inflight = none → exec .huffBuild s = .next t → t.settled.treeValid = true →
    t.settled.tree.built = true ∧ t.settled.tree.size ≤ s.platform.nodeCap
    ∧ t.settled.result1 = resultWord t.settled.tree.size ∧ t.settled.err = .ok

/-- 41_huffman.md R260, R265, R272: HUFF_DECODE of a stream that is the concatenation of codes of the held tree writes
exactly their values and reports their number and the number of bits; nothing else changes. -/
def Obligations.HuffDecodeWritesTheMessage : Prop :=
  ∀ (s : State) (msg : Message),
    s.inflight = none → s.treeValid = true → s.params.inRegion.fits = true → s.params.outRegion.fits = true →
    regionsClash [s.params.inRegion] [s.params.outRegion] = false →
    s.readsPlain s.params.inRegion → s.writesPlain s.params.outRegion →
    s.tree.spells msg → s.treePad.toNat ≤ 8 * s.params.inLen.toNat →
    s.mem.bits s.params.inAddr.toNat (8 * s.params.inLen.toNat - s.treePad.toNat) = msg.bits →
    msg.length ≤ s.params.outCap.toNat →
    ∃ t m, exec .huffDecode s = .next t ∧ t.mem = m
      ∧ t.settled = ({ s with mem := m }).finishing .ok msg.length msg.bits.length 0
      ∧ m.bytes s.params.outAddr.toNat msg.length = msg.values
      ∧ Memory.sameOutside s.mem m s.params.outAddr.toNat msg.length

/-- 41_huffman.md R261, R272: a bit whose child is absent ends HUFF_DECODE with BAD_CODE; the values decoded so far stay,
nothing is written after them, and their number and the bits read are reported. -/
def Obligations.OffTreeBitStopsTheDecode : Prop :=
  ∀ (s : State) (msg : Message) (part : List Bool) (bit : Bool) (rest : List Bool),
    s.inflight = none → s.treeValid = true → s.params.inRegion.fits = true → s.params.outRegion.fits = true →
    regionsClash [s.params.inRegion] [s.params.outRegion] = false →
    s.readsPlain s.params.inRegion → s.writesPlain s.params.outRegion →
    s.tree.spells msg → s.treePad.toNat ≤ 8 * s.params.inLen.toNat →
    s.mem.bits s.params.inAddr.toNat (8 * s.params.inLen.toNat - s.treePad.toNat) = msg.bits ++ part ++ bit :: rest →
    msg.length ≤ s.params.outCap.toNat →
    (∃ c0 c1, s.tree.follow part = .node c0 c1) → s.tree.follow (part ++ [bit]) = .absent →
    ∃ t m, exec .huffDecode s = .next t ∧ t.mem = m
      ∧ t.settled = ({ s with mem := m }).finishing .badCode msg.length (msg.bits.length + part.length + 1) 0
      ∧ m.bytes s.params.outAddr.toNat msg.length = msg.values
      ∧ Memory.sameOutside s.mem m s.params.outAddr.toNat msg.length

/-- 41_huffman.md R262, R272: a stream that ends inside a code ends with TRUNCATED_CODE; the partial code emits nothing. -/
def Obligations.StreamEndingInsideACodeIsTruncated : Prop :=
  ∀ (s : State) (msg : Message) (part : List Bool),
    s.inflight = none → s.treeValid = true → s.params.inRegion.fits = true → s.params.outRegion.fits = true →
    regionsClash [s.params.inRegion] [s.params.outRegion] = false →
    s.readsPlain s.params.inRegion → s.writesPlain s.params.outRegion →
    s.tree.spells msg → s.treePad.toNat ≤ 8 * s.params.inLen.toNat →
    s.mem.bits s.params.inAddr.toNat (8 * s.params.inLen.toNat - s.treePad.toNat) = msg.bits ++ part →
    msg.length ≤ s.params.outCap.toNat →
    part ≠ [] → (∃ c0 c1, s.tree.follow part = .node c0 c1) →
    ∃ t m, exec .huffDecode s = .next t ∧ t.mem = m
      ∧ t.settled = ({ s with mem := m }).finishing .truncatedCode msg.length (msg.bits.length + part.length) 0
      ∧ m.bytes s.params.outAddr.toNat msg.length = msg.values
      ∧ Memory.sameOutside s.mem m s.params.outAddr.toNat msg.length

/-- 41_huffman.md R263, R272: a leaf reached when OUT_CAP bytes have been written ends with DECODE_OVERFLOW; exactly
OUT_CAP bytes have been written. -/
def Obligations.LeafPastTheCapacityOverflows : Prop :=
  ∀ (s : State) (msg : Message) (extra : List Bool × Byte) (rest : List Bool),
    s.inflight = none → s.treeValid = true → s.params.inRegion.fits = true → s.params.outRegion.fits = true →
    regionsClash [s.params.inRegion] [s.params.outRegion] = false →
    s.readsPlain s.params.inRegion → s.writesPlain s.params.outRegion →
    s.tree.spells (msg ++ [extra]) → s.treePad.toNat ≤ 8 * s.params.inLen.toNat →
    s.mem.bits s.params.inAddr.toNat (8 * s.params.inLen.toNat - s.treePad.toNat) = msg.bits ++ extra.1 ++ rest →
    msg.length = s.params.outCap.toNat →
    ∃ t m, exec .huffDecode s = .next t ∧ t.mem = m
      ∧ t.settled = ({ s with mem := m }).finishing .decodeOverflow msg.length (msg.bits.length + extra.1.length) 0
      ∧ m.bytes s.params.outAddr.toNat msg.length = msg.values
      ∧ Memory.sameOutside s.mem m s.params.outAddr.toNat msg.length

/-- 95_test_vectors.md X6, the Huffman round trip: after HUFF_BUILD of a prefix-free code book, HUFF_DECODE of a stream
that is the concatenation of codes of the book, its PAD bits trimmed, writes exactly the message the codes stand for. -/
def Obligations.HuffmanRoundTrip : Prop :=
  ∀ (s t1 : State) (book : CodeBook) (msg : Message),
    s.inflight = none → s.params.tblRegion.fits = true → s.readsPlain s.params.tblRegion → 0 < s.params.tblLen.toNat →
    (s.mem.read s.params.tblAddr.toNat).toNat ≤ 7 →
    tableHolds s.mem s.params.tblAddr.toNat s.params.tblLen.toNat book 1 →
    book.prefixFree → book.nodes ≤ s.platform.nodeCap →
    s.params.inRegion.fits = true → s.params.outRegion.fits = true →
    regionsClash [s.params.inRegion] [s.params.outRegion] = false →
    s.readsPlain s.params.inRegion → s.writesPlain s.params.outRegion →
    (∀ e ∈ msg, (e.2, e.1) ∈ book) →
    (s.mem.read s.params.tblAddr.toNat).toNat ≤ 8 * s.params.inLen.toNat →
    s.mem.bits s.params.inAddr.toNat (8 * s.params.inLen.toNat - (s.mem.read s.params.tblAddr.toNat).toNat) = msg.bits →
    msg.length ≤ s.params.outCap.toNat → exec .huffBuild s = .next t1 →
    ∃ t2, exec .huffDecode t1.settled = .next t2 ∧ t2.settled.err = .ok
      ∧ t2.settled.result0 = BitVec.ofNat 32 msg.length
      ∧ t2.mem.bytes s.params.outAddr.toNat msg.length = msg.values
      ∧ Memory.sameOutside s.mem t2.mem s.params.outAddr.toNat msg.length

/-! ### The block decoder -/

/-- 40_block_decoder.md R200, R221: DECODE_BLOCK of a block of the bound frame, its regions well-formed, is accepted,
latches its parameters, clears TREE_VALID and stands at its tag dispatch, DONE clear; nothing else changes. That it stands
there for a step is the model's choice (log 2), and so is that T and TREE_PAD, unspecified while TREE_VALID is 0
(93_implementation_defined.md U5), stay as they were (log 10); StepRunsTheTagOfThePayload says how it goes on. -/
def Obligations.DecodeBlockComesToItsTagDispatch : Prop :=
  ∀ s : State, s.inflight = none → s.frameBound = true → s.params.index.toNat < s.frame.count.toNat →
    s.params.blkLen ≠ 0#32 → s.params.blkRegion.fits = true → s.params.dbufRegion.fits = true →
    exec .decodeBlock s = .next { s with
      treeValid := false
      done := false
      inflight := some { op := 0x02#8, params := s.params } }

/-- 40_block_decoder.md R209, R204, R207, R208: the RLE tag, at a depth it is valid at and with room in DBUF, writes the
expansion of the payload's pairs to DBUF and records the block; a short expansion is OK. A payload whose pairs are cut short
ends with RLE_ODD before any access, the DBUF state unchanged. A pair that would pass the block ends with DECODE_OVERFLOW
before any byte of it is written; the earlier pairs' bytes stay, RESULT0 counts them, and DBUF then holds no block where there
were any. -/
def Obligations.RleTagDecodesTheBlock : Prop :=
  (∀ (s : State) (p : Params) (pairs : List (Byte × Byte)),
    s.inflight = some { op := 0x02#8, params := p } → indexedDepth s.frame.depth = true →
    s.frame.blockSize p.index.toNat ≤ p.dbufCap.toNat → p.blkRegion.fits = true → p.dbufRegion.fits = true →
    regionsClash [p.blkRegion] [⟨p.dbufAddr.toNat, s.frame.blockSize p.index.toNat⟩] = false →
    s.readsPlain p.blkRegion → s.writesPlain ⟨p.dbufAddr.toNat, s.frame.blockSize p.index.toNat⟩ →
    p.blkLen.toNat = 1 + 2 * pairs.length →
    s.mem.bytes (p.blkAddr.toNat + 1) (2 * pairs.length) = pairBytes pairs →
    (expanded pairs).length ≤ s.frame.blockSize p.index.toNat →
    ∃ t m, exec .blkRle s = .next t ∧ t.mem = m
      ∧ t.settled = ({ s with mem := m, dbufValid := true, dbufBlock := p.index.zeroExtend 32 }).finishing .ok
          (expanded pairs).length 0 0
      ∧ m.bytes p.dbufAddr.toNat (expanded pairs).length = expanded pairs
      ∧ Memory.sameOutside s.mem m p.dbufAddr.toNat (expanded pairs).length)
  ∧ (∀ (s : State) (p : Params),
    s.inflight = some { op := 0x02#8, params := p } → indexedDepth s.frame.depth = true →
    s.frame.blockSize p.index.toNat ≤ p.dbufCap.toNat →
    regionsClash [p.blkRegion] [⟨p.dbufAddr.toNat, s.frame.blockSize p.index.toNat⟩] = false →
    p.blkLen ≠ 0#32 → p.blkLen.toNat % 2 = 0 →
    ∃ t, exec .blkRle s = .next t ∧ t.settled = s.finishing .rleOdd 0 0 0 ∧ t.mem = s.mem)
  ∧ ∀ (s : State) (p : Params) (front back : List (Byte × Byte)) (pair : Byte × Byte),
    s.inflight = some { op := 0x02#8, params := p } → indexedDepth s.frame.depth = true →
    s.frame.blockSize p.index.toNat ≤ p.dbufCap.toNat → p.blkRegion.fits = true → p.dbufRegion.fits = true →
    regionsClash [p.blkRegion] [⟨p.dbufAddr.toNat, s.frame.blockSize p.index.toNat⟩] = false →
    s.readsPlain p.blkRegion → s.writesPlain ⟨p.dbufAddr.toNat, s.frame.blockSize p.index.toNat⟩ →
    p.blkLen.toNat = 1 + 2 * (front ++ pair :: back).length →
    s.mem.bytes (p.blkAddr.toNat + 1) (2 * (front ++ pair :: back).length) = pairBytes (front ++ pair :: back) →
    (expanded front).length ≤ s.frame.blockSize p.index.toNat →
    s.frame.blockSize p.index.toNat < (expanded front).length + pair.1.toNat →
    ∃ t m, exec .blkRle s = .next t ∧ t.mem = m
      ∧ (expanded front ≠ [] →
        t.settled = ({ s with mem := m, dbufValid := false, dbufBlock := 0xFFFFFFFF#32 }).finishing .decodeOverflow
          (expanded front).length 0 0)
      ∧ (expanded front = [] → t.settled = ({ s with mem := m }).finishing .decodeOverflow 0 0 0)
      ∧ m.bytes p.dbufAddr.toNat (expanded front).length = expanded front
      ∧ Memory.sameOutside s.mem m p.dbufAddr.toNat (expanded front).length

/-- 40_block_decoder.md R210, R211, R204: the Huffman tag decodes its stream to run-length pairs in SCR and expands them
to exactly the block in DBUF; an expansion shorter than the block ends with SIZE_MISMATCH, its bytes standing, and DBUF then
holds no block where any byte was written. A payload too short for the section header or its table, or a table of length 0,
ends with BAD_TABLE before any write. That T and TREE_PAD stay as they were, though the tag builds a tree in the shared
store, is the model's choice (log 10). -/
def Obligations.HuffmanTagDecodesTheBlock : Prop :=
  (∀ (s : State) (p : Params) (tlen : Nat) (book : CodeBook) (msg : Message) (pairs : List (Byte × Byte)),
    s.inflight = some { op := 0x02#8, params := p } → indexedDepth s.frame.depth = true →
    s.frame.blockSize p.index.toNat ≤ p.dbufCap.toNat → p.blkRegion.fits = true → p.dbufRegion.fits = true →
    p.scrRegion.fits = true →
    regionsClash [p.blkRegion] [p.scrRegion, ⟨p.dbufAddr.toNat, s.frame.blockSize p.index.toNat⟩] = false →
    s.readsPlain p.blkRegion → s.readsPlain p.scrRegion → s.writesPlain p.scrRegion →
    s.writesPlain ⟨p.dbufAddr.toNat, s.frame.blockSize p.index.toNat⟩ →
    s.mem.bytes (p.blkAddr.toNat + 1) 2 = [BitVec.ofNat 8 tlen, BitVec.ofNat 8 (tlen / 256)] → tlen < 0x10000 →
    0 < tlen → 3 + tlen ≤ p.blkLen.toNat →
    (s.mem.read (p.blkAddr.toNat + 3)).toNat ≤ 7 →
    tableHolds s.mem (p.blkAddr.toNat + 3) tlen book 1 → book.prefixFree → book.nodes ≤ s.platform.nodeCap →
    (∀ e ∈ msg, (e.2, e.1) ∈ book) →
    (s.mem.read (p.blkAddr.toNat + 3)).toNat ≤ 8 * (p.blkLen.toNat - 3 - tlen) →
    s.mem.bits (p.blkAddr.toNat + 3 + tlen)
      (8 * (p.blkLen.toNat - 3 - tlen) - (s.mem.read (p.blkAddr.toNat + 3)).toNat) = msg.bits →
    msg.length ≤ p.scrCap.toNat → msg.values = pairBytes pairs →
    (expanded pairs).length ≤ s.frame.blockSize p.index.toNat →
    ∃ t m, exec .blkHuffman s = .next t ∧ t.mem = m
      ∧ ((expanded pairs).length = s.frame.blockSize p.index.toNat →
        t.settled = ({ s with mem := m, dbufValid := true, dbufBlock := p.index.zeroExtend 32 }).finishing .ok
          (expanded pairs).length 1 msg.length)
      ∧ ((expanded pairs).length < s.frame.blockSize p.index.toNat → expanded pairs ≠ [] →
        t.settled = ({ s with mem := m, dbufValid := false, dbufBlock := 0xFFFFFFFF#32 }).finishing .sizeMismatch
          (expanded pairs).length 1 msg.length)
      ∧ ((expanded pairs).length < s.frame.blockSize p.index.toNat → expanded pairs = [] →
        t.settled = ({ s with mem := m }).finishing .sizeMismatch 0 1 msg.length)
      ∧ m.bytes p.dbufAddr.toNat (expanded pairs).length = expanded pairs
      ∧ m.bytes p.scrAddr.toNat msg.length = msg.values
      ∧ ∀ a, (a < p.dbufAddr.toNat ∨ p.dbufAddr.toNat + (expanded pairs).length ≤ a) →
          (a < p.scrAddr.toNat ∨ p.scrAddr.toNat + msg.length ≤ a) → m.read a = s.mem.read a)
  ∧ ∀ (s : State) (p : Params) (tlen : Nat),
    s.inflight = some { op := 0x02#8, params := p } → indexedDepth s.frame.depth = true →
    s.frame.blockSize p.index.toNat ≤ p.dbufCap.toNat → p.scrRegion.fits = true →
    regionsClash [p.blkRegion] [p.scrRegion, ⟨p.dbufAddr.toNat, s.frame.blockSize p.index.toNat⟩] = false →
    s.readsPlain p.blkRegion →
    s.mem.bytes (p.blkAddr.toNat + 1) 2 = [BitVec.ofNat 8 tlen, BitVec.ofNat 8 (tlen / 256)] → tlen < 0x10000 →
    (p.blkLen.toNat < 3 + tlen ∨ tlen = 0) →
    ∃ t, exec .blkHuffman s = .next t ∧ t.settled = s.finishing .badTable 0 1 0 ∧ t.mem = s.mem

/-- 40_block_decoder.md R215, R211, R204: the Huffman-Direct tag decodes its stream to exactly the block in DBUF; a message
shorter than the block ends with SIZE_MISMATCH, its bytes standing, and DBUF then holds no block where any byte was written.
A payload too short for the section header or its table, or a table of length 0, ends with BAD_TABLE before any write. That T
and TREE_PAD stay as they were, though the tag builds a tree in the shared store, is the model's choice (log 10). -/
def Obligations.HuffmanDirectTagDecodesTheBlock : Prop :=
  (∀ (s : State) (p : Params) (tlen : Nat) (book : CodeBook) (msg : Message),
    s.inflight = some { op := 0x02#8, params := p } → indexedDepth s.frame.depth = true →
    s.frame.blockSize p.index.toNat ≤ p.dbufCap.toNat → p.blkRegion.fits = true → p.dbufRegion.fits = true →
    regionsClash [p.blkRegion] [⟨p.dbufAddr.toNat, s.frame.blockSize p.index.toNat⟩] = false →
    s.readsPlain p.blkRegion → s.writesPlain ⟨p.dbufAddr.toNat, s.frame.blockSize p.index.toNat⟩ →
    s.mem.bytes (p.blkAddr.toNat + 1) 2 = [BitVec.ofNat 8 tlen, BitVec.ofNat 8 (tlen / 256)] → tlen < 0x10000 →
    0 < tlen → 3 + tlen ≤ p.blkLen.toNat →
    (s.mem.read (p.blkAddr.toNat + 3)).toNat ≤ 7 →
    tableHolds s.mem (p.blkAddr.toNat + 3) tlen book 1 → book.prefixFree → book.nodes ≤ s.platform.nodeCap →
    (∀ e ∈ msg, (e.2, e.1) ∈ book) →
    (s.mem.read (p.blkAddr.toNat + 3)).toNat ≤ 8 * (p.blkLen.toNat - 3 - tlen) →
    s.mem.bits (p.blkAddr.toNat + 3 + tlen)
      (8 * (p.blkLen.toNat - 3 - tlen) - (s.mem.read (p.blkAddr.toNat + 3)).toNat) = msg.bits →
    msg.length ≤ s.frame.blockSize p.index.toNat →
    ∃ t m, exec .blkHuffmanDirect s = .next t ∧ t.mem = m
      ∧ (msg.length = s.frame.blockSize p.index.toNat →
        t.settled = ({ s with mem := m, dbufValid := true, dbufBlock := p.index.zeroExtend 32 }).finishing .ok
          msg.length 3 msg.length)
      ∧ (msg.length < s.frame.blockSize p.index.toNat → msg ≠ [] →
        t.settled = ({ s with mem := m, dbufValid := false, dbufBlock := 0xFFFFFFFF#32 }).finishing .sizeMismatch
          msg.length 3 msg.length)
      ∧ (msg.length < s.frame.blockSize p.index.toNat → msg = [] →
        t.settled = ({ s with mem := m }).finishing .sizeMismatch 0 3 0)
      ∧ m.bytes p.dbufAddr.toNat msg.length = msg.values
      ∧ Memory.sameOutside s.mem m p.dbufAddr.toNat msg.length)
  ∧ ∀ (s : State) (p : Params) (tlen : Nat),
    s.inflight = some { op := 0x02#8, params := p } → indexedDepth s.frame.depth = true →
    s.frame.blockSize p.index.toNat ≤ p.dbufCap.toNat →
    regionsClash [p.blkRegion] [⟨p.dbufAddr.toNat, s.frame.blockSize p.index.toNat⟩] = false →
    s.readsPlain p.blkRegion →
    s.mem.bytes (p.blkAddr.toNat + 1) 2 = [BitVec.ofNat 8 tlen, BitVec.ofNat 8 (tlen / 256)] → tlen < 0x10000 →
    (p.blkLen.toNat < 3 + tlen ∨ tlen = 0) →
    ∃ t, exec .blkHuffmanDirect s = .next t ∧ t.settled = s.finishing .badTable 0 3 0 ∧ t.mem = s.mem

/-- 40_block_decoder.md R218, R204: the JPEG tag at depth 24, with room in DBUF, ends with JPEG_HANDOFF, reports the size
to request, writes nothing, and clears DBUF_VALID. -/
def Obligations.JpegTagHandsTheBlockOff : Prop :=
  ∀ (s : State) (p : Params),
    s.inflight = some { op := 0x02#8, params := p } → s.frame.depth = 24#8 →
    s.frame.blockSize p.index.toNat ≤ p.dbufCap.toNat →
    ∃ t, exec .blkJpeg s = .next t
      ∧ t.settled = ({ s with dbufValid := false, dbufBlock := 0xFFFFFFFF#32 }).finishing .jpegHandoff
          (2 * s.frame.w.toNat * s.frame.rows p.index.toNat) 2 0
      ∧ t.mem = s.mem

/-- 40_block_decoder.md R200, R201, R203, R220, 60_exceptions.md R401, R411: a tag byte that memory refuses to read ends
DECODE_BLOCK with BUS_ERROR and results 0; a tag at a depth it is not valid at, or a reserved tag, ends it with
UNSUPPORTED_ENCODING, and a valid one whose block DBUF cannot hold with ALLOC_FAILURE, RESULT1 the tag. Nothing is written
and the DBUF state is unchanged. While the completion is held the command keeps the host off its regions (20_memory.md R81,
R92): the tag byte alone before the tag is read, then the row of the tag in the table of R81. That a command which ended with an
error keeps the host off all of them is the model's reading (log 12), and so is that a tag whose regions overlap is refused
before these checks (log 11). -/
def Obligations.RejectedTagsLeaveTheBlockAsItWas : Prop :=
  (∀ (s : State) (p : Params) (b : Byte),
    s.inflight = some { op := 0x02#8, params := p } →
    (s.platform.answersRead p.blkAddr.toNat = false →
      ∃ t, step s = .next t ∧ t.settled = s.finishing .busError 0 0 0 ∧ t.mem = s.mem
        ∧ ∀ c, t.inflight = some c → c.reads = [⟨p.blkAddr.toNat, 1⟩] ∧ c.writes = [])
    ∧ (s.readsPlain ⟨p.blkAddr.toNat, 1⟩ → s.mem.read p.blkAddr.toNat = b →
      regionsClash (tagRegions b s.frame p).1 (tagRegions b s.frame p).2 = false →
      ((4 ≤ b.toNat ∨ (b = 0x02#8 ∧ s.frame.depth ≠ 24#8)
          ∨ (b.toNat < 4 ∧ b ≠ 0x02#8 ∧ indexedDepth s.frame.depth = false)) →
        ∃ t, step s = .next t ∧ t.settled = s.finishing .unsupportedEncoding 0 b.toNat 0 ∧ t.mem = s.mem
          ∧ ∀ c, t.inflight = some c → (c.reads, c.writes) = tagRegions b s.frame p)
      ∧ (((b = 0x02#8 ∧ s.frame.depth = 24#8) ∨ (b.toNat < 4 ∧ b ≠ 0x02#8 ∧ indexedDepth s.frame.depth = true)) →
        p.dbufCap.toNat < s.frame.blockSize p.index.toNat →
        ∃ t, step s = .next t ∧ t.settled = s.finishing .allocFailure 0 b.toNat 0 ∧ t.mem = s.mem
          ∧ ∀ c, t.inflight = some c → (c.reads, c.writes) = tagRegions b s.frame p)))
  ∧ ∀ (f : Frame) (p : Params) (b : Byte), tagRegions b f p =
      match b.toNat with
      | 0 | 3 => ([p.blkRegion], [⟨p.dbufAddr.toNat, f.blockSize p.index.toNat⟩])
      | 1 => ([p.blkRegion], [p.scrRegion, ⟨p.dbufAddr.toNat, f.blockSize p.index.toNat⟩])
      | _ => ([⟨p.blkAddr.toNat, 1⟩], [])

/-- 40_block_decoder.md R204: the completion clause of DECODE_BLOCK, for every outcome. -/
def Obligations.DecodeBlockCompletionClause : Prop :=
  ∀ (s : State) (c : InFlight) (code : Code) (n : Nat),
    s.inflight = some c → c.pos = .held code n → c.op = 0x02#8 →
    (code = .ok → s.settled.dbufValid = true ∧ s.settled.dbufBlock = c.params.index.zeroExtend 32)
    ∧ (code ≠ .ok → (code = .jpegHandoff ∨ c.wrote = true) →
      s.settled.dbufValid = false ∧ s.settled.dbufBlock = 0xFFFFFFFF#32)
    ∧ (code ≠ .ok → code ≠ .jpegHandoff → c.wrote = false →
      s.settled.dbufValid = s.dbufValid ∧ s.settled.dbufBlock = s.dbufBlock)

/-! ### The compositor -/

/-- 42_compositor.md R301, R302: the fields of an unswapped colour, the exchange of its bytes under SWAP, and the worked
values of Resolve. The layout of the fields is R301's, which the spec itself marks as general knowledge (log 31). -/
def Obligations.ResolvedColourHasItsChannels : Prop :=
  (∀ b g r : Byte,
    (paletteColor b g r false).extractLsb' 11 5 = r.extractLsb' 3 5
    ∧ (paletteColor b g r false).extractLsb' 5 6 = g.extractLsb' 2 6
    ∧ (paletteColor b g r false).extractLsb' 0 5 = b.extractLsb' 3 5
    ∧ (paletteColor b g r true).extractLsb' 0 8 = (paletteColor b g r false).extractLsb' 8 8
    ∧ (paletteColor b g r true).extractLsb' 8 8 = (paletteColor b g r false).extractLsb' 0 8)
  ∧ paletteColor 0x12#8 0x34#8 0x56#8 false = 0x51A2#16 ∧ paletteColor 0x12#8 0x34#8 0x56#8 true = 0xA251#16
  ∧ paletteColor 0xFF#8 0xFF#8 0xFF#8 false = 0xFFFF#16 ∧ paletteColor 0xFF#8 0xFF#8 0xFF#8 true = 0xFFFF#16
  ∧ paletteColor 0x07#8 0x07#8 0x07#8 false = 0x0020#16 ∧ paletteColor 0x07#8 0x07#8 0x07#8 true = 0x2000#16
  ∧ paletteColor 0x00#8 0x00#8 0xFF#8 false = 0xF800#16 ∧ paletteColor 0x00#8 0x00#8 0xFF#8 true = 0x00F8#16

/-- 42_compositor.md R303: PAL_RESOLVE of an index of the bound palette reports its colour and changes nothing else, the
palette cache included; at depth 24, or of an index outside the palette, it ends with BAD_PARAM. -/
def Obligations.PalResolveReportsTheColour : Prop :=
  ∀ s : State, s.inflight = none → s.frameBound = true →
    (s.frame.depth ≠ 24#8 → s.params.palIndex.toNat < 2 ^ s.frame.depth.toNat →
      s.readsPlain ⟨s.frame.palAddr.toNat + 4 * s.params.palIndex.toNat, 3⟩ →
      ∃ t, exec .palResolve s = .next t
        ∧ t.settled = s.finishing .ok
            (paletteColor (s.mem.read (s.frame.palAddr.toNat + 4 * s.params.palIndex.toNat))
              (s.mem.read (s.frame.palAddr.toNat + 4 * s.params.palIndex.toNat + 1))
              (s.mem.read (s.frame.palAddr.toNat + 4 * s.params.palIndex.toNat + 2)) s.params.swap).toNat 0 0
        ∧ t.mem = s.mem)
    ∧ ((s.frame.depth = 24#8 ∨ 2 ^ s.frame.depth.toNat ≤ s.params.palIndex.toNat) →
      ∃ t, exec .palResolve s = .next t ∧ t.settled = s.finishing .badParam 0 0 0 ∧ t.mem = s.mem)

/-- 42_compositor.md R310, R316, R318: with MIRROR_EN 0, COMPOSITE writes the colour of every block pixel of the drawn
rectangle to its destination pixel, and no other byte; RESULT0 counts the pixels; the slots of the drawn indices are
resolved and counted in RESULT2, and no other slot changes. -/
def Obligations.CompositeDrawsTheClippedBlock : Prop :=
  ∀ s : State, s.canDraw → s.params.mirrorEn = false → s.drawing.empty = false →
    ∃ (t : State) (m : Memory) (cache : Vector (Option Half) 256), exec .composite s = .next t ∧ t.mem = m
      ∧ t.settled = ({ s with mem := m, pcache := cache }).finishing .ok
          ((s.drawing.x2 - s.drawing.x1 + 1) * (s.drawing.y2 - s.drawing.y1 + 1)).toNat 0
          ((List.finRange 256).filter fun i => decide (s.pcache[i] = none ∧ cache[i] ≠ none)).length
      ∧ (∀ x y, s.drawing.has x y →
          m.pixelIs (primaryAddr s x y) (pixelColor s (x - s.drawing.ox).toNat (y - s.drawing.by1).toNat))
      ∧ (∀ a, (∀ x y, s.drawing.has x y → a ≠ primaryAddr s x y ∧ a ≠ primaryAddr s x y + 1) →
          m.read a = s.mem.read a)
      ∧ ∀ i : Fin 256,
          (s.pcache[i] ≠ none → cache[i] = s.pcache[i])
          ∧ (s.pcache[i] = none → s.drawsIndex i.val → cache[i] = some (slotColor s (BitVec.ofNat 8 i.val)))
          ∧ (s.pcache[i] = none → ¬ s.drawsIndex i.val → cache[i] = none)

/-- 42_compositor.md R305, R310, R312, R313, R314, R316: with MIRROR_EN 1, COMPOSITE also writes every drawn pixel's
colour at its mirror column, on the same row, where that column lies in the stride, and no other byte; where a primary and a
mirror column are one, the later in the order of R316 is what memory holds. RESULT0 counts the primary pixels and RESULT1 the
mirror pixels; the slots of the drawn indices are resolved and counted in RESULT2, and no other slot and nothing else
changes. -/
def Obligations.CompositeMirrorsTheClippedBlock : Prop :=
  ∀ s : State, s.canDraw → s.params.mirrorEn = true → s.drawing.empty = false →
    ∃ (t : State) (m : Memory) (cache : Vector (Option Half) 256) (n : Nat), exec .composite s = .next t ∧ t.mem = m
      ∧ t.settled = ({ s with mem := m, pcache := cache }).finishing .ok
          ((s.drawing.x2 - s.drawing.x1 + 1) * (s.drawing.y2 - s.drawing.y1 + 1)).toNat
          (n * (s.drawing.y2 - s.drawing.y1 + 1).toNat)
          ((List.finRange 256).filter fun i => decide (s.pcache[i] = none ∧ cache[i] ≠ none)).length
      ∧ (∃ xs : Finset Int, xs.card = n ∧ ∀ x, x ∈ xs ↔ s.drawing.x1 ≤ x ∧ x ≤ s.drawing.x2 ∧ mirrorFits s x)
      ∧ (∀ x y, s.drawing.has x y →
          m.pixelIs (primaryAddr s x y)
            (pixelColor s (shownColumn s x - s.drawing.ox).toNat (y - s.drawing.by1).toNat)
          ∧ (mirrorFits s x →
            m.pixelIs (mirrorAddr s x y)
              (pixelColor s (shownColumn s x - s.drawing.ox).toNat (y - s.drawing.by1).toNat)))
      ∧ (∀ a, (∀ x y, s.drawing.has x y → a ≠ primaryAddr s x y ∧ a ≠ primaryAddr s x y + 1
            ∧ (mirrorFits s x → a ≠ mirrorAddr s x y ∧ a ≠ mirrorAddr s x y + 1)) →
          m.read a = s.mem.read a)
      ∧ ∀ i : Fin 256,
          (s.pcache[i] ≠ none → cache[i] = s.pcache[i])
          ∧ (s.pcache[i] = none → s.drawsIndex i.val → cache[i] = some (slotColor s (BitVec.ofNat 8 i.val)))
          ∧ (s.pcache[i] = none → ¬ s.drawsIndex i.val → cache[i] = none)

/-- 42_compositor.md R315: a drawing of no pixel finishes OK with results 0, no memory access and no cache change, whatever
memory answers. Regions that overlap are refused (20_memory.md R93, OverlappingRegionsAreRefused). -/
def Obligations.EmptyDrawingDoesNoWork : Prop :=
  ∀ s : State, s.inflight = none → s.frameBound = true → s.params.index.toNat < s.frame.count.toNat →
    s.dbufValid = true → s.dbufBlock = s.params.index.zeroExtend 32 →
    Region.fits ⟨s.params.dbufAddr.toNat, s.frame.blockSize s.params.index.toNat⟩ = true →
    s.params.destRegion.fits = true → s.drawing.empty = true →
    regionsClash (compositeReads s.frame s.params) [s.params.destRegion] = false →
    ∃ t, exec .composite s = .next t ∧ t.settled = s.finishing .ok 0 0 0 ∧ t.mem = s.mem

/-! ### Frames and whole-machine rules -/

/-- 20_memory.md R81: no instruction, whatever its outcome, changes a byte outside the regions it may write. -/
def Obligations.NoByteOutsideTheWriteRegionsChanges : Prop :=
  ∀ (i : Instr) (s t : State), exec i s = .next t →
    ∀ a, (∀ r ∈ writeRegions i s, r.has a = false) → t.mem.read a = s.mem.read a

/-- 10_state.md R66, 42_compositor.md R305, R306: what each instruction leaves unchanged, whatever its outcome: the
registers the host writes, DROPPED and the platform always; each of the bound frame, the tree, the cache and the STATUS bits
but for the instructions whose rules name it; a COMPOSITE of any outcome keeps every resolved slot, and a slot it fills
holds the colour of its palette entry. 60_exceptions.md R404: a failed command but BIND_FRAME leaves the bound frame,
FRAME_BOUND and the palette cache as they were, and DBUF_VALID and DBUF_BLOCK too (a tag's are R204's,
DecodeBlockCompletionClause); how R305 and R306 stand beside that is the model's reading (log 16). That F stays as it was at
UNBIND, and T and TREE_PAD at DECODE_BLOCK and its tags, where they are unspecified (93_implementation_defined.md U5), is
the model's choice (log 10). -/
def Obligations.InstructionsChangeOnlyWhatTheirRulesName : Prop :=
  ∀ (i : Instr) (s t : State), exec i s = .next t →
    t.params = s.params ∧ t.platform = s.platform ∧ t.inputs = s.inputs ∧ t.readData = s.readData
    ∧ (t.dropped = s.dropped ∨ ∃ w, encode i = .command w ∧ s.busy = true)
    ∧ (i ≠ .bindFrame → t.frame = s.frame)
    ∧ (i ≠ .bindFrame → i ≠ .unbind → t.frameBound = s.frameBound)
    ∧ (i ≠ .bindFrame → i ≠ .unbind → i ≠ .pcacheFlush → i ≠ .composite → t.pcache = s.pcache)
    ∧ (i = .composite → ∀ k : Fin 256,
        (s.pcache[k] ≠ none → t.pcache[k] = s.pcache[k])
        ∧ (s.pcache[k] = none → t.pcache[k] = none ∨ t.pcache[k] = some (slotColor s (BitVec.ofNat 8 k.val))))
    ∧ (i ≠ .bindFrame → t.settled.err ≠ .ok →
        t.frame = s.frame ∧ t.frameBound = s.frameBound ∧ t.pcache = s.pcache ∧ t.settled.pcache = s.pcache
        ∧ (s.inflight = none → t.settled.dbufValid = s.dbufValid ∧ t.settled.dbufBlock = s.dbufBlock))
    ∧ (i ≠ .huffBuild → t.tree = s.tree ∧ t.treePad = s.treePad)
    ∧ (i ≠ .huffBuild → i ≠ .decodeBlock → s.inflight = none → t.settled.treeValid = s.treeValid)
    ∧ (i ≠ .bindFrame → i ≠ .unbind → i ≠ .markDecoded → s.inflight = none →
        t.settled.dbufValid = s.dbufValid ∧ t.settled.dbufBlock = s.dbufBlock)

/-- 20_memory.md R81, R93, 93_implementation_defined.md U2: a command is refused wherever its determined regions overlap,
whatever else holds: RLE_EXPAND and HUFF_DECODE of any operands; COMPOSITE over the bound frame's palette, or over a block of
that frame; tags 0, 1 and 3 of any block at any depth, and a DECODE_BLOCK of such a tag that would fail its checks before the
tag is read, as far as its regions are determined: without a block of a bound frame DBUF's is not. That the refusal comes before
every check, and that a DECODE_BLOCK whose checks fail is held to the tag in memory, is the model's reading (log 11). -/
def Obligations.OverlappingRegionsAreRefused : Prop :=
  (∀ s : State, s.inflight = none → (∃ a, s.params.inRegion.has a = true ∧ s.params.outRegion.has a = true) →
    exec .rleExpand s = .refused .regionOverlap ∧ exec .huffDecode s = .refused .regionOverlap)
  ∧ (∀ s : State, s.inflight = none → s.frameBound = true →
    (∃ a, s.params.destRegion.has a = true
      ∧ ((indexedDepth s.frame.depth = true ∧ s.frame.palRegion.has a = true)
        ∨ (s.params.index.toNat < s.frame.count.toNat
          ∧ Region.has ⟨s.params.dbufAddr.toNat, s.frame.blockSize s.params.index.toNat⟩ a = true))) →
    exec .composite s = .refused .regionOverlap)
  ∧ (∀ (s : State) (p : Params), s.inflight = some { op := 0x02#8, params := p } →
    ((∃ a, p.blkRegion.has a = true ∧ Region.has ⟨p.dbufAddr.toNat, s.frame.blockSize p.index.toNat⟩ a = true) →
      exec .blkRle s = .refused .regionOverlap ∧ exec .blkHuffmanDirect s = .refused .regionOverlap
      ∧ exec .blkHuffman s = .refused .regionOverlap)
    ∧ ((∃ a, p.scrRegion.has a = true ∧ (p.blkRegion.has a = true
          ∨ Region.has ⟨p.dbufAddr.toNat, s.frame.blockSize p.index.toNat⟩ a = true)) →
      exec .blkHuffman s = .refused .regionOverlap))
  ∧ ∀ (s : State) (tag : Byte), s.inflight = none → s.params.blkLen ≠ 0#32 →
    s.readsPlain ⟨s.params.blkAddr.toNat, 1⟩ → s.mem.read s.params.blkAddr.toNat = tag →
    (s.frameBound = false ∨ s.frame.count.toNat ≤ s.params.index.toNat ∨ s.params.blkRegion.fits = false
      ∨ s.params.dbufRegion.fits = false) →
    ((tag = 0x00#8 ∨ tag = 0x01#8 ∨ tag = 0x03#8) → s.frameBound = true → s.params.index.toNat < s.frame.count.toNat →
      (∃ a, s.params.blkRegion.has a = true
        ∧ Region.has ⟨s.params.dbufAddr.toNat, s.frame.blockSize s.params.index.toNat⟩ a = true) →
      exec .decodeBlock s = .refused .regionOverlap)
    ∧ (tag = 0x01#8 →
      (∃ a, s.params.scrRegion.has a = true ∧ (s.params.blkRegion.has a = true
        ∨ (s.frameBound = true ∧ s.params.index.toNat < s.frame.count.toNat
          ∧ Region.has ⟨s.params.dbufAddr.toNat, s.frame.blockSize s.params.index.toNat⟩ a = true))) →
      exec .decodeBlock s = .refused .regionOverlap)

/-- 10_state.md R37, R66: RESULT0 to RESULT2 and ERR change only at a completion or at a reset. A completion comes in the
step of a write of CMD or of a machine that was BUSY, and leaves BUSY 0 and DONE 1; that DONE is 1 also after a last held step
whose transaction writes STATUS is the model's choice (log 19). -/
def Obligations.ResultsChangeOnlyAtCompletion : Prop :=
  ∀ s t : State, step s = .next t →
    (t.result0 ≠ s.result0 ∨ t.result1 ≠ s.result1 ∨ t.result2 ≠ s.result2 ∨ t.err ≠ s.err) →
    (t.busy = false ∧ t.done = true
      ∧ (s.busy = true ∨ ∃ (w : Word) (rest : List Input), s.inputs = .wr 0x008#11 .word w :: rest))
    ∨ ∃ rest, s.inputs = .reset :: rest

/-- 10_state.md R63, 42_compositor.md R306: the palette cache changes only by a COMPOSITE that finishes OK (60_exceptions.md
R404; log 16), which keeps every resolved slot, or by a BIND_FRAME, UNBIND, PCACHE_FLUSH or reset, which leaves every slot
unresolved. -/
def Obligations.CacheChangesOnlyByItsCommands : Prop :=
  ∀ s t : State, step s = .next t → t.pcache ≠ s.pcache →
    ((∃ rest, s.inputs = .reset :: rest) ∧ ∀ i : Fin 256, t.pcache[i] = none)
    ∨ ∃ (w : Word) (rest : List Input), s.inputs = .wr 0x008#11 .word w :: rest
      ∧ ((decode (.command w) = .instr .composite ∧ t.settled.err = .ok
            ∧ ∀ (i : Fin 256) (color : Half), s.pcache[i] = some color → t.pcache[i] = some color)
        ∨ ((decode (.command w) = .instr .bindFrame ∨ decode (.command w) = .instr .unbind
              ∨ decode (.command w) = .instr .pcacheFlush)
            ∧ ∀ i : Fin 256, t.pcache[i] = none))

/-- The invariant holds right after reset. -/
def Obligations.ResetMeetsTheInvariant : Prop :=
  State.reset.Inv

/-- Every step keeps the invariant: memory canonical, reserved bits clear, a bound frame legal, DBUF_VALID and DBUF_BLOCK
in step, a held tree a prefix code, the in-flight command legal. -/
def Obligations.EveryStepKeepsTheInvariant : Prop :=
  ∀ s t : State, s.Inv → step s = .next t → t.Inv

/-- 20_memory.md R90: no step of a machine that meets the invariant makes an access outside the address space, the model's
only fault (log 20). -/
def Obligations.WellFormedMachinesNeverFault : Prop :=
  ∀ (s : State) (f : Fault), s.Inv → step s ≠ .fault f

end
end

