-- ==== Sys2Proof/Laws/Memory.lean ====
section
/-! SUPPORT. The laws of system memory: a read after a write, the canonical form and what it is good for, and the taking
back of writes. -/

namespace Sys2Proof.Machine

/-! ### A read after a write -/

theorem Memory.read_filter_self (m : Memory) (x : Nat) :
    Memory.read (m.filter fun c => c.1 != x) x = unlistedByte := by
  induction m with
  | nil => rfl
  | cons c m ih =>
    by_cases h : c.1 = x
    · simp [h, ih]
    · simp [h, Memory.read, ih]

theorem Memory.read_filter_other (m : Memory) {x y : Nat} (h : y ≠ x) :
    Memory.read (m.filter fun c => c.1 != x) y = Memory.read m y := by
  induction m with
  | nil => rfl
  | cons c m ih =>
    by_cases hc : c.1 = x
    · have : ¬ c.1 = y := fun e => h (e ▸ hc)
      simp [hc, ih, Memory.read, hc ▸ this]
    · simp [hc, Memory.read, ih]

theorem Memory.read_insert_self (m : Memory) (x : Nat) (v : Byte) (h : ∀ c ∈ m, c.1 ≠ x) :
    Memory.read (Memory.insert m x v) x = v := by
  induction m with
  | nil => simp [Memory.insert, Memory.read]
  | cons c m ih =>
    have hc : ¬ c.1 = x := h c (by simp)
    by_cases hx : x < c.1
    · simp [Memory.insert, hx, Memory.read]
    · simp [Memory.insert, hx, Memory.read, hc, ih fun d hd => h d (by simp [hd])]

theorem Memory.read_insert_other (m : Memory) {x y : Nat} (v : Byte) (h : y ≠ x) :
    Memory.read (Memory.insert m x v) y = Memory.read m y := by
  have hxy : ¬ x = y := fun e => h e.symm
  induction m with
  | nil => simp [Memory.insert, Memory.read, hxy]
  | cons c m ih =>
    by_cases hx : x < c.1
    · simp [Memory.insert, hx, Memory.read, hxy]
    · simp [Memory.insert, hx, Memory.read, ih]

/-- A byte reads as the value last written to it. -/
@[simp] theorem Memory.read_write_self (m : Memory) (x : Nat) (v : Byte) : Memory.read (m.write x v) x = v := by
  unfold Memory.write
  dsimp only
  split
  · rw [Memory.read_filter_self]; exact Eq.symm ‹_›
  · exact Memory.read_insert_self _ _ _ (by simp)

/-- A write leaves every other byte alone. -/
theorem Memory.read_write_other (m : Memory) {x y : Nat} (v : Byte) (h : y ≠ x) :
    Memory.read (m.write x v) y = Memory.read m y := by
  unfold Memory.write
  dsimp only
  split
  · exact Memory.read_filter_other _ h
  · rw [Memory.read_insert_other _ _ h, Memory.read_filter_other _ h]

theorem Memory.read_write (m : Memory) (x y : Nat) (v : Byte) :
    Memory.read (m.write x v) y = if y = x then v else Memory.read m y := by
  split
  · next h => rw [h, Memory.read_write_self]
  · next h => exact Memory.read_write_other m v h

/-! ### The canonical form -/

theorem Memory.risingFrom_cons {low : Nat} {c : Host.Cell} {m : Memory} :
    Memory.risingFrom low (c :: m) = true ↔
      low ≤ c.1 ∧ c.1 < spaceSize ∧ c.2 ≠ unlistedByte ∧ Memory.risingFrom (c.1 + 1) m = true := by
  simp [Memory.risingFrom, and_assoc]

theorem Memory.risingFrom_mono {low low' : Nat} {m : Memory} (h : Memory.risingFrom low m = true) (hl : low' ≤ low) :
    Memory.risingFrom low' m = true := by
  cases m with
  | nil => rfl
  | cons c m => rw [Memory.risingFrom_cons] at h ⊢; exact ⟨hl.trans h.1, h.2⟩

theorem Memory.risingFrom_filter {m : Memory} (p : Host.Cell → Bool) {low : Nat} (h : Memory.risingFrom low m = true) :
    Memory.risingFrom low (m.filter p) = true := by
  induction m generalizing low with
  | nil => rfl
  | cons c m ih =>
    rw [Memory.risingFrom_cons] at h
    by_cases hp : p c = true
    · rw [List.filter_cons_of_pos hp, Memory.risingFrom_cons]; exact ⟨h.1, h.2.1, h.2.2.1, ih h.2.2.2⟩
    · rw [List.filter_cons_of_neg hp]
      exact Memory.risingFrom_mono (ih h.2.2.2) (Nat.le_succ_of_le h.1)

theorem Memory.risingFrom_insert {m : Memory} {x low : Nat} {v : Byte} (h : Memory.risingFrom low m = true)
    (hx : x < spaceSize) (hl : low ≤ x) (hv : v ≠ unlistedByte) (hm : ∀ c ∈ m, c.1 ≠ x) :
    Memory.risingFrom low (Memory.insert m x v) = true := by
  induction m generalizing low with
  | nil => rw [Memory.insert, Memory.risingFrom_cons]; exact ⟨hl, hx, hv, rfl⟩
  | cons c m ih =>
    rw [Memory.risingFrom_cons] at h
    have hc : c.1 ≠ x := hm c (by simp)
    by_cases hlt : x < c.1
    · rw [Memory.insert, if_pos hlt, Memory.risingFrom_cons, Memory.risingFrom_cons]
      exact ⟨hl, hx, hv, hlt, h.2⟩
    · rw [Memory.insert, if_neg hlt, Memory.risingFrom_cons]
      exact ⟨h.1, h.2.1, h.2.2.1, ih h.2.2.2 (by omega) fun d hd => hm d (by simp [hd])⟩

/-- A write inside the address space keeps the canonical form. -/
theorem Memory.wf_write {m : Memory} {x : Nat} (v : Byte) (h : m.wf = true) (hx : x < spaceSize) :
    (m.write x v).wf = true := by
  have hf := Memory.risingFrom_filter (fun c => c.1 != x) h
  unfold Memory.write
  dsimp only
  split
  · exact hf
  · exact Memory.risingFrom_insert hf hx (Nat.zero_le _) ‹_› (by simp)

/-- The memory of the reset state has the canonical form. -/
theorem Memory.wf_reset : State.reset.mem.wf = true := rfl

theorem Memory.read_below {m : Memory} {low x : Nat} (h : Memory.risingFrom low m = true) (hx : x < low) :
    Memory.read m x = unlistedByte := by
  induction m generalizing low with
  | nil => rfl
  | cons c m ih =>
    rw [Memory.risingFrom_cons] at h
    have : ¬ c.1 = x := by omega
    simp only [Memory.read, this, if_false]
    exact ih h.2.2.2 (by omega)

theorem Memory.ext_risingFrom {m n : Memory} {low : Nat} (hm : Memory.risingFrom low m = true)
    (hn : Memory.risingFrom low n = true) (h : ∀ x, Memory.read m x = Memory.read n x) : m = n := by
  induction m generalizing n low with
  | nil =>
    cases n with
    | nil => rfl
    | cons d n =>
      rw [Memory.risingFrom_cons] at hn
      have := h d.1
      simp [Memory.read] at this
      exact absurd this.symm hn.2.2.1
  | cons c m ih =>
    rw [Memory.risingFrom_cons] at hm
    cases n with
    | nil =>
      have := h c.1
      simp [Memory.read] at this
      exact absurd this hm.2.2.1
    | cons d n =>
      rw [Memory.risingFrom_cons] at hn
      have hcd : c.1 = d.1 := by
        by_contra hne
        rcases Nat.lt_or_gt_of_ne hne with hlt | hlt
        · have := h c.1
          simp only [Memory.read, if_pos, Ne.symm hne, if_false] at this
          rw [Memory.read_below hn.2.2.2 (by omega)] at this
          exact hm.2.2.1 this
        · have := h d.1
          simp only [Memory.read, if_pos, hne, if_false] at this
          rw [Memory.read_below hm.2.2.2 (by omega)] at this
          exact hn.2.2.1 this.symm
      have hv : c.2 = d.2 := by have := h c.1; simpa [Memory.read, hcd] using this
      have htail : m = n := by
        refine ih (low := c.1 + 1) hm.2.2.2 (hcd ▸ hn.2.2.2) fun x => ?_
        by_cases hx : c.1 = x
        · rw [Memory.read_below hm.2.2.2 (by omega), Memory.read_below hn.2.2.2 (by omega)]
        · have := h x
          have hx' : ¬ d.1 = x := hcd ▸ hx
          simpa [Memory.read, hx, hx'] using this
      rw [htail, Prod.ext hcd hv]

/-- Canonical memories that read alike are equal. -/
theorem Memory.ext_wf {m n : Memory} (hm : m.wf = true) (hn : n.wf = true)
    (h : ∀ x, Memory.read m x = Memory.read n x) : m = n :=
  Memory.ext_risingFrom hm hn h

/-! ### Taking back writes -/

/-- Writing back the byte a write replaced restores the memory. -/
theorem Memory.write_back {m : Memory} {x : Nat} (v : Byte) (h : m.wf = true) (hx : x < spaceSize) :
    (m.write x v).write x (Memory.read m x) = m := by
  refine Memory.ext_wf (Memory.wf_write _ (Memory.wf_write v h hx) hx) h fun y => ?_
  rw [Memory.read_write, Memory.read_write]
  split
  · next e => rw [e]
  · rfl

/-- Taking back writes inside the address space keeps the canonical form. -/
theorem undoWrites_wf {us : List Host.Cell} {m : Memory} (h : m.wf = true) (hu : ∀ w ∈ us, w.1 < spaceSize) :
    (undoWrites m us).wf = true := by
  induction us generalizing m with
  | nil => exact h
  | cons u us ih =>
    exact ih (Memory.wf_write _ h (hu u (by simp))) fun w hw => hu w (by simp [hw])

theorem undoWrites_append (m : Memory) (us vs : List Host.Cell) :
    undoWrites m (us ++ vs) = undoWrites (undoWrites m us) vs := by
  induction us generalizing m with
  | nil => rfl
  | cons u us ih => exact ih _

end Sys2Proof.Machine
end

