-- ==== Sys2Proof/Laws/State.lean ====
section
/-! SUPPORT. One lemma per field per named update of the state, so that no proof unfolds a record update. -/

namespace Sys2Proof.Machine

variable (s : State) (c : InFlight) (code : Code) (op : Byte) (data : Word) (r0 r1 r2 : Nat)

/-! ### `State.flushCache` -/

@[simp] theorem flushCache_params : s.flushCache.params = s.params := rfl
@[simp] theorem flushCache_result0 : s.flushCache.result0 = s.result0 := rfl
@[simp] theorem flushCache_result1 : s.flushCache.result1 = s.result1 := rfl
@[simp] theorem flushCache_result2 : s.flushCache.result2 = s.result2 := rfl
@[simp] theorem flushCache_done : s.flushCache.done = s.done := rfl
@[simp] theorem flushCache_dropped : s.flushCache.dropped = s.dropped := rfl
@[simp] theorem flushCache_err : s.flushCache.err = s.err := rfl
@[simp] theorem flushCache_frameBound : s.flushCache.frameBound = s.frameBound := rfl
@[simp] theorem flushCache_dbufValid : s.flushCache.dbufValid = s.dbufValid := rfl
@[simp] theorem flushCache_treeValid : s.flushCache.treeValid = s.treeValid := rfl
@[simp] theorem flushCache_dbufBlock : s.flushCache.dbufBlock = s.dbufBlock := rfl
@[simp] theorem flushCache_frame : s.flushCache.frame = s.frame := rfl
@[simp] theorem flushCache_tree : s.flushCache.tree = s.tree := rfl
@[simp] theorem flushCache_treePad : s.flushCache.treePad = s.treePad := rfl
@[simp] theorem flushCache_pcache : s.flushCache.pcache = emptyCache := rfl
@[simp] theorem flushCache_inflight : s.flushCache.inflight = s.inflight := rfl
@[simp] theorem flushCache_mem : s.flushCache.mem = s.mem := rfl
@[simp] theorem flushCache_platform : s.flushCache.platform = s.platform := rfl
@[simp] theorem flushCache_inputs : s.flushCache.inputs = s.inputs := rfl
@[simp] theorem flushCache_readData : s.flushCache.readData = s.readData := rfl
@[simp] theorem flushCache_freeIndex : s.flushCache.freeIndex = s.freeIndex := rfl

/-! ### `State.dropBlock` -/

@[simp] theorem dropBlock_params : s.dropBlock.params = s.params := rfl
@[simp] theorem dropBlock_result0 : s.dropBlock.result0 = s.result0 := rfl
@[simp] theorem dropBlock_result1 : s.dropBlock.result1 = s.result1 := rfl
@[simp] theorem dropBlock_result2 : s.dropBlock.result2 = s.result2 := rfl
@[simp] theorem dropBlock_done : s.dropBlock.done = s.done := rfl
@[simp] theorem dropBlock_dropped : s.dropBlock.dropped = s.dropped := rfl
@[simp] theorem dropBlock_err : s.dropBlock.err = s.err := rfl
@[simp] theorem dropBlock_frameBound : s.dropBlock.frameBound = s.frameBound := rfl
@[simp] theorem dropBlock_dbufValid : s.dropBlock.dbufValid = false := rfl
@[simp] theorem dropBlock_treeValid : s.dropBlock.treeValid = s.treeValid := rfl
@[simp] theorem dropBlock_dbufBlock : s.dropBlock.dbufBlock = noBlock := rfl
@[simp] theorem dropBlock_frame : s.dropBlock.frame = s.frame := rfl
@[simp] theorem dropBlock_tree : s.dropBlock.tree = s.tree := rfl
@[simp] theorem dropBlock_treePad : s.dropBlock.treePad = s.treePad := rfl
@[simp] theorem dropBlock_pcache : s.dropBlock.pcache = s.pcache := rfl
@[simp] theorem dropBlock_inflight : s.dropBlock.inflight = s.inflight := rfl
@[simp] theorem dropBlock_mem : s.dropBlock.mem = s.mem := rfl
@[simp] theorem dropBlock_platform : s.dropBlock.platform = s.platform := rfl
@[simp] theorem dropBlock_inputs : s.dropBlock.inputs = s.inputs := rfl
@[simp] theorem dropBlock_readData : s.dropBlock.readData = s.readData := rfl
@[simp] theorem dropBlock_freeIndex : s.dropBlock.freeIndex = s.freeIndex := rfl

/-! ### `State.unbindFrame` -/

@[simp] theorem unbindFrame_params : s.unbindFrame.params = s.params := rfl
@[simp] theorem unbindFrame_result0 : s.unbindFrame.result0 = s.result0 := rfl
@[simp] theorem unbindFrame_result1 : s.unbindFrame.result1 = s.result1 := rfl
@[simp] theorem unbindFrame_result2 : s.unbindFrame.result2 = s.result2 := rfl
@[simp] theorem unbindFrame_done : s.unbindFrame.done = s.done := rfl
@[simp] theorem unbindFrame_dropped : s.unbindFrame.dropped = s.dropped := rfl
@[simp] theorem unbindFrame_err : s.unbindFrame.err = s.err := rfl
@[simp] theorem unbindFrame_frameBound : s.unbindFrame.frameBound = false := rfl
@[simp] theorem unbindFrame_dbufValid : s.unbindFrame.dbufValid = false := rfl
@[simp] theorem unbindFrame_treeValid : s.unbindFrame.treeValid = s.treeValid := rfl
@[simp] theorem unbindFrame_dbufBlock : s.unbindFrame.dbufBlock = noBlock := rfl
@[simp] theorem unbindFrame_frame : s.unbindFrame.frame = s.frame := rfl
@[simp] theorem unbindFrame_tree : s.unbindFrame.tree = s.tree := rfl
@[simp] theorem unbindFrame_treePad : s.unbindFrame.treePad = s.treePad := rfl
@[simp] theorem unbindFrame_pcache : s.unbindFrame.pcache = emptyCache := rfl
@[simp] theorem unbindFrame_inflight : s.unbindFrame.inflight = s.inflight := rfl
@[simp] theorem unbindFrame_mem : s.unbindFrame.mem = s.mem := rfl
@[simp] theorem unbindFrame_platform : s.unbindFrame.platform = s.platform := rfl
@[simp] theorem unbindFrame_inputs : s.unbindFrame.inputs = s.inputs := rfl
@[simp] theorem unbindFrame_readData : s.unbindFrame.readData = s.readData := rfl
@[simp] theorem unbindFrame_freeIndex : s.unbindFrame.freeIndex = s.freeIndex := rfl

/-! ### `State.clearStatus` -/

@[simp] theorem clearStatus_params : (s.clearStatus data).params = s.params := rfl
@[simp] theorem clearStatus_result0 : (s.clearStatus data).result0 = s.result0 := rfl
@[simp] theorem clearStatus_result1 : (s.clearStatus data).result1 = s.result1 := rfl
@[simp] theorem clearStatus_result2 : (s.clearStatus data).result2 = s.result2 := rfl
@[simp] theorem clearStatus_done : (s.clearStatus data).done = (s.done && !data.getLsbD 1) := rfl
@[simp] theorem clearStatus_dropped : (s.clearStatus data).dropped = (s.dropped && !data.getLsbD 2) := rfl
@[simp] theorem clearStatus_err : (s.clearStatus data).err = s.err := rfl
@[simp] theorem clearStatus_frameBound : (s.clearStatus data).frameBound = s.frameBound := rfl
@[simp] theorem clearStatus_dbufValid : (s.clearStatus data).dbufValid = s.dbufValid := rfl
@[simp] theorem clearStatus_treeValid : (s.clearStatus data).treeValid = s.treeValid := rfl
@[simp] theorem clearStatus_dbufBlock : (s.clearStatus data).dbufBlock = s.dbufBlock := rfl
@[simp] theorem clearStatus_frame : (s.clearStatus data).frame = s.frame := rfl
@[simp] theorem clearStatus_tree : (s.clearStatus data).tree = s.tree := rfl
@[simp] theorem clearStatus_treePad : (s.clearStatus data).treePad = s.treePad := rfl
@[simp] theorem clearStatus_pcache : (s.clearStatus data).pcache = s.pcache := rfl
@[simp] theorem clearStatus_inflight : (s.clearStatus data).inflight = s.inflight := rfl
@[simp] theorem clearStatus_mem : (s.clearStatus data).mem = s.mem := rfl
@[simp] theorem clearStatus_platform : (s.clearStatus data).platform = s.platform := rfl
@[simp] theorem clearStatus_inputs : (s.clearStatus data).inputs = s.inputs := rfl
@[simp] theorem clearStatus_readData : (s.clearStatus data).readData = s.readData := rfl
@[simp] theorem clearStatus_freeIndex : (s.clearStatus data).freeIndex = s.freeIndex := rfl

/-! ### `State.finishing` -/

@[simp] theorem finishing_params : (s.finishing code r0 r1 r2).params = s.params := rfl
@[simp] theorem finishing_result0 : (s.finishing code r0 r1 r2).result0 = resultWord r0 := rfl
@[simp] theorem finishing_result1 : (s.finishing code r0 r1 r2).result1 = resultWord r1 := rfl
@[simp] theorem finishing_result2 : (s.finishing code r0 r1 r2).result2 = resultWord r2 := rfl
@[simp] theorem finishing_done : (s.finishing code r0 r1 r2).done = true := rfl
@[simp] theorem finishing_dropped : (s.finishing code r0 r1 r2).dropped = s.dropped := rfl
@[simp] theorem finishing_err : (s.finishing code r0 r1 r2).err = code := rfl
@[simp] theorem finishing_frameBound : (s.finishing code r0 r1 r2).frameBound = s.frameBound := rfl
@[simp] theorem finishing_dbufValid : (s.finishing code r0 r1 r2).dbufValid = s.dbufValid := rfl
@[simp] theorem finishing_treeValid : (s.finishing code r0 r1 r2).treeValid = s.treeValid := rfl
@[simp] theorem finishing_dbufBlock : (s.finishing code r0 r1 r2).dbufBlock = s.dbufBlock := rfl
@[simp] theorem finishing_frame : (s.finishing code r0 r1 r2).frame = s.frame := rfl
@[simp] theorem finishing_tree : (s.finishing code r0 r1 r2).tree = s.tree := rfl
@[simp] theorem finishing_treePad : (s.finishing code r0 r1 r2).treePad = s.treePad := rfl
@[simp] theorem finishing_pcache : (s.finishing code r0 r1 r2).pcache = s.pcache := rfl
@[simp] theorem finishing_inflight : (s.finishing code r0 r1 r2).inflight = none := rfl
@[simp] theorem finishing_mem : (s.finishing code r0 r1 r2).mem = s.mem := rfl
@[simp] theorem finishing_platform : (s.finishing code r0 r1 r2).platform = s.platform := rfl
@[simp] theorem finishing_inputs : (s.finishing code r0 r1 r2).inputs = s.inputs := rfl
@[simp] theorem finishing_readData : (s.finishing code r0 r1 r2).readData = s.readData := rfl
@[simp] theorem finishing_freeIndex : (s.finishing code r0 r1 r2).freeIndex = s.freeIndex := rfl

/-! ### `acceptRun` -/

@[simp] theorem acceptRun_params : (acceptRun op s).st.params = s.params := rfl
@[simp] theorem acceptRun_result0 : (acceptRun op s).st.result0 = s.result0 := rfl
@[simp] theorem acceptRun_result1 : (acceptRun op s).st.result1 = s.result1 := rfl
@[simp] theorem acceptRun_result2 : (acceptRun op s).st.result2 = s.result2 := rfl
@[simp] theorem acceptRun_done : (acceptRun op s).st.done = false := rfl
@[simp] theorem acceptRun_dropped : (acceptRun op s).st.dropped = s.dropped := rfl
@[simp] theorem acceptRun_err : (acceptRun op s).st.err = s.err := rfl
@[simp] theorem acceptRun_frameBound : (acceptRun op s).st.frameBound = s.frameBound := rfl
@[simp] theorem acceptRun_dbufValid : (acceptRun op s).st.dbufValid = s.dbufValid := rfl
@[simp] theorem acceptRun_treeValid : (acceptRun op s).st.treeValid = s.treeValid := rfl
@[simp] theorem acceptRun_dbufBlock : (acceptRun op s).st.dbufBlock = s.dbufBlock := rfl
@[simp] theorem acceptRun_frame : (acceptRun op s).st.frame = s.frame := rfl
@[simp] theorem acceptRun_tree : (acceptRun op s).st.tree = s.tree := rfl
@[simp] theorem acceptRun_treePad : (acceptRun op s).st.treePad = s.treePad := rfl
@[simp] theorem acceptRun_pcache : (acceptRun op s).st.pcache = s.pcache := rfl
@[simp] theorem acceptRun_inflight : (acceptRun op s).st.inflight = none := rfl
@[simp] theorem acceptRun_mem : (acceptRun op s).st.mem = s.mem := rfl
@[simp] theorem acceptRun_platform : (acceptRun op s).st.platform = s.platform := rfl
@[simp] theorem acceptRun_inputs : (acceptRun op s).st.inputs = s.inputs := rfl
@[simp] theorem acceptRun_readData : (acceptRun op s).st.readData = s.readData := rfl
@[simp] theorem acceptRun_freeIndex : (acceptRun op s).st.freeIndex = s.freeIndex := rfl

@[simp] theorem acceptRun_c : (acceptRun op s).c = { op := op, params := s.params } := rfl

/-! ### The completion clauses and `complete` -/

@[simp] theorem decodeClause_params : (decodeClause c code s).params = s.params := by
  unfold decodeClause; split
  · rfl
  · split <;> rfl
@[simp] theorem decodeClause_result0 : (decodeClause c code s).result0 = s.result0 := by
  unfold decodeClause; split
  · rfl
  · split <;> rfl
@[simp] theorem decodeClause_result1 : (decodeClause c code s).result1 = s.result1 := by
  unfold decodeClause; split
  · rfl
  · split <;> rfl
@[simp] theorem decodeClause_result2 : (decodeClause c code s).result2 = s.result2 := by
  unfold decodeClause; split
  · rfl
  · split <;> rfl
@[simp] theorem decodeClause_done : (decodeClause c code s).done = s.done := by
  unfold decodeClause; split
  · rfl
  · split <;> rfl
@[simp] theorem decodeClause_dropped : (decodeClause c code s).dropped = s.dropped := by
  unfold decodeClause; split
  · rfl
  · split <;> rfl
@[simp] theorem decodeClause_err : (decodeClause c code s).err = s.err := by
  unfold decodeClause; split
  · rfl
  · split <;> rfl
@[simp] theorem decodeClause_frameBound : (decodeClause c code s).frameBound = s.frameBound := by
  unfold decodeClause; split
  · rfl
  · split <;> rfl
@[simp] theorem decodeClause_treeValid : (decodeClause c code s).treeValid = s.treeValid := by
  unfold decodeClause; split
  · rfl
  · split <;> rfl
@[simp] theorem decodeClause_frame : (decodeClause c code s).frame = s.frame := by
  unfold decodeClause; split
  · rfl
  · split <;> rfl
@[simp] theorem decodeClause_tree : (decodeClause c code s).tree = s.tree := by
  unfold decodeClause; split
  · rfl
  · split <;> rfl
@[simp] theorem decodeClause_treePad : (decodeClause c code s).treePad = s.treePad := by
  unfold decodeClause; split
  · rfl
  · split <;> rfl
@[simp] theorem decodeClause_pcache : (decodeClause c code s).pcache = s.pcache := by
  unfold decodeClause; split
  · rfl
  · split <;> rfl
@[simp] theorem decodeClause_inflight : (decodeClause c code s).inflight = s.inflight := by
  unfold decodeClause; split
  · rfl
  · split <;> rfl
@[simp] theorem decodeClause_mem : (decodeClause c code s).mem = s.mem := by
  unfold decodeClause; split
  · rfl
  · split <;> rfl
@[simp] theorem decodeClause_platform : (decodeClause c code s).platform = s.platform := by
  unfold decodeClause; split
  · rfl
  · split <;> rfl
@[simp] theorem decodeClause_inputs : (decodeClause c code s).inputs = s.inputs := by
  unfold decodeClause; split
  · rfl
  · split <;> rfl
@[simp] theorem decodeClause_readData : (decodeClause c code s).readData = s.readData := by
  unfold decodeClause; split
  · rfl
  · split <;> rfl
@[simp] theorem decodeClause_freeIndex : (decodeClause c code s).freeIndex = s.freeIndex := by
  unfold decodeClause; split
  · rfl
  · split <;> rfl

@[simp] theorem buildClause_params : (buildClause code s).params = s.params := rfl
@[simp] theorem buildClause_result0 : (buildClause code s).result0 = s.result0 := rfl
@[simp] theorem buildClause_result1 : (buildClause code s).result1 = s.result1 := rfl
@[simp] theorem buildClause_result2 : (buildClause code s).result2 = s.result2 := rfl
@[simp] theorem buildClause_done : (buildClause code s).done = s.done := rfl
@[simp] theorem buildClause_dropped : (buildClause code s).dropped = s.dropped := rfl
@[simp] theorem buildClause_err : (buildClause code s).err = s.err := rfl
@[simp] theorem buildClause_frameBound : (buildClause code s).frameBound = s.frameBound := rfl
@[simp] theorem buildClause_dbufValid : (buildClause code s).dbufValid = s.dbufValid := rfl
@[simp] theorem buildClause_treeValid : (buildClause code s).treeValid = (code == .ok) := rfl
@[simp] theorem buildClause_dbufBlock : (buildClause code s).dbufBlock = s.dbufBlock := rfl
@[simp] theorem buildClause_frame : (buildClause code s).frame = s.frame := rfl
@[simp] theorem buildClause_tree : (buildClause code s).tree = s.tree := rfl
@[simp] theorem buildClause_treePad : (buildClause code s).treePad = s.treePad := rfl
@[simp] theorem buildClause_pcache : (buildClause code s).pcache = s.pcache := rfl
@[simp] theorem buildClause_inflight : (buildClause code s).inflight = s.inflight := rfl
@[simp] theorem buildClause_mem : (buildClause code s).mem = s.mem := rfl
@[simp] theorem buildClause_platform : (buildClause code s).platform = s.platform := rfl
@[simp] theorem buildClause_inputs : (buildClause code s).inputs = s.inputs := rfl
@[simp] theorem buildClause_readData : (buildClause code s).readData = s.readData := rfl
@[simp] theorem buildClause_freeIndex : (buildClause code s).freeIndex = s.freeIndex := rfl

@[simp] theorem completionClause_params : (completionClause c code s).params = s.params := by
  unfold completionClause; split
  · simp
  · split <;> simp
@[simp] theorem completionClause_result0 : (completionClause c code s).result0 = s.result0 := by
  unfold completionClause; split
  · simp
  · split <;> simp
@[simp] theorem completionClause_result1 : (completionClause c code s).result1 = s.result1 := by
  unfold completionClause; split
  · simp
  · split <;> simp
@[simp] theorem completionClause_result2 : (completionClause c code s).result2 = s.result2 := by
  unfold completionClause; split
  · simp
  · split <;> simp
@[simp] theorem completionClause_done : (completionClause c code s).done = s.done := by
  unfold completionClause; split
  · simp
  · split <;> simp
@[simp] theorem completionClause_dropped : (completionClause c code s).dropped = s.dropped := by
  unfold completionClause; split
  · simp
  · split <;> simp
@[simp] theorem completionClause_err : (completionClause c code s).err = s.err := by
  unfold completionClause; split
  · simp
  · split <;> simp
@[simp] theorem completionClause_frameBound : (completionClause c code s).frameBound = s.frameBound := by
  unfold completionClause; split
  · simp
  · split <;> simp
@[simp] theorem completionClause_frame : (completionClause c code s).frame = s.frame := by
  unfold completionClause; split
  · simp
  · split <;> simp
@[simp] theorem completionClause_tree : (completionClause c code s).tree = s.tree := by
  unfold completionClause; split
  · simp
  · split <;> simp
@[simp] theorem completionClause_treePad : (completionClause c code s).treePad = s.treePad := by
  unfold completionClause; split
  · simp
  · split <;> simp
@[simp] theorem completionClause_pcache : (completionClause c code s).pcache = s.pcache := by
  unfold completionClause; split
  · simp
  · split <;> simp
@[simp] theorem completionClause_inflight : (completionClause c code s).inflight = s.inflight := by
  unfold completionClause; split
  · simp
  · split <;> simp
@[simp] theorem completionClause_mem : (completionClause c code s).mem = s.mem := by
  unfold completionClause; split
  · simp
  · split <;> simp
@[simp] theorem completionClause_platform : (completionClause c code s).platform = s.platform := by
  unfold completionClause; split
  · simp
  · split <;> simp
@[simp] theorem completionClause_inputs : (completionClause c code s).inputs = s.inputs := by
  unfold completionClause; split
  · simp
  · split <;> simp
@[simp] theorem completionClause_readData : (completionClause c code s).readData = s.readData := by
  unfold completionClause; split
  · simp
  · split <;> simp
@[simp] theorem completionClause_freeIndex : (completionClause c code s).freeIndex = s.freeIndex := by
  unfold completionClause; split
  · simp
  · split <;> simp

@[simp] theorem complete_params : (complete c code s).params = s.params :=
  completionClause_params s c code
@[simp] theorem complete_result0 : (complete c code s).result0 = resultWord c.r0 := rfl
@[simp] theorem complete_result1 : (complete c code s).result1 = resultWord c.r1 := rfl
@[simp] theorem complete_result2 : (complete c code s).result2 = resultWord c.r2 := rfl
@[simp] theorem complete_done : (complete c code s).done = true := rfl
@[simp] theorem complete_dropped : (complete c code s).dropped = s.dropped :=
  completionClause_dropped s c code
@[simp] theorem complete_err : (complete c code s).err = code := rfl
@[simp] theorem complete_frameBound : (complete c code s).frameBound = s.frameBound :=
  completionClause_frameBound s c code
theorem complete_dbufValid : (complete c code s).dbufValid = (completionClause c code s).dbufValid := rfl
theorem complete_treeValid : (complete c code s).treeValid = (completionClause c code s).treeValid := rfl
theorem complete_dbufBlock : (complete c code s).dbufBlock = (completionClause c code s).dbufBlock := rfl
@[simp] theorem complete_frame : (complete c code s).frame = s.frame :=
  completionClause_frame s c code
@[simp] theorem complete_tree : (complete c code s).tree = s.tree :=
  completionClause_tree s c code
@[simp] theorem complete_treePad : (complete c code s).treePad = s.treePad :=
  completionClause_treePad s c code
@[simp] theorem complete_pcache : (complete c code s).pcache = s.pcache :=
  completionClause_pcache s c code
@[simp] theorem complete_inflight : (complete c code s).inflight = none := rfl
@[simp] theorem complete_mem : (complete c code s).mem = s.mem :=
  completionClause_mem s c code
@[simp] theorem complete_platform : (complete c code s).platform = s.platform :=
  completionClause_platform s c code
@[simp] theorem complete_inputs : (complete c code s).inputs = s.inputs :=
  completionClause_inputs s c code
@[simp] theorem complete_readData : (complete c code s).readData = s.readData :=
  completionClause_readData s c code
@[simp] theorem complete_freeIndex : (complete c code s).freeIndex = s.freeIndex :=
  completionClause_freeIndex s c code

/-! ### Completion by the command's kind -/

/-- A command without a completion clause changes at completion only the result registers, ERR, BUSY and DONE. -/
theorem complete_plain (h2 : c.op ≠ 0x02#8) (h5 : c.op ≠ 0x05#8) :
    complete c code s = s.finishing code c.r0 c.r1 c.r2 := by
  simp [complete, completionClause, h2, h5, State.finishing]

/-- HUFF_BUILD's completion also sets TREE_VALID, to whether it succeeded. -/
theorem complete_build (h : c.op = 0x05#8) :
    complete c code s = ({ s with treeValid := code == Code.ok }).finishing code c.r0 c.r1 c.r2 := by
  simp [complete, completionClause, h, State.finishing, buildClause]

/-- DECODE_BLOCK's completion with OK records the block. -/
theorem complete_decode_ok (h : c.op = 0x02#8) :
    complete c .ok s = ({ s with dbufValid := true, dbufBlock := c.params.index.zeroExtend 32 }).finishing
      .ok c.r0 c.r1 c.r2 := by
  simp [complete, completionClause, h, State.finishing, decodeClause]

/-- DECODE_BLOCK's completion with JPEG_HANDOFF, or with an error after a byte of DBUF was written, drops the block. -/
theorem complete_decode_drop (h : c.op = 0x02#8) (hc : code ≠ .ok) (hd : code = .jpegHandoff ∨ c.wrote = true) :
    complete c code s = s.dropBlock.finishing code c.r0 c.r1 c.r2 := by
  rcases hd with rfl | hd <;> simp_all [complete, completionClause, State.finishing, decodeClause]

/-- DECODE_BLOCK's completion with another error leaves the DBUF state. -/
theorem complete_decode_keep (h : c.op = 0x02#8) (hc : code ≠ .ok) (hj : code ≠ .jpegHandoff) (hw : c.wrote = false) :
    complete c code s = s.finishing code c.r0 c.r1 c.r2 := by
  simp [complete, completionClause, h, hc, hj, hw, State.finishing, decodeClause]

/-- Completion does not read the in-flight record's place in its algorithm, nor its presence in the state. -/
theorem complete_held (p : Position) (o : Option InFlight) :
    complete { c with pos := p } code { s with inflight := o } = complete c code s := by
  unfold complete completionClause decodeClause buildClause State.dropBlock
  dsimp only
  split
  · split
    · rfl
    · split <;> rfl
  · split <;> rfl

end Sys2Proof.Machine
end

