-- ==== Sys2Proof/Laws/Engine.lean ====
section
/-! SUPPORT. What the engine's shared operations can do, said once each: the byte accesses, `declare`, acceptance,
completion and `tick`; and the rule by which what a stretch of a command can do is put together from its parts. -/

namespace Sys2Proof.Machine

/-! ### What a stretch of a command can come to -/

/-- A stretch of a command comes to a value with `P`, or ends at a machine with `Q`, or is refused; it faults only if
`F`. -/
def Comes {α : Type} (P : α → Prop) (Q : Code → Run → Prop) (F : Prop) : Except Stop α → Prop
  | .ok a => P a
  | .error (.ended code u) => Q code u
  | .error (.refuse _) => True
  | .error (.fault _) => F

/-- One stretch after another. -/
theorem Comes.bind {α β : Type} {P : α → Prop} {P' : β → Prop} {Q : Code → Run → Prop} {F : Prop} {x : Except Stop α}
    {f : α → Except Stop β} (hx : Comes P Q F x) (hf : ∀ a, P a → Comes P' Q F (f a)) : Comes P' Q F (x >>= f) := by
  match x, hx with
  | .ok a, h => exact hf a h
  | .error (.ended _ _), h => exact h
  | .error (.refuse _), _ => trivial
  | .error (.fault _), h => exact h

theorem Comes.mono {α : Type} {P P' : α → Prop} {Q Q' : Code → Run → Prop} {F F' : Prop} {x : Except Stop α}
    (hx : Comes P Q F x) (hP : ∀ a, P a → P' a) (hQ : ∀ c u, Q c u → Q' c u) (hF : F → F') : Comes P' Q' F' x := by
  match x, hx with
  | .ok a, h => exact hP a h
  | .error (.ended c u), h => exact hQ c u h
  | .error (.refuse _), _ => trivial
  | .error (.fault _), h => exact hF h

theorem Comes.of_ok {α : Type} {P : α → Prop} {Q : Code → Run → Prop} {F : Prop} {a : α} (h : P a) :
    Comes P Q F (.ok a) := h

/-! ### Byte accesses -/

/-- A read of ordinary memory that answers returns the byte. -/
theorem Run.read_plain {u : Run} {a : Nat} (h : a < spaceSize) (hr : u.st.platform.answersRead a = true)
    (hd : u.st.platform.isDevice a = false) : u.read a = .ok (u.st.mem.read a) := by
  simp [Run.read, Nat.not_le.2 h, hr, hd]

/-- A write of ordinary memory that answers stores the byte and keeps the one it replaced. -/
theorem Run.write_plain {u : Run} {a : Nat} (v : Byte) (h : a < spaceSize) (hr : u.st.platform.answersWrite a = true)
    (hd : u.st.platform.isDevice a = false) :
    u.write a v = .ok
      { st := { u.st with mem := u.st.mem.write a v }
        c := { u.c with wrote := u.c.wrote || u.c.toDbuf, undo := (a, u.st.mem.read a) :: u.c.undo } } := by
  simp [Run.write, Nat.not_le.2 h, hr, hd]

/-- A write that memory refuses ends the command with BUS_ERROR and changes nothing (60_exceptions.md R401). -/
theorem Run.write_refused {u : Run} {a : Nat} (v : Byte) (h : a < spaceSize)
    (hr : u.st.platform.answersWrite a = false) : u.write a v = .error (.ended .busError u) := by
  simp [Run.write, Nat.not_le.2 h, hr]

/-- A read that memory refuses ends the command with BUS_ERROR and changes nothing (60_exceptions.md R401). -/
theorem Run.read_refused {u : Run} {a : Nat} (h : a < spaceSize)
    (hr : u.st.platform.answersRead a = false) : u.read a = .error (.ended .busError u) := by
  simp [Run.read, Nat.not_le.2 h, hr]

/-- Everything a read can do. -/
theorem Run.read_comes (u : Run) (a : Nat) :
    Comes (fun b => a < spaceSize ∧ b = u.st.mem.read a) (fun code v => code = .busError ∧ v = u) (spaceSize ≤ a)
      (u.read a) := by
  unfold Run.read
  split
  · exact ‹_›
  · split
    · exact ⟨rfl, rfl⟩
    · split
      · trivial
      · exact ⟨Nat.lt_of_not_le ‹_›, rfl⟩

/-- Everything a write can do. -/
theorem Run.write_comes (u : Run) (a : Nat) (b : Byte) :
    Comes
      (fun v => a < spaceSize ∧ v =
        { st := { u.st with mem := u.st.mem.write a b }
          c := { u.c with wrote := u.c.wrote || u.c.toDbuf, undo := (a, u.st.mem.read a) :: u.c.undo } })
      (fun code v => code = .busError ∧ v = u) (spaceSize ≤ a) (u.write a b) := by
  unfold Run.write
  split
  · exact ‹_›
  · split
    · exact ⟨rfl, rfl⟩
    · split
      · trivial
      · exact ⟨Nat.lt_of_not_le ‹_›, rfl⟩

@[simp] theorem Run.require_true (u : Run) (code : Code) : u.require true code = .ok () := rfl

@[simp] theorem Run.require_false (u : Run) (code : Code) : u.require false code = .error (.ended code u) := rfl

/-- Everything a check can do. -/
theorem Run.require_comes (u : Run) (cond : Bool) (code : Code) :
    Comes (fun _ => cond = true) (fun c v => c = code ∧ v = u) False (u.require cond code) := by
  unfold Run.require
  split
  · exact ‹_›
  · exact ⟨rfl, rfl⟩

/-- Regions that do not overlap are taken into the record. -/
theorem Run.declare_apart {u : Run} {reads writes : List Region} (h : regionsClash reads writes = false) :
    u.declare reads writes = .ok { u with c := { u.c with reads := reads, writes := writes } } := by
  simp [Run.declare, h]

/-- A command whose regions overlap is refused. -/
theorem Run.declare_clash {u : Run} {reads writes : List Region} (h : regionsClash reads writes = true) :
    u.declare reads writes = .error (.refuse .regionOverlap) := by
  simp [Run.declare, h]

/-- Everything `declare` can do. -/
theorem Run.declare_comes (u : Run) (reads writes : List Region) :
    Comes (fun v => regionsClash reads writes = false ∧ v = { u with c := { u.c with reads := reads, writes := writes } })
      (fun _ _ => False) False (u.declare reads writes) := by
  unfold Run.declare
  split
  · trivial
  · next h => exact ⟨Bool.eq_false_of_not_eq_true h, rfl⟩

/-! ### Storing bytes one after another -/

/-- Memory after these bytes have been stored from an address up. -/
def Memory.store : Memory → Nat → List Byte → Memory
  | m, _, [] => m
  | m, a, b :: bs => Memory.store (m.write a b) (a + 1) bs

theorem Memory.store_append (m : Memory) (a : Nat) (bs cs : List Byte) :
    m.store a (bs ++ cs) = (m.store a bs).store (a + bs.length) cs := by
  induction bs generalizing m a with
  | nil => rfl
  | cons b bs ih => simp [Memory.store, ih, Nat.add_assoc, Nat.add_comm 1]

/-- Storing bytes leaves every byte outside them alone. -/
theorem Memory.read_store_other (m : Memory) {a x : Nat} (bs : List Byte) (h : x < a ∨ a + bs.length ≤ x) :
    Memory.read (m.store a bs) x = Memory.read m x := by
  induction bs generalizing m a with
  | nil => rfl
  | cons b bs ih =>
    simp only [List.length_cons] at h
    rw [Memory.store, ih _ (by omega), Memory.read_write_other _ _ (by omega)]

/-- Stored bytes read back. -/
theorem Memory.read_store_at (m : Memory) (a : Nat) (bs : List Byte) (i : Nat) (h : i < bs.length) :
    Memory.read (m.store a bs) (a + i) = bs[i] := by
  induction bs generalizing m a i with
  | nil => simp at h
  | cons b bs ih =>
    cases i with
    | zero => rw [Memory.store, Memory.read_store_other _ _ (by omega)]; simp
    | succ i =>
      have := ih (m.write a b) (a + 1) i (by simpa using h)
      simpa [Memory.store, Nat.add_assoc, Nat.add_comm 1] using this

/-- The stored bytes, read as a list. -/
theorem Memory.bytes_store (m : Memory) (a : Nat) (bs : List Byte) : (m.store a bs).bytes a bs.length = bs := by
  apply List.ext_getElem
  · simp [Memory.bytes]
  · intro i h1 h2
    simp [Memory.bytes, Memory.read_store_at m a bs i h2]

theorem Memory.sameOutside_store (m : Memory) (a : Nat) (bs : List Byte) :
    Memory.sameOutside m (m.store a bs) a bs.length :=
  fun _ h => Memory.read_store_other m bs h

/-- `v` is `u` with these bytes stored from an address up; `wrote` is set where the stage's output is DBUF and there is
a byte. -/
structure Run.Stores (u v : Run) (a : Nat) (bs : List Byte) : Prop where
  st : v.st = { u.st with mem := u.st.mem.store a bs }
  c : v.c = { u.c with wrote := v.c.wrote, undo := v.c.undo }
  wrote : v.c.wrote = (u.c.wrote || (u.c.toDbuf && !bs.isEmpty))

theorem Run.Stores.refl (u : Run) (a : Nat) : u.Stores u a [] := ⟨rfl, rfl, by simp⟩

theorem Run.Stores.trans {u v w : Run} {a : Nat} {bs cs : List Byte} (h : u.Stores v a bs)
    (h' : v.Stores w (a + bs.length) cs) : u.Stores w a (bs ++ cs) := by
  have hd : v.c.toDbuf = u.c.toDbuf := by rw [h.c]
  refine ⟨?_, ?_, ?_⟩
  · rw [h'.st, h.st, Memory.store_append]
  · rw [h'.c, h.c]
  · rw [h'.wrote, h.wrote, hd]
    cases bs <;> simp
    tauto

/-- Two states answer memory accesses alike when their platforms are equal. -/
theorem State.writesPlain_of {s t : State} {r : Region} (h : s.writesPlain r) (e : t.platform = s.platform) :
    t.writesPlain r := fun a ha => e ▸ h a ha

theorem State.readsPlain_of {s t : State} {r : Region} (h : s.readsPlain r) (e : t.platform = s.platform) :
    t.readsPlain r := fun a ha => e ▸ h a ha

theorem Region.has_iff {r : Region} {a : Nat} : r.has a = true ↔ r.base ≤ a ∧ a < r.base + r.len := by
  simp [Region.has]

/-- A region named after its base and length holds its bytes. -/
theorem Region.has_mk {b n i : Nat} (h : i < n) : Region.has ⟨b, n⟩ (b + i) = true :=
  Region.has_iff.2 ⟨Nat.le_add_right _ _, Nat.add_lt_add_left h b⟩

/-- A write into a plain region. -/
theorem Run.write_stores {u : Run} {r : Region} {a : Nat} (b : Byte) (hw : u.st.writesPlain r) (ha : r.has a = true) :
    ∃ v, u.write a b = .ok v ∧ u.Stores v a [b] := by
  obtain ⟨h, hr, hd⟩ := hw a ha
  exact ⟨_, Run.write_plain b h hr hd, rfl, rfl, by simp⟩

/-- A read in a plain region. -/
theorem Run.read_region {u : Run} {r : Region} {a : Nat} (hw : u.st.readsPlain r) (ha : r.has a = true) :
    u.read a = .ok (u.st.mem.read a) := by
  obtain ⟨h, hr, hd⟩ := hw a ha
  exact Run.read_plain h hr hd

/-- Reading `n` bytes in a plain region. -/
theorem Run.readBytes_region {u : Run} {r : Region} (n : Nat) {a : Nat} (hw : u.st.readsPlain r)
    (ha : ∀ i < n, r.has (a + i) = true) : u.readBytes a n = .ok (u.st.mem.bytes a n) := by
  induction n generalizing a with
  | zero => rfl
  | succ n ih =>
    have h0 := Run.read_region hw (ha 0 (Nat.succ_pos n))
    have ht := ih (a := a + 1) fun i hi => by
      have := ha (i + 1) (Nat.succ_lt_succ hi); rwa [Nat.add_right_comm, Nat.add_assoc]
    rw [Nat.add_zero] at h0
    simp only [Run.readBytes, h0, ht]
    simp [Memory.bytes, List.range_succ_eq_map, Function.comp_def, Nat.add_assoc, Nat.add_comm 1, bind, Except.bind, pure, Except.pure]

/-! ### What a stretch of a command leaves as it was -/

/-- `v` comes from `u` by byte writes at addresses with `W` and, where `resolves`, by filling palette cache slots: the
rest of the machine, the command code and the latched parameters are as they were, resolved slots stay, and memory keeps
its canonical form. -/
structure Run.Wrote (W : Nat → Prop) (resolves : Bool) (u v : Run) : Prop where
  st : v.st = { u.st with mem := v.st.mem, pcache := v.st.pcache }
  op : v.c.op = u.c.op
  params : v.c.params = u.c.params
  resolved : ∀ (i : Fin 256) (color : Half), u.st.pcache[i] = some color → v.st.pcache[i] = some color
  cache : resolves = false → v.st.pcache = u.st.pcache
  mem : ∀ a, ¬ W a → v.st.mem.read a = u.st.mem.read a
  wf : u.st.mem.wf = true → v.st.mem.wf = true
  undo : (∀ w ∈ u.c.undo, w.1 < spaceSize) → ∀ w ∈ v.c.undo, w.1 < spaceSize

theorem Run.Wrote.refl {W : Nat → Prop} {k : Bool} (u : Run) : u.Wrote W k u :=
  ⟨rfl, rfl, rfl, fun _ _ h => h, fun _ => rfl, fun _ _ => rfl, id, id⟩

theorem Run.Wrote.trans {W : Nat → Prop} {k : Bool} {u v w : Run} (h : u.Wrote W k v) (h' : v.Wrote W k w) :
    u.Wrote W k w where
  st := by rw [h'.st, h.st]
  op := h'.op.trans h.op
  params := h'.params.trans h.params
  resolved i color e := h'.resolved i color (h.resolved i color e)
  cache e := (h'.cache e).trans (h.cache e)
  mem a ha := (h'.mem a ha).trans (h.mem a ha)
  wf e := h'.wf (h.wf e)
  undo e := h'.undo (h.undo e)

/-- More addresses may be written. -/
theorem Run.Wrote.weaken {W W' : Nat → Prop} {k : Bool} {u v : Run} (h : u.Wrote W k v) (hW : ∀ a, W a → W' a) :
    u.Wrote W' k v :=
  { h with mem := fun a ha => h.mem a fun hw => ha (hW a hw) }

/-- What leaves the cache alone leaves its resolved slots alone. -/
theorem Run.Wrote.resolving {W : Nat → Prop} {u v : Run} (h : u.Wrote W false v) : u.Wrote W true v :=
  { h with cache := nofun }

/-- A change of the record's own fields other than its code, its parameters and its undo list. -/
theorem Run.Wrote.record {W : Nat → Prop} {k : Bool} {u v : Run} (h : u.Wrote W k v) (c : InFlight)
    (ho : c.op = v.c.op) (hp : c.params = v.c.params) (hu : c.undo = v.c.undo) :
    u.Wrote W k { v with c := c } where
  st := h.st
  op := ho.trans h.op
  params := hp.trans h.params
  resolved := h.resolved
  cache := h.cache
  mem := h.mem
  wf := h.wf
  undo e := hu ▸ h.undo e

/-- A write at an address that may be written. -/
theorem Run.write_wrote {W : Nat → Prop} {k : Bool} {F : Prop} (u : Run) {a : Nat} (b : Byte) (ha : W a)
    (hF : spaceSize ≤ a → F) : Comes (u.Wrote W k) (fun _ => u.Wrote W k) F (u.write a b) := by
  refine (u.write_comes a b).mono ?_ ?_ hF
  · rintro v ⟨hs, rfl⟩
    exact ⟨rfl, rfl, rfl, fun _ _ h => h, fun _ => rfl,
      fun x hx => Memory.read_write_other _ _ fun e => hx (e ▸ ha), fun h => Memory.wf_write _ h hs,
      fun h w hw => by
        rcases List.mem_cons.1 hw with rfl | hw
        · exact hs
        · exact h w hw⟩
  · rintro _ v ⟨_, rfl⟩
    exact Run.Wrote.refl v

/-- A read changes nothing. -/
theorem Run.read_wrote {W : Nat → Prop} {k : Bool} {F : Prop} (u : Run) {a : Nat} (hF : spaceSize ≤ a → F) :
    Comes (fun b => b = u.st.mem.read a) (fun _ => u.Wrote W k) F (u.read a) :=
  (u.read_comes a).mono (fun _ h => h.2) (fun _ _ h => h.2 ▸ Run.Wrote.refl _) hF

/-- A check changes nothing. -/
theorem Run.require_wrote {W : Nat → Prop} {k : Bool} {F : Prop} (u : Run) (cond : Bool) (code : Code) :
    Comes (fun _ => cond = true) (fun _ => u.Wrote W k) F (u.require cond code) :=
  (u.require_comes cond code).mono (fun _ h => h) (fun _ _ h => h.2 ▸ Run.Wrote.refl _) False.elim

/-- After a stretch from `u` to `v`, what follows is measured from `u` too. -/
theorem Comes.after {α : Type} {W : Nat → Prop} {k : Bool} {F : Prop} {P : α → Prop} {u v : Run} {x : Except Stop α}
    (h : u.Wrote W k v) (hx : Comes P (fun _ => v.Wrote W k) F x) : Comes P (fun _ => u.Wrote W k) F x :=
  hx.mono (fun _ h => h) (fun _ _ h' => h.trans h') id

/-! ### Bytes outside a store -/

theorem Memory.bytes_cons (m : Memory) (a n : Nat) : m.bytes a (n + 1) = Memory.read m a :: m.bytes (a + 1) n := by
  simp [Memory.bytes, List.range_succ_eq_map, Function.comp_def, Nat.add_assoc, Nat.add_comm 1]

/-- Bytes that a memory change does not touch. -/
theorem Memory.bytes_congr {m m' : Memory} {a n : Nat} (h : ∀ i < n, Memory.read m' (a + i) = Memory.read m (a + i)) :
    m'.bytes a n = m.bytes a n :=
  List.map_congr_left fun i hi => h i (List.mem_range.1 hi)

/-- A read region and a write region that share a byte overlap. -/
theorem regionsClash_of_has {reads writes : List Region} {r w : Region} {a : Nat} (hr : r ∈ reads) (hw : w ∈ writes)
    (h1 : r.has a = true) (h2 : w.has a = true) : regionsClash reads writes = true := by
  have hm : w.meets r = true := by
    rw [Region.has_iff] at h1 h2
    simp only [Region.meets, Bool.and_eq_true, bne_iff_ne, decide_eq_true_eq]
    omega
  induction writes with
  | nil => cases hw
  | cons x ws ih =>
    simp only [regionsClash, Bool.or_eq_true]
    rcases List.mem_cons.1 hw with rfl | hw
    · exact .inl (.inl (List.any_eq_true.2 ⟨r, hr, hm⟩))
    · exact .inr (ih hw)

/-- Regions that do not overlap have no byte in common. -/
theorem Region.apart {r q : Region} (h : Region.meets q r = false) {a : Nat} (hr : r.has a = true) : q.has a = false := by
  by_contra hq
  rw [Bool.not_eq_false, Region.has_iff] at hq
  rw [Region.has_iff] at hr
  have : Region.meets q r = true := by
    simp only [Region.meets, Bool.and_eq_true, bne_iff_ne, ne_eq, decide_eq_true_eq]
    omega
  rw [this] at h; cases h

theorem regionsClash_one {r w : Region} (h : regionsClash [r] [w] = false) {a : Nat} (hr : r.has a = true) :
    w.has a = false := by
  refine Region.apart ?_ hr
  simpa [regionsClash] using h

/-! ### Acceptance and completion -/

/-- A command written while idle is accepted and run. -/
theorem runCommand_idle {op : Byte} {body : Run → Except Stop Run} {s : State} (h : s.inflight = none) :
    runCommand op body s = conclude (body (acceptRun op s)) := by
  simp [runCommand, State.busy, h]

/-- A command written while BUSY is dropped. -/
theorem runCommand_busy {op : Byte} {body : Run → Except Stop Run} {s : State} (h : s.inflight.isSome = true) :
    runCommand op body s = .next { s with dropped := true } := by
  simp [runCommand, State.busy, h]

/-- The state a command's end leads to, once its completion has come, is its completion: for every CMD_LATENCY. -/
@[simp] theorem settled_settle (u : Run) (code : Code) : (settle u code).settled = complete u.c code u.st := by
  unfold settle
  split
  · unfold State.settled; simp
  · exact complete_held u.st u.c code _ _

/-- The same for a command without a completion clause: the machine it left, with its results and status written. -/
theorem settled_plain {u : Run} {code : Code} (op : Byte) (ho : u.c.op = op) (h2 : op ≠ 0x02#8) (h5 : op ≠ 0x05#8) :
    (settle u code).settled = u.st.finishing code u.c.r0 u.c.r1 u.c.r2 := by
  rw [settled_settle, complete_plain _ _ _ (ho ▸ h2) (ho ▸ h5)]

@[simp] theorem settle_mem (u : Run) (code : Code) : (settle u code).mem = u.st.mem := by
  unfold settle; split <;> simp

@[simp] theorem settle_pcache (u : Run) (code : Code) : (settle u code).pcache = u.st.pcache := by
  unfold settle; split <;> simp

@[simp] theorem settle_frame (u : Run) (code : Code) : (settle u code).frame = u.st.frame := by
  unfold settle; split <;> simp

@[simp] theorem settle_frameBound (u : Run) (code : Code) : (settle u code).frameBound = u.st.frameBound := by
  unfold settle; split <;> simp

@[simp] theorem settle_tree (u : Run) (code : Code) : (settle u code).tree = u.st.tree := by
  unfold settle; split <;> simp

@[simp] theorem settle_treePad (u : Run) (code : Code) : (settle u code).treePad = u.st.treePad := by
  unfold settle; split <;> simp

@[simp] theorem settle_params (u : Run) (code : Code) : (settle u code).params = u.st.params := by
  unfold settle; split <;> simp

@[simp] theorem settle_platform (u : Run) (code : Code) : (settle u code).platform = u.st.platform := by
  unfold settle; split <;> simp

@[simp] theorem settle_inputs (u : Run) (code : Code) : (settle u code).inputs = u.st.inputs := by
  unfold settle; split <;> simp

@[simp] theorem settle_readData (u : Run) (code : Code) : (settle u code).readData = u.st.readData := by
  unfold settle; split <;> simp

@[simp] theorem settle_dropped (u : Run) (code : Code) : (settle u code).dropped = u.st.dropped := by
  unfold settle; split <;> simp

@[simp] theorem settle_freeIndex (u : Run) (code : Code) : (settle u code).freeIndex = u.st.freeIndex := by
  unfold settle; split <;> simp

/-- Everything a command's end can lead to. -/
theorem conclude_comes {P : State → Prop} {F : Prop} {x : Except Stop Run}
    (h : Comes (fun u => P (settle u .ok)) (fun code u => P (settle u code)) F x) :
    (∀ t, conclude x = .next t → P t) ∧ ∀ f, conclude x = .fault f → F := by
  match x, h with
  | .ok u, h => exact ⟨fun t e => by cases e; exact h, fun f e => nomatch e⟩
  | .error (.ended code u), h => exact ⟨fun t e => by cases e; exact h, fun f e => nomatch e⟩
  | .error (.refuse _), _ => exact ⟨fun t e => (nomatch e), fun f e => nomatch e⟩
  | .error (.fault _), h => exact ⟨fun t e => (nomatch e), fun f e => h⟩

/-- The engine's turn at the last of the steps a completion is held for. -/
theorem tick_last {s : State} {c : InFlight} {code : Code} {n : Nat} (h : s.inflight = some c)
    (hp : c.pos = .held code n) (hn : n ≤ 1) : tick s = s.settled := by
  simp [tick, State.settled, h, hp, hn]

/-- The engine's turn before the last of them. -/
theorem tick_held {s : State} {c : InFlight} {code : Code} {n : Nat} (h : s.inflight = some c)
    (hp : c.pos = .held code (n + 2)) :
    tick s = { s with inflight := some { c with pos := .held code (n + 1) } } := by
  simp [tick, h, hp]

end Sys2Proof.Machine
end

