-- ==== Sys2Proof/Laws/Huffman.lean ====
section
/-! SUPPORT. What HuffDecode can do (41_huffman.md R260 to R264): how far a message of codes brings it, one symbol at a
time, and what it leaves as it was on every path. -/

namespace Sys2Proof.Machine

/-! ### Paths in a tree -/

@[simp] theorem Tree.follow_nil (t : Tree) : t.follow [] = t := rfl

@[simp] theorem Tree.follow_cons (t : Tree) (b : Bool) (path : List Bool) :
    t.follow (b :: path) = (t.child b).follow path := rfl

@[simp] theorem Tree.child_absent (b : Bool) : Tree.absent.child b = .absent := rfl

@[simp] theorem Tree.child_leaf (v : Byte) (b : Bool) : (Tree.leaf v).child b = .absent := rfl

@[simp] theorem Tree.follow_absent (path : List Bool) : Tree.absent.follow path = .absent := by
  induction path with
  | nil => rfl
  | cons b path ih => exact ih

theorem Tree.follow_append (t : Tree) (p q : List Bool) : t.follow (p ++ q) = (t.follow p).follow q := by
  induction p generalizing t with
  | nil => rfl
  | cons b p ih => exact ih _

/-- Below a leaf there is nothing. -/
theorem Tree.follow_leaf (v : Byte) {path : List Bool} (h : path ≠ []) : (Tree.leaf v).follow path = .absent := by
  cases path with
  | nil => exact absurd rfl h
  | cons b path => exact Tree.follow_absent path

/-! ### The bits of a stream -/

/-- From bit `j` on, the stream whose byte 0 is at `a` is these bits (30_encoding.md R127). -/
def BitsAt (m : Memory) (a : Nat) : Nat → List Bool → Prop
  | _, [] => True
  | j, b :: bs => streamBit (Memory.read m (a + j / 8)) j = b ∧ BitsAt m a (j + 1) bs

theorem BitsAt_append {m : Memory} {a j : Nat} {p q : List Bool} :
    BitsAt m a j (p ++ q) ↔ BitsAt m a j p ∧ BitsAt m a (j + p.length) q := by
  induction p generalizing j with
  | nil => simp [BitsAt]
  | cons b p ih =>
    simp only [List.cons_append, BitsAt, ih, List.length_cons, and_assoc]
    rw [show j + (p.length + 1) = j + 1 + p.length by omega]

/-- A memory change that spares the stream's bytes spares its bits. -/
theorem BitsAt_congr {m m' : Memory} {a j : Nat} {p : List Bool}
    (h : ∀ i, j ≤ i → i < j + p.length → Memory.read m' (a + i / 8) = Memory.read m (a + i / 8))
    (hp : BitsAt m a j p) : BitsAt m' a j p := by
  induction p generalizing j with
  | nil => trivial
  | cons b p ih =>
    refine ⟨by rw [h j (Nat.le_refl _) (by simp)]; exact hp.1, ih (fun i hi hi' => h i (by omega) ?_) hp.2⟩
    simp only [List.length_cons]; omega

theorem BitsAt_of_range {m : Memory} {a j n : Nat} {bs : List Bool}
    (h : (List.range n).map (fun i => streamBit (Memory.read m (a + (j + i) / 8)) (j + i)) = bs) : BitsAt m a j bs := by
  induction bs generalizing j n with
  | nil => trivial
  | cons b bs ih =>
    obtain ⟨n, rfl⟩ : ∃ k, n = k + 1 := by
      cases n with
      | zero => cases h
      | succ n => exact ⟨n, rfl⟩
    rw [List.range_succ_eq_map] at h
    simp only [List.map_cons, List.map_map, List.cons.injEq, Nat.add_zero] at h
    refine ⟨h.1, ih (n := n) ?_⟩
    rw [← h.2]
    refine List.map_congr_left fun i _ => ?_
    simp only [Function.comp]
    rw [show j + 1 + i = j + i.succ by omega]

/-- The bits of a stream, one by one. -/
theorem BitsAt_of_bits {m : Memory} {a n : Nat} {bs : List Bool} (h : m.bits a n = bs) :
    BitsAt m a 0 bs ∧ bs.length = n := by
  refine ⟨BitsAt_of_range (n := n) ?_, ?_⟩
  · rw [← h]
    refine List.map_congr_left fun i _ => ?_
    simp
  · rw [← h]; simp [Memory.bits]

/-! ### The decode loop -/

/-- The byte the loop holds is the stream's, unless the next bit starts a new one. -/
def HeldByte (rin : Region) (u : Run) (a j : Nat) (byte : Byte) : Prop :=
  j % 8 ≠ 0 → byte = u.st.mem.read (a + j / 8) ∧ rin.has (a + j / 8) = true

theorem HeldByte.next {rin : Region} {u : Run} {a j : Nat} (h : rin.has (a + j / 8) = true) :
    HeldByte rin u a (j + 1) (u.st.mem.read (a + j / 8)) := by
  intro hj
  rw [show (j + 1) / 8 = j / 8 by omega]
  exact ⟨rfl, h⟩

/-- One bit of the loop. -/
theorem huffBits_step {rin : Region} {root : Tree} {a o cap left j count : Nat} {byte : Byte} {cur : Tree} {mid : Bool}
    {u : Run} (hr : u.st.readsPlain rin) (hin : rin.has (a + j / 8) = true) (hb : HeldByte rin u a j byte) :
    huffBits root a o cap (left + 1) j count byte cur mid u =
      match cur.child (streamBit (u.st.mem.read (a + j / 8)) j) with
      | .absent => .ok (⟨.badCode, count, j + 1⟩, u)
      | .leaf v =>
        if count = cap then .ok (⟨.decodeOverflow, count, j + 1⟩, u)
        else (u.write (o + count) v).bind fun w =>
          huffBits root a o cap left (j + 1) (count + 1) (u.st.mem.read (a + j / 8)) root false w
      | .node c0 c1 =>
        huffBits root a o cap left (j + 1) count (u.st.mem.read (a + j / 8)) (.node c0 c1) true u := by
  have e : streamByte u a j byte = .ok (u.st.mem.read (a + j / 8)) := by
    unfold streamByte
    split
    · exact Run.read_region hr hin
    · next h => rw [(hb h).1]
  simp only [huffBits, e, bind, Except.bind]
  rfl

/-- Bits that lead to an internal node only move the walk. -/
theorem huffBits_walk {rin : Region} {root : Tree} {a o cap count : Nat} (k : Nat) (path : List Bool) {j : Nat}
    {byte : Byte} {cur : Tree} {mid : Bool} {u : Run} {c0 c1 : Tree} (hr : u.st.readsPlain rin)
    (hin : ∀ i < path.length, rin.has (a + (j + i) / 8) = true) (hb : HeldByte rin u a j byte)
    (hbits : BitsAt u.st.mem a j path) (hpath : cur.follow path = .node c0 c1) :
    ∃ byte', huffBits root a o cap (path.length + k) j count byte cur mid u
        = huffBits root a o cap k (j + path.length) count byte' (.node c0 c1) (mid || !path.isEmpty) u
      ∧ HeldByte rin u a (j + path.length) byte' := by
  induction path generalizing j byte cur mid with
  | nil =>
    rw [Tree.follow_nil] at hpath
    subst hpath
    exact ⟨byte, by simp, hb⟩
  | cons b path ih =>
    obtain ⟨hbit, hrest⟩ := hbits
    rw [Tree.follow_cons] at hpath
    have h0 := hin 0 (by simp)
    rw [Nat.add_zero] at h0
    have hchild : ∃ d0 d1, cur.child b = .node d0 d1 := by
      match h : cur.child b with
      | .node d0 d1 => exact ⟨d0, d1, rfl⟩
      | .absent => rw [h, Tree.follow_absent] at hpath; cases hpath
      | .leaf v =>
        rw [h] at hpath
        cases path with
        | nil => cases hpath
        | cons b' path => rw [Tree.follow_leaf v (by simp)] at hpath; cases hpath
    obtain ⟨d0, d1, hd⟩ := hchild
    obtain ⟨byte', e, hb'⟩ := ih (j := j + 1) (byte := u.st.mem.read (a + j / 8)) (cur := .node d0 d1) (mid := true)
      (fun i hi => by
        have := hin (i + 1) (by simpa using hi)
        rwa [show j + (i + 1) = j + 1 + i by omega] at this)
      (HeldByte.next h0) hrest (hd ▸ hpath)
    refine ⟨byte', ?_, ?_⟩
    · rw [show (b :: path).length + k = (path.length + k) + 1 by simp; omega, huffBits_step hr h0 hb, hbit, hd]
      simp only
      rw [e, show j + (b :: path).length = j + 1 + path.length by simp; omega]
      simp
    · rw [show j + (b :: path).length = j + 1 + path.length by simp; omega]; exact hb'

/-- A code writes its value and brings the walk back to the root. -/
theorem huffBits_symbol {rin rout : Region} {root : Tree} {a o cap count : Nat} (k : Nat) (path : List Bool) {j : Nat}
    {byte : Byte} {cur : Tree} {mid : Bool} {u : Run} {v : Byte} (hr : u.st.readsPlain rin)
    (hw : u.st.writesPlain rout) (hd : ∀ x, rin.has x = true → rout.has x = false)
    (hin : ∀ i < path.length, rin.has (a + (j + i) / 8) = true) (hb : HeldByte rin u a j byte)
    (hbits : BitsAt u.st.mem a j path) (hne : path ≠ []) (hpath : cur.follow path = .leaf v) (hc : count ≠ cap)
    (hout : rout.has (o + count) = true) :
    ∃ w byte', huffBits root a o cap (path.length + k) j count byte cur mid u
        = huffBits root a o cap k (j + path.length) (count + 1) byte' root false w
      ∧ HeldByte rin w a (j + path.length) byte' ∧ u.Stores w (o + count) [v] := by
  obtain ⟨init, b, rfl⟩ : ∃ init b, path = init ++ [b] := ⟨path.dropLast, path.getLast hne, (List.dropLast_append_getLast hne).symm⟩
  rw [Tree.follow_append] at hpath
  have hnode : ∃ c0 c1, cur.follow init = .node c0 c1 := by
    match h : cur.follow init with
    | .node c0 c1 => exact ⟨c0, c1, rfl⟩
    | .absent => rw [h] at hpath; cases hpath
    | .leaf x => rw [h] at hpath; cases hpath
  obtain ⟨c0, c1, hnode⟩ := hnode
  rw [BitsAt_append] at hbits
  obtain ⟨byte1, e1, hb1⟩ := huffBits_walk (root := root) (o := o) (cap := cap) (count := count) (mid := mid) (1 + k)
    init hr (fun i hi => hin i (by simp; omega)) hb hbits.1 hnode
  have hlast := hin init.length (by simp)
  obtain ⟨w, e2, hs⟩ := Run.write_stores v hw hout
  refine ⟨w, u.st.mem.read (a + (j + init.length) / 8), ?_, ?_, hs⟩
  · rw [show (init ++ [b]).length + k = init.length + (1 + k) by simp; omega, e1, Nat.add_comm 1 k,
      huffBits_step hr hlast hb1, hbits.2.1, show (Tree.node c0 c1).child b = .leaf v by rw [← hnode]; exact hpath]
    simp only [if_neg hc, e2, Except.bind]
    rw [show j + (init ++ [b]).length = j + init.length + 1 by simp; omega]
  · have hother : ∀ x, rin.has x = true → w.st.mem.read x = u.st.mem.read x := fun x hx => by
      rw [hs.st]
      refine Memory.read_store_other _ _ ?_
      by_contra hx'
      have : x = o + count := by simp at hx'; omega
      rw [this] at hx
      rw [hd _ hx] at hout; cases hout
    rw [show j + (init ++ [b]).length = j + init.length + 1 by simp; omega]
    intro hj
    have := HeldByte.next (u := u) hlast hj
    exact ⟨by rw [hother _ this.2]; exact this.1, this.2⟩

/-- How far a message brings the decode: to the bits that are left, with exactly its values stored. -/
theorem huffBits_run {rin rout : Region} {root : Tree} {a o cap : Nat} (k : Nat) (msg : Message) {j count : Nat}
    {byte : Byte} {u : Run} (hr : u.st.readsPlain rin) (hw : u.st.writesPlain rout)
    (hd : ∀ x, rin.has x = true → rout.has x = false)
    (hin : ∀ i < msg.bits.length, rin.has (a + (j + i) / 8) = true) (hb : HeldByte rin u a j byte)
    (hbits : BitsAt u.st.mem a j msg.bits) (hm : root.spells msg) (hc : count + msg.length ≤ cap)
    (hout : ∀ i < msg.length, rout.has (o + count + i) = true) :
    ∃ w byte', huffBits root a o cap (msg.bits.length + k) j count byte root false u
        = huffBits root a o cap k (j + msg.bits.length) (count + msg.length) byte' root false w
      ∧ HeldByte rin w a (j + msg.bits.length) byte' ∧ u.Stores w (o + count) msg.values := by
  induction msg generalizing j count byte u with
  | nil => exact ⟨u, byte, by simp [Message.bits], by simpa [Message.bits] using hb, Run.Stores.refl u _⟩
  | cons e msg ih =>
    have hbl : Message.bits (e :: msg) = e.1 ++ Message.bits msg := rfl
    have hlen : (Message.bits (e :: msg)).length = e.1.length + (Message.bits msg).length := by rw [hbl, List.length_append]
    rw [hbl, BitsAt_append] at hbits
    obtain ⟨hne, hleaf⟩ := hm e (by simp)
    simp only [List.length_cons] at hc hout
    obtain ⟨w1, byte1, e1, hb1, hs1⟩ := huffBits_symbol (root := root) (cap := cap) (mid := false)
      ((Message.bits msg).length + k) e.1 hr hw hd (fun i hi => hin i (by omega)) hb hbits.1 hne hleaf
      (show count ≠ cap by omega) (by simpa using hout 0 (by omega))
    have hp : w1.st.platform = u.st.platform := by rw [hs1.st]
    obtain ⟨w, byte', e2, hb2, hs2⟩ := ih (j := j + e.1.length) (count := count + 1) (State.readsPlain_of hr hp)
      (State.writesPlain_of hw hp)
      (fun i hi => by
        have := hin (e.1.length + i) (by omega)
        rwa [← Nat.add_assoc j] at this)
      hb1
      (BitsAt_congr (fun i hi hi' => by
        have hx := hin (i - j) (by omega)
        rw [show j + (i - j) = i by omega] at hx
        rw [hs1.st]
        refine Memory.read_store_other _ _ ?_
        by_contra hx'
        have : a + i / 8 = o + count := by simp at hx'; omega
        have h0 := hout 0 (by omega)
        rw [Nat.add_zero, ← this, hd _ hx] at h0; cases h0) hbits.2)
      (fun e' he => hm e' (by simp [he])) (by omega)
      (fun i hi => by
        have := hout (i + 1) (by omega)
        rwa [show o + count + (i + 1) = o + (count + 1) + i by omega] at this)
    refine ⟨w, byte', ?_, ?_, Run.Stores.trans hs1 hs2⟩
    · rw [hlen, Nat.add_assoc e.1.length, e1, e2, List.length_cons, ← Nat.add_assoc j,
        show count + 1 + msg.length = count + (msg.length + 1) by omega]
    · rw [hlen, ← Nat.add_assoc]; exact hb2

/-- A stream of no fewer bits than PAD is decoded bit by bit (41_huffman.md R264). -/
theorem huffDecode_within {u : Run} {root : Tree} {pad : BitVec 3} {a n o cap : Nat} (h : pad.toNat ≤ 8 * n) :
    huffDecode u root pad a n o cap = huffBits root a o cap (8 * n - pad.toNat) 0 0 0#8 root false u := by
  rw [huffDecode, if_neg (Nat.not_lt.2 h)]

/-! ### On any input -/

/-- What the decode loop can do on any input: it writes only the output, and counts no more bytes than fit. -/
theorem huffBits_wrote {W : Nat → Prop} {F : Prop} {root : Tree} {a o cap : Nat} (left : Nat) {j count : Nat}
    {byte : Byte} {cur : Tree} {mid : Bool} (u : Run) (hcount : count ≤ cap) (hW : ∀ i < cap, W (o + i))
    (hF : ∀ x, W x → spaceSize ≤ x → F) (hR : ∀ i < j + left, spaceSize ≤ a + i / 8 → F) :
    Comes (fun r => u.Wrote W false r.2 ∧ r.1.count ≤ cap) (fun _ => u.Wrote W false) F
      (huffBits root a o cap left j count byte cur mid u) := by
  induction left generalizing j count byte cur mid u with
  | zero => exact ⟨Run.Wrote.refl u, hcount⟩
  | succ left ih =>
    refine Comes.bind (P := fun _ => True) ?_ fun b _ => ?_
    · unfold streamByte
      split
      · exact (u.read_wrote (hR j (by omega))).mono (fun _ _ => trivial) (fun _ _ h => h) id
      · trivial
    · split
      · exact ⟨Run.Wrote.refl u, hcount⟩
      · split
        · exact ⟨Run.Wrote.refl u, hcount⟩
        · refine Comes.bind (u.write_wrote _ (hW count (by omega)) (hF _ (hW count (by omega)))) fun v hv => ?_
          exact (ih v (by omega) fun i hi => hR i (by omega)).mono (fun r h => ⟨hv.trans h.1, h.2⟩)
            (fun _ _ h => hv.trans h) id
      · exact ih u hcount fun i hi => hR i (by omega)

/-- What HuffDecode can do on any input. -/
theorem huffDecode_wrote {W : Nat → Prop} {F : Prop} (u : Run) (root : Tree) (pad : BitVec 3) (a n o cap : Nat)
    (hW : ∀ i < cap, W (o + i)) (hF : ∀ x, W x → spaceSize ≤ x → F) (hR : ∀ i < n, spaceSize ≤ a + i → F) :
    Comes (fun r => u.Wrote W false r.2 ∧ r.1.count ≤ cap) (fun _ => u.Wrote W false) F
      (huffDecode u root pad a n o cap) := by
  unfold huffDecode
  split
  · exact ⟨Run.Wrote.refl u, Nat.zero_le _⟩
  · exact huffBits_wrote _ u (Nat.zero_le _) hW hF fun i hi => hR (i / 8) (by omega)

end Sys2Proof.Machine
end

