-- ==== Sys2Proof/Laws/Tree.lean ====
section
/-! SUPPORT. What the insertion of a code does to a tree (41_huffman.md R251, R252, R256), and how a tree stands to the
code book it was built from. -/

namespace Sys2Proof.Machine

/-! ### Nodes -/

/-- An internal node. -/
def Tree.isNode : Tree → Bool
  | .node _ _ => true
  | .leaf _ | .absent => false

@[simp] theorem Tree.child_setChild (t : Tree) (b b' : Bool) (c : Tree) :
    (t.setChild b c).child b' = if b' = b then c else t.child b' := by
  cases t <;> cases b <;> cases b' <;> rfl

@[simp] theorem Tree.isNode_setChild (t : Tree) (b : Bool) (c : Tree) : (t.setChild b c).isNode = true := by
  cases t <;> cases b <;> rfl

theorem Tree.size_setChild {t : Tree} (h : t.isNode = true) (b : Bool) (c : Tree) :
    (t.setChild b c).size + (t.child b).size = t.size + c.size := by
  cases t with
  | absent => cases h
  | leaf v => cases h
  | node c0 c1 => cases b <;> simp [Tree.setChild, Tree.child, Tree.size] <;> omega

/-- A tree below a node changes what the paths through it lead to, and no other path. -/
theorem Tree.follow_setChild_cons (t : Tree) (b b' : Bool) (c : Tree) (path : List Bool) :
    (t.setChild b c).follow (b' :: path) = if b' = b then c.follow path else t.follow (b' :: path) := by
  rw [Tree.follow_cons, Tree.child_setChild]
  split <;> rfl

theorem Tree.follow_root_cons (b : Bool) (path : List Bool) : Tree.root.follow (b :: path) = .absent := by
  cases b <;> exact Tree.follow_absent path

/-- The paths to the nodes of a tree. -/
def Tree.paths : Tree → List (List Bool)
  | .absent => []
  | .leaf _ => [[]]
  | .node c0 c1 => [] :: (c0.paths.map (List.cons false) ++ c1.paths.map (List.cons true))

theorem Tree.length_paths (t : Tree) : t.paths.length = t.size := by
  induction t with
  | absent => rfl
  | leaf v => rfl
  | node c0 c1 h0 h1 => simp [Tree.paths, Tree.size, h0, h1]

theorem Tree.mem_paths (t : Tree) (path : List Bool) : path ∈ t.paths ↔ t.follow path ≠ .absent := by
  induction t generalizing path with
  | absent => simp [Tree.paths]
  | leaf v =>
    cases path with
    | nil => simp [Tree.paths]
    | cons b path => simp [Tree.paths]
  | node c0 c1 h0 h1 =>
    cases path with
    | nil => simp [Tree.paths]
    | cons b path => cases b <;> simp [Tree.paths, h0, h1, Tree.child]

theorem Tree.nodup_paths (t : Tree) : t.paths.Nodup := by
  induction t with
  | absent => simp [Tree.paths]
  | leaf v => simp [Tree.paths]
  | node c0 c1 h0 h1 =>
    have inj : ∀ b : Bool, Function.Injective (List.cons b) := fun b x y h => (List.cons.inj h).2
    rw [Tree.paths, List.nodup_cons, List.nodup_append]
    refine ⟨by simp, h0.map (inj false), h1.map (inj true), ?_⟩
    intro x hx y hy hxy
    obtain ⟨p, _, rfl⟩ := List.mem_map.1 hx
    obtain ⟨q, _, rfl⟩ := List.mem_map.1 hy
    cases (List.cons.inj hxy).1

/-! ### Insertion -/

/-- What a successful insertion comes to: one more leaf, at the end of the code, and nodes for the code's prefixes. -/
structure Tree.Grew (t t' : Tree) (v : Byte) (bits : List Bool) (fresh : Nat) : Prop where
  isNode : t'.isNode = true
  size : t'.size = t.size + fresh
  leaf : ∀ path w, t'.follow path = .leaf w ↔ (path = bits ∧ w = v) ∨ t.follow path = .leaf w
  node : ∀ path, t'.follow path ≠ .absent ↔ t.follow path ≠ .absent ∨ path <+: bits

theorem Tree.isNode_ne_leaf {t : Tree} (h : t.isNode = true) (w : Byte) : t ≠ .leaf w := by
  rintro rfl; cases h

theorem Tree.isNode_ne_absent {t : Tree} (h : t.isNode = true) : t ≠ .absent := by
  rintro rfl; cases h

/-- The insertion below a bit, seen from the node above. `c` is the node below it: the child there, or a fresh root. -/
theorem Tree.Grew.setChild {t c c' : Tree} {v : Byte} {b : Bool} {rest : List Bool} {fresh taken : Nat}
    (h : t.isNode = true) (g : c.Grew c' v rest fresh) (hc : t.child b = c ∧ taken = 0 ∨ t.child b = .absent ∧ c = Tree.root ∧ taken = 1) :
    t.Grew (t.setChild b c') v (b :: rest) (fresh + taken) where
  isNode := Tree.isNode_setChild t b c'
  size := by
    have := Tree.size_setChild h b c'
    rcases hc with ⟨hc, rfl⟩ | ⟨hc, rfl, rfl⟩
    · rw [hc, g.size] at this; omega
    · rw [hc, g.size] at this; simp [Tree.size, Tree.root] at this; omega
  leaf path w := by
    cases path with
    | nil =>
      have h1 := Tree.isNode_ne_leaf (Tree.isNode_setChild t b c') w
      have h2 := Tree.isNode_ne_leaf h w
      simp [h1, h2]
    | cons b' path =>
      rw [Tree.follow_setChild_cons]
      by_cases hb : b' = b
      · subst hb
        rw [if_pos rfl, g.leaf, Tree.follow_cons]
        rcases hc with ⟨hc, _⟩ | ⟨hc, rfl, _⟩
        · rw [hc]; simp
        · rw [hc, Tree.follow_absent]
          cases path with
          | nil => simp [Tree.root]
          | cons b2 path => rw [Tree.follow_root_cons]; simp
      · simp [hb]
  node path := by
    cases path with
    | nil =>
      have h1 := Tree.isNode_ne_absent (Tree.isNode_setChild t b c')
      have h2 := Tree.isNode_ne_absent h
      simp [h1, h2]
    | cons b' path =>
      rw [Tree.follow_setChild_cons]
      by_cases hb : b' = b
      · subst hb
        rw [if_pos rfl, g.node, Tree.follow_cons, List.cons_prefix_cons]
        rcases hc with ⟨hc, _⟩ | ⟨hc, rfl, _⟩
        · rw [hc]; simp
        · rw [hc, Tree.follow_absent]
          cases path with
          | nil => simp [Tree.root]
          | cons b2 path => rw [Tree.follow_root_cons]; simp
      · simp [hb, List.cons_prefix_cons]

theorem Tree.Grew.setLeaf {t : Tree} (v : Byte) {b : Bool} (h : t.isNode = true) (hc : t.child b = .absent) :
    t.Grew (t.setChild b (.leaf v)) v [b] 1 where
  isNode := Tree.isNode_setChild t b _
  size := by
    have := Tree.size_setChild h b (.leaf v)
    rw [hc] at this
    simpa [Tree.size] using this
  leaf path w := by
    cases path with
    | nil =>
      have h1 := Tree.isNode_ne_leaf (Tree.isNode_setChild t b (.leaf v)) w
      have h2 := Tree.isNode_ne_leaf h w
      simp [h1, h2]
    | cons b' path =>
      rw [Tree.follow_setChild_cons]
      by_cases hb : b' = b
      · subst hb
        rw [if_pos rfl, Tree.follow_cons, hc, Tree.follow_absent]
        cases path with
        | nil => simp [eq_comm]
        | cons b2 path => simp
      · simp [hb]
  node path := by
    cases path with
    | nil =>
      have h1 := Tree.isNode_ne_absent (Tree.isNode_setChild t b (.leaf v))
      have h2 := Tree.isNode_ne_absent h
      simp [h1, h2]
    | cons b' path =>
      rw [Tree.follow_setChild_cons]
      by_cases hb : b' = b
      · subst hb
        rw [if_pos rfl, Tree.follow_cons, hc, Tree.follow_absent, List.cons_prefix_cons]
        cases path with
        | nil => simp
        | cons b2 path => simp
      · simp [hb, List.cons_prefix_cons]

/-- A successful insertion. -/
theorem Tree.insert_done {v : Byte} {bits : List Bool} {t t' : Tree} {room fresh : Nat} (ht : t.isNode = true)
    (h : t.insert v bits room = .done t' fresh) : t.Grew t' v bits fresh ∧ fresh ≤ room := by
  induction bits generalizing t t' room fresh with
  | nil => cases h
  | cons b rest ih =>
    rw [Tree.insert] at h
    split at h
    · next hc =>
      split at h
      · cases h
      · next hroom =>
        split at h
        · next hrest =>
          have hnil : rest = [] := by simpa using hrest
          subst hnil
          cases h
          exact ⟨Tree.Grew.setLeaf v ht hc, by omega⟩
        · match hi : Tree.root.insert v rest (room - 1) with
          | .done c fresh' =>
            rw [hi] at h; cases h
            obtain ⟨g, hf⟩ := ih (t := Tree.root) rfl hi
            exact ⟨g.setChild ht (.inr ⟨hc, rfl, rfl⟩), by omega⟩
          | .conflict => rw [hi] at h; cases h
          | .full f => rw [hi] at h; cases h
    · cases h
    · next c0 c1 hc =>
      split at h
      · cases h
      · match hi : (Tree.node c0 c1).insert v rest room with
        | .done c fresh' =>
          rw [hi] at h; cases h
          obtain ⟨g, hf⟩ := ih (t := .node c0 c1) rfl hi
          exact ⟨g.setChild ht (.inl ⟨hc, rfl⟩), hf⟩
        | .conflict => rw [hi] at h; cases h
        | .full f => rw [hi] at h; cases h

/-- An insertion that clashes meets a leaf on its way, or ends at a node (41_huffman.md R252). -/
theorem Tree.insert_conflict {v : Byte} {bits : List Bool} {t : Tree} {room : Nat} (ht : t.isNode = true)
    (h : t.insert v bits room = .conflict) :
    t.follow bits ≠ .absent ∨ ∃ path w, path <+: bits ∧ t.follow path = .leaf w := by
  induction bits generalizing t room with
  | nil => exact .inl (Tree.isNode_ne_absent ht)
  | cons b rest ih =>
    rw [Tree.insert] at h
    split at h
    · next hc =>
      split at h
      · cases h
      · split at h
        · cases h
        · next hrest =>
          match hi : Tree.root.insert v rest (room - 1) with
          | .done c fresh' => rw [hi] at h; cases h
          | .conflict =>
            rcases ih (t := Tree.root) rfl hi with h1 | ⟨path, w, _, h2⟩
            · cases rest with
              | nil => simp at hrest
              | cons b2 rest => exact absurd (Tree.follow_root_cons b2 rest) h1
            · cases path with
              | nil => cases h2
              | cons b2 path => rw [Tree.follow_root_cons] at h2; cases h2
          | .full f => rw [hi] at h; cases h
    · next x hc => exact .inr ⟨[b], x, by simp, by rw [Tree.follow_cons, hc, Tree.follow_nil]⟩
    · next c0 c1 hc =>
      split at h
      · next hrest =>
        have hnil : rest = [] := by simpa using hrest
        subst hnil
        exact .inl (by rw [Tree.follow_cons, hc]; simp)
      · match hi : (Tree.node c0 c1).insert v rest room with
        | .done c fresh' => rw [hi] at h; cases h
        | .conflict =>
          rcases ih (t := .node c0 c1) rfl hi with h1 | ⟨path, w, hp, h2⟩
          · exact .inl (by rw [Tree.follow_cons, hc]; exact h1)
          · exact .inr ⟨b :: path, w, by simpa [List.cons_prefix_cons] using hp, by rw [Tree.follow_cons, hc]; exact h2⟩
        | .full f => rw [hi] at h; cases h

/-- A code that meets a leaf on its way, or ends at a node, clashes, however much room there is. -/
theorem Tree.insert_clashes {v : Byte} {bits : List Bool} {t : Tree} {room : Nat}
    (h : t.follow bits ≠ .absent ∨ ∃ path w, path <+: bits ∧ t.follow path = .leaf w) (ht : t.isNode = true) :
    t.insert v bits room = .conflict := by
  induction bits generalizing t room with
  | nil => rfl
  | cons b rest ih =>
    have hdown : (t.child b).follow rest ≠ .absent ∨ ∃ path w, path <+: rest ∧ (t.child b).follow path = .leaf w := by
      rcases h with h | ⟨path, w, hp, hl⟩
      · exact .inl h
      · cases path with
        | nil => exact absurd hl (Tree.isNode_ne_leaf ht w)
        | cons b' path =>
          rw [List.cons_prefix_cons] at hp
          obtain ⟨rfl, hp⟩ := hp
          exact .inr ⟨path, w, hp, hl⟩
    rw [Tree.insert]
    match hc : t.child b with
    | .absent =>
      rw [hc] at hdown
      rcases hdown with h | ⟨path, w, _, hl⟩
      · exact absurd (Tree.follow_absent rest) h
      · rw [Tree.follow_absent] at hl; cases hl
    | .leaf x => rfl
    | .node c0 c1 =>
      rw [hc] at hdown
      simp only
      split
      · rfl
      · rw [ih (t := .node c0 c1) hdown rfl]; rfl

/-- With no more room needed than there is, a code below a fresh root is always placed. -/
theorem Tree.insert_root (v : Byte) {bits : List Bool} {room : Nat} (hne : bits ≠ []) (hroom : bits.length ≤ room) :
    ∃ t, Tree.root.insert v bits room = .done t bits.length := by
  induction bits generalizing room with
  | nil => exact absurd rfl hne
  | cons b rest ih =>
    have hc : Tree.root.child b = .absent := by cases b <;> rfl
    have h0 : room ≠ 0 := by simp at hroom; omega
    rw [Tree.insert, hc]
    cases rest with
    | nil => simp [h0]
    | cons b2 rest =>
      obtain ⟨t, e⟩ := ih (room := room - 1) (by simp) (by simp at hroom ⊢; omega)
      simp only [h0, if_false, List.isEmpty_cons, e]
      exact ⟨_, rfl⟩

/-- An insertion that runs out of room takes all of it, and would have been placed with more (41_huffman.md R256). -/
theorem Tree.insert_full {v : Byte} {bits : List Bool} {t : Tree} {room fresh : Nat}
    (h : t.insert v bits room = .full fresh) :
    fresh = room ∧ ∀ more, room + bits.length ≤ more → ∃ t' n, t.insert v bits more = .done t' n ∧ room < n := by
  induction bits generalizing t room fresh with
  | nil => cases h
  | cons b rest ih =>
    rw [Tree.insert] at h
    split at h
    · next hc =>
      split at h
      · next h0 =>
        cases h
        refine ⟨h0.symm, fun more hm => ?_⟩
        rw [Tree.insert, hc]
        simp only [List.length_cons] at hm
        cases rest with
        | nil => exact ⟨t.setChild b (.leaf v), 1, by simp [show more ≠ 0 by omega], by omega⟩
        | cons b2 rest =>
          obtain ⟨t', e⟩ := Tree.insert_root v (bits := b2 :: rest) (room := more - 1) (by simp) (by omega)
          refine ⟨t.setChild b t', (b2 :: rest).length + 1, ?_, ?_⟩
          · simp only [show more ≠ 0 by omega, if_false, List.isEmpty_cons, e, Bool.false_eq_true]
            rfl
          · omega
      · next h0 =>
        split at h
        · cases h
        · next hrest =>
          match hi : Tree.root.insert v rest (room - 1) with
          | .done c fresh' => rw [hi] at h; cases h
          | .conflict => rw [hi] at h; cases h
          | .full f =>
            rw [hi] at h; cases h
            obtain ⟨rfl, hmore⟩ := ih hi
            refine ⟨by omega, fun more hm => ?_⟩
            simp only [List.length_cons] at hm
            obtain ⟨t', n, e, hn⟩ := hmore (more - 1) (by omega)
            refine ⟨t.setChild b t', n + 1, ?_, by omega⟩
            rw [Tree.insert, hc]
            simp only [show more ≠ 0 by omega, if_false, hrest, e, Bool.false_eq_true]
            rfl
    · cases h
    · next c0 c1 hc =>
      split at h
      · cases h
      · next hrest =>
        match hi : (Tree.node c0 c1).insert v rest room with
        | .done c fresh' => rw [hi] at h; cases h
        | .conflict => rw [hi] at h; cases h
        | .full f =>
          rw [hi] at h; cases h
          obtain ⟨rfl, hmore⟩ := ih hi
          refine ⟨rfl, fun more hm => ?_⟩
          simp only [List.length_cons] at hm
          obtain ⟨t', n, e, hn⟩ := hmore more (by omega)
          refine ⟨t.setChild b t', n, ?_, hn⟩
          rw [Tree.insert, hc]
          simp only [hrest, e, Bool.false_eq_true, if_false]
          rfl

/-- More room never changes an insertion that was placed. -/
theorem Tree.insert_room {v : Byte} {bits : List Bool} {t t' : Tree} {room more fresh : Nat}
    (h : t.insert v bits room = .done t' fresh) (hm : fresh ≤ more) : t.insert v bits more = .done t' fresh := by
  induction bits generalizing t t' room more fresh with
  | nil => cases h
  | cons b rest ih =>
    rw [Tree.insert] at h ⊢
    split at h
    · next hc =>
      split at h
      · cases h
      · split at h
        · next hrest =>
          cases h
          simp [show more ≠ 0 by omega, hrest]
        · next hrest =>
          match hi : Tree.root.insert v rest (room - 1) with
          | .done c fresh' =>
            rw [hi] at h; cases h
            have := ih hi (more := more - 1) (by omega)
            simp only [show more ≠ 0 by omega, if_false, hrest, this, Bool.false_eq_true]
            rfl
          | .conflict => rw [hi] at h; cases h
          | .full f => rw [hi] at h; cases h
    · cases h
    · next c0 c1 hc =>
      split at h
      · cases h
      · next hrest =>
        match hi : (Tree.node c0 c1).insert v rest room with
        | .done c fresh' =>
          rw [hi] at h; cases h
          have := ih hi (more := more) hm
          simp only [hrest, this, Bool.false_eq_true, if_false]
          rfl
        | .conflict => rw [hi] at h; cases h
        | .full f => rw [hi] at h; cases h

/-! ### Trees and code books -/

/-- The tree of a code book: its leaves are the codes, its nodes their prefixes. -/
structure Tree.OfBook (t : Tree) (book : CodeBook) : Prop where
  isNode : t.isNode = true
  codes : t.codesAre book
  nodes : ∀ path, t.follow path ≠ .absent ↔ path = [] ∨ ∃ e ∈ book, path <+: e.2

theorem Tree.root_ofBook : Tree.root.OfBook [] where
  isNode := rfl
  codes path v := by
    cases path with
    | nil => simp [Tree.root]
    | cons b path => rw [Tree.follow_root_cons]; simp
  nodes path := by
    cases path with
    | nil => simp [Tree.root]
    | cons b path => rw [Tree.follow_root_cons]; simp

theorem CodeBook.nodes_eq (book : CodeBook) :
    book.nodes = ([] :: book.flatMap fun e => e.2.inits).toFinset.card := (List.card_toFinset _).symm

/-- A longer book has no fewer nodes. -/
theorem CodeBook.nodes_le_append (book more : CodeBook) : CodeBook.nodes book ≤ CodeBook.nodes (book ++ more) := by
  rw [CodeBook.nodes_eq, CodeBook.nodes_eq]
  refine Finset.card_le_card fun x hx => ?_
  simp only [List.mem_toFinset, List.mem_cons, List.flatMap_append, List.mem_append] at hx ⊢
  tauto

/-- The tree of a book has as many nodes as the book has prefixes. -/
theorem Tree.OfBook.size_eq {t : Tree} {book : CodeBook} (h : t.OfBook book) : t.size = book.nodes := by
  rw [← Tree.length_paths, CodeBook.nodes_eq, ← List.toFinset_card_of_nodup t.nodup_paths]
  congr 1
  ext path
  simp only [List.mem_toFinset, Tree.mem_paths, h.nodes, List.mem_cons, List.mem_flatMap, List.mem_inits]

/-- A tree that a code was placed in is the tree of the longer book. -/
theorem Tree.OfBook.grown {t t' : Tree} {book : CodeBook} (h : t.OfBook book) {v : Byte} {bits : List Bool} {room fresh : Nat}
    (e : t.insert v bits room = .done t' fresh) : t'.OfBook (book ++ [(v, bits)]) ∧ t'.size = t.size + fresh := by
  obtain ⟨g, _⟩ := Tree.insert_done h.isNode e
  refine ⟨⟨g.isNode, fun path w => ?_, fun path => ?_⟩, g.size⟩
  · rw [g.leaf, h.codes]; simp [Prod.ext_iff]; tauto
  · rw [g.node, h.nodes]; simp [or_and_right, exists_or, or_assoc]

/-- Only a code that clashes with a code of the book is rejected. -/
theorem Tree.OfBook.clash_of_conflict {t : Tree} {book : CodeBook} (h : t.OfBook book) {v : Byte} {bits : List Bool}
    {room : Nat} (hne : bits ≠ []) (e : t.insert v bits room = .conflict) : ∃ e ∈ book, codesClash e.2 bits := by
  rcases Tree.insert_conflict h.isNode e with hn | ⟨path, w, hp, hl⟩
  · rcases (h.nodes bits).1 hn with hn | ⟨e', he, hp⟩
    · exact absurd hn hne
    · exact ⟨e', he, .inr hp⟩
  · exact ⟨_, (h.codes path w).1 hl, .inl hp⟩

/-- A code that clashes with no code of the book is placed, where the node store can hold the longer book. -/
theorem Tree.OfBook.insert {t : Tree} {book : CodeBook} (h : t.OfBook book) {v : Byte} {bits : List Bool} {room : Nat}
    (hne : bits ≠ []) (hfree : ∀ e ∈ book, ¬ codesClash e.2 bits)
    (hroom : CodeBook.nodes (book ++ [(v, bits)]) ≤ t.size + room) :
    ∃ t' fresh, t.insert v bits room = .done t' fresh ∧ t'.OfBook (book ++ [(v, bits)]) ∧ t'.size = t.size + fresh := by
  match e : t.insert v bits room with
  | .done t' fresh => exact ⟨t', fresh, rfl, h.grown e⟩
  | .conflict =>
    obtain ⟨c, hc, hclash⟩ := h.clash_of_conflict hne e
    exact absurd hclash (hfree c hc)
  | .full f =>
    exfalso
    obtain ⟨_, hmore⟩ := Tree.insert_full e
    obtain ⟨t', n, e', hn⟩ := hmore _ (Nat.le_refl _)
    obtain ⟨hb, hs⟩ := h.grown e'
    rw [← hb.size_eq] at hroom
    omega

/-- A code that clashes with no code of the book runs out of room, where the node store cannot hold the longer book: it
takes all the room there was (41_huffman.md R256). -/
theorem Tree.OfBook.overflows {t : Tree} {book : CodeBook} (h : t.OfBook book) {v : Byte} {bits : List Bool} {room : Nat}
    (hne : bits ≠ []) (hfree : ∀ e ∈ book, ¬ codesClash e.2 bits)
    (hroom : t.size + room < CodeBook.nodes (book ++ [(v, bits)])) : t.insert v bits room = .full room := by
  match e : t.insert v bits room with
  | .done t' fresh =>
    obtain ⟨hb, hs⟩ := h.grown e
    have := (Tree.insert_done h.isNode e).2
    rw [← hb.size_eq] at hroom
    omega
  | .conflict =>
    obtain ⟨c, hc, hclash⟩ := h.clash_of_conflict hne e
    exact absurd hclash (hfree c hc)
  | .full f => rw [(Tree.insert_full e).1]

/-- A code that clashes with a code of the book is rejected (41_huffman.md R252). -/
theorem Tree.OfBook.rejects {t : Tree} {book : CodeBook} (h : t.OfBook book) {v : Byte} {bits : List Bool} {room : Nat}
    (hclash : ∃ e ∈ book, codesClash e.2 bits) : t.insert v bits room = .conflict := by
  refine Tree.insert_clashes ?_ h.isNode
  obtain ⟨e, he, hc | hc⟩ := hclash
  · exact .inr ⟨e.2, e.1, hc, (h.codes _ _).2 he⟩
  · exact .inl ((h.nodes bits).2 (.inr ⟨e, he, hc⟩))

/-! ### Built trees -/

theorem Tree.live_or_absent_of_built {c0 c1 : Tree} (h : (Tree.node c0 c1).built = true) (b : Bool) :
    ((Tree.node c0 c1).child b).live = true ∨ (Tree.node c0 c1).child b = .absent := by
  cases b <;> simp [Tree.built] at h <;> simp [Tree.child, h]

/-- Every node of a tree that insertion made is a leaf or on the way to one. -/
theorem Tree.insert_built {v : Byte} {bits : List Bool} {t t' : Tree} {room fresh : Nat} (ht : t.built = true)
    (h : t.insert v bits room = .done t' fresh) : t'.built = true ∧ (t'.live = true) := by
  induction bits generalizing t t' room fresh with
  | nil => cases h
  | cons b rest ih =>
    match t, ht with
    | .node c0 c1, ht =>
    have key : ∀ c : Tree, c.live = true → ((Tree.node c0 c1).setChild b c).built = true
        ∧ ((Tree.node c0 c1).setChild b c).live = true := by
      intro c hc
      simp only [Tree.built, Bool.and_eq_true] at ht
      cases b <;> simp only [Tree.setChild, Tree.built, Tree.live, hc, ht, if_true, Bool.false_eq_true, if_false] <;> simp
    rw [Tree.insert] at h
    split at h
    · split at h
      · cases h
      · split at h
        · cases h; exact key _ rfl
        · match hi : Tree.root.insert v rest (room - 1) with
          | .done c fresh' =>
            rw [hi] at h; cases h
            exact key _ (ih (t := Tree.root) rfl hi).2
          | .conflict => rw [hi] at h; cases h
          | .full f => rw [hi] at h; cases h
    · cases h
    · next d0 d1 hc =>
      split at h
      · cases h
      · match hi : (Tree.node d0 d1).insert v rest room with
        | .done c fresh' =>
          rw [hi] at h; cases h
          refine key _ (ih (t := .node d0 d1) ?_ hi).2
          rcases Tree.live_or_absent_of_built ht b with hl | hl
          · rw [hc] at hl
            simp only [Tree.live, Bool.and_eq_true] at hl
            simp only [Tree.built, hl.1.1, hl.1.2, Bool.and_self]
          · rw [hc] at hl; cases hl
        | .conflict => rw [hi] at h; cases h
        | .full f => rw [hi] at h; cases h

end Sys2Proof.Machine
end

