-- ==== Sys2Proof/Laws/Build.lean ====
section
/-! SUPPORT. What BuildTree can do (41_huffman.md R251 to R258): how far the triples of a code book bring it, the codes it
rejects, and what it returns for any table. -/

namespace Sys2Proof.Machine

/-- The triples a table holds end where they say, and no earlier. -/
theorem tableHolds_le {m : Memory} {t stop : Nat} {book : CodeBook} {p : Nat} (h : tableHolds m t stop book p) : p ≤ stop := by
  induction book generalizing p with
  | nil => exact Nat.le_of_eq h
  | cons e book ih =>
    obtain ⟨_, _, _, _, _, h⟩ := h
    have := ih h
    omega

/-- One triple of a table, read in a plain region: the insertion of its code. -/
theorem buildTriples_step {r : Region} {u : Run} {t tlen cap : Nat} {pad : BitVec 3} (fuel : Nat) {tree : Tree}
    {ncodes nodes p : Nat} {v : Byte} {bits : List Bool} {stop : Nat} (hr : u.st.readsPlain r)
    (hin : ∀ i < tlen, r.has (t + i) = true) (h : tableHolds u.st.mem t stop [(v, bits)] p) (hs : stop ≤ tlen) :
    buildTriples u t tlen cap pad (fuel + 1) tree ncodes nodes p =
      match tree.insert v bits (cap - nodes) with
      | .done tree' fresh => buildTriples u t tlen cap pad fuel tree' (ncodes + 1) (nodes + fresh) stop
      | .conflict => .ok ⟨.badTable, tree, pad, ncodes, nodes, p⟩
      | .full fresh => .ok ⟨.allocFailure, tree, pad, ncodes, nodes + fresh, p⟩ := by
  obtain ⟨h0, h256, hv, hlen, hbits, hstop⟩ := h
  change p + 2 + codeBytes bits.length = stop at hstop
  have hnat : (BitVec.ofNat 8 bits.length).toNat = bits.length := by simp [Nat.mod_eq_of_lt h256]
  have e0 := Run.read_region hr (hin p (by omega))
  have e1 := Run.read_region hr (hin (p + 1) (by omega))
  rw [← Nat.add_assoc, hlen] at e1
  have e2 := Run.readBytes_region (u := u) (codeBytes bits.length) (a := t + p + 2) hr fun i hi => by
    have := hin (p + 2 + i) (by omega)
    rwa [← Nat.add_assoc, ← Nat.add_assoc] at this
  have hne : BitVec.ofNat 8 bits.length ≠ 0#8 := fun e => by
    have := congrArg BitVec.toNat e
    rw [hnat] at this
    change bits.length = 0 at this; omega
  rw [buildTriples, if_neg (by omega), if_neg (by omega)]
  simp only [e0, e1, bind, Except.bind, hv]
  rw [if_neg hne, hnat, if_neg (by omega), e2]
  simp only [hbits, hstop]
  rfl

/-- A triple that is cut short, or whose length is 0, ends BuildTree (41_huffman.md R251, R254). -/
theorem buildTriples_bad {r : Region} {u : Run} {t tlen cap : Nat} {pad : BitVec 3} (fuel : Nat) (tree : Tree)
    (ncodes nodes : Nat) {p : Nat} (hr : u.st.readsPlain r) (hin : ∀ i < tlen, r.has (t + i) = true) (hp : p < tlen)
    (h : tlen < p + 2 ∨ u.st.mem.read (t + p + 1) = 0#8
      ∨ tlen < p + 2 + codeBytes (u.st.mem.read (t + p + 1)).toNat) :
    buildTriples u t tlen cap pad (fuel + 1) tree ncodes nodes p = .ok ⟨.badTable, tree, pad, ncodes, nodes, p⟩ := by
  rw [buildTriples, if_neg (by omega)]
  split
  · rfl
  · next h2 =>
    have e0 := Run.read_region hr (hin p hp)
    have e1 := Run.read_region hr (hin (p + 1) (by omega))
    rw [← Nat.add_assoc] at e1
    simp only [e0, e1, bind, Except.bind]
    split
    · rfl
    · next hne => rw [if_pos ((h.resolve_left h2).resolve_left hne)]; rfl

/-- How far the triples of a code book bring BuildTree: past them, with the book's tree. -/
theorem buildTriples_run {r : Region} {u : Run} {t tlen cap : Nat} {pad : BitVec 3} {stop : Nat} (more : CodeBook)
    {fuel : Nat} {tree : Tree} {book : CodeBook} {ncodes p : Nat} (hr : u.st.readsPlain r)
    (hin : ∀ i < tlen, r.has (t + i) = true) (hb : tree.OfBook book) (h : tableHolds u.st.mem t stop more p)
    (hs : stop ≤ tlen) (hfree : CodeBook.prefixFree (book ++ more)) (hcap : CodeBook.nodes (book ++ more) ≤ cap)
    (hfuel : tlen - p ≤ fuel) :
    ∃ tree' fuel', buildTriples u t tlen cap pad fuel tree ncodes tree.size p
        = buildTriples u t tlen cap pad fuel' tree' (ncodes + more.length) tree'.size stop
      ∧ tree'.OfBook (book ++ more) ∧ tlen - stop ≤ fuel' := by
  induction more generalizing fuel tree book ncodes p with
  | nil =>
    cases h
    exact ⟨tree, fuel, rfl, by simpa using hb, hfuel⟩
  | cons e more ih =>
    obtain ⟨v, bits⟩ := e
    obtain ⟨h0, h256, hv, hlen, hbits, hrest⟩ := h
    have hle := tableHolds_le hrest
    have hone : tableHolds u.st.mem t (p + 2 + codeBytes bits.length) [(v, bits)] p := ⟨h0, h256, hv, hlen, hbits, rfl⟩
    have hcat : book ++ (v, bits) :: more = (book ++ [(v, bits)]) ++ more := by simp
    obtain ⟨fuel, rfl⟩ : ∃ k, fuel = k + 1 := ⟨fuel - 1, by omega⟩
    have hsz := hb.size_eq
    have hnodes : CodeBook.nodes (book ++ [(v, bits)]) ≤ cap := by
      have := CodeBook.nodes_le_append (book ++ [(v, bits)]) more
      rw [← hcat] at this
      omega
    have hmono := CodeBook.nodes_le_append book [(v, bits)]
    obtain ⟨tree1, fresh, e1, hb1, hs1⟩ := hb.insert (v := v) (bits := bits) (room := cap - tree.size)
      (by rintro rfl; simp at h0)
      (fun e he => by
        rw [CodeBook.prefixFree, List.pairwise_append] at hfree
        exact hfree.2.2 e he (v, bits) (by simp))
      (by omega)
    rw [hcat] at hfree hcap
    obtain ⟨tree', fuel', e2, hb2, hf2⟩ := ih (fuel := fuel) (ncodes := ncodes + 1) hb1 hrest hfree hcap (by omega)
    refine ⟨tree', fuel', ?_, by rw [hcat]; exact hb2, hf2⟩
    rw [buildTriples_step fuel hr hin hone (by omega), e1]
    simp only
    rw [← hs1, e2, List.length_cons, show ncodes + 1 + more.length = ncodes + (more.length + 1) by omega]

/-- Past its last triple BuildTree returns what it has. -/
theorem buildTriples_end (u : Run) {t tlen cap : Nat} (pad : BitVec 3) (fuel : Nat) (tree : Tree) (ncodes nodes : Nat)
    {p : Nat} (h : tlen ≤ p) :
    buildTriples u t tlen cap pad fuel tree ncodes nodes p = .ok ⟨.ok, tree, pad, ncodes, nodes, p⟩ := by
  cases fuel with
  | zero => rfl
  | succ fuel => rw [buildTriples, if_pos h]; rfl

theorem CodeBook.prefixFree_nil_append {book : CodeBook} (h : CodeBook.prefixFree book) :
    CodeBook.prefixFree ([] ++ book) := h

/-- BuildTree of a table of some codes and whatever follows them. -/
theorem buildTree_run {r : Region} {u : Run} {t tlen stop : Nat} {book : CodeBook} (hr : u.st.readsPlain r)
    (hin : ∀ i < tlen, r.has (t + i) = true) (h0 : 0 < tlen) (hpad : (u.st.mem.read t).toNat ≤ 7)
    (h : tableHolds u.st.mem t stop book 1) (hs : stop ≤ tlen) (hfree : CodeBook.prefixFree book)
    (hcap : CodeBook.nodes book ≤ u.st.platform.nodeCap) :
    ∃ tree fuel, buildTree u t tlen
        = buildTriples u t tlen u.st.platform.nodeCap ((u.st.mem.read t).extractLsb' 0 3) fuel tree book.length
            book.nodes stop
      ∧ tree.OfBook book ∧ tlen - stop ≤ fuel := by
  have e0 := Run.read_region hr (hin 0 h0)
  rw [Nat.add_zero] at e0
  obtain ⟨tree, fuel, e, hb, hf⟩ := buildTriples_run (pad := (u.st.mem.read t).extractLsb' 0 3) (ncodes := 0)
    (fuel := tlen) book hr hin Tree.root_ofBook h hs (CodeBook.prefixFree_nil_append hfree) hcap (by omega)
  refine ⟨tree, fuel, ?_, by simpa using hb, hf⟩
  have hsz := hb.size_eq
  rw [List.nil_append] at hsz
  rw [buildTree, if_neg (by omega)]
  simp only [e0, bind, Except.bind]
  rw [if_neg (by omega)]
  rw [hsz, Nat.zero_add] at e
  exact e

/-- BuildTree of a table with no PAD byte, or with a PAD above 7 (41_huffman.md R251). -/
theorem buildTree_bad {r : Region} {u : Run} {t tlen : Nat}
    (h : tlen = 0 ∨ (0 < tlen ∧ u.st.readsPlain r ∧ r.has t = true ∧ 7 < (u.st.mem.read t).toNat)) :
    buildTree u t tlen = .ok ⟨.badTable, Tree.root, 0#3, 0, 0, 0⟩ := by
  rcases h with rfl | ⟨h0, hr, ht, h7⟩
  · rfl
  · rw [buildTree, if_neg (by omega)]
    simp only [Run.read_region hr ht, bind, Except.bind]
    rw [if_pos h7]
    rfl

/-- BuildTree of a table that holds a prefix-free code book returns its tree. -/
theorem buildTree_ok {r : Region} {u : Run} {t tlen : Nat} {book : CodeBook} (hr : u.st.readsPlain r)
    (hin : ∀ i < tlen, r.has (t + i) = true) (h0 : 0 < tlen) (hpad : (u.st.mem.read t).toNat ≤ 7)
    (h : tableHolds u.st.mem t tlen book 1) (hfree : CodeBook.prefixFree book)
    (hcap : CodeBook.nodes book ≤ u.st.platform.nodeCap) :
    ∃ tree, buildTree u t tlen
        = .ok ⟨.ok, tree, (u.st.mem.read t).extractLsb' 0 3, book.length, book.nodes, tlen⟩ ∧ tree.OfBook book := by
  obtain ⟨tree, fuel, e, hb, _⟩ := buildTree_run hr hin h0 hpad h (Nat.le_refl _) hfree hcap
  exact ⟨tree, by rw [e, buildTriples_end _ _ _ _ _ _ (Nat.le_refl _)], hb⟩

/-- What a tree that BuildTree returns with no error is. -/
def BuildResult.good (cap : Nat) (res : BuildResult) : Prop :=
  res.code = .ok → res.tree.built = true ∧ res.tree.size = res.nodes ∧ res.tree.size ≤ cap

/-- What the triple loop can do on any table. -/
theorem buildTriples_comes {F : Prop} (u : Run) {t tlen cap : Nat} (pad : BitVec 3) (fuel : Nat) {tree : Tree}
    {ncodes nodes p : Nat} (hb : tree.built = true) (hs : tree.size = nodes) (hc : nodes ≤ cap)
    (hF : ∀ i < tlen, spaceSize ≤ t + i → F) :
    Comes (BuildResult.good cap) (fun code v => code = .busError ∧ v = u) F
      (buildTriples u t tlen cap pad fuel tree ncodes nodes p) := by
  induction fuel generalizing tree ncodes nodes p with
  | zero => exact fun _ => ⟨hb, hs, hs ▸ hc⟩
  | succ fuel ih =>
    rw [buildTriples]
    split
    · exact fun _ => ⟨hb, hs, hs ▸ hc⟩
    · split
      · intro h; cases h
      · refine Comes.bind ((u.read_comes _).mono (fun _ _ => trivial) (fun _ _ h => h) (hF p (by omega))) fun v _ => ?_
        refine Comes.bind ((u.read_comes _).mono (fun _ _ => trivial) (fun _ _ h => h)
          (by rw [Nat.add_assoc]; exact hF (p + 1) (by omega))) fun len _ => ?_
        split
        · intro h; cases h
        · split
          · intro h; cases h
          · refine Comes.bind (P := fun _ => True) ?_ fun bytes _ => ?_
            · have hread : ∀ (n a : Nat), (∀ i < n, spaceSize ≤ a + i → F) →
                  Comes (fun _ => True) (fun code v => code = .busError ∧ v = u) F (u.readBytes a n) := by
                intro n
                induction n with
                | zero => intro _ _; trivial
                | succ n ihn =>
                  intro a ha
                  refine Comes.bind ((u.read_comes _).mono (fun _ _ => trivial) (fun _ _ h => h) (ha 0 (by omega)))
                    fun b _ => Comes.bind (ihn _ fun i hi => ?_) fun bs _ => trivial
                  rw [Nat.add_right_comm, Nat.add_assoc]; exact ha (i + 1) (by omega)
              refine hread _ _ fun i hi => ?_
              rw [show t + p + 2 + i = t + (p + 2 + i) by omega]
              exact hF _ (by omega)
            · split
              · next t' fresh he =>
                obtain ⟨g, hf⟩ := Tree.insert_done (by cases tree <;> simp_all [Tree.built, Tree.isNode]) he
                exact ih (Tree.insert_built hb he).1 (by rw [g.size, hs]) (by omega)
              · intro h; cases h
              · intro h; cases h

/-- What BuildTree can do on any table: it changes nothing, and a tree it returns is a prefix code in the node store. -/
theorem buildTree_comes {F : Prop} (u : Run) (t tlen : Nat) (hF : ∀ i < tlen, spaceSize ≤ t + i → F) :
    Comes (BuildResult.good u.st.platform.nodeCap) (fun code v => code = .busError ∧ v = u) F (buildTree u t tlen) := by
  unfold buildTree
  split
  · intro h; cases h
  · refine Comes.bind ((u.read_comes _).mono (fun _ _ => trivial) (fun _ _ h => h) (hF 0 (by omega))) fun pad _ => ?_
    split
    · intro h; cases h
    · exact buildTriples_comes u _ _ rfl rfl (by unfold Platform.nodeCap; omega) hF

end Sys2Proof.Machine
end

