-- ==== Sys2Proof/Laws/Compositor.lean ====
section
/-! SUPPORT. What COMPOSITE can do on any block (42_compositor.md R301 to R318): where its pixels lie, what the fetch and
the loops read and write, and what they leave as it was on every path. -/

namespace Sys2Proof.Machine

/-! ### The geometry -/

/-- A point of the drawn rectangle lies in the block and in the destination. -/
theorem drawing_has {f : Frame} {p : Params} {x y : Int} (h : (drawing f p).has x y) :
    (0 ≤ x - (drawing f p).ox ∧ x - (drawing f p).ox < f.w.toNat)
    ∧ (0 ≤ y - (drawing f p).by1 ∧ y - (drawing f p).by1 < f.rows p.index.toNat)
    ∧ (0 ≤ x - (drawing f p).dx0 ∧ x - (drawing f p).dx0 < p.stride)
    ∧ (0 ≤ y - (drawing f p).dy0 ∧ y - (drawing f p).dy0 < p.rows) := by
  obtain ⟨h1, h2, h3, h4⟩ := h
  simp only [drawing] at h1 h2 h3 h4 ⊢
  omega

/-- The bytes of a destination pixel lie in the destination region. -/
theorem pixelAddr_has {p : Params} {col row : Nat} (hc : col < p.stride) (hr : row < p.rows) :
    p.destRegion.has (pixelAddr p col row) = true ∧ p.destRegion.has (pixelAddr p col row + 1) = true := by
  have : row * p.stride + p.stride ≤ p.rows * p.stride := by
    rw [← Nat.succ_mul]; exact Nat.mul_le_mul_right _ hr
  simp only [Region.has_iff, Params.destRegion, pixelAddr, Nat.mul_assoc, Nat.mul_comm p.stride]
  omega

/-- Different places of the destination are different pixels. -/
theorem pixelAddr_inj {p : Params} {col row col' row' : Nat} (hc : col < p.stride) (hc' : col' < p.stride)
    (h : ¬ (col = col' ∧ row = row')) :
    pixelAddr p col row + 2 ≤ pixelAddr p col' row' ∨ pixelAddr p col' row' + 2 ≤ pixelAddr p col row := by
  have hne : row * p.stride + col ≠ row' * p.stride + col' := by
    intro e
    have h1 : (row * p.stride + col) / p.stride = row := by
      rw [Nat.add_comm, Nat.add_mul_div_right _ _ (by omega), Nat.div_eq_of_lt hc, Nat.zero_add]
    have h2 : (row' * p.stride + col') / p.stride = row' := by
      rw [Nat.add_comm, Nat.add_mul_div_right _ _ (by omega), Nat.div_eq_of_lt hc', Nat.zero_add]
    have : row = row' := by rw [← h1, ← h2, e]
    subst this
    exact h ⟨by omega, rfl⟩
  unfold pixelAddr
  omega

/-- A byte offset inside a block of `r` rows of `n` bytes. -/
theorem offset_lt {n r sx sy : Nat} (hx : sx < n) (hy : sy < r) : sy * n + sx < n * r := by
  have : sy * n + n ≤ r * n := by rw [← Nat.succ_mul]; exact Nat.mul_le_mul_right _ hy
  rw [Nat.mul_comm n r]; omega

/-- The bytes a fetch reads lie in the decoded block. -/
theorem fetch_offset {f : Frame} {k sx sy : Nat} (hx : sx < f.w.toNat) (hy : sy < f.rows k) :
    (f.depth = 8#8 → sy * f.w.toNat + sx < f.blockSize k)
    ∧ (f.depth = 4#8 → sy * halfWidth f.w.toNat + sx / 2 < f.blockSize k)
    ∧ (f.depth ≠ 8#8 → f.depth ≠ 4#8 → 2 * (sy * f.w.toNat + sx) + 1 < f.blockSize k) := by
  refine ⟨fun h => ?_, fun h => ?_, fun h8 h4 => ?_⟩
  · rw [Frame.blockSize, blockBytes, if_pos h]; exact offset_lt hx hy
  · rw [Frame.blockSize, blockBytes, if_neg (by rw [h]; decide), if_pos h]
    exact offset_lt (by unfold halfWidth; omega) hy
  · rw [Frame.blockSize, blockBytes, if_neg h8, if_neg h4, Nat.mul_assoc]
    have := offset_lt hx hy
    omega

/-- A nibble is below 16. -/
theorem nibble_lt (b : Byte) (sx : Nat) : (nibble b sx).toNat < 16 := by
  unfold nibble
  split <;> simp [BitVec.extractLsb'] <;> omega

/-! ### On any block -/

/-- The colour of the palette entry of slot `k`, as memory and the latched parameters have it (42_compositor.md R301). -/
def Run.entryColor (u : Run) (k : Nat) : Half :=
  paletteColor (u.st.mem.read (u.st.frame.palAddr.toNat + 4 * k)) (u.st.mem.read (u.st.frame.palAddr.toNat + 4 * k + 1))
    (u.st.mem.read (u.st.frame.palAddr.toNat + 4 * k + 2)) u.c.params.swap

/-- What the drawing of run `b` rests on: its destination is not the palette, and the places it could not read or write
without a fault. -/
structure Run.DrawBounds (b : Run) (F : Prop) : Prop where
  dest : ∀ x, b.c.params.destRegion.has x = true → spaceSize ≤ x → F
  dbuf : ∀ i < b.st.frame.blockSize b.c.params.index.toNat, spaceSize ≤ b.c.params.dbufAddr.toNat + i → F
  pal : indexedDepth b.st.frame.depth = true → ∀ i < paletteBytes b.st.frame.depth,
    b.c.params.destRegion.has (b.st.frame.palAddr.toNat + i) = false ∧ (spaceSize ≤ b.st.frame.palAddr.toNat + i → F)

/-- `u` has come from `b` by drawing: it wrote only the destination and kept every resolved slot, and a slot it filled holds
the colour of its palette entry (42_compositor.md R305, R306). -/
structure Run.Drew (b u : Run) : Prop where
  wrote : b.Wrote (fun a => b.c.params.destRegion.has a = true) true u
  filled : ∀ k : Fin 256, b.st.pcache[k] = none → u.st.pcache[k] = none ∨ u.st.pcache[k] = some (b.entryColor k.val)

theorem Run.Drew.refl (b : Run) : b.Drew b := ⟨Run.Wrote.refl b, fun _ h => .inl h⟩

theorem Run.Drew.frame {b u : Run} (h : b.Drew u) : u.st.frame = b.st.frame := by rw [h.wrote.st]

/-- What writes only the destination goes on with a drawing. -/
theorem Run.Drew.write {b u v : Run} (h : b.Drew u) (hv : u.Wrote (fun a => b.c.params.destRegion.has a = true) false v) :
    b.Drew v :=
  ⟨h.wrote.trans hv.resolving, by rw [hv.cache rfl]; exact h.filled⟩

/-- A stretch that writes only the destination goes on with a drawing. -/
theorem Comes.drew {α : Type} {F : Prop} {P : α → Prop} {b u : Run} {x : Except Stop α} (h : b.Drew u)
    (hx : Comes P (fun _ => u.Wrote (fun a => b.c.params.destRegion.has a = true) false) F x) :
    Comes P (fun _ => b.Drew) F x :=
  hx.mono (fun _ h => h) (fun _ _ hv => h.write hv) id

theorem resolveColor_wrote {W : Nat → Prop} {k : Bool} {F : Prop} (u : Run) (base i : Nat) (swap : Bool)
    (hF : ∀ j < 4 * (i + 1), spaceSize ≤ base + j → F) :
    Comes
      (fun color => color = paletteColor (u.st.mem.read (base + 4 * i)) (u.st.mem.read (base + 4 * i + 1))
        (u.st.mem.read (base + 4 * i + 2)) swap)
      (fun _ => u.Wrote W k) F (resolveColor u base i swap) := by
  refine Comes.bind (u.read_wrote (hF (4 * i) (by omega))) fun _ e0 => ?_
  refine Comes.bind (u.read_wrote (by rw [Nat.add_assoc]; exact hF (4 * i + 1) (by omega))) fun _ e1 => ?_
  refine Comes.bind (u.read_wrote (by rw [Nat.add_assoc]; exact hF (4 * i + 2) (by omega))) fun _ e2 => ?_
  rw [e0, e1, e2]
  rfl

/-- Filling an empty slot with its entry's colour goes on with a drawing. -/
theorem Run.Drew.fill {b u : Run} (h : b.Drew u) (n : Nat) {i : Byte} (hnone : u.st.pcache[i.toNat]'i.isLt = none)
    {color : Half} (hc : color = b.entryColor i.toNat) :
    b.Drew { st := { u.st with pcache := u.st.pcache.set i.toNat (some color) i.isLt }, c := { u.c with r2 := n } } := by
  have hget (j : Fin 256) : (u.st.pcache.set i.toNat (some color) i.isLt)[j]
      = if i.toNat = j.val then some color else u.st.pcache[j] :=
    Vector.getElem_set (hi := i.isLt) (hj := j.isLt)
  have hi (j : Fin 256) (e : i.toNat = j.val) : u.st.pcache[j] = none := by
    have : (⟨i.toNat, i.isLt⟩ : Fin 256) = j := Fin.ext e
    subst this
    exact hnone
  refine ⟨h.wrote.trans ⟨rfl, rfl, rfl, fun j c hj => ?_, nofun, fun _ _ => rfl, id, id⟩, fun j hj => ?_⟩
  · change (u.st.pcache.set i.toNat (some color) i.isLt)[j] = some c
    rw [hget]
    split
    · next e => rw [hi j e] at hj; cases hj
    · exact hj
  · change (u.st.pcache.set i.toNat (some color) i.isLt)[j] = none ∨ (u.st.pcache.set i.toNat (some color) i.isLt)[j] = _
    rw [hget]
    split
    · next e => exact .inr (by rw [hc, e])
    · exact h.filled j hj

theorem cacheColor_drew {F : Prop} {b u : Run} (h : b.Drew u) (i : Byte)
    (hpal : ∀ j < 4 * (i.toNat + 1), b.c.params.destRegion.has (b.st.frame.palAddr.toNat + j) = false
      ∧ (spaceSize ≤ b.st.frame.palAddr.toNat + j → F)) :
    Comes (fun r => b.Drew r.2) (fun _ => b.Drew) F (cacheColor u i) := by
  have hm (j : Nat) (hj : j < 4 * (i.toNat + 1)) :
      u.st.mem.read (b.st.frame.palAddr.toNat + j) = b.st.mem.read (b.st.frame.palAddr.toNat + j) :=
    h.wrote.mem _ (by simp [(hpal j hj).1])
  unfold cacheColor
  split
  · exact h
  · next hnone =>
    refine Comes.bind ((resolveColor_wrote u _ _ _ fun j hj => ?_).drew h) fun color hc => h.fill _ hnone ?_
    · rw [h.frame]; exact (hpal j hj).2
    · rw [hc, h.frame, h.wrote.params, hm (4 * i.toNat) (by omega), Nat.add_assoc, Nat.add_assoc,
        hm (4 * i.toNat + 1) (by omega), hm (4 * i.toNat + 2) (by omega)]
      rfl

theorem fetchPixel_drew {F : Prop} {b u : Run} (h : b.Drew u) (hb : b.DrawBounds F) {sx sy : Nat}
    (hx : sx < b.st.frame.w.toNat) (hy : sy < b.st.frame.rows b.c.params.index.toNat) :
    Comes (fun r => b.Drew r.2) (fun _ => b.Drew) F (fetchPixel u sx sy) := by
  obtain ⟨o8, o4, o24⟩ := fetch_offset hx hy
  unfold fetchPixel
  rw [h.frame, h.wrote.params]
  split
  · next h8 =>
    refine Comes.bind ((u.read_wrote (by rw [Nat.add_assoc]; exact hb.dbuf _ (o8 h8))).drew h) fun i _ => ?_
    refine cacheColor_drew h i fun j hj => hb.pal (by rw [h8]; rfl) j ?_
    have := i.isLt
    rw [h8, paletteBytes]
    have : (4 * 2 ^ (8#8).toNat) = 1024 := by decide
    omega
  · split
    · next h8 h4 =>
      refine Comes.bind ((u.read_wrote (by rw [Nat.add_assoc]; exact hb.dbuf _ (o4 h4))).drew h) fun v _ => ?_
      refine cacheColor_drew h _ fun j hj => hb.pal (by rw [h4]; rfl) j ?_
      have := nibble_lt v sx
      rw [h4, paletteBytes]
      have : (4 * 2 ^ (4#8).toNat) = 64 := by decide
      omega
    · next h8 h4 =>
      have := o24 h8 h4
      refine Comes.bind (P := fun _ => True) ?_ fun color _ => h
      refine Comes.bind ((u.read_wrote (hb.dbuf _ (by omega))).drew h) fun _ _ => ?_
      refine Comes.bind ((u.read_wrote (by rw [Nat.add_assoc]; exact hb.dbuf _ (by omega))).drew h) fun _ _ => trivial

theorem write16_drew {F : Prop} {b u : Run} (h : b.Drew u) (hb : b.DrawBounds F) {col row : Nat} (v : Half)
    (hc : col < b.c.params.stride) (hr : row < b.c.params.rows) :
    Comes b.Drew (fun _ => b.Drew) F (u.write16 (pixelAddr b.c.params col row) v) := by
  obtain ⟨h0, h1⟩ := pixelAddr_has (p := b.c.params) hc hr
  refine Comes.bind (P := b.Drew) ?_ fun w hw => ?_
  · exact (u.write_wrote _ h0 (hb.dest _ h0)).mono (fun _ hv => h.write hv) (fun _ _ hv => h.write hv) id
  · exact (w.write_wrote _ h1 (hb.dest _ h1)).mono (fun _ hv => hw.write hv) (fun _ _ hv => hw.write hv) id

/-- A count of pixels goes on with a drawing. -/
theorem Run.Drew.record {b u : Run} (h : b.Drew u) (c : InFlight) (ho : c.op = u.c.op) (hp : c.params = u.c.params)
    (hu : c.undo = u.c.undo) : b.Drew { u with c := c } :=
  h.write ((Run.Wrote.refl u).record c ho hp hu)

theorem drawMirror_drew {F : Prop} {b u : Run} (h : b.Drew u) (hb : b.DrawBounds F) {x y : Int} (color : Half)
    (hxy : (drawing b.st.frame b.c.params).has x y) :
    Comes b.Drew (fun _ => b.Drew) F
      (drawMirror (drawing b.st.frame b.c.params) (x - (drawing b.st.frame b.c.params).ox)
        (y - (drawing b.st.frame b.c.params).dy0).toNat color u) := by
  obtain ⟨_, _, _, ⟨hr0, hr1⟩⟩ := drawing_has hxy
  unfold drawMirror
  rw [h.frame, h.wrote.params]
  simp only
  split
  · next hm =>
    simp only [Bool.and_eq_true, decide_eq_true_eq] at hm
    exact Comes.bind (write16_drew h hb color (by omega) (by omega)) fun v hv => hv.record _ rfl rfl rfl
  · exact h

theorem drawPixel_drew {F : Prop} {b u : Run} (h : b.Drew u) (hb : b.DrawBounds F) {x y : Int}
    (hxy : (drawing b.st.frame b.c.params).has x y) :
    Comes b.Drew (fun _ => b.Drew) F (drawPixel (drawing b.st.frame b.c.params) x y u) := by
  obtain ⟨⟨hx0, hx1⟩, ⟨hy0, hy1⟩, ⟨hc0, hc1⟩, ⟨hr0, hr1⟩⟩ := drawing_has hxy
  refine Comes.bind (fetchPixel_drew h hb (by omega) (by omega)) fun ⟨color, u1⟩ h1 => ?_
  refine Comes.bind (P := b.Drew) ?_ fun u2 h2 => ?_
  · rw [h1.wrote.params]
    exact write16_drew h1 hb color (by omega) (by omega)
  · exact drawMirror_drew (h2.record { u2.c with r0 := u2.c.r0 + 1 } rfl rfl rfl) hb color hxy

theorem drawRow_drew {F : Prop} {b : Run} (hb : b.DrawBounds F) {y : Int} (n : Nat) {x : Int} {u : Run} (h : b.Drew u)
    (hxy : ∀ i : Nat, i < n → (drawing b.st.frame b.c.params).has (x + i) y) :
    Comes b.Drew (fun _ => b.Drew) F (drawRow (drawing b.st.frame b.c.params) y n x u) := by
  induction n generalizing x u with
  | zero => exact h
  | succ n ih =>
    refine Comes.bind (drawPixel_drew h hb (by simpa using hxy 0 (Nat.succ_pos n))) fun v hv => ih hv fun i hi => ?_
    have := hxy (i + 1) (Nat.succ_lt_succ hi)
    rwa [show x + ((i + 1 : Nat) : Int) = x + 1 + i by push_cast; ring] at this

/-- What the loops of COMPOSITE can do on any block: they write only the destination, keep every resolved slot, and fill an
empty one only with its palette entry's colour. -/
theorem drawRows_drew {F : Prop} {b : Run} (hb : b.DrawBounds F) (n : Nat) {y : Int} {u : Run} (h : b.Drew u)
    (hxy : ∀ x, (drawing b.st.frame b.c.params).x1 ≤ x → x ≤ (drawing b.st.frame b.c.params).x2 →
      ∀ i : Nat, i < n → (drawing b.st.frame b.c.params).has x (y + i)) :
    Comes b.Drew (fun _ => b.Drew) F (drawRows (drawing b.st.frame b.c.params) n y u) := by
  induction n generalizing y u with
  | zero => exact h
  | succ n ih =>
    refine Comes.bind (drawRow_drew hb _ h fun i hi => ?_) fun v hv => ih hv fun x h1 h2 i hi => ?_
    · have := hxy ((drawing b.st.frame b.c.params).x1 + i) (by omega) (by omega) 0 (Nat.succ_pos n)
      simpa using this
    · have := hxy x h1 h2 (i + 1) (Nat.succ_lt_succ hi)
      rwa [show y + ((i + 1 : Nat) : Int) = y + 1 + i by push_cast; ring] at this

/-! ### An error leaves the cache as it was -/

/-- The cache of the machine a drawing began from, put back. -/
theorem Run.Drew.restore {b u : Run} (h : b.Drew u) : b.Drew { u with st := { u.st with pcache := b.st.pcache } } where
  wrote :=
    { h.wrote with
      st := by rw [h.wrote.st]
      resolved := fun _ _ e => e
      cache := fun _ => rfl }
  filled _ e := .inl e

/-- A drawing under `keepCacheOnError` is the same drawing where it comes to its end, and one without a change of the cache
where it fails. -/
theorem keepCacheOnError_drew {F : Prop} {b : Run} {x : Except Stop Run} (h : Comes b.Drew (fun _ => b.Drew) F x) :
    Comes b.Drew (fun _ u => b.Drew u ∧ u.st.pcache = b.st.pcache) F (keepCacheOnError b.st.pcache x) :=
  match x, h with
  | .ok _, h => h
  | .error (.ended _ _), h => ⟨h.restore, rfl⟩
  | .error (.refuse _), _ => trivial
  | .error (.fault _), h => h

/-- Where a stretch finishes OK, `keepCacheOnError` changes nothing. -/
@[simp] theorem keepCacheOnError_ok (cache : Vector (Option Half) 256) (u : Run) :
    keepCacheOnError cache (.ok u) = .ok u := rfl

end Sys2Proof.Machine
end

