-- ==== Sys2Proof/Laws/Rle.lean ====
section
/-! SUPPORT. What the RLE procedure can do (40_block_decoder.md R205 to R208): how far a prefix of its pairs brings it,
and what it leaves as it was on every path. -/

namespace Sys2Proof.Machine

theorem expanded_cons (p : Byte × Byte) (ps : List (Byte × Byte)) :
    expanded (p :: ps) = List.replicate p.1.toNat p.2 ++ expanded ps := rfl

theorem pairBytes_cons (p : Byte × Byte) (ps : List (Byte × Byte)) :
    pairBytes (p :: ps) = p.1 :: p.2 :: pairBytes ps := rfl

theorem pairBytes_length (ps : List (Byte × Byte)) : (pairBytes ps).length = 2 * ps.length := by
  induction ps with
  | nil => rfl
  | cons p ps ih => simp [pairBytes_cons, ih]; omega

/-- Copies written into a plain region. -/
theorem writeCopies_stores {r : Region} (v : Byte) (n : Nat) {a : Nat} {u : Run} (hw : u.st.writesPlain r)
    (ha : ∀ i < n, r.has (a + i) = true) :
    ∃ w, writeCopies v n a u = .ok w ∧ u.Stores w a (List.replicate n v) := by
  induction n generalizing a u with
  | zero => exact ⟨u, rfl, Run.Stores.refl u a⟩
  | succ n ih =>
    obtain ⟨u1, e1, h1⟩ := Run.write_stores v hw (ha 0 (Nat.succ_pos n))
    have hw1 : u1.st.writesPlain r := State.writesPlain_of hw (by rw [h1.st])
    obtain ⟨w, e2, h2⟩ := ih (a := a + 1) hw1 fun i hi => by
      have := ha (i + 1) (Nat.succ_lt_succ hi); rwa [Nat.add_right_comm, Nat.add_assoc]
    refine ⟨w, ?_, Run.Stores.trans h1 h2⟩
    rw [Nat.add_zero] at e1
    simp only [writeCopies, e1]
    exact e2

/-- Copies whose `j`-th memory refuses: the ones before it are written, and the command ends with BUS_ERROR. -/
theorem writeCopies_refused (v : Byte) (n j : Nat) {a : Nat} {u : Run} (hj : j < n) (hw : u.st.writesPlain ⟨a, j⟩)
    (hs : a + j < spaceSize) (hr : u.st.platform.answersWrite (a + j) = false) :
    ∃ w, writeCopies v n a u = .error (.ended .busError w) ∧ u.Stores w a (List.replicate j v) := by
  induction j generalizing a n u with
  | zero =>
    obtain ⟨n, rfl⟩ : ∃ m, n = m + 1 := ⟨n - 1, by omega⟩
    refine ⟨u, ?_, Run.Stores.refl u a⟩
    rw [Nat.add_zero] at hs hr
    simp only [writeCopies, Run.write_refused v hs hr]
    rfl
  | succ j ih =>
    obtain ⟨n, rfl⟩ : ∃ m, n = m + 1 := ⟨n - 1, by omega⟩
    obtain ⟨u1, e1, h1⟩ := Run.write_stores v hw (a := a) (Region.has_iff.2 ⟨Nat.le_refl _, by simp⟩)
    have hp : u1.st.platform = u.st.platform := by rw [h1.st]
    obtain ⟨w, e2, h2⟩ := ih (a := a + 1) (u := u1) n (by omega)
      (fun x hx => hp ▸ hw x (by rw [Region.has_iff] at hx ⊢; dsimp only at hx ⊢; omega)) (by omega)
      (by rw [hp, Nat.add_right_comm, Nat.add_assoc]; exact hr)
    refine ⟨w, ?_, Run.Stores.trans h1 h2⟩
    simp only [writeCopies, e1]
    exact e2

/-- How far the pairs before the last `k` bring the pair loop, when their expansion fits: to the `k` pairs that are
left, with exactly the expansion stored. -/
theorem rlePairs_run {rin rout : Region} {a o cap : Nat} (k : Nat) (ps : List (Byte × Byte)) {q count : Nat} {u : Run}
    (hr : u.st.readsPlain rin) (hin : ∀ i < 2 * ps.length, rin.has (a + 2 * q + i) = true)
    (hw : u.st.writesPlain rout) (hout : ∀ i < (expanded ps).length, rout.has (o + count + i) = true)
    (hd : ∀ x, rin.has x = true → rout.has x = false)
    (hb : u.st.mem.bytes (a + 2 * q) (2 * ps.length) = pairBytes ps) (hc : count + (expanded ps).length ≤ cap) :
    ∃ v, rlePairs a o cap (ps.length + k) q count u
        = rlePairs a o cap k (q + ps.length) (count + (expanded ps).length) v
      ∧ u.Stores v (o + count) (expanded ps) := by
  induction ps generalizing q count u with
  | nil => exact ⟨u, by simp [expanded], Run.Stores.refl u _⟩
  | cons p ps ih =>
    have e2 : 2 * (p :: ps).length = 2 * ps.length + 1 + 1 := by simp; omega
    rw [e2, Memory.bytes_cons, Memory.bytes_cons, pairBytes_cons] at hb
    simp only [List.cons.injEq] at hb
    obtain ⟨hb0, hb1, hbt⟩ := hb
    have r0 := Run.read_region hr (hin 0 (by omega))
    have r1 := Run.read_region hr (hin 1 (by omega))
    rw [Nat.add_zero, hb0] at r0
    rw [hb1] at r1
    have hlen : (expanded (p :: ps)).length = p.1.toNat + (expanded ps).length := by simp [expanded_cons]
    obtain ⟨u1, ew, h1⟩ := writeCopies_stores p.2 p.1.toNat (a := o + count) hw fun i hi =>
      hout i (by omega)
    have hp : u1.st.platform = u.st.platform := by rw [h1.st]
    have hmem : u1.st.mem.bytes (a + 2 * (q + 1)) (2 * ps.length) = pairBytes ps := by
      rw [← hbt, show a + 2 * (q + 1) = a + 2 * q + 1 + 1 by omega]
      refine Memory.bytes_congr fun i hi => ?_
      rw [h1.st]
      refine Memory.read_store_other _ _ ?_
      by_contra hx
      have hx' : o + count ≤ a + 2 * q + 1 + 1 + i ∧ a + 2 * q + 1 + 1 + i < o + count + p.1.toNat := by
        simp at hx; omega
      have h2 := hd _ (hin (i + 2) (by omega))
      have h3 := hout (a + 2 * q + 1 + 1 + i - (o + count)) (by omega)
      rw [show o + count + (a + 2 * q + 1 + 1 + i - (o + count)) = a + 2 * q + (i + 2) by omega, h2] at h3
      cases h3
    obtain ⟨v, ev, hv⟩ := ih (q := q + 1) (count := count + p.1.toNat) (State.readsPlain_of hr hp)
      (fun i hi => by
        have := hin (i + 2) (by omega)
        rwa [show a + 2 * q + (i + 2) = a + 2 * (q + 1) + i by omega] at this)
      (State.writesPlain_of hw hp)
      (fun i hi => by
        have := hout (p.1.toNat + i) (by omega)
        rwa [show o + count + (p.1.toNat + i) = o + (count + p.1.toNat) + i by omega] at this)
      hmem (by omega)
    refine ⟨v, ?_, ?_⟩
    · rw [show (p :: ps).length + k = (ps.length + k) + 1 by simp; omega,
        show q + (p :: ps).length = q + 1 + ps.length by simp; omega, hlen, ← Nat.add_assoc count]
      rw [← ev]
      simp only [rlePairs, r0, r1, bind, Except.bind]
      rw [if_neg (by omega), ew]
    · rw [expanded_cons]
      refine Run.Stores.trans h1 ?_
      rwa [List.length_replicate, Nat.add_assoc]

/-- An input of even length is expanded pair by pair (40_block_decoder.md R207). -/
theorem rleExpand_even {u : Run} {a n o cap : Nat} (h : n % 2 = 0) :
    rleExpand u a n o cap = rlePairs a o cap (n / 2) 0 0 u := by
  rw [rleExpand, if_neg (by omega)]

/-- The copies of the pair loop leave everything outside the output alone. -/
theorem writeCopies_wrote {W : Nat → Prop} {F : Prop} (b : Byte) (n : Nat) {a : Nat} (u : Run)
    (hW : ∀ i < n, W (a + i)) (hF : ∀ x, W x → spaceSize ≤ x → F) :
    Comes (u.Wrote W false) (fun _ => u.Wrote W false) F (writeCopies b n a u) := by
  induction n generalizing a u with
  | zero => exact Run.Wrote.refl u
  | succ n ih =>
    refine Comes.bind (u.write_wrote b (hW 0 (Nat.succ_pos n)) (hF _ (hW 0 (Nat.succ_pos n)))) fun v hv => ?_
    refine (ih v fun i hi => ?_).mono (fun _ h => hv.trans h) (fun _ _ h => hv.trans h) id
    have := hW (i + 1) (Nat.succ_lt_succ hi)
    rwa [Nat.add_right_comm, Nat.add_assoc]

/-- What the pair loop can do on any input: it writes only the output, and counts no more bytes than fit. -/
theorem rlePairs_wrote {W : Nat → Prop} {F : Prop} {a o cap : Nat} (left : Nat) {q count : Nat} (u : Run)
    (hcount : count ≤ cap) (hW : ∀ i < cap, W (o + i)) (hF : ∀ x, W x → spaceSize ≤ x → F)
    (hR : ∀ i < 2 * (q + left), spaceSize ≤ a + i → F) :
    Comes (fun r => u.Wrote W false r.2 ∧ r.1.count ≤ cap) (fun _ => u.Wrote W false) F
      (rlePairs a o cap left q count u) := by
  induction left generalizing q count u with
  | zero => exact ⟨Run.Wrote.refl u, hcount⟩
  | succ left ih =>
    refine Comes.bind (u.read_wrote (hR (2 * q) (by omega))) fun c _ => ?_
    refine Comes.bind (u.read_wrote (by rw [Nat.add_assoc]; exact hR (2 * q + 1) (by omega))) fun b _ => ?_
    by_cases hc : cap < count + c.toNat
    · rw [if_pos hc]; exact ⟨Run.Wrote.refl u, hcount⟩
    · rw [if_neg hc]
      refine Comes.bind (writeCopies_wrote b c.toNat u (fun i hi => ?_) hF) fun v hv => ?_
      · rw [Nat.add_assoc]; exact hW _ (by omega)
      · refine (ih v (by omega) fun i hi => hR i (by omega)).mono (fun r h => ⟨hv.trans h.1, h.2⟩)
          (fun _ _ h => hv.trans h) id

/-- What RleExpand can do on any input. -/
theorem rleExpand_wrote {W : Nat → Prop} {F : Prop} (u : Run) (a n o cap : Nat) (hW : ∀ i < cap, W (o + i))
    (hF : ∀ x, W x → spaceSize ≤ x → F) (hR : ∀ i < n, spaceSize ≤ a + i → F) :
    Comes (fun r => u.Wrote W false r.2 ∧ r.1.count ≤ cap) (fun _ => u.Wrote W false) F (rleExpand u a n o cap) := by
  unfold rleExpand
  split
  · exact ⟨Run.Wrote.refl u, Nat.zero_le _⟩
  · exact rlePairs_wrote _ u (Nat.zero_le _) hW hF fun i hi => hR i (by omega)

end Sys2Proof.Machine
end

