-- ==== Sys2Proof/Laws/Bodies.lean ====
section
/-! SUPPORT. What the body of each command and each block tag can do on any machine: the bytes it may write, and that the
rest of the machine is as it was. -/

namespace Sys2Proof.Machine

/-- A byte of a region that fits is inside the address space. -/
theorem Region.fits_lt {r : Region} (h : r.fits = true) {i : Nat} (hi : i < r.len) : r.base + i < spaceSize := by
  simp only [Region.fits, Bool.or_eq_true, beq_iff_eq, decide_eq_true_eq] at h
  omega

theorem Region.fits_has {r : Region} (h : r.fits = true) {a : Nat} (ha : r.has a = true) : a < spaceSize := by
  rw [Region.has_iff] at ha
  have := Region.fits_lt h (i := a - r.base) (by omega)
  omega

/-- Declaring regions changes nothing but the record of them. -/
theorem Run.declare_wrote {W : Nat → Prop} {k : Bool} {F : Prop} (u : Run) (reads writes : List Region) :
    Comes (fun v => u.Wrote W k v ∧ v = { u with c := { u.c with reads := reads, writes := writes } })
      (fun _ => u.Wrote W k) F (u.declare reads writes) :=
  (u.declare_comes reads writes).mono (fun v h => by
    obtain ⟨_, rfl⟩ := h
    exact ⟨(Run.Wrote.refl u).record _ rfl rfl rfl, rfl⟩) (fun _ _ h => h.elim) False.elim

/-- The bodies that write only memory: what such a body does, said of the machine it starts from. -/
abbrev BodyWrites (W : Nat → Prop) (k : Bool) (F : Prop) (u : Run) (x : Except Stop Run) : Prop :=
  Comes (u.Wrote W k) (fun _ => u.Wrote W k) F x

/-- A body that goes on from a later machine. -/
theorem BodyWrites.after {W : Nat → Prop} {k : Bool} {F : Prop} {u v : Run} {x : Except Stop Run} (h : u.Wrote W k v)
    (hx : BodyWrites W k F v x) : BodyWrites W k F u x :=
  hx.mono (fun _ h' => h.trans h') (fun _ _ h' => h.trans h') id

/-- The last lines of a body: results put into the record, and the stage's own status. -/
theorem finish_wrote {W : Nat → Prop} {k : Bool} {F : Prop} {u v : Run} (h : u.Wrote W k v) (cond : Bool) (code : Code) :
    BodyWrites W k F u (do v.require cond code; pure v) :=
  Comes.bind ((v.require_wrote (F := F) cond code).after h) fun _ _ => h

/-- RLE_EXPAND writes only its output region, and never outside the address space. -/
theorem rleExpandBody_wrote (u : Run) (F : Prop) :
    BodyWrites (fun a => u.c.params.outRegion.has a = true) false F u (rleExpandBody u) := by
  refine Comes.bind (u.declare_wrote _ _) fun v hv => ?_
  obtain ⟨hv, rfl⟩ := hv
  refine Comes.bind ((Run.require_wrote _ _ _).after hv) fun _ hfits => ?_
  simp only [Bool.and_eq_true] at hfits
  refine Comes.bind ((rleExpand_wrote (F := F) _ _ _ _ _ (W := fun a => u.c.params.outRegion.has a = true) ?_ ?_ ?_).mono
    (fun _ h => h.1) (fun _ _ h => hv.trans h) id) fun ⟨res, w⟩ hr =>
      finish_wrote ((hv.trans hr).record { w.c with r0 := res.count, r1 := res.pairs } rfl rfl rfl) _ _
  · exact fun i hi => Region.has_mk hi
  · exact fun x hx hs => absurd (Region.fits_has hfits.2 hx) (by omega)
  · exact fun i hi hs => absurd hs (Nat.not_le.2 (Region.fits_lt hfits.1 hi))

/-- HUFF_DECODE writes only its output region, and never outside the address space. -/
theorem huffDecodeBody_wrote (u : Run) (F : Prop) :
    BodyWrites (fun a => u.c.params.outRegion.has a = true) false F u (huffDecodeBody u) := by
  refine Comes.bind (u.declare_wrote _ _) fun v hv => ?_
  obtain ⟨hv, rfl⟩ := hv
  refine Comes.bind ((Run.require_wrote _ _ _).after hv) fun _ _ => ?_
  refine Comes.bind ((Run.require_wrote _ _ _).after hv) fun _ hfits => ?_
  simp only [Bool.and_eq_true] at hfits
  refine Comes.bind ((huffDecode_wrote (F := F) _ _ _ _ _ _ _ (W := fun a => u.c.params.outRegion.has a = true) ?_ ?_ ?_).mono
    (fun _ h => h.1) (fun _ _ h => hv.trans h) id) fun ⟨res, w⟩ hr =>
      finish_wrote ((hv.trans hr).record { w.c with r0 := res.count, r1 := res.bits } rfl rfl rfl) _ _
  · exact fun i hi => Region.has_mk hi
  · exact fun x hx hs => absurd (Region.fits_has hfits.2 hx) (by omega)
  · exact fun i hi hs => absurd hs (Nat.not_le.2 (Region.fits_lt hfits.1 hi))

/-- Of a bound frame COMPOSITE has named the palette, so that its destination is not in it. -/
theorem compositeKnown_apart {s : State} {p : Params} (hc : regionsClash (compositeKnown s p) [p.destRegion] = false)
    (hb : s.frameBound = true) (hd : indexedDepth s.frame.depth = true) {i : Nat} (hi : i < paletteBytes s.frame.depth) :
    p.destRegion.has (s.frame.palAddr.toNat + i) = false := by
  by_contra hn
  refine Bool.false_ne_true (hc.symm.trans (regionsClash_of_has (r := s.frame.palRegion) ?_ (List.mem_singleton.2 rfl)
    (Region.has_mk hi) (Bool.not_eq_false _ ▸ hn)))
  unfold compositeKnown
  split_ifs <;> simp [compositeReads, paletteReads, hd]

/-- The pseudocode of COMPOSITE writes only its destination region, keeps every resolved slot and fills an empty one only with
its palette entry's colour, on every path; it stays inside the address space where the palette does. -/
theorem compositeDraw_drew (u : Run) {F : Prop}
    (hF : u.st.frameBound = true → indexedDepth u.st.frame.depth = true →
      ∀ i < paletteBytes u.st.frame.depth, spaceSize ≤ u.st.frame.palAddr.toNat + i → F) :
    Comes u.Drew (fun _ => u.Drew) F (compositeDraw u) := by
  refine Comes.bind ((u.declare_comes _ _).mono (fun _ h => h) (fun _ _ h => h.elim) False.elim) fun v ⟨hapart, hv⟩ => ?_
  subst hv
  have h := (Run.Drew.refl u).record
    { u.c with reads := compositeKnown u.st u.c.params, writes := [u.c.params.destRegion] } rfl rfl rfl
  refine Comes.bind (P := fun _ => u.st.frameBound = true
      ∧ Region.fits ⟨u.c.params.dbufAddr.toNat, u.st.frame.blockSize u.c.params.index.toNat⟩ = true
      ∧ u.c.params.destRegion.fits = true) ?_ fun _ hc => ?_
  · refine Comes.bind ((Run.require_wrote _ _ _).drew h) fun _ h1 => ?_
    refine Comes.bind ((Run.require_wrote _ _ _).drew h) fun _ _ => ?_
    refine Comes.bind ((Run.require_wrote _ _ _).drew h) fun _ _ => ?_
    refine ((Run.require_wrote _ _ _).drew h).mono (fun _ h2 => ?_) (fun _ _ h => h) id
    simp only [Bool.and_eq_true] at h2
    exact ⟨h1, h2⟩
  simp only
  split
  · exact h
  · refine drawRows_drew (b := u) ⟨?_, ?_, fun hd i hi => ⟨compositeKnown_apart hapart hc.1 hd hi, hF hc.1 hd i hi⟩⟩ _ h ?_
    · exact fun x hx hs => absurd (Region.fits_has hc.2.2 hx) (by omega)
    · intro i hi hs
      have := Region.fits_lt hc.2.1 (i := i) hi
      simp only at this
      omega
    · intro x h1 h2 i hi
      refine ⟨h1, h2, ?_, ?_⟩ <;> omega

/-- What COMPOSITE can do: the same, and where it fails the palette cache is as it was (60_exceptions.md R404). -/
theorem compositeBody_drew (u : Run) {F : Prop}
    (hF : u.st.frameBound = true → indexedDepth u.st.frame.depth = true →
      ∀ i < paletteBytes u.st.frame.depth, spaceSize ≤ u.st.frame.palAddr.toNat + i → F) :
    Comes u.Drew (fun _ v => u.Drew v ∧ v.st.pcache = u.st.pcache) F (compositeBody u) :=
  keepCacheOnError_drew (compositeDraw_drew u hF)

/-- COMPOSITE writes only its destination region, and fills only empty slots. -/
theorem compositeBody_wrote (u : Run) {F : Prop}
    (hF : u.st.frameBound = true → indexedDepth u.st.frame.depth = true →
      ∀ i < paletteBytes u.st.frame.depth, spaceSize ≤ u.st.frame.palAddr.toNat + i → F) :
    BodyWrites (fun a => u.c.params.destRegion.has a = true) true F u (compositeBody u) :=
  (compositeBody_drew u hF).mono (fun _ h => h.wrote) (fun _ _ h => h.1.wrote) id

/-- What the checks of a DECODE_BLOCK can do: they pass, or end it with BAD_PARAM, its regions named. -/
theorem decodeChecks_comes (u : Run) :
    Comes
      (fun _ => blockNamed u.st u.c.params = true ∧ u.c.params.blkLen ≠ 0#32 ∧ u.c.params.blkRegion.fits = true
        ∧ u.c.params.dbufRegion.fits = true)
      (fun code v => code = .badParam ∧ v = { u with c := { u.c with
        reads := (decodeKnown u.st u.c.params).1
        writes := (decodeKnown u.st u.c.params).2 } })
      False (decodeChecks u) := by
  unfold decodeChecks
  split
  · next h =>
    simp only [Bool.and_eq_true, bne_iff_ne, ne_eq] at h
    exact ⟨h.1.1, h.1.2, h.2⟩
  · exact Comes.bind ((u.declare_comes _ _).mono (fun _ h => h.2) (fun _ _ h => h.elim) False.elim) fun _ hv => ⟨rfl, hv⟩

/-- A DECODE_BLOCK that fails a check ends with BAD_PARAM, unless the regions it names overlap. -/
theorem decodeChecks_fail {u : Run} (h : blockNamed u.st u.c.params = false ∨ u.c.params.blkLen = 0#32
    ∨ u.c.params.blkRegion.fits = false ∨ u.c.params.dbufRegion.fits = false) :
    decodeChecks u
      = (u.declare (decodeKnown u.st u.c.params).1 (decodeKnown u.st u.c.params).2).bind fun v => .error (.ended .badParam v) := by
  unfold decodeChecks
  rw [if_neg]
  · rfl
  · rcases h with h | h | h | h <;> simp [h]

/-- PAL_RESOLVE changes nothing outside its record, and stays inside the address space where the palette does. -/
theorem palResolveBody_wrote (u : Run) {F : Prop}
    (hF : u.st.frameBound = true → u.st.frame.depth ≠ 24#8 → ∀ i < 4 * 2 ^ u.st.frame.depth.toNat,
      spaceSize ≤ u.st.frame.palAddr.toNat + i → F) :
    BodyWrites (fun _ => False) false F u (palResolveBody u) := by
  refine Comes.bind (u.require_wrote _ _) fun _ h1 => ?_
  refine Comes.bind (u.require_wrote _ _) fun _ h2 => ?_
  refine Comes.bind (u.require_wrote _ _) fun _ h3 => ?_
  rw [bne_iff_ne] at h2
  rw [decide_eq_true_eq] at h3
  refine Comes.bind (u.declare_wrote _ _) fun v hv => ?_
  obtain ⟨hv, rfl⟩ := hv
  refine Comes.bind ((resolveColor_wrote _ _ _ _ fun j hj => hF h1 h2 j ?_).mono (fun _ _ => trivial)
    (fun _ _ h => hv.trans h) id) fun color _ => hv.record _ rfl rfl rfl
  have hj' : j < 4 * (u.c.params.palIndex.toNat + 1) := hj
  omega

/-- What HUFF_BUILD can do: it changes the tree and TREE_PAD, and only when it succeeds; the tree is then a prefix code
in the node store. -/
theorem buildBody_comes (u : Run) (F : Prop) :
    Comes
      (fun v => (∃ tree pad, v.st = { u.st with tree := tree, treePad := pad } ∧ tree.built = true
          ∧ tree.size ≤ u.st.platform.nodeCap ∧ v.c.r1 = tree.size) ∧ v.c.op = u.c.op ∧ v.c.params = u.c.params ∧ v.c.undo = u.c.undo)
      (fun code v => code ≠ .ok ∧ v.st = u.st ∧ v.c.op = u.c.op ∧ v.c.params = u.c.params ∧ v.c.undo = u.c.undo) F
      (buildBody u) := by
  refine Comes.bind ((u.declare_comes _ _).mono (fun _ h => h.2) (fun _ _ h => h.elim) False.elim) fun v hv => ?_
  subst hv
  refine Comes.bind ((Run.require_comes _ _ _).mono (fun _ h => h) (fun c v h => ?_) False.elim) fun _ hfits => ?_
  · obtain ⟨rfl, rfl⟩ := h
    exact ⟨by decide, rfl, rfl, rfl, rfl⟩
  · refine Comes.bind (P := fun r => BuildResult.good u.st.platform.nodeCap r)
      ((buildTree_comes (F := F) _ _ _ fun i hi hs => ?_).mono (fun _ h => h) (fun c v h => ?_) id) fun res hres => ?_
    · have := Region.fits_lt hfits hi
      exact absurd hs (Nat.not_le.2 this)
    · obtain ⟨rfl, rfl⟩ := h
      exact ⟨by decide, rfl, rfl, rfl, rfl⟩
    · split
      · next hok =>
        obtain ⟨h1, h2, h3⟩ := hres hok
        exact ⟨⟨res.tree, res.pad, rfl, h1, h3, h2.symm⟩, rfl, rfl, rfl⟩
      · next hok => exact ⟨hok, rfl, rfl, rfl, rfl⟩

/-! ### The tags -/

/-- What every tag needs of a DECODE_BLOCK at its dispatch to stay inside the address space. -/
structure TagFaults (u : Run) (F : Prop) : Prop where
  blk : ∀ i < u.c.params.blkLen.toNat, spaceSize ≤ u.c.params.blkAddr.toNat + i → F
  dbuf : ∀ i < u.c.params.dbufCap.toNat, spaceSize ≤ u.c.params.dbufAddr.toNat + i → F

/-- The bytes DECODE_BLOCK may write: SCR for tag 1, and the block in DBUF. -/
def tagWrites (u : Run) (scr : Bool) (a : Nat) : Prop :=
  (scr = true ∧ u.c.params.scrRegion.has a = true) ∨ Region.has ⟨u.c.params.dbufAddr.toNat, u.blockSize⟩ a = true

/-- A stretch that ends only where it began. -/
theorem Comes.same {α : Type} {W : Nat → Prop} {k : Bool} {F : Prop} {P : α → Prop} {u v : Run} {x : Except Stop α}
    (h : u.Wrote W k v) (hx : Comes P (fun _ w => w = v) F x) : Comes P (fun _ => u.Wrote W k) F x :=
  hx.mono (fun _ h => h) (fun _ w e => by subst e; exact h) id

@[simp] theorem Run.nameTag_st (u : Run) : u.nameTag.st = u.st := rfl

@[simp] theorem Run.nameTag_params (u : Run) : u.nameTag.c.params = u.c.params := rfl

@[simp] theorem Run.nameTag_reads (u : Run) : u.nameTag.c.reads = [⟨u.c.params.blkAddr.toNat, 1⟩] := rfl

/-- Naming the tag byte changes nothing but the record of it. -/
theorem Run.nameTag_wrote {W : Nat → Prop} {k : Bool} (u : Run) : u.Wrote W k u.nameTag :=
  (Run.Wrote.refl u).record _ rfl rfl rfl

/-- What every tag does first. -/
theorem tagChecks_wrote {W : Nat → Prop} (tag : Byte) (valid : Bool) (u : Run) (F : Prop) :
    Comes (fun v => u.Wrote W false v ∧ u.blockSize ≤ u.c.params.dbufCap.toNat ∧ valid = true)
      (fun _ => u.Wrote W false) F (tagChecks tag valid u) := by
  refine Comes.bind (u.declare_wrote _ _) fun v hv => ?_
  obtain ⟨hv, rfl⟩ := hv
  have h := hv.record { u.c with
      reads := (tagRegions tag u.st.frame u.c.params).1
      writes := (tagRegions tag u.st.frame u.c.params).2
      r1 := tag.toNat } rfl rfl rfl
  refine Comes.bind ((Run.require_wrote _ _ _).after h) fun _ hv => ?_
  refine Comes.bind ((Run.require_wrote _ _ _).after h) fun _ he => ?_
  exact ⟨h, of_decide_eq_true he, hv⟩

/-- A valid tag whose regions are apart and whose block DBUF can hold passes its checks. -/
theorem tagChecks_ok {u : Run} {tag : Byte} {valid : Bool} (hv : valid = true) (hE : u.blockSize ≤ u.c.params.dbufCap.toNat)
    (hc : regionsClash (tagRegions tag u.st.frame u.c.params).1 (tagRegions tag u.st.frame u.c.params).2 = false) :
    tagChecks tag valid u = .ok { u with c := { u.c with
      reads := (tagRegions tag u.st.frame u.c.params).1
      writes := (tagRegions tag u.st.frame u.c.params).2
      r1 := tag.toNat } } := by
  have hE' : u.st.frame.blockSize u.c.params.index.toNat ≤ u.c.params.dbufCap.toNat := hE
  simp only [tagChecks, Run.declare_apart hc, hv, Run.blockSize, hE', decide_true, Run.require_true, bind, Except.bind, pure,
    Except.pure]

/-- The section header only reads. -/
theorem sectionHeader_comes (u : Run) {F : Prop} (hF : ∀ i < u.c.params.blkLen.toNat, spaceSize ≤ u.c.params.blkAddr.toNat + i → F) :
    Comes (fun tlen => 3 + tlen ≤ u.c.params.blkLen.toNat) (fun _ v => v = u) F (sectionHeader u) := by
  refine Comes.bind ((u.require_comes _ _).mono (fun _ h => h) (fun _ _ h => h.2) False.elim) fun _ h3 => ?_
  rw [decide_eq_true_eq] at h3
  refine Comes.bind (P := fun _ => True) ?_ fun tlen _ => ?_
  · refine Comes.bind ((u.read_comes _).mono (fun _ _ => trivial) (fun _ _ h => h.2) (hF 1 (by omega))) fun _ _ => ?_
    refine Comes.bind ((u.read_comes _).mono (fun _ _ => trivial) (fun _ _ h => h.2) ?_) fun _ _ => trivial
    rw [Nat.add_assoc]
    exact hF 2 (by omega)
  · refine Comes.bind ((u.require_comes _ _).mono (fun _ h => h) (fun _ _ h => h.2) False.elim) fun _ h => ?_
    exact (of_decide_eq_true h : 3 + tlen.toNat ≤ u.c.params.blkLen.toNat)

theorem sectionTree_comes (u : Run) (tlen : Nat) {F : Prop}
    (hF : ∀ i < tlen, spaceSize ≤ u.c.params.blkAddr.toNat + 3 + i → F) :
    Comes (fun _ => True) (fun _ v => v = u) F (sectionTree u tlen) := by
  refine Comes.bind (P := fun _ => True) ((buildTree_comes u _ _ hF).mono (fun _ _ => trivial) (fun _ _ h => h.2) id)
    fun res _ => ?_
  exact Comes.bind ((u.require_comes _ _).mono (fun _ h => h) (fun _ _ h => h.2) False.elim) fun _ _ => trivial

/-- Tag 0 writes only the block in DBUF. -/
theorem rleBlock_wrote (u : Run) {F : Prop} (hF : TagFaults u F) (he : u.blockSize ≤ u.c.params.dbufCap.toNat) :
    BodyWrites (tagWrites u false) false F u (rleBlock u) := by
  have hw := (Run.Wrote.refl (W := tagWrites u false) (k := false) u).record { u.c with toDbuf := true } rfl rfl rfl
  refine Comes.bind ((rleExpand_wrote (F := F) _ _ _ _ _ (W := tagWrites u false) ?_ ?_ ?_).mono (fun _ h => h.1)
    (fun _ _ h => hw.trans h) id) fun ⟨res, w⟩ hr =>
      finish_wrote ((hw.trans hr).record { w.c with r0 := res.count } rfl rfl rfl) _ _
  · exact fun i hi => .inr (Region.has_mk hi)
  · intro x hx hs
    rcases hx with ⟨h, _⟩ | hx
    · cases h
    · rw [Region.has_iff] at hx
      simp only at hx
      exact hF.dbuf (x - u.c.params.dbufAddr.toNat) (by omega) (by omega)
  · intro i hi hs
    exact hF.blk (1 + i) (Nat.add_lt_of_lt_sub' hi) (by rw [← Nat.add_assoc]; exact hs)

/-- Tag 1 writes only SCR and the block in DBUF. -/
theorem huffmanBlock_wrote (u : Run) {F : Prop} (hF : TagFaults u F) (he : u.blockSize ≤ u.c.params.dbufCap.toNat) :
    BodyWrites (tagWrites u true) false F u (huffmanBlock u) := by
  refine Comes.bind (u.require_wrote _ _) fun _ hscr => ?_
  have hv := Run.Wrote.refl (W := tagWrites u true) (k := false) u
  refine Comes.bind (Comes.same hv (sectionHeader_comes _ hF.blk)) fun tlen htlen => ?_
  refine Comes.bind (Comes.same hv (sectionTree_comes _ tlen fun i hi hs => ?_))
    fun bt _ => ?_
  · exact hF.blk (3 + i) (by have : 3 + tlen ≤ u.c.params.blkLen.toNat := htlen; omega) (by rw [← Nat.add_assoc]; exact hs)
  have hW : ∀ x, tagWrites u true x → spaceSize ≤ x → F := by
    intro x hx hs
    rcases hx with ⟨_, hx⟩ | hx
    · exact absurd hs (Nat.not_le.2 (Region.fits_has hscr hx))
    · rw [Region.has_iff] at hx
      simp only at hx
      exact hF.dbuf (x - u.c.params.dbufAddr.toNat) (by omega) (by omega)
  refine Comes.bind ((huffDecode_wrote (F := F) _ _ _ _ _ _ _ (W := tagWrites u true) ?_ hW ?_).mono (fun _ h => h)
    (fun _ _ h => hv.trans h) id) fun ⟨hd, w⟩ hr => ?_
  · exact fun i hi => .inl ⟨rfl, Region.has_mk hi⟩
  · intro i hi hs
    have : i < u.c.params.blkLen.toNat - 3 - tlen := hi
    exact hF.blk (3 + tlen + i) (by omega) (by rw [← Nat.add_assoc, ← Nat.add_assoc]; exact hs)
  · have h1 := hv.trans hr.1
    have h2 := h1.record { w.c with r2 := hd.count } rfl rfl rfl
    have h3 := h1.record { w.c with r2 := hd.count, toDbuf := true } rfl rfl rfl
    refine Comes.bind ((Run.require_wrote _ _ _).after h2) fun _ _ => ?_
    have hp : w.c.params = u.c.params := h1.params
    have hE : (w.st.frame.blockSize w.c.params.index.toNat) = u.blockSize := by
      rw [hp, h1.st]; rfl
    have hcount : hd.count ≤ u.c.params.scrCap.toNat := hr.2
    refine Comes.bind ((rleExpand_wrote (F := F) _ _ _ _ _ (W := tagWrites u true) ?_ hW ?_).mono (fun _ h => h.1)
      (fun _ _ h => h3.trans h) id) fun ⟨rl, z⟩ hz => ?_
    · intro i hi
      have hi' : i < w.st.frame.blockSize w.c.params.index.toNat := hi
      rw [hE] at hi'
      change tagWrites u true (w.c.params.dbufAddr.toNat + i)
      rw [hp]
      exact .inr (Region.has_mk hi')
    · intro i hi hs
      change spaceSize ≤ w.c.params.scrAddr.toNat + i at hs
      rw [hp] at hs
      have : u.c.params.scrRegion.base + i < spaceSize := Region.fits_lt hscr (by
        change i < u.c.params.scrCap.toNat; change i < hd.count at hi; omega)
      exact absurd hs (Nat.not_le.2 this)
    · have h4 := (h3.trans hz).record { z.c with r0 := rl.count } rfl rfl rfl
      refine Comes.bind ((Run.require_wrote _ _ _).after h4) fun _ _ => finish_wrote h4 _ _

/-- Tag 3 writes only the block in DBUF. -/
theorem directBlock_wrote (u : Run) {F : Prop} (hF : TagFaults u F) (he : u.blockSize ≤ u.c.params.dbufCap.toNat) :
    BodyWrites (tagWrites u false) false F u (directBlock u) := by
  have hv := Run.Wrote.refl (W := tagWrites u false) (k := false) u
  refine Comes.bind (Comes.same hv (sectionHeader_comes _ hF.blk)) fun tlen htlen => ?_
  refine Comes.bind (Comes.same hv (sectionTree_comes _ tlen fun i hi hs => ?_))
    fun bt _ => ?_
  · exact hF.blk (3 + i) (by have : 3 + tlen ≤ u.c.params.blkLen.toNat := htlen; omega) (by rw [← Nat.add_assoc]; exact hs)
  have hw := hv.record { u.c with toDbuf := true } rfl rfl rfl
  refine Comes.bind ((huffDecode_wrote (F := F) _ _ _ _ _ _ _ (W := tagWrites u false) ?_ ?_ ?_).mono (fun _ h => h.1)
    (fun _ _ h => hw.trans h) id) fun ⟨hd, w⟩ hr => ?_
  · exact fun i hi => .inr (Region.has_mk hi)
  · intro x hx hs
    rcases hx with ⟨h, _⟩ | hx
    · cases h
    · rw [Region.has_iff] at hx
      simp only at hx
      exact hF.dbuf (x - u.c.params.dbufAddr.toNat) (by omega) (by omega)
  · intro i hi hs
    have : i < u.c.params.blkLen.toNat - 3 - tlen := hi
    exact hF.blk (3 + tlen + i) (by omega) (by rw [← Nat.add_assoc, ← Nat.add_assoc]; exact hs)
  · have h2 := (hw.trans hr).record { w.c with r0 := hd.count, r2 := hd.count } rfl rfl rfl
    refine Comes.bind ((Run.require_wrote _ _ _).after h2) fun _ _ => finish_wrote h2 _ _

/-- Tag 2 changes nothing outside its record. -/
theorem jpegBlock_wrote (u : Run) (F : Prop) : BodyWrites (fun _ => False) false F u (jpegBlock u) :=
  (Run.Wrote.refl u).record { u.c with r0 := u.blockSize } rfl rfl rfl

end Sys2Proof.Machine
end

