-- ==== Sys2Proof/Laws/Draw.lean ====
section
/-! SUPPORT. What COMPOSITE draws where nothing stops it (42_compositor.md R305 to R318): the invariant of its loops over
the points drawn so far, and one lemma for the fetch, the pixel, the row and the rows. -/

namespace Sys2Proof.Machine

/-- The mirror copy of screen column `x` is drawn. -/
def mirrorsAt (s : State) (x : Int) : Bool :=
  s.params.mirrorEn && decide (0 ≤ mirrorColumn s x) && decide (mirrorColumn s x < s.params.stride)

/-- The colour of screen point (x, y). -/
def pointColor (s : State) (x y : Int) : Half := pixelColor s (x - s.drawing.ox).toNat (y - s.drawing.by1).toNat

/-- The palette index of a screen point among those drawn. -/
def drawsIndexIn (s : State) (D : Int → Int → Prop) (i : Nat) : Prop :=
  indexedDepth s.frame.depth = true
    ∧ ∃ x y, D x y ∧ (pixelIndex s (x - s.drawing.ox).toNat (y - s.drawing.by1).toNat).toNat = i

/-- The bytes of the pixels of the points drawn. -/
def drawnByte (s : State) (D : Int → Int → Prop) (a : Nat) : Prop :=
  ∃ x y, D x y ∧ (a = primaryAddr s x y ∨ a = primaryAddr s x y + 1
    ∨ (mirrorsAt s x = true ∧ (a = mirrorAddr s x y ∨ a = mirrorAddr s x y + 1)))

/-- The drawing of screen column `z` writes screen column `c` of its row: its own, or that of its mirror copy. -/
def Paints (s : State) (z c : Int) : Prop := z = c ∨ (mirrorsAt s z = true ∧ mirrorPoint s z = c)

/-- Of the points drawn, the last one to write screen column `c` of row `y` is that of column `z` (42_compositor.md
R316). -/
def Shows (s : State) (D : Int → Int → Prop) (c y z : Int) : Prop :=
  D z y ∧ Paints s z c ∧ ∀ z', D z' y → Paints s z' c → z' ≤ z

/-- What a slot of the palette cache holds once the points of `D` have been fetched. -/
def SlotAfter (s : State) (D : Int → Int → Prop) (cache : Vector (Option Half) 256) (i : Fin 256) : Prop :=
  (s.pcache[i] ≠ none → cache[i] = s.pcache[i])
  ∧ (s.pcache[i] = none → drawsIndexIn s D i.val → cache[i] = some (slotColor s (BitVec.ofNat 8 i.val)))
  ∧ (s.pcache[i] = none → ¬ drawsIndexIn s D i.val → cache[i] = none)

/-- The number of slots newly resolved. -/
noncomputable def newSlots (s : State) (cache : Vector (Option Half) 256) : Nat :=
  (Finset.univ.filter fun i : Fin 256 => s.pcache[i] = none ∧ cache[i] ≠ none).card

/-- The machine of a COMPOSITE that has drawn the points of `D`. -/
structure Drawn (s : State) (D : Int → Int → Prop) (u : Run) : Prop where
  within : ∀ x y, D x y → s.drawing.has x y
  st : u.st = { s with done := false, inflight := none, mem := u.st.mem, pcache := u.st.pcache }
  op : u.c.op = 0x03#8
  params : u.c.params = s.params
  shown : ∀ c y z, Shows s D c y z → u.st.mem.pixelIs (primaryAddr s c y) (pointColor s z y)
  rest : ∀ a, ¬ drawnByte s D a → u.st.mem.read a = s.mem.read a
  cache : ∀ i, SlotAfter s D u.st.pcache i
  count : u.c.r2 = newSlots s u.st.pcache

/-! ### Where the pixels are -/

theorem primary_place {s : State} {x y : Int} (h : s.drawing.has x y) :
    (x - s.drawing.dx0).toNat < s.params.stride ∧ (y - s.drawing.dy0).toNat < s.params.rows := by
  obtain ⟨_, _, hc, hr⟩ := drawing_has (f := s.frame) (p := s.params) h
  exact ⟨by unfold State.drawing; omega, by unfold State.drawing; omega⟩

theorem mirror_place {s : State} {x y : Int} (h : s.drawing.has x y) (hm : mirrorsAt s x = true) :
    (mirrorColumn s x).toNat < s.params.stride ∧ (y - s.drawing.dy0).toNat < s.params.rows := by
  simp only [mirrorsAt, Bool.and_eq_true, decide_eq_true_eq] at hm
  exact ⟨by omega, (primary_place h).2⟩

/-- Every drawn byte lies in the destination. -/
theorem drawnByte_dest {s : State} {D : Int → Int → Prop} (hD : ∀ x y, D x y → s.drawing.has x y) {a : Nat}
    (h : drawnByte s D a) : s.params.destRegion.has a = true := by
  obtain ⟨x, y, hxy, h⟩ := h
  have hp := primary_place (hD x y hxy)
  have h1 := pixelAddr_has hp.1 hp.2
  rcases h with rfl | rfl | ⟨hm, h⟩
  · exact h1.1
  · exact h1.2
  · have hq := mirror_place (hD x y hxy) hm
    have h2 := pixelAddr_has hq.1 hq.2
    rcases h with rfl | rfl
    · exact h2.1
    · exact h2.2

theorem mirrorAddr_eq (s : State) (x y : Int) : mirrorAddr s x y = primaryAddr s (mirrorPoint s x) y := by
  simp [mirrorAddr, primaryAddr, mirrorPoint]

/-- A column that some point writes lies in the stride. -/
theorem paints_place {s : State} {z c y : Int} (h : s.drawing.has z y) (hp : Paints s z c) :
    0 ≤ c - s.drawing.dx0 ∧ (c - s.drawing.dx0).toNat < s.params.stride ∧ 0 ≤ y - s.drawing.dy0
      ∧ (y - s.drawing.dy0).toNat < s.params.rows := by
  obtain ⟨_, _, hc, hr⟩ := drawing_has (f := s.frame) (p := s.params) h
  have e : drawing s.frame s.params = s.drawing := rfl
  rw [e] at hc hr
  rcases hp with rfl | ⟨hm, rfl⟩
  · omega
  · simp only [mirrorsAt, Bool.and_eq_true, decide_eq_true_eq] at hm
    simp only [mirrorPoint, Int.add_sub_cancel]
    omega

/-- The pixels of two different places of the destination do not meet. -/
theorem places_apart {s : State} {z c y z' c' y' : Int} (h : s.drawing.has z y) (hp : Paints s z c)
    (h' : s.drawing.has z' y') (hp' : Paints s z' c') (hne : ¬ (c = c' ∧ y = y')) :
    primaryAddr s c y + 2 ≤ primaryAddr s c' y' ∨ primaryAddr s c' y' + 2 ≤ primaryAddr s c y := by
  have p := paints_place h hp
  have p' := paints_place h' hp'
  exact pixelAddr_inj p.2.1 p'.2.1 fun hh => hne ⟨by omega, by omega⟩

/-! ### The fetch -/

/-- What the loops read is what it was when the command was accepted. -/
theorem Drawn.read {s : State} {D : Int → Int → Prop} {u : Run} (h : Drawn s D u) (hs : s.canDraw) {r : Region}
    (hr : r ∈ compositeReads s.frame s.params) {a : Nat} (ha : r.has a = true) : u.read a = .ok (s.mem.read a) := by
  have hp : u.st.platform = s.platform := by rw [h.st]
  rw [Run.read_region (State.readsPlain_of (hs.reads r hr) hp) ha]
  congr 1
  refine h.rest a fun hb => ?_
  have hd := drawnByte_dest h.within hb
  have hap := hs.apart
  simp only [regionsClash, List.any_nil, Bool.or_false, List.any_eq_false] at hap
  have := Region.apart (Bool.eq_false_of_not_eq_true (hap r hr)) ha
  rw [this] at hd; cases hd

/-- The index of a byte of the palette cache's range, and back. -/
theorem ofNat_toNat_byte (i : Byte) : BitVec.ofNat 8 i.toNat = i := by simp

/-- The cache after one more index is known: its slot filled, the others kept. -/
theorem cacheColor_ok {s : State} {D D' : Int → Int → Prop} {u : Run} (h : Drawn s D u) (hs : s.canDraw)
    (hd : indexedDepth s.frame.depth = true) {i : Byte} (hi : i.toNat < 2 ^ s.frame.depth.toNat)
    (hD : ∀ j, drawsIndexIn s D' j ↔ drawsIndexIn s D j ∨ j = i.toNat) :
    ∃ v, cacheColor u i = .ok (slotColor s i, v) ∧ v.st = { u.st with pcache := v.st.pcache }
      ∧ v.c = { u.c with r2 := v.c.r2 } ∧ (∀ j, SlotAfter s D' v.st.pcache j) ∧ v.c.r2 = newSlots s v.st.pcache := by
  have hcache := h.cache ⟨i.toNat, i.isLt⟩
  unfold cacheColor
  match hu : u.st.pcache[i.toNat]'i.isLt with
  | some color =>
    have hcolor : color = slotColor s i := by
      obtain ⟨c1, c2, c3⟩ := hcache
      change s.pcache[i.toNat]'i.isLt ≠ none → u.st.pcache[i.toNat]'i.isLt = s.pcache[i.toNat]'i.isLt at c1
      change s.pcache[i.toNat]'i.isLt = none → drawsIndexIn s D i.toNat → u.st.pcache[i.toNat]'i.isLt = some (slotColor s (BitVec.ofNat 8 i.toNat)) at c2
      change s.pcache[i.toNat]'i.isLt = none → ¬ drawsIndexIn s D i.toNat → u.st.pcache[i.toNat]'i.isLt = none at c3
      rw [hu] at c1 c2 c3
      by_cases hn : s.pcache[i.toNat]'i.isLt = none
      · by_cases hdi : drawsIndexIn s D i.toNat
        · have := c2 hn hdi
          rw [ofNat_toNat_byte] at this
          exact Option.some.inj this
        · cases c3 hn hdi
      · unfold slotColor
        rw [← c1 hn]
    refine ⟨u, by rw [hcolor]; rfl, rfl, rfl, fun j => ?_, h.count⟩
    have hj := h.cache j
    refine ⟨hj.1, fun hn hdj => ?_, fun hn hdj => hj.2.2 hn fun hx => hdj ((hD _).2 (.inl hx))⟩
    rcases (hD _).1 hdj with hx | hx
    · exact hj.2.1 hn hx
    · have hji : j = ⟨i.toNat, i.isLt⟩ := Fin.ext hx
      subst hji
      change u.st.pcache[i.toNat]'i.isLt = some (slotColor s (BitVec.ofNat 8 i.toNat))
      rw [hu, hcolor, ofNat_toNat_byte]
  | none =>
    have hnone : s.pcache[i.toNat]'i.isLt = none := by
      by_contra hn
      have : u.st.pcache[i.toNat]'i.isLt = s.pcache[i.toNat]'i.isLt := hcache.1 hn
      rw [hu] at this
      exact hn this.symm
    have hpal : s.frame.palRegion ∈ compositeReads s.frame s.params := by simp [compositeReads, paletteReads, hd]
    have hin (j : Nat) (hj : j < 3) : s.frame.palRegion.has (s.frame.palAddr.toNat + 4 * i.toNat + j) = true := by
      refine Region.has_iff.2 ⟨by simp only [Frame.palRegion]; omega, ?_⟩
      simp only [Frame.palRegion, paletteBytes]
      omega
    have r0 := h.read hs hpal (hin 0 (by omega))
    have r1 := h.read hs hpal (hin 1 (by omega))
    have r2 := h.read hs hpal (hin 2 (by omega))
    have hf : u.st.frame = s.frame := by rw [h.st]
    have hcol : resolveColor u u.st.frame.palAddr.toNat i.toNat u.c.params.swap = .ok (slotColor s i) := by
      rw [hf, h.params]
      simp only [Nat.add_zero] at r0
      simp only [resolveColor, r0, r1, r2, bind, Except.bind, pure, Except.pure, slotColor, hnone]
    refine ⟨{ st := { u.st with pcache := u.st.pcache.set i.toNat (some (slotColor s i)) i.isLt }
              c := { u.c with r2 := u.c.r2 + 1 } }, ?_, rfl, rfl, fun j => ?_, ?_⟩
    · simp only [hcol, bind, Except.bind]
      rfl
    · have hj := h.cache j
      have hget : (u.st.pcache.set i.toNat (some (slotColor s i)) i.isLt)[j]
          = if i.toNat = j.val then some (slotColor s i) else u.st.pcache[j] :=
        Vector.getElem_set (hi := i.isLt) (hj := j.isLt)
      unfold SlotAfter
      simp only [hget]
      by_cases hij : i.toNat = j.val
      · have hji : s.pcache[j] = none := by
          have : (⟨i.toNat, i.isLt⟩ : Fin 256) = j := Fin.ext hij
          subst this; exact hnone
        simp only [hij, if_true]
        refine ⟨fun hn => absurd hji hn, fun _ _ => ?_, fun _ hx => absurd ((hD _).2 (.inr hij.symm)) hx⟩
        rw [← hij, ofNat_toNat_byte]
      · simp only [hij, if_false]
        refine ⟨hj.1, fun hn hx => ?_, fun hn hx => hj.2.2 hn fun hy => hx ((hD _).2 (.inl hy))⟩
        rcases (hD _).1 hx with hy | hy
        · exact hj.2.1 hn hy
        · exact absurd hy.symm hij
    · change u.c.r2 + 1 = newSlots s (u.st.pcache.set i.toNat (some (slotColor s i)) i.isLt)
      rw [h.count]
      unfold newSlots
      rw [← Finset.card_insert_of_notMem (a := (⟨i.toNat, i.isLt⟩ : Fin 256))]
      · congr 1
        ext j
        have hget : (u.st.pcache.set i.toNat (some (slotColor s i)) i.isLt)[j]
            = if i.toNat = j.val then some (slotColor s i) else u.st.pcache[j] :=
          Vector.getElem_set (hi := i.isLt) (hj := j.isLt)
        simp only [Finset.mem_insert, Finset.mem_filter, Finset.mem_univ, true_and, hget]
        by_cases hij : i.toNat = j.val
        · have : (⟨i.toNat, i.isLt⟩ : Fin 256) = j := Fin.ext hij
          subst this
          simp only [true_or, if_true, true_iff]
          exact ⟨hnone, by simp⟩
        · have : ¬ j = (⟨i.toNat, i.isLt⟩ : Fin 256) := fun e => hij (by rw [e])
          simp only [hij, if_false, this, false_or]
      · simp only [Finset.mem_filter, Finset.mem_univ, true_and, not_and, not_not]
        exact fun _ => hu

/-- The fetch of a drawn point. -/
theorem fetchPixel_ok {s : State} {D : Int → Int → Prop} {u : Run} (h : Drawn s D u) (hs : s.canDraw) {x y : Int}
    (hxy : s.drawing.has x y) :
    ∃ v, fetchPixel u (x - s.drawing.ox).toNat (y - s.drawing.by1).toNat = .ok (pointColor s x y, v)
      ∧ v.st = { u.st with pcache := v.st.pcache } ∧ v.c = { u.c with r2 := v.c.r2 }
      ∧ (∀ j, SlotAfter s (fun x' y' => D x' y' ∨ x' = x ∧ y' = y) v.st.pcache j) ∧ v.c.r2 = newSlots s v.st.pcache := by
  obtain ⟨hx, hy, _, _⟩ := drawing_has (f := s.frame) (p := s.params) hxy
  have e : drawing s.frame s.params = s.drawing := rfl
  rw [e] at hx hy
  obtain ⟨o8, o4, o24⟩ := fetch_offset (f := s.frame) (k := s.params.index.toNat)
    (sx := (x - s.drawing.ox).toNat) (sy := (y - s.drawing.by1).toNat) (by omega) (by omega)
  have hdb : ⟨s.params.dbufAddr.toNat, s.frame.blockSize s.params.index.toNat⟩ ∈ compositeReads s.frame s.params := by
    simp [compositeReads]
  have hf : u.st.frame = s.frame := by rw [h.st]
  have hidx : indexedDepth s.frame.depth = true → ∀ j, drawsIndexIn s (fun x' y' => D x' y' ∨ x' = x ∧ y' = y) j
      ↔ drawsIndexIn s D j ∨ j = (pixelIndex s (x - s.drawing.ox).toNat (y - s.drawing.by1).toNat).toNat := by
    intro hd j
    unfold drawsIndexIn
    constructor
    · rintro ⟨_, x', y', hx' | ⟨rfl, rfl⟩, hj⟩
      · exact .inl ⟨hd, x', y', hx', hj⟩
      · exact .inr hj.symm
    · rintro (⟨_, x', y', hx', hj⟩ | hj)
      · exact ⟨hd, x', y', .inl hx', hj⟩
      · exact ⟨hd, x, y, .inr ⟨rfl, rfl⟩, hj.symm⟩
  unfold fetchPixel
  rw [hf, h.params]
  by_cases h8 : s.frame.depth = 8#8
  · have hd : indexedDepth s.frame.depth = true := by rw [h8]; rfl
    have hr := h.read hs hdb (Region.has_mk (o8 h8))
    have hi : pixelIndex s (x - s.drawing.ox).toNat (y - s.drawing.by1).toNat
        = s.mem.read (s.params.dbufAddr.toNat + (y - s.drawing.by1).toNat * s.frame.w.toNat + (x - s.drawing.ox).toNat) := by
      rw [pixelIndex, if_pos h8]
    have hcol : pointColor s x y = slotColor s (pixelIndex s (x - s.drawing.ox).toNat (y - s.drawing.by1).toNat) := by
      rw [pointColor, pixelColor, if_pos hd]
    rw [← Nat.add_assoc] at hr
    rw [if_pos h8]
    simp only [hr, bind, Except.bind]
    rw [hcol, ← hi]
    exact cacheColor_ok h hs hd (by
      have := (pixelIndex s (x - s.drawing.ox).toNat (y - s.drawing.by1).toNat).isLt
      rw [h8]; exact this) (hidx hd)
  · rw [if_neg h8]
    by_cases h4 : s.frame.depth = 4#8
    · have hd : indexedDepth s.frame.depth = true := by rw [h4]; rfl
      have hr := h.read hs hdb (Region.has_mk (o4 h4))
      have hi : pixelIndex s (x - s.drawing.ox).toNat (y - s.drawing.by1).toNat
          = nibble (s.mem.read (s.params.dbufAddr.toNat + (y - s.drawing.by1).toNat * halfWidth s.frame.w.toNat
              + (x - s.drawing.ox).toNat / 2)) (x - s.drawing.ox).toNat := by
        rw [pixelIndex, if_neg h8]
      have hcol : pointColor s x y = slotColor s (pixelIndex s (x - s.drawing.ox).toNat (y - s.drawing.by1).toNat) := by
        rw [pointColor, pixelColor, if_pos hd]
      rw [← Nat.add_assoc] at hr
      rw [if_pos h4]
      simp only [hr, bind, Except.bind]
      rw [hcol, ← hi]
      refine cacheColor_ok h hs hd ?_ (hidx hd)
      rw [hi, h4]
      exact nibble_lt _ _
    · rw [if_neg h4]
      have hd : indexedDepth s.frame.depth = false := by
        simp [indexedDepth, h8, h4]
      have o := o24 h8 h4
      have hr0 := h.read hs hdb (a := s.params.dbufAddr.toNat
        + 2 * ((y - s.drawing.by1).toNat * s.frame.w.toNat + (x - s.drawing.ox).toNat)) (Region.has_mk (by omega))
      have hr1 := h.read hs hdb (a := s.params.dbufAddr.toNat
        + 2 * ((y - s.drawing.by1).toNat * s.frame.w.toNat + (x - s.drawing.ox).toNat) + 1)
        (by rw [Nat.add_assoc]; exact Region.has_mk (by omega))
      refine ⟨u, ?_, rfl, rfl, fun j => ?_, h.count⟩
      · simp only [Run.read16, hr0, hr1, bind, Except.bind, pure, Except.pure]
        rw [pointColor, pixelColor, if_neg (by rw [hd]; decide)]
      · have hj := h.cache j
        have hno : ∀ D', ¬ drawsIndexIn s D' j.val := fun D' hx' => by
          unfold drawsIndexIn at hx'
          rw [hd] at hx'
          cases hx'.1
        exact ⟨hj.1, fun _ hx' => absurd hx' (hno _), fun hn _ => hj.2.2 hn (hno _)⟩

/-! ### The pixel -/

/-- A 16-bit store into a plain region. -/
theorem write16_ok {u : Run} {r : Region} {a : Nat} (v : Half) (hw : u.st.writesPlain r) (h0 : r.has a = true)
    (h1 : r.has (a + 1) = true) :
    ∃ w, u.write16 a v = .ok w ∧ u.Stores w a [v.extractLsb' 0 8, v.extractLsb' 8 8] := by
  obtain ⟨w1, e1, s1⟩ := Run.write_stores (v.extractLsb' 0 8) hw h0
  obtain ⟨w2, e2, s2⟩ := Run.write_stores (u := w1) (v.extractLsb' 8 8) (State.writesPlain_of hw (by rw [s1.st])) h1
  refine ⟨w2, ?_, s1.trans s2⟩
  simp only [Run.write16, e1, bind, Except.bind]
  exact e2

theorem pixelIs_store (m : Memory) (a : Nat) (v : Half) :
    (m.store a [v.extractLsb' 0 8, v.extractLsb' 8 8]).pixelIs a v :=
  ⟨Memory.read_store_at m a _ 0 (by simp), Memory.read_store_at m a _ 1 (by simp)⟩

theorem pixelIs_store_other {m : Memory} {a b : Nat} {v w : Half} (h : m.pixelIs b w) (hab : a + 2 ≤ b ∨ b + 2 ≤ a) :
    (m.store a [v.extractLsb' 0 8, v.extractLsb' 8 8]).pixelIs b w :=
  ⟨by rw [Memory.read_store_other _ _ (by simp; omega)]; exact h.1,
    by rw [Memory.read_store_other _ _ (by simp; omega)]; exact h.2⟩

/-- One pixel more is drawn. -/
theorem drawPixel_ok {s : State} {D : Int → Int → Prop} {u : Run} (h : Drawn s D u) (hs : s.canDraw)
    {x y : Int} (hxy : s.drawing.has x y) (hnew : ∀ x', D x' y → x' < x) :
    ∃ v, drawPixel s.drawing x y u = .ok v ∧ Drawn s (fun x' y' => D x' y' ∨ x' = x ∧ y' = y) v
      ∧ v.c.r0 = u.c.r0 + 1 ∧ v.c.r1 = u.c.r1 + if mirrorsAt s x then 1 else 0 := by
  obtain ⟨u1, e1, st1, c1, cache1, count1⟩ := fetchPixel_ok h hs hxy
  have hp := primary_place hxy
  have hpa := pixelAddr_has hp.1 hp.2
  have hp1 : u1.c.params = s.params := by rw [c1]; exact h.params
  have hplat : u1.st.platform = s.platform := by rw [st1, h.st]
  obtain ⟨u2, e2, s2⟩ := write16_ok (u := u1) (pointColor s x y) (State.writesPlain_of hs.writes hplat) hpa.1 hpa.2
  have hwithin : ∀ x' y', (D x' y' ∨ x' = x ∧ y' = y) → s.drawing.has x' y' := by
    rintro x' y' (h' | ⟨rfl, rfl⟩)
    · exact h.within x' y' h'
    · exact hxy
  -- a place the new point writes shows the new point; every other place shows what it did
  have hshows : ∀ c y' z, Shows s (fun x' y' => D x' y' ∨ x' = x ∧ y' = y) c y' z →
      (y' = y ∧ z = x ∧ Paints s x c) ∨ (Shows s D c y' z ∧ ¬ (y' = y ∧ Paints s x c)) := by
    rintro c y' z ⟨hz, hpt, hmax⟩
    by_cases hx : y' = y ∧ Paints s x c
    · obtain ⟨rfl, hx⟩ := hx
      refine .inl ⟨rfl, ?_, hx⟩
      have hle := hmax x (.inr ⟨rfl, rfl⟩) hx
      rcases hz with hz | ⟨rfl, _⟩
      · have := hnew z hz; omega
      · rfl
    · refine .inr ⟨⟨?_, hpt, fun z' hz' hp' => hmax z' (.inl hz') hp'⟩, hx⟩
      rcases hz with hz | ⟨rfl, rfl⟩
      · exact hz
      · exact absurd ⟨rfl, hpt⟩ hx
  have hframe : u2.st.frame = s.frame := by rw [s2.st, st1, h.st]
  have hp2 : u2.c.params = s.params := by rw [s2.c]; exact hp1
  have hmem1 : u1.st.mem = u.st.mem := by rw [st1]
  have hmem2 : u2.st.mem = u.st.mem.store (primaryAddr s x y) [(pointColor s x y).extractLsb' 0 8, (pointColor s x y).extractLsb' 8 8] := by
    rw [s2.st, ← hmem1]; rfl
  have hcache2 : u2.st.pcache = u1.st.pcache := by rw [s2.st]
  have st2 : u2.st = { s with done := false, inflight := none, mem := u2.st.mem, pcache := u2.st.pcache } := by
    rw [s2.st, st1, h.st]
  have hr : u2.c.r0 = u.c.r0 ∧ u2.c.r1 = u.c.r1 ∧ u2.c.r2 = u1.c.r2 ∧ u2.c.op = u.c.op := by
    rw [s2.c, c1]; exact ⟨rfl, rfl, rfl, rfl⟩
  set u3 : Run := { u2 with c := { u2.c with r0 := u2.c.r0 + 1 } } with hu3
  have ebody : drawPixel s.drawing x y u
      = drawMirror s.drawing (x - s.drawing.ox) (y - s.drawing.dy0).toNat (pointColor s x y) u3 := by
    have e2' : u1.write16 (pixelAddr u1.c.params (x - s.drawing.dx0).toNat (y - s.drawing.dy0).toNat) (pointColor s x y) = .ok u2 := by
      rw [hp1]; exact e2
    simp only [drawPixel, e1, bind, Except.bind]
    rw [e2']
  have hcond : (u3.c.params.mirrorEn && decide (0 ≤ mirrorCol u3.st.frame u3.c.params s.drawing (x - s.drawing.ox))
      && decide (mirrorCol u3.st.frame u3.c.params s.drawing (x - s.drawing.ox) < u3.c.params.stride)) = mirrorsAt s x := by
    have a1 : u3.st.frame = s.frame := hframe
    have a2 : u3.c.params = s.params := hp2
    rw [a1, a2]; rfl
  have hother : ∀ a, ¬ drawnByte s (fun x' y' => D x' y' ∨ x' = x ∧ y' = y) a → u2.st.mem.read a = s.mem.read a := by
    intro a ha
    have h1 : a ≠ primaryAddr s x y ∧ a ≠ primaryAddr s x y + 1 :=
      ⟨fun e => ha ⟨x, y, .inr ⟨rfl, rfl⟩, .inl e⟩, fun e => ha ⟨x, y, .inr ⟨rfl, rfl⟩, .inr (.inl e)⟩⟩
    rw [hmem2, Memory.read_store_other _ _ (by simp; omega)]
    exact h.rest a fun ⟨x', y', h', hb⟩ => ha ⟨x', y', .inl h', hb⟩
  rw [ebody]
  unfold drawMirror
  simp only
  by_cases hm : mirrorsAt s x = true
  · rw [hcond, if_pos hm, hm]
    have hq := mirror_place hxy hm
    have hqa := pixelAddr_has hq.1 hq.2
    have hplat3 : u3.st.platform = s.platform := by rw [hu3, st2]
    obtain ⟨u4, e4, s4⟩ := write16_ok (u := u3) (a := mirrorAddr s x y) (pointColor s x y)
      (State.writesPlain_of hs.writes hplat3) hqa.1 hqa.2
    have e4' : u3.write16 (pixelAddr u3.c.params (mirrorCol u3.st.frame u3.c.params s.drawing (x - s.drawing.ox)).toNat
        (y - s.drawing.dy0).toNat) (pointColor s x y) = .ok u4 := by
      have a1 : u3.st.frame = s.frame := hframe
      have a2 : u3.c.params = s.params := hp2
      rw [a1, a2]; exact e4
    have hmem4 : u4.st.mem = u2.st.mem.store (mirrorAddr s x y) [(pointColor s x y).extractLsb' 0 8, (pointColor s x y).extractLsb' 8 8] := by
      rw [s4.st]
    have hc4 : u4.c.r0 = u2.c.r0 + 1 ∧ u4.c.r1 = u2.c.r1 ∧ u4.c.r2 = u2.c.r2 ∧ u4.c.op = u2.c.op ∧ u4.c.params = u2.c.params := by
      rw [s4.c]; exact ⟨rfl, rfl, rfl, rfl, rfl⟩
    have hcache4 : u4.st.pcache = u2.st.pcache := by rw [s4.st]
    simp only [e4', bind, Except.bind, pure, Except.pure]
    refine ⟨_, rfl, ⟨hwithin, ?_, ?_, ?_, ?_, ?_, ?_, ?_⟩, ?_, ?_⟩
    · change u4.st = { s with done := false, inflight := none, mem := u4.st.mem, pcache := u4.st.pcache }
      rw [s4.st]
      change ({ u2.st with mem := _ } : State) = _
      rw [st2]
    · change u4.c.op = _; rw [hc4.2.2.2.1, hr.2.2.2]; exact h.op
    · change u4.c.params = _; rw [hc4.2.2.2.2]; exact hp2
    · intro c y' z hsh
      change u4.st.mem.pixelIs _ _
      rw [hmem4, mirrorAddr_eq]
      rcases hshows c y' z hsh with ⟨rfl, rfl, hp⟩ | ⟨hold, hno⟩
      · by_cases hc : mirrorPoint s z = c
        · rw [hc]; exact pixelIs_store _ _ _
        · rcases hp with rfl | ⟨_, hp⟩
          · refine pixelIs_store_other ?_ (places_apart hxy (.inr ⟨hm, rfl⟩) hxy (.inl rfl) fun hh => hc hh.1)
            rw [hmem2]
            exact pixelIs_store _ _ _
          · exact absurd hp hc
      · have hin := h.within z y' hold.1
        refine pixelIs_store_other ?_ (places_apart hxy (.inr ⟨hm, rfl⟩) hin hold.2.1 fun hh => hno ⟨hh.2.symm, .inr ⟨hm, hh.1⟩⟩)
        rw [hmem2]
        exact pixelIs_store_other (h.shown c y' z hold)
          (places_apart hxy (.inl rfl) hin hold.2.1 fun hh => hno ⟨hh.2.symm, .inl hh.1⟩)
    · intro a ha
      change u4.st.mem.read a = _
      rw [hmem4, Memory.read_store_other _ _ ?_]
      · exact hother a ha
      · have h1 : a ≠ mirrorAddr s x y ∧ a ≠ mirrorAddr s x y + 1 :=
          ⟨fun e => ha ⟨x, y, .inr ⟨rfl, rfl⟩, .inr (.inr ⟨hm, .inl e⟩)⟩,
            fun e => ha ⟨x, y, .inr ⟨rfl, rfl⟩, .inr (.inr ⟨hm, .inr e⟩)⟩⟩
        simp; omega
    · intro j
      change SlotAfter s _ u4.st.pcache j
      rw [hcache4, hcache2]; exact cache1 j
    · change u4.c.r2 = newSlots s u4.st.pcache
      rw [hc4.2.2.1, hr.2.2.1, hcache4, hcache2]; exact count1
    · change u4.c.r0 = _; rw [hc4.1, hr.1]
    · change u4.c.r1 + 1 = _; rw [hc4.2.1, hr.2.1]; rfl
  · rw [hcond, if_neg hm]
    refine ⟨u3, rfl, ⟨hwithin, st2, ?_, hp2, ?_, hother, ?_, ?_⟩, ?_, ?_⟩
    · change u2.c.op = _; rw [hr.2.2.2]; exact h.op
    · intro c y' z hsh
      change u2.st.mem.pixelIs _ _
      rw [hmem2]
      rcases hshows c y' z hsh with ⟨rfl, rfl, hp⟩ | ⟨hold, hno⟩
      · rcases hp with rfl | ⟨hp, _⟩
        · exact pixelIs_store _ _ _
        · exact absurd hp hm
      · exact pixelIs_store_other (h.shown c y' z hold)
          (places_apart hxy (.inl rfl) (h.within z y' hold.1) hold.2.1 fun hh => hno ⟨hh.2.symm, .inl hh.1⟩)
    · intro j
      change SlotAfter s _ u2.st.pcache j
      rw [hcache2]; exact cache1 j
    · change u2.c.r2 = newSlots s u2.st.pcache
      rw [hr.2.2.1, hcache2]; exact count1
    · change u2.c.r0 + 1 = _; rw [hr.1]
    · change u2.c.r1 = _; rw [hr.2.1]; simp [hm]

/-! ### Rows -/

theorem Drawn.congr {s : State} {D D' : Int → Int → Prop} {u : Run} (h : Drawn s D u) (hD : ∀ x y, D' x y ↔ D x y) :
    Drawn s D' u := by
  have : D' = D := by funext x y; exact propext (hD x y)
  rw [this]; exact h

/-- The number of the `n` columns from `x` whose mirror copy is drawn. -/
def mirrorCount (s : State) (x : Int) : Nat → Nat
  | 0 => 0
  | n + 1 => (if mirrorsAt s x then 1 else 0) + mirrorCount s (x + 1) n

/-- A row of pixels more is drawn. -/
theorem drawRow_ok {s : State} (hs : s.canDraw)
    {y : Int} (n : Nat) {D : Int → Int → Prop}
    {u : Run} (h : Drawn s D u) {x : Int} (hxy : ∀ i : Nat, i < n → s.drawing.has (x + i) y)
    (hnew : ∀ x', D x' y → x' < x) :
    ∃ v, drawRow s.drawing y n x u = .ok v
      ∧ Drawn s (fun x' y' => D x' y' ∨ (x ≤ x' ∧ x' < x + n ∧ y' = y)) v
      ∧ v.c.r0 = u.c.r0 + n ∧ v.c.r1 = u.c.r1 + mirrorCount s x n := by
  induction n generalizing x u D with
  | zero => exact ⟨u, rfl, h.congr fun x' y' => by constructor <;> [rintro (h | h); intro h] <;> [exact h; omega; exact .inl h], rfl, rfl⟩
  | succ n ih =>
    obtain ⟨v, e, hv, r0, r1⟩ := drawPixel_ok h hs (by simpa using hxy 0 (Nat.succ_pos n)) hnew
    have hshift (i : Nat) : x + ((i + 1 : Nat) : Int) = x + 1 + i := by push_cast; ring
    obtain ⟨w, e', hw, r0', r1'⟩ := ih hv (x := x + 1) (fun i hi => by rw [← hshift]; exact hxy (i + 1) (by omega))
      (by
        rintro x' (hd | ⟨rfl, _⟩)
        · have := hnew x' hd; omega
        · omega)
    refine ⟨w, ?_, hw.congr fun x' y' => ?_, by omega, by rw [r1', r1, mirrorCount]; omega⟩
    · simp only [drawRow, e, bind, Except.bind]
      exact e'
    · push_cast
      constructor
      · rintro (hd | ⟨h1, h2, h3⟩)
        · exact .inl (.inl hd)
        · by_cases hx : x' = x
          · exact .inl (.inr ⟨hx, h3⟩)
          · exact .inr ⟨by omega, by omega, h3⟩
      · rintro ((hd | ⟨h1, h3⟩) | ⟨h1, h2, h3⟩)
        · exact .inl hd
        · exact .inr ⟨by omega, by omega, h3⟩
        · exact .inr ⟨by omega, by omega, h3⟩

/-- All the rows are drawn. -/
theorem drawRows_ok {s : State} (hs : s.canDraw) (n : Nat) {D : Int → Int → Prop}
    {u : Run} (h : Drawn s D u) {y : Int}
    (hxy : ∀ x, s.drawing.x1 ≤ x → x ≤ s.drawing.x2 → ∀ i : Nat, i < n → s.drawing.has x (y + i))
    (hnew : ∀ x' y', D x' y' → y' < y) :
    ∃ v, drawRows s.drawing n y u = .ok v
      ∧ Drawn s (fun x' y' => D x' y' ∨ (s.drawing.x1 ≤ x' ∧ x' ≤ s.drawing.x2 ∧ y ≤ y' ∧ y' < y + n)) v
      ∧ v.c.r0 = u.c.r0 + n * (s.drawing.x2 - s.drawing.x1 + 1).toNat
      ∧ v.c.r1 = u.c.r1 + n * mirrorCount s s.drawing.x1 (s.drawing.x2 - s.drawing.x1 + 1).toNat := by
  induction n generalizing y u D with
  | zero => exact ⟨u, rfl, h.congr fun x' y' => by constructor <;> [rintro (h | h); intro h] <;> [exact h; omega; exact .inl h], by simp, by simp⟩
  | succ n ih =>
    have hshift (i : Nat) : y + ((i + 1 : Nat) : Int) = y + 1 + i := by push_cast; ring
    obtain ⟨v, e, hv, r0, r1⟩ := drawRow_ok hs (y := y) (s.drawing.x2 - s.drawing.x1 + 1).toNat h (x := s.drawing.x1)
      (fun i hi => by simpa using hxy (s.drawing.x1 + i) (by omega) (by omega) 0 (Nat.succ_pos n))
      (fun x' hd => absurd (hnew x' y hd) (by omega))
    obtain ⟨w, e', hw, r0', r1'⟩ := ih hv (y := y + 1)
      (fun x h1 h2 i hi => by rw [← hshift]; exact hxy x h1 h2 (i + 1) (by omega))
      (by
        rintro x' y' (hd | ⟨_, _, rfl⟩)
        · have := hnew x' y' hd; omega
        · omega)
    refine ⟨w, ?_, hw.congr fun x' y' => ?_, ?_, ?_⟩
    · simp only [drawRows, e, bind, Except.bind]
      exact e'
    · push_cast
      constructor
      · rintro (hd | ⟨h1, h2, h3, h4⟩)
        · exact .inl (.inl hd)
        · by_cases hy : y' = y
          · exact .inl (.inr ⟨by omega, by omega, hy⟩)
          · exact .inr ⟨h1, h2, by omega, by omega⟩
      · rintro ((hd | ⟨h1, h2, h3⟩) | ⟨h1, h2, h3, h4⟩)
        · exact .inl hd
        · exact .inr ⟨by omega, by omega, by omega, by omega⟩
        · exact .inr ⟨h1, h2, by omega, by omega⟩
    · rw [r0', r0, Nat.succ_mul]; omega
    · rw [r1', r1, Nat.succ_mul]; omega

end Sys2Proof.Machine
end

