-- ==== Sys2Proof/Laws/PerInstr.lean ====
section
/-! SUPPORT. The encoding round trip, one lemma per instruction (30_encoding.md R112, R120). -/

namespace Sys2Proof.Laws.RoundTrip

/-- The word of a well-formed instruction decodes to it. -/
def Statement (i : Instr) : Prop := i.wf = true → decode (encode i) = .instr i

theorem nop : Statement .nop := fun _ => rfl

theorem bindFrame : Statement .bindFrame := fun _ => rfl

theorem decodeBlock : Statement .decodeBlock := fun _ => rfl

theorem composite : Statement .composite := fun _ => rfl

theorem markDecoded : Statement .markDecoded := fun _ => rfl

theorem huffBuild : Statement .huffBuild := fun _ => rfl

theorem huffDecode : Statement .huffDecode := fun _ => rfl

theorem rleExpand : Statement .rleExpand := fun _ => rfl

theorem palResolve : Statement .palResolve := fun _ => rfl

theorem pcacheFlush : Statement .pcacheFlush := fun _ => rfl

theorem unbind : Statement .unbind := fun _ => rfl

theorem blkRle : Statement .blkRle := fun _ => rfl

theorem blkHuffman : Statement .blkHuffman := fun _ => rfl

theorem blkJpeg : Statement .blkJpeg := fun _ => rfl

theorem blkHuffmanDirect : Statement .blkHuffmanDirect := fun _ => rfl

end Sys2Proof.Laws.RoundTrip
end

