-- ==== Sys2Proof/Laws/Step.lean ====
section
/-! SUPPORT. What a step fetches and how it ends, case by case; the register writes of the host; the block a tag dispatch
stands at; and a run of one more step. -/

namespace Sys2Proof.Machine

/-! ### What a step fetches -/

/-- While idle a step is the outside world's turn. -/
theorem fetch_idle {s : State} (h : s.inflight = none) : fetch s = hostTurn s := by
  simp [fetch, blockAtTag, h]

/-- While a completion is held a step is the outside world's turn first. -/
theorem fetch_held {s : State} {c : InFlight} {code : Code} {n : Nat} (h : s.inflight = some c)
    (hp : c.pos = .held code n) : fetch s = hostTurn s := by
  simp [fetch, blockAtTag, h, hp]

/-- At a tag dispatch a step is the tag's. -/
theorem fetch_atTag {s : State} {u : Run} (h : blockAtTag s = some u) : fetch s = fetchTag u s := by
  simp [fetch, h]

/-- The running command of a machine at its tag dispatch. -/
theorem blockAtTag_some {s : State} {u : Run} (h : blockAtTag s = some u) :
    ∃ c, s.inflight = some c ∧ c.pos = .atTag ∧ u = { st := { s with inflight := none }, c := c } := by
  unfold blockAtTag at h
  split at h
  · next c hc =>
    split at h
    · next hp => cases h; exact ⟨c, hc, hp, rfl⟩
    · cases h
  · cases h

theorem blockAtTag_of {s : State} {c : InFlight} (h : s.inflight = some c) (hp : c.pos = .atTag) :
    blockAtTag s = some { st := { s with inflight := none }, c := c } := by
  simp [blockAtTag, h, hp]

/-- The engine has no turn after a step that began idle. -/
theorem engineTurn_idle {s : State} {o : Host.Outcome State Fault Refusal} (h : s.inflight = none) : engineTurn s o = o := by
  unfold engineTurn
  cases o <;> simp [State.busy, h]

/-- The engine has no second turn after a tag dispatch. -/
theorem engineTurn_atTag {s : State} {u : Run} {o : Host.Outcome State Fault Refusal} (h : blockAtTag s = some u) :
    engineTurn s o = o := by
  unfold engineTurn
  cases o <;> simp [h]

/-- The engine's turn after a step in which a completion was held. -/
theorem engineTurn_held {s : State} {c : InFlight} {code : Code} {n : Nat} (h : s.inflight = some c)
    (hp : c.pos = .held code n) (t : State) : engineTurn s (.next t) = .next (tick t) := by
  simp [engineTurn, State.busy, h, blockAtTag, hp]

/-- The engine's turn takes a held completion one step on. -/
theorem tick_oneStepOn {s : State} {c : InFlight} {code : Code} {n : Nat} (h : s.inflight = some c)
    (hp : c.pos = .held code (n + 1)) : tick s = s.oneStepOn c code n := by
  cases n with
  | zero => rw [tick_last h hp (Nat.le_refl _)]; simp [State.oneStepOn, State.settled, h, hp]
  | succ n => rw [tick_held h hp]; rfl

/-- A transaction that brings no instruction, while a completion is held: its own effect, and the completion one step on. -/
theorem step_held {s t : State} {c : InFlight} {code : Code} {n : Nat} (h : s.inflight = some c)
    (hp : c.pos = .held code (n + 1)) (ht : hostTurn s = .plain (.next t)) (hc : t.inflight = s.inflight) :
    step s = .next (t.oneStepOn c code n) := by
  unfold step
  rw [fetch_held h hp, ht]
  simp only [engineTurn_held h hp]
  rw [tick_oneStepOn (hc.trans h) hp]

/-- A step whose fetch brings no instruction. -/
theorem step_plain {s : State} {o : Host.Outcome State Fault Refusal} (h : fetch s = .plain o) :
    step s = engineTurn s o := by
  simp [step, h]

/-- A step whose fetch brings an instruction. -/
theorem step_run {s t : State} {i : Instr} (h : fetch s = .run i t) : step s = engineTurn s (exec i t) := by
  simp [step, h]

/-! ### Register writes -/

theorem Reg.ofOffset_param (r : ParamReg) : Reg.ofOffset r.offset = .param r := by
  cases r <;> rfl

theorem hostWrite_param (r : ParamReg) (data : Word) (s : State) :
    hostWrite r.offset .word data s = .plain (.next { s with params := s.params.set r (data &&& r.mask) }) := by
  simp only [hostWrite]
  rw [if_pos (by cases r <;> rfl), Reg.ofOffset_param]
  rfl

theorem hostWrite_status (data : Word) (s : State) :
    hostWrite 0x00C#11 .word data s = .plain (.next (s.clearStatus data)) := rfl

theorem hostWrite_cmd (data : Word) (s : State) : hostWrite 0x008#11 .word data s = fetchCommand data s := rfl

theorem Params.get_set (p : Params) (r q : ParamReg) (v : Word) : (p.set r v).get q = if q = r then v else p.get q := by
  cases r <;> cases q <;> rfl

/-! ### Runs -/

/-- A run of one step more. -/
theorem run_next {s t : State} {n : Nat} (h : step s = .next t) :
    Host.Core.run core (n + 1) s = Host.Core.run core n t := by
  have h' : core.step s = .next t := h
  simp only [Host.Core.run, h']

end Sys2Proof.Machine
end

