-- ==== Sys2Proof/Tests/Slice0.lean ====
section
/-! SUPPORT. The author's tests. The expected values of the tests of single steps are those of spec/95_test_vectors.md, whose
row each comment names; a theorem `test_meets_…` shows a concrete state and operands that meet every hypothesis of an
obligation, at a boundary of each clause. -/

namespace Sys2Proof.Tests

open Sys2Proof.Machine

/-! ### Helpers -/

/-- Memory with these bytes from an address up. -/
def put (m : Memory) (a : Nat) : List Nat → Memory
  | [] => m
  | b :: bs => put (m.write a (BitVec.ofNat 8 b)) (a + 1) bs

/-- The bytes from an address up. -/
def got (s : State) (a n : Nat) : List Nat := (s.mem.bytes a n).map BitVec.toNat

/-- What the next state of an outcome shows, read by `f`. -/
def shows {α : Type} (o : Host.Outcome State Fault Refusal) (f : State → α) : Option α :=
  match o with
  | .next t => some (f t)
  | .fault _ | .refused _ => none

/-- STATUS and RESULT0 to RESULT2. -/
def seen (s : State) : Nat × Nat × Nat × Nat :=
  (s.statusWord.toNat, s.result0.toNat, s.result1.toNat, s.result2.toNat)

/-- A write of a register, a read of one. -/
def wr (off data : Nat) : Input := .wr (BitVec.ofNat 11 off) .word (BitVec.ofNat 32 data)
def rd (off : Nat) : Input := .rd (BitVec.ofNat 11 off) .word

/-- The reset machine with these parameters and memory. -/
def machine (p : Params) (m : Memory) : State := { State.reset with params := p, mem := m }

/-- The reset machine in which a command is held: RLE_EXPAND of 0x1000, 2 bytes, to 0x2000, 1 byte. -/
def held (code : Code) (left : Nat) (inputs : List Input) : State :=
  { State.reset with
    inputs := inputs
    inflight := some
      { op := 0x07#8, params := {}, pos := .held code left, reads := [⟨0x1000, 2⟩], writes := [⟨0x2000, 1⟩] } }

/-- Frame FA of section 2.5 (depth 8, 4 by 2, one block) with its registers, a payload at 0x6000. -/
def fa : Frame := { depth := 8#8, w := 4#16, h := 2#16, count := 1#16, blkH := 2#16, palAddr := 0x5000#32 }
def faParams (len : Nat) : Params :=
  { frameFmt := 0x8#32, frameSize := 0x00020004#32, blkGeom := 0x00020001#32, palAddr := 0x5000#32, dbufAddr := 0x7000#32
    dbufCap := 8#32, scrAddr := 0x7100#32, scrCap := 16#32, blkAddr := 0x6000#32, blkLen := BitVec.ofNat 32 len }
def bound (payload : List Nat) : State :=
  { machine (faParams payload.length) (put [] 0x6000 payload) with frameBound := true, frame := fa }

/-- The same with its DECODE_BLOCK at the tag dispatch. -/
def atTag (payload : List Nat) : State :=
  { bound payload with inflight := some { op := 0x02#8, params := faParams payload.length } }

/-- Frame FJ of section 2.5 (depth 24, 4 by 3, two blocks of 2 and 1 rows), block 1. -/
def fj : Frame := { depth := 24#8, w := 4#16, h := 3#16, count := 2#16, blkH := 2#16, palAddr := 0x5000#32 }
def fjParams : Params := { faParams 3 with blkIndex := 1#32 }
def atJpeg : State :=
  { machine fjParams (put [] 0x6000 [0x02, 0xFF, 0xD8]) with
    frameBound := true, frame := fj, inflight := some { op := 0x02#8, params := fjParams } }

/-- Frame FC of section 2.7 and its registers. -/
def fc : Frame := { depth := 24#8, w := 4#16, h := 1#16, count := 1#16, blkH := 1#16, palAddr := 0x5000#32 }
def fcParams (ctrl : Nat) (mirrorOfs : Nat) : Params :=
  { dbufAddr := 0x7000#32, ctrl := BitVec.ofNat 32 ctrl, destAddr := 0x8000#32, destStride := 10#32, destRows := 1#32
    clipMax := 9#32, mirrorOfs := BitVec.ofNat 32 mirrorOfs }
def drawn (ctrl mirrorOfs : Nat) : State :=
  { machine (fcParams ctrl mirrorOfs) (put [] 0x7000 [0x01, 0xA0, 0x02, 0xA0, 0x03, 0xA0, 0x04, 0xA0]) with
    frameBound := true, frame := fc, dbufValid := true, dbufBlock := 0#32 }
/-- The same at depth 8, slot 1 resolved, where memory refuses writes of the second destination pixel. -/
def drawRefused : State :=
  { drawn 0 0 with
    frame := { fc with depth := 8#8 }, pcache := emptyCache.set 1 (some 0xF800#16)
    platform := { Platform.atReset with refusedWrites := [⟨0x8002, 2⟩] } }

/-- The table of HB1 at 0x3000 (A = 0, B = 10, C = 11, PAD 7), the stream of HD1 at 0x3100, output at 0x3200. -/
def tableBytes : List Nat := [0x07, 0x41, 0x01, 0x00, 0x42, 0x02, 0x02, 0x43, 0x02, 0x03]
def huffParams (inLen outCap : Nat) : Params :=
  { tblAddr := 0x3000#32, tblLen := 10#32, inAddr := 0x3100#32, inLen := BitVec.ofNat 32 inLen, outAddr := 0x3200#32
    outCap := BitVec.ofNat 32 outCap }
def huffMachine (inLen outCap : Nat) (stream : List Nat) : State :=
  machine (huffParams inLen outCap) (put (put [] 0x3000 tableBytes) 0x3100 stream)
def book : CodeBook := [(0x41#8, [false]), (0x42#8, [true, false]), (0x43#8, [true, true])]
def bookTree : Tree := .node (.leaf 0x41#8) (.node (.leaf 0x42#8) (.leaf 0x43#8))
/-- A B A C C A. -/
def msg : Message :=
  [([false], 0x41#8), ([true, false], 0x42#8), ([false], 0x41#8), ([true, true], 0x43#8), ([true, true], 0x43#8), ([false], 0x41#8)]
def treeMachine (inLen outCap : Nat) (stream : List Nat) : State :=
  { huffMachine inLen outCap stream with tree := bookTree, treePad := 7#3, treeValid := true }

/-- RLE_EXPAND's registers. -/
def rleMachine (inLen outCap : Nat) (bytes : List Nat) : State :=
  machine { inAddr := 0x1000#32, inLen := BitVec.ofNat 32 inLen, outAddr := 0x2000#32, outCap := BitVec.ofNat 32 outCap }
    (put [] 0x1000 bytes)

/-- Below the register block the platform of `State.reset` is ordinary memory that answers. -/
theorem plain {s : State} {r : Region} (hp : s.platform = Platform.atReset) (hr : r.base + r.len ≤ 0x40000000) :
    s.readsPlain r ∧ s.writesPlain r := by
  have key : ∀ a, r.has a = true → a < spaceSize ∧ s.platform.isDevice a = false := by
    intro a ha
    simp only [Region.has, Bool.and_eq_true, decide_eq_true_eq] at ha
    refine ⟨by unfold spaceSize; omega, ?_⟩
    have hw : ¬ (0x40000000 ≤ a) := by omega
    simp [hp, Platform.isDevice, Platform.regWindow, Platform.atReset, Region.has, hw]
  exact ⟨fun a ha => ⟨(key a ha).1, by simp [hp, Platform.answersRead, Platform.atReset], (key a ha).2⟩,
    fun a ha => ⟨(key a ha).1, by simp [hp, Platform.answersWrite, Platform.atReset], (key a ha).2⟩⟩

/-! ### Well-formedness -/

theorem test_wf_aligned_word : (wr 0x004 0).wf = true := by decide
theorem test_wf_refuses_unaligned_write : Input.wf (.wr 0x002#11 .word 0#32) = false := by decide
theorem test_wf_refuses_byte_read : Input.wf (.rd 0x000#11 .byte) = false := by decide
theorem test_wf_refuses_half_write : Input.wf (.wr 0x004#11 .half 0#32) = false := by decide
theorem test_wf_refuses_block_past_space : Platform.wf { Platform.atReset with regBase := 0xFFFFF900#32 } = false := by decide
theorem test_wf_refuses_unaligned_block : Platform.wf { Platform.atReset with regBase := 0x40000002#32 } = false := by decide
theorem test_wf_last_place_of_block : Platform.wf { Platform.atReset with regBase := 0xFFFFF800#32 } = true := by decide

/-! ### Decoding: the words of 30_encoding.md R112 and R120, written out in bits -/

theorem test_decode_nop : decode (.command 0b00000000000000000000000000000000#32) = .instr .nop := by decide
theorem test_decode_bind_frame : decode (.command 0b00000000000000000000000000000001#32) = .instr .bindFrame := by decide
theorem test_decode_decode_block : decode (.command 0b00000000000000000000000000000010#32) = .instr .decodeBlock := by decide
theorem test_decode_composite : decode (.command 0b00000000000000000000000000000011#32) = .instr .composite := by decide
theorem test_decode_mark_decoded : decode (.command 0b00000000000000000000000000000100#32) = .instr .markDecoded := by decide
theorem test_decode_huff_build : decode (.command 0b00000000000000000000000000000101#32) = .instr .huffBuild := by decide
theorem test_decode_huff_decode : decode (.command 0b00000000000000000000000000000110#32) = .instr .huffDecode := by decide
theorem test_decode_rle_expand : decode (.command 0b00000000000000000000000000000111#32) = .instr .rleExpand := by decide
theorem test_decode_pal_resolve : decode (.command 0b00000000000000000000000000001000#32) = .instr .palResolve := by decide
theorem test_decode_pcache_flush : decode (.command 0b00000000000000000000000000001001#32) = .instr .pcacheFlush := by decide
theorem test_decode_unbind : decode (.command 0b00000000000000000000000000001010#32) = .instr .unbind := by decide
theorem test_decode_blk_rle : decode (.tag 0b00000000#8) = .instr .blkRle := by decide
theorem test_decode_blk_huffman : decode (.tag 0b00000001#8) = .instr .blkHuffman := by decide
theorem test_decode_blk_jpeg : decode (.tag 0b00000010#8) = .instr .blkJpeg := by decide
theorem test_decode_blk_huffman_direct : decode (.tag 0b00000011#8) = .instr .blkHuffmanDirect := by decide

/-- IF10: CMD[31:8] is ignored. -/
theorem test_decode_ignores_upper_bits : decode (.command 0xFFFFFF00#32) = .instr .nop := by decide
/-- 30_encoding.md R113, R124: the first and the last reserved code and tag. -/
theorem test_decode_reserved :
    decode (.command 0x0B#32) = .reservedCommand 0x0B#8 ∧ decode (.command 0xFF#32) = .reservedCommand 0xFF#8
      ∧ decode (.tag 0x04#8) = .reservedTag 0x04#8 ∧ decode (.tag 0xFF#8) = .reservedTag 0xFF#8 := by decide
theorem test_table_word_decodes :
    decodeTableWord 32 0x0000000A = some .unbind ∧ decodeTableWord 8 0x03 = some .blkHuffmanDirect
      ∧ decodeTableWord 32 0x0000000B = none := by decide

/-! ### One step of each instruction -/

/-- The row's word, placed, is what the next step runs: NOP and the RLE tag (IF7; a 1-byte payload expands to nothing). -/
theorem test_placed_word_runs :
    shows (step (State.reset.withFetchWord 32 0)) seen = some (0x002, 0, 0, 0)
      ∧ shows (step (State.reset.withFetchWord 8 0)) seen = some (0x302, 0, 0, 0) := by decide +kernel

/-- IF7. -/
theorem test_nop : shows (exec .nop State.reset) seen = some (0x002, 0, 0, 0) := by decide +kernel
/-- IF9. -/
theorem test_reserved_command :
    shows (step { State.reset with inputs := [wr 0x008 0x0B] }) seen = some (0x0E2, 0, 0, 0) := by decide +kernel
/-- BF1: the final block has 2 rows, a full block 16 bytes. -/
theorem test_bind_frame_reports_rows :
    shows (exec .bindFrame (machine { frameFmt := 8#32, frameSize := 0x000A0004#32, blkGeom := 0x00040003#32
                                      palAddr := 0x5000#32 } [])) seen = some (0x102, 2, 16, 0) := by decide +kernel
/-- BF12: a depth-4 palette one byte past the space. -/
theorem test_bind_frame_rejects_palette :
    shows (exec .bindFrame (machine { frameFmt := 4#32, frameSize := 0x000A0004#32, blkGeom := 0x00040003#32
                                      palAddr := 0xFFFFFFC1#32 } [])) seen = some (0x0C2, 0, 0, 0) := by decide +kernel
/-- 40_block_decoder.md R200: accepted, BUSY, at its tag dispatch. -/
theorem test_decode_block_waits_at_tag :
    shows (exec .decodeBlock (bound [0x00, 0x08, 0x05])) seen = some (0x101, 0, 0, 0) := by decide +kernel
/-- DB10: unbound. -/
theorem test_decode_block_unbound : shows (exec .decodeBlock State.reset) seen = some (0x0C2, 0, 0, 0) := by decide +kernel
/-- CV0: the mirror image. -/
theorem test_composite_mirrors :
    shows (exec .composite (drawn 2 0)) (fun t => (seen t, got t 0x8000 20)) =
      some ((0x302, 4, 4, 0), [0x01, 0xA0, 0x02, 0xA0, 0x03, 0xA0, 0x04, 0xA0, 0x04, 0xA0, 0x03, 0xA0, 0x02, 0xA0, 0x01, 0xA0,
        0, 0, 0, 0]) := by decide +kernel
/-- CV2: mirror and primary columns overlap, the later write stays. -/
theorem test_composite_overlapping_mirror :
    shows (exec .composite (drawn 2 0xFFFC)) (fun t => (seen t, got t 0x8000 10)) =
      some ((0x302, 4, 4, 0), [0x04, 0xA0, 0x03, 0xA0, 0x03, 0xA0, 0x04, 0xA0, 0, 0]) := by decide +kernel
/-- R401, R402 and R404: one pixel drawn, one slot (0xA0) newly resolved for the second, whose write is refused; the pixel and
the count stand, and the cache is as it was. -/
theorem test_failed_composite_leaves_cache :
    shows (exec .composite drawRefused) (fun t => (seen t, t.pcache[1], t.pcache[0xA0], got t 0x8000 2)) =
      some ((0x3D2, 1, 0, 1), some 0xF800#16, none, [0x00, 0xF8]) := by decide +kernel
/-- DJ2 and IF16. -/
theorem test_mark_decoded :
    shows (exec .markDecoded { atJpeg with inflight := none }) (fun t => (seen t, t.dbufBlock)) = some ((0x302, 0, 0, 0), 1#32)
      ∧ shows (exec .markDecoded State.reset) seen = some (0x0C2, 0, 0, 0) := by decide +kernel
/-- HB1. -/
theorem test_huff_build :
    shows (exec .huffBuild (huffMachine 0 0 [])) (fun t => (seen t, t.tree, t.treePad)) =
      some ((0x402, 3, 5, 0), bookTree, 7#3) := by decide +kernel
/-- HB7: "0" is a prefix of "00". -/
theorem test_huff_build_rejects_prefix :
    shows (exec .huffBuild (machine { tblAddr := 0x3000#32, tblLen := 7#32 }
        (put [] 0x3000 [0x00, 0x41, 0x02, 0x00, 0x42, 0x01, 0x00]))) seen = some (0x082, 1, 3, 4) := by decide +kernel
/-- HD1. -/
theorem test_huff_decode :
    shows (exec .huffDecode (treeMachine 2 16 [0x4F, 0x00])) (fun t => (seen t, got t 0x3200 7)) =
      some ((0x402, 6, 9, 0), [0x41, 0x42, 0x41, 0x43, 0x43, 0x41, 0]) := by decide +kernel
/-- HD10: no room at all. -/
theorem test_huff_decode_no_room :
    shows (exec .huffDecode (treeMachine 2 0 [0x4F, 0x00])) (fun t => (seen t, got t 0x3200 1)) =
      some ((0x412, 0, 1, 0), [0]) := by decide +kernel
/-- RL1. -/
theorem test_rle_expand :
    shows (exec .rleExpand (rleMachine 6 8 [0x03, 0x41, 0x00, 0x7F, 0x02, 0x42])) (fun t => (seen t, got t 0x2000 6)) =
      some ((0x002, 5, 3, 0), [0x41, 0x41, 0x41, 0x42, 0x42, 0]) := by decide +kernel
/-- RL2: the pair that does not fit writes nothing. -/
theorem test_rle_expand_overflow :
    shows (exec .rleExpand (rleMachine 6 4 [0x03, 0x41, 0x00, 0x7F, 0x02, 0x42])) (fun t => (seen t, got t 0x2000 4)) =
      some ((0x012, 3, 2, 0), [0x41, 0x41, 0x41, 0]) := by decide +kernel
/-- PR1 and PR2: the colour, and an untouched cache. -/
theorem test_pal_resolve :
    shows (exec .palResolve { bound [] with params := { palIdx := 5#32 }, mem := put [] 0x5014 [0x12, 0x34, 0x56] }) seen
        = some (0x102, 0x51A2, 0, 0)
      ∧ shows (exec .palResolve { bound [] with params := { palIdx := 5#32, ctrl := 1#32 }, mem := put [] 0x5014 [0x12, 0x34, 0x56] })
          (fun t => (seen t, t.readReg (.pcache 5))) = some ((0x102, 0xA251, 0, 0), 0xFFFFFFFF#32) := by decide +kernel
/-- IF14. -/
theorem test_pcache_flush :
    shows (exec .pcacheFlush { State.reset with pcache := emptyCache.set 7 (some 0x1234#16) })
      (fun t => (seen t, t.readReg (.pcache 7))) = some ((0x002, 0, 0, 0), 0xFFFFFFFF#32) := by decide +kernel
/-- IF15. -/
theorem test_unbind :
    shows (exec .unbind { bound [] with dbufValid := true, dbufBlock := 0#32, treeValid := true })
      (fun t => (seen t, t.dbufBlock)) = some ((0x402, 0, 0, 0), 0xFFFFFFFF#32) := by decide +kernel
/-- DB2. -/
theorem test_blk_rle :
    shows (step (atTag [0x00, 0x03, 0x07, 0x05, 0x09])) (fun t => (seen t, got t 0x7000 8)) =
      some ((0x302, 8, 0, 0), [7, 7, 7, 9, 9, 9, 9, 9]) := by decide +kernel
/-- DB5: the bytes of the pair that fits stay, and DBUF holds no block. -/
theorem test_blk_rle_overflow :
    shows (step (atTag [0x00, 0x05, 0x01, 0x05, 0x02])) (fun t => (seen t, got t 0x7000 6, t.dbufBlock)) =
      some ((0x112, 5, 0, 0), [1, 1, 1, 1, 1, 0], 0xFFFFFFFF#32) := by decide +kernel
/-- P3: 8 bytes through SCR. -/
theorem test_blk_huffman :
    shows (step (atTag [0x01, 0x0D, 0x00, 0x00, 0x00, 0x02, 0x00, 0x01, 0x02, 0x01, 0x02, 0x02, 0x02, 0x06, 0x02, 0x03, 0x8D]))
      (fun t => (seen t, got t 0x7000 8, got t 0x7100 4)) =
      some ((0x302, 8, 1, 4), [0, 0, 1, 1, 1, 1, 1, 1], [2, 0, 6, 1]) := by decide +kernel
/-- DB19: one Huffman byte is no pair. -/
theorem test_blk_huffman_odd :
    shows (step (atTag [0x01, 0x04, 0x00, 0x07, 0x05, 0x01, 0x00, 0x00])) (fun t => (seen t, got t 0x7100 1)) =
      some ((0x192, 0, 1, 1), [5]) := by decide +kernel
/-- DJ1. -/
theorem test_blk_jpeg :
    shows (step atJpeg) (fun t => (seen t, t.dbufBlock)) = some ((0x1B2, 8, 2, 0), 0xFFFFFFFF#32) := by decide +kernel
/-- DB7: JPEG at depth 8. -/
theorem test_blk_jpeg_at_depth_8 : shows (step (atTag [0x02, 0xFF])) seen = some (0x122, 0, 2, 0) := by decide +kernel
/-- DB14. -/
theorem test_blk_huffman_direct :
    shows (step (atTag [0x03, 0x04, 0x00, 0x00, 0x05, 0x01, 0x00, 0x00])) (fun t => (seen t, got t 0x7000 8)) =
      some ((0x302, 8, 3, 8), [5, 5, 5, 5, 5, 5, 5, 5]) := by decide +kernel
/-- DB15: seven codes. -/
theorem test_blk_huffman_direct_short :
    shows (step (atTag [0x03, 0x04, 0x00, 0x01, 0x05, 0x01, 0x00, 0x00])) (fun t => (seen t, got t 0x7000 8)) =
      some ((0x172, 7, 3, 7), [5, 5, 5, 5, 5, 5, 5, 0]) := by decide +kernel
/-- DB6: a reserved tag. -/
theorem test_reserved_tag : shows (step (atTag [0x05])) seen = some (0x122, 0, 5, 0) := by decide +kernel
/-- 60_exceptions.md R401, 20_memory.md R92: memory refuses the tag byte; while the BUS_ERROR is held the tag byte is the one
that a host store may not touch. -/
theorem test_refused_tag_byte_is_named :
    shows (step { atTag [0x00] with platform := { Platform.atReset with cmdLatency := 1, refusedReads := [⟨0x6000, 1⟩] } })
        (fun t => (t.inflight.map InFlight.reads, t.regionRead 0x6000, t.regionRead 0x6001))
      = some (some [⟨0x6000, 1⟩], true, false) := by decide +kernel
/-- IF1, IF6, IF4: reads of ID, of the last reserved offset and of DBUF_BLOCK. -/
theorem test_reads :
    shows (step { State.reset with inputs := [rd 0x000] }) State.readData = some (some 0x41414601#32)
      ∧ shows (step { State.reset with inputs := [rd 0x3FC] }) State.readData = some (some 0#32)
      ∧ shows (step { State.reset with inputs := [rd 0x01C] }) State.readData = some (some 0xFFFFFFFF#32) := by decide +kernel

/-! ### The hypotheses of the obligations, met -/

theorem test_meets_reset_keeps_memory : State.inflight { State.reset with mem := put [] 0x10 [1] } = none := rfl

/-- A reset as the next input, of an idle machine and of one that holds a completion. -/
theorem test_meets_reset_step :
    (blockAtTag { State.reset with inputs := [.reset] } = none ∧ blockAtTag (held .ok 1 [.reset]) = none)
      ∧ (held .ok 1 [.reset]).inputs = .reset :: [] := by decide

/-- Two bytes written over a byte and over nothing, by a command that a reset then abandons. -/
theorem test_meets_abandoned_command :
    ∃ (s : State) (u' : Run),
      Memory.wf (put [] 5 [9]) = true
      ∧ Run.writeAll { st := { State.reset with mem := put [] 5 [9] }, c := { op := 0x07#8, params := {} } } [(5, 1#8), (6, 2#8)]
          = .ok u'
      ∧ s.mem = u'.st.mem ∧ s.inflight = some u'.c ∧ u'.c.undo.length = 2 :=
  ⟨{ State.reset with
      mem := [(5, 1#8), (6, 2#8)]
      inflight := some { op := 0x07#8, params := {}, undo := [(6, 0#8), (5, 9#8)] } }, _, by decide, rfl, by decide, by decide,
    by decide⟩

/-- The first and the last reserved offset, and the first and the last register of the cache. -/
theorem test_meets_reserved_offsets :
    Reg.ofOffset 0x088#11 = .reserved ∧ Reg.ofOffset 0x3FC#11 = .reserved ∧ Reg.ofOffset 0x000#11 = .id
      ∧ Reg.ofOffset 0x400#11 = .pcache 0 ∧ Reg.ofOffset 0x7FC#11 = .pcache 255
      ∧ State.reset.inflight = none ∧ (0x7FC#11).toNat % 4 = 0 ∧ blockAtTag (held .ok 1 []) = none
      ∧ (0x7FF#11).toNat % 4 ≠ 0 ∧ AccessWidth.byte ≠ .word := by decide

/-- An idle machine and its next transaction: a parameter register, STATUS, CMD with a table's code and with the first and
the last reserved one. -/
theorem test_meets_idle_with_input :
    State.reset.inflight = none ∧ blockAtTag State.reset = none
      ∧ rd 0x7FC = .rd 0x7FC#11 .word ∧ (0x7FC#11).toNat % 4 = 0 ∧ State.reset.pcache[255] = none
      ∧ wr 0x004 0xFFFFFFFF = .wr ParamReg.ctrl.offset .word 0xFFFFFFFF#32 ∧ wr 0x00C 2 = .wr 0x00C#11 .word 2#32
      ∧ decode (.command 0x0A#32) = .instr .unbind ∧ Instr.wf .unbind = true
      ∧ 0x0B ≤ ((0x0B#32).extractLsb' 0 8).toNat ∧ 0x0B ≤ ((0xFFFFFFFF#32).extractLsb' 0 8).toNat := by decide

/-- A machine at a tag dispatch whose payload begins with a tag: the first and the last. -/
theorem test_meets_tag_dispatch :
    (∃ c, (atTag [0x00]).inflight = some c ∧ c.pos = .atTag ∧ (atTag [0x00]).readsPlain ⟨c.params.blkAddr.toNat, 1⟩
      ∧ decode (.tag ((atTag [0x00]).mem.read c.params.blkAddr.toNat)) = .instr .blkRle)
    ∧ ∃ c, (atTag [0x03]).inflight = some c ∧ c.pos = .atTag ∧ (atTag [0x03]).readsPlain ⟨c.params.blkAddr.toNat, 1⟩
      ∧ decode (.tag ((atTag [0x03]).mem.read c.params.blkAddr.toNat)) = .instr .blkHuffmanDirect :=
  ⟨⟨_, rfl, rfl, (plain rfl (by decide)).1, by decide⟩, ⟨_, rfl, rfl, (plain rfl (by decide)).1, by decide⟩⟩

/-- A busy machine, to which a command is written. -/
theorem test_meets_busy : encode .nop = .command 0#32 ∧ (held .ok 1 []).inflight.isSome = true := by decide

/-- A transaction while a completion is held, in its last step and with one step more: a command, a reserved code, a read of
STATUS, a write of it, of a reserved offset and of a parameter register. -/
theorem test_meets_held_with_input :
    ∀ x ∈ [wr 0x008 9, wr 0x008 0x0B, rd 0x00C, wr 0x00C 6, wr 0x088 1, wr 0x084 7],
      (held .ok (0 + 1) [x]).inputs = [x] ∧ (held .ok (1 + 1) [x]).inputs = [x]
      ∧ (∃ c, (held .ok (0 + 1) [x]).inflight = some c ∧ c.pos = .held .ok (0 + 1))
      ∧ ∃ c, (held .ok (1 + 1) [x]).inflight = some c ∧ c.pos = .held .ok (1 + 1) :=
  fun _ _ => ⟨rfl, rfl, ⟨_, rfl, rfl⟩, ⟨_, rfl, rfl⟩⟩

/-- With a CMD_LATENCY of 1: a command with a clause, DECODE_BLOCK that comes to its tag, and one that is turned away. -/
theorem test_meets_acceptance :
    ∃ p : Platform, p.cmdLatency ≠ 0
      ∧ encode .huffBuild = .command 5#32 ∧ (∃ t, exec .huffBuild { State.reset with platform := p } = .next t)
      ∧ encode .decodeBlock = .command 2#32 ∧ (∃ t, exec .decodeBlock { State.reset with platform := p } = .next t)
      ∧ ∃ t, exec .decodeBlock { bound [0x00] with platform := p } = .next t :=
  ⟨{ Platform.atReset with cmdLatency := 1 }, by decide, rfl, ⟨_, rfl⟩, rfl, ⟨_, rfl⟩, ⟨_, rfl⟩⟩

/-- A held completion in its last step, and one with more to go. -/
theorem test_meets_held_completion :
    (∃ c, (held .badCode 1 []).inflight = some c ∧ c.pos = .held .badCode 1 ∧ c.op ≠ 0x02#8 ∧ c.op ≠ 0x05#8
      ∧ c.r0 < 2 ^ 32 ∧ c.r1 < 2 ^ 32 ∧ c.r2 < 2 ^ 32)
    ∧ (∃ c, (held .ok 3 []).inflight = some c ∧ c.pos = .held .ok (2 + 1)) ∧ (held .ok 3 []).inputs = []
    ∧ ∃ c, (held .ok 2 [wr 0x084 7]).inflight = some c ∧ c.pos = .held .ok (0 + 2)
      ∧ (held .ok 2 [wr 0x084 7]).inputs = [.wr ParamReg.palIdx.offset .word 7#32] :=
  ⟨⟨_, rfl, rfl, by decide, by decide, by decide, by decide, by decide⟩, ⟨_, rfl, rfl⟩, rfl, ⟨_, rfl, rfl, rfl⟩⟩

/-- A host store to a written and to a read byte, and a host load of a written one: the last byte of each region. -/
theorem test_meets_host_access_in_flight :
    ∃ c, (held .ok 1 []).inflight = some c ∧ c.pos = .held .ok 1
      ∧ (∃ r ∈ c.writes, r.has (0x2000#32).toNat = true) ∧ (∃ r ∈ c.reads, r.has (0x1001#32).toNat = true)
      ∧ ((held .ok 1 []).readsPlain ⟨(0x2000#32).toNat, 1⟩ ∧ (held .ok 1 []).writesPlain ⟨(0x2000#32).toNat, 1⟩)
      ∧ (held .ok 1 []).readsPlain ⟨(0x1001#32).toNat, 1⟩ ∧ (held .ok 1 []).writesPlain ⟨(0x1001#32).toNat, 1⟩ :=
  ⟨_, rfl, rfl, by decide, by decide, plain rfl (by decide), plain rfl (by decide)⟩

/-- An idle machine and an ordinary byte: address 0 and the last one below the register block. -/
theorem test_meets_host_store :
    State.reset.inflight = none
      ∧ (State.reset.readsPlain ⟨(0#32).toNat, 1⟩ ∧ State.reset.writesPlain ⟨(0#32).toNat, 1⟩)
      ∧ State.reset.readsPlain ⟨(0x3FFFFFFF#32).toNat, 1⟩ ∧ State.reset.writesPlain ⟨(0x3FFFFFFF#32).toNat, 1⟩ :=
  ⟨rfl, plain rfl (by decide), plain rfl (by decide)⟩

/-- A legal frame whose one block is as tall as allowed and whose palette ends at 2^32 (BF10). -/
theorem test_meets_legal_frame :
    Frame.legal { depth := 8#8, w := 4#16, h := 4#16, count := 1#16, blkH := 4#16, palAddr := 0xFFFFFC00#32 }
      ∧ Frame.legal { depth := 24#8, w := 4#16, h := 10#16, count := 3#16, blkH := 4#16, palAddr := 0xFFFFFFFF#32 }
      ∧ Params.frame { frameFmt := 8#32, frameSize := 0x00040004#32, blkGeom := 0x00040001#32, palAddr := 0xFFFFFC00#32 }
        = { depth := 8#8, w := 4#16, h := 4#16, count := 1#16, blkH := 4#16, palAddr := 0xFFFFFC00#32 } :=
  ⟨⟨by decide, by decide, by decide, .inr (by decide)⟩, ⟨by decide, by decide, by decide, .inl rfl⟩, by decide⟩

/-- Illegal frames: a final block one row too tall (BF7), and a palette one byte past the space (BF9). -/
theorem test_meets_illegal_frame :
    ¬ Frame.legal { depth := 8#8, w := 4#16, h := 10#16, count := 1#16, blkH := 9#16, palAddr := 0x5000#32 }
      ∧ ¬ Frame.legal { depth := 8#8, w := 4#16, h := 10#16, count := 3#16, blkH := 4#16, palAddr := 0xFFFFFC01#32 } :=
  ⟨fun h => absurd h.last (by decide), fun h => absurd h.palette (by decide)⟩

/-- Unbound, as at reset; with no held tree; and with a payload of tag 1 whose end is SCR's beginning. -/
theorem test_meets_unbound :
    State.reset.inflight = none ∧ State.reset.frameBound = false ∧ State.reset.treeValid = false
      ∧ regionsClash (decodeKnown State.reset {}).1 (decodeKnown State.reset {}).2 = false
      ∧ ∃ s : State, s.frameBound = false ∧ s.mem.read s.params.blkAddr.toNat = 0x01#8
        ∧ s.params.scrAddr = s.params.blkAddr + s.params.blkLen
        ∧ regionsClash (decodeKnown s s.params).1 (decodeKnown s s.params).2 = false :=
  ⟨rfl, rfl, rfl, by decide, { bound [0x01] with frameBound := false, params := { faParams 1 with scrAddr := 0x6001#32 } }, rfl,
    by decide, rfl, by decide⟩

/-- A bound frame and its last block, with DBUF empty, and with DBUF holding another block. -/
theorem test_meets_missing_block :
    (bound []).inflight = none ∧ (bound []).frameBound = true
      ∧ (bound []).params.index.toNat < (bound []).frame.count.toNat ∧ (bound []).dbufValid = false
      ∧ regionsClash (compositeReads (bound []).frame (bound []).params) [(bound []).params.destRegion] = false
      ∧ ∃ s : State, s.frameBound = true ∧ s.params.index.toNat + 1 = s.frame.count.toNat ∧ s.dbufValid = true
        ∧ s.dbufBlock ≠ s.params.index.zeroExtend 32
        ∧ regionsClash (compositeReads s.frame s.params) [s.params.destRegion] = false :=
  ⟨rfl, rfl, by decide, rfl, by decide, { atJpeg with inflight := none, dbufValid := true, dbufBlock := 0#32 }, rfl, by decide, rfl,
    by decide, by decide⟩

/-- Regions that pass 2^32 by one byte, with a held tree; an empty payload; an index past the frame; and a payload of tag 0
that ends where DBUF's block, which passes 2^32, begins. -/
theorem test_meets_failed_preconditions :
    ∃ s : State, s.inflight = none ∧ s.frameBound = true ∧ s.treeValid = true ∧ s.frame.count.toNat = s.params.index.toNat
      ∧ s.params.blkLen = 0#32 ∧ s.params.dbufRegion.fits = false ∧ s.params.inRegion.fits = true
      ∧ s.params.outRegion.fits = false ∧ s.params.outRegion.base + s.params.outRegion.len = spaceSize + 1
      ∧ s.params.tblRegion.fits = false ∧ regionsClash [s.params.inRegion] [s.params.outRegion] = false
      ∧ regionsClash (paletteReads s.frame) [s.params.destRegion] = false
      ∧ regionsClash (decodeKnown s s.params).1 (decodeKnown s s.params).2 = false
      ∧ ∃ t : State, t.inflight = none ∧ blockNamed t t.params = true ∧ t.mem.read t.params.blkAddr.toNat = 0x00#8
        ∧ t.params.blkAddr + t.params.blkLen = t.params.dbufAddr ∧ t.params.dbufRegion.fits = false
        ∧ regionsClash (decodeKnown t t.params).1 (decodeKnown t t.params).2 = false :=
  ⟨{ bound [] with
      treeValid := true
      params := { blkIndex := 1#32, dbufAddr := 0xFFFFFFFF#32, dbufCap := 2#32, outAddr := 0xFFFFFFFF#32, outCap := 2#32
                  tblAddr := 0xFFFFFFFF#32, tblLen := 2#32 } },
    rfl, rfl, rfl, by decide, rfl, by decide, by decide, by decide, by decide, by decide, by decide, by decide, by decide,
    { bound [] with params := { blkAddr := 0xFFFFFFFE#32, blkLen := 1#32, dbufAddr := 0xFFFFFFFF#32, dbufCap := 2#32 } }, rfl,
    by decide, by decide, rfl, by decide, by decide⟩

/-- CV15: the block decoded, DBUF's block or DEST passing 2^32 by one byte; tag 1 with SCR passing it by one; and TREE_PAD 1
with no input. -/
theorem test_meets_failed_regions :
    (∃ s : State, s.inflight = none ∧ s.frameBound = true ∧ s.params.index.toNat < s.frame.count.toNat ∧ s.dbufValid = true
      ∧ s.dbufBlock = s.params.index.zeroExtend 32
      ∧ s.params.dbufAddr.toNat + s.frame.blockSize s.params.index.toNat = spaceSize + 1
      ∧ Region.fits ⟨s.params.dbufAddr.toNat, s.frame.blockSize s.params.index.toNat⟩ = false
      ∧ regionsClash (compositeReads s.frame s.params) [s.params.destRegion] = false)
    ∧ (∃ s : State, s.inflight = none ∧ s.frameBound = true ∧ s.params.index.toNat < s.frame.count.toNat ∧ s.dbufValid = true
      ∧ s.dbufBlock = s.params.index.zeroExtend 32
      ∧ s.params.destAddr.toNat + 2 * s.params.stride * s.params.rows = spaceSize + 1 ∧ s.params.destRegion.fits = false
      ∧ regionsClash (compositeReads s.frame s.params) [s.params.destRegion] = false)
    ∧ (∃ (s : State) (p : Params), s.inflight = some { op := 0x02#8, params := p } ∧ indexedDepth s.frame.depth = true
      ∧ s.frame.blockSize p.index.toNat = p.dbufCap.toNat ∧ p.scrAddr.toNat + p.scrCap.toNat = spaceSize + 1
      ∧ p.scrRegion.fits = false
      ∧ regionsClash [p.blkRegion] [p.scrRegion, ⟨p.dbufAddr.toNat, s.frame.blockSize p.index.toNat⟩] = false)
    ∧ ∃ s : State, s.inflight = none ∧ s.treeValid = true ∧ s.params.inRegion.fits = true ∧ s.params.outRegion.fits = true
      ∧ 8 * s.params.inLen.toNat + 1 = s.treePad.toNat
      ∧ regionsClash [s.params.inRegion] [s.params.outRegion] = false :=
  ⟨⟨{ drawn 0 0 with params := { fcParams 0 0 with dbufAddr := 0xFFFFFFF9#32 } }, rfl, rfl, by decide, rfl, by decide, by decide,
      by decide, by decide⟩,
    ⟨{ drawn 0 0 with params := { fcParams 0 0 with destAddr := 0xFFFFFFED#32 } }, rfl, rfl, by decide, rfl, by decide, by decide,
      by decide, by decide⟩,
    ⟨{ atTag [0x01] with inflight := some { op := 0x02#8, params := { faParams 1 with scrAddr := 0xFFFFFFF1#32 } } }, _, rfl,
      by decide, by decide, by decide, by decide, by decide⟩,
    ⟨{ treeMachine 0 16 [] with treePad := 1#3 }, rfl, rfl, by decide, by decide, by decide, by decide⟩⟩

/-- The index just past the last block. -/
theorem test_meets_mark_past_end :
    ∃ s : State, s.inflight = none ∧ s.frameBound = true ∧ s.params.index.toNat = s.frame.count.toNat :=
  ⟨{ bound [] with params := { blkIndex := 1#32 } }, rfl, rfl, by decide⟩

/-- RLE_EXPAND into an output that its expansion just fills (RL1 with OUT_CAP 5). -/
theorem test_meets_rle_expand :
    ∃ (s : State) (pairs : List (Byte × Byte)),
      s.inflight = none ∧ s.params.inRegion.fits = true ∧ s.params.outRegion.fits = true
      ∧ regionsClash [s.params.inRegion] [s.params.outRegion] = false
      ∧ s.readsPlain s.params.inRegion ∧ s.writesPlain s.params.outRegion
      ∧ s.params.inLen.toNat = 2 * pairs.length
      ∧ s.mem.bytes s.params.inAddr.toNat s.params.inLen.toNat = pairBytes pairs
      ∧ (expanded pairs).length = s.params.outCap.toNat :=
  ⟨rleMachine 6 5 [0x03, 0x41, 0x00, 0x7F, 0x02, 0x42], [(3#8, 0x41#8), (0#8, 0x7F#8), (2#8, 0x42#8)], rfl, by decide, by decide,
    by decide, (plain rfl (by decide)).1, (plain rfl (by decide)).2, by decide, by decide, by decide⟩

/-- The same with one byte less of room: the last pair overflows. -/
theorem test_meets_rle_overflow :
    ∃ (s : State) (front back : List (Byte × Byte)) (pair : Byte × Byte),
      s.inflight = none ∧ s.params.inRegion.fits = true ∧ s.params.outRegion.fits = true
      ∧ regionsClash [s.params.inRegion] [s.params.outRegion] = false
      ∧ s.readsPlain s.params.inRegion ∧ s.writesPlain s.params.outRegion
      ∧ s.params.inLen.toNat = 2 * (front ++ pair :: back).length
      ∧ s.mem.bytes s.params.inAddr.toNat s.params.inLen.toNat = pairBytes (front ++ pair :: back)
      ∧ (expanded front).length ≤ s.params.outCap.toNat
      ∧ s.params.outCap.toNat + 1 = (expanded front).length + pair.1.toNat :=
  ⟨rleMachine 6 4 [0x03, 0x41, 0x00, 0x7F, 0x02, 0x42], [(3#8, 0x41#8), (0#8, 0x7F#8)], [], (2#8, 0x42#8), rfl, by decide,
    by decide, by decide, (plain rfl (by decide)).1, (plain rfl (by decide)).2, by decide, by decide, by decide, by decide⟩

/-- An odd input, its output beginning just past it. -/
theorem test_meets_rle_odd :
    ∃ s : State, s.inflight = none ∧ s.params.inRegion.fits = true ∧ s.params.outRegion.fits = true
      ∧ regionsClash [s.params.inRegion] [s.params.outRegion] = false ∧ s.params.inLen.toNat % 2 = 1 :=
  ⟨machine { inLen := 1#32, outAddr := 1#32, outCap := 1#32 } [], rfl, by decide, by decide, by decide, by decide⟩

/-- Regions that share one byte: of an even input, of an odd one, and of regions that pass 2^32. -/
theorem test_meets_overlap :
    ∀ c ∈ [(2, 0, 1), (3, 0, 2), (3, 0xFFFFFFFE, 0x100000000)],
      ∃ s : State, s.inflight = none ∧ s.params.inLen.toNat = c.1 ∧ s.params.inAddr.toNat = c.2.1
        ∧ s.params.inRegion.has c.2.2 = true ∧ s.params.outRegion.has c.2.2 = true := by
  intro c hc
  simp only [List.mem_cons, List.not_mem_nil, or_false] at hc
  rcases hc with rfl | rfl | rfl
  · exact ⟨machine { inLen := 2#32, outAddr := 1#32, outCap := 1#32 } [], rfl, rfl, rfl, by decide, by decide⟩
  · exact ⟨machine { inLen := 3#32, outAddr := 2#32, outCap := 1#32 } [], rfl, rfl, rfl, by decide, by decide⟩
  · exact ⟨machine { inAddr := 0xFFFFFFFE#32, inLen := 3#32, outAddr := 0xFFFFFFFF#32, outCap := 2#32 } [], rfl, rfl, rfl, by decide,
      by decide⟩

/-- COMPOSITE whose destination shares its last byte with the block's first, and, at depth 8, its first with the palette's
last. -/
theorem test_meets_composite_overlap :
    ∀ s ∈ [{ drawn 0 0 with params := { fcParams 0 0 with destAddr := 0x6FED#32 } },
        { drawn 0 0 with frame := { fc with depth := 8#8 }, params := { fcParams 0 0 with destAddr := 0x53FF#32 } }],
      s.inflight = none ∧ s.frameBound = true ∧ s.params.index.toNat < s.frame.count.toNat ∧ s.dbufValid = true
      ∧ s.dbufBlock = s.params.index.zeroExtend 32
      ∧ Region.fits ⟨s.params.dbufAddr.toNat, s.frame.blockSize s.params.index.toNat⟩ = true
      ∧ s.params.destRegion.fits = true ∧ s.drawing.empty = false
      ∧ ((s.params.destRegion.has 0x7000 = true
          ∧ Region.has ⟨s.params.dbufAddr.toNat, s.frame.blockSize s.params.index.toNat⟩ 0x7000 = true)
        ∨ (s.params.destRegion.has 0x53FF = true ∧ indexedDepth s.frame.depth = true ∧ s.frame.palRegion.has 0x53FF = true)) := by
  decide

/-- COMPOSITE of a block past the frame at depth 8, its destination's first byte the palette's last; the command is refused. -/
theorem test_meets_palette_overlap :
    ∃ s : State, s.inflight = none ∧ s.frameBound = true ∧ s.params.index.toNat = s.frame.count.toNat
      ∧ indexedDepth s.frame.depth = true ∧ s.params.destRegion.has 0x53FF = true ∧ s.frame.palRegion.has 0x53FF = true
      ∧ exec .composite s = .refused .regionOverlap :=
  ⟨{ drawn 0 0 with
      frame := { fc with depth := 8#8 }, params := { fcParams 0 0 with blkIndex := 1#32, destAddr := 0x53FF#32 } },
    rfl, rfl, by decide, by decide, by decide, by decide, rfl⟩

/-- A payload of two bytes, its last the first of the block in DBUF, whose capacity passes 2^32. -/
def clashing (tag : Nat) : State :=
  { bound [tag, 0] with params := { faParams 2 with dbufAddr := 0x6001#32, dbufCap := 0xFFFFFFFF#32 } }

/-- A DECODE_BLOCK that fails its first checks and whose regions share one byte, at tags 0, 1 and 3 with DBUF's capacity
passing 2^32, and at tag 1 unbound; the command is refused. -/
theorem test_meets_decode_overlap :
    (∀ tag ∈ [0, 1, 3], ∃ s : State, s.inflight = none ∧ s.params.blkLen ≠ 0#32
      ∧ s.mem.read s.params.blkAddr.toNat = BitVec.ofNat 8 tag ∧ s.frameBound = true
      ∧ s.params.index.toNat < s.frame.count.toNat ∧ s.params.dbufRegion.fits = false ∧ s.params.blkRegion.has 0x6001 = true
      ∧ Region.has ⟨s.params.dbufAddr.toNat, s.frame.blockSize s.params.index.toNat⟩ 0x6001 = true
      ∧ exec .decodeBlock s = .refused .regionOverlap)
    ∧ ∃ s : State, s.inflight = none ∧ s.mem.read s.params.blkAddr.toNat = 0x01#8 ∧ s.frameBound = false
      ∧ s.params.blkRegion.has 0x6001 = true ∧ s.params.scrRegion.has 0x6001 = true
      ∧ exec .decodeBlock s = .refused .regionOverlap := by
  refine ⟨fun tag h => ?_, { bound [1, 0] with frameBound := false, params := { faParams 2 with scrAddr := 0x6001#32 } }, rfl,
    by decide, rfl, by decide, by decide, rfl⟩
  simp only [List.mem_cons, List.not_mem_nil, or_false] at h
  rcases h with rfl | rfl | rfl
  · exact ⟨clashing 0, rfl, by decide, rfl, rfl, by decide, by decide, by decide, by decide, rfl⟩
  · exact ⟨clashing 1, rfl, by decide, rfl, rfl, by decide, by decide, by decide, by decide, rfl⟩
  · exact ⟨clashing 3, rfl, by decide, rfl, rfl, by decide, by decide, by decide, by decide, rfl⟩

/-- A tag whose payload's last byte is the block's first, one whose payload's last byte is SCR's first, and one whose SCR's
last byte is the block's first. -/
theorem test_meets_tag_overlap :
    ∀ p ∈ [{ faParams 5 with dbufAddr := 0x6004#32 }, { faParams 5 with scrAddr := 0x6004#32 },
        { faParams 5 with scrAddr := 0x6FF1#32 }],
      indexedDepth fa.depth = true ∧ fa.blockSize p.index.toNat ≤ p.dbufCap.toNat ∧ p.scrRegion.fits = true
      ∧ ((p.blkRegion.has 0x6004 = true ∧ Region.has ⟨p.dbufAddr.toNat, fa.blockSize p.index.toNat⟩ 0x6004 = true)
        ∨ (p.scrRegion.has 0x6004 = true ∧ p.blkRegion.has 0x6004 = true)
        ∨ (p.scrRegion.has 0x7000 = true ∧ Region.has ⟨p.dbufAddr.toNat, fa.blockSize p.index.toNat⟩ 0x7000 = true)) := by
  decide

/-- The platform of `State.reset` but for one byte, whose writes it refuses. -/
def refusing (a : Nat) : Platform := { Platform.atReset with refusedWrites := [⟨a, 1⟩] }

/-- Memory refuses the second output byte of RLE_EXPAND. -/
theorem test_meets_refused_byte :
    ∃ (s : State) (pairs : List (Byte × Byte)),
      s.inflight = none ∧ s.params.inRegion.fits = true ∧ s.params.outRegion.fits = true
      ∧ regionsClash [s.params.inRegion] [s.params.outRegion] = false
      ∧ s.readsPlain s.params.inRegion ∧ s.params.inLen.toNat = 2 * pairs.length
      ∧ s.mem.bytes s.params.inAddr.toNat s.params.inLen.toNat = pairBytes pairs
      ∧ (expanded pairs).length ≤ s.params.outCap.toNat ∧ 1 < (expanded pairs).length
      ∧ s.writesPlain ⟨s.params.outAddr.toNat, 1⟩ ∧ s.platform.answersWrite (s.params.outAddr.toNat + 1) = false := by
  refine ⟨{ rleMachine 2 2 [0x02, 0x41] with platform := refusing 0x2001 }, [(2#8, 0x41#8)], rfl, by decide, by decide, by decide,
    fun a ha => ?_, by decide, by decide, by decide, by decide, fun a ha => ?_, by decide⟩
  · have h : a = 0x1000 ∨ a = 0x1001 := by
      simp [Region.has, rleMachine, machine, Params.inRegion] at ha; omega
    rcases h with rfl | rfl <;> decide
  · have h : a = 0x2000 := by
      simp [Region.has, rleMachine, machine] at ha; omega
    subst h; decide

/-! #### Huffman -/

theorem book_prefixFree : CodeBook.prefixFree book := by
  unfold CodeBook.prefixFree codesClash; decide

theorem tableHolds_book : tableHolds (huffMachine 2 6 [0x4F, 0x00]).mem 0x3000 10 book 1 := by
  simp only [book, tableHolds]; decide

/-- HB1: a table of three codes, in a node store that its five nodes do not fill; the stream of HD1, six values, into six
bytes. -/
theorem test_meets_huff_build_and_round_trip :
    ∃ (s t1 : State) (book : CodeBook) (msg : Message),
      s.inflight = none ∧ s.params.tblRegion.fits = true ∧ s.readsPlain s.params.tblRegion ∧ 0 < s.params.tblLen.toNat
      ∧ (s.mem.read s.params.tblAddr.toNat).toNat = 7
      ∧ tableHolds s.mem s.params.tblAddr.toNat s.params.tblLen.toNat book 1
      ∧ book.prefixFree ∧ book.nodes ≤ s.platform.nodeCap
      ∧ s.params.inRegion.fits = true ∧ s.params.outRegion.fits = true
      ∧ regionsClash [s.params.inRegion] [s.params.outRegion] = false
      ∧ s.readsPlain s.params.inRegion ∧ s.writesPlain s.params.outRegion
      ∧ (∀ e ∈ msg, (e.2, e.1) ∈ book)
      ∧ (s.mem.read s.params.tblAddr.toNat).toNat ≤ 8 * s.params.inLen.toNat
      ∧ s.mem.bits s.params.inAddr.toNat (8 * s.params.inLen.toNat - (s.mem.read s.params.tblAddr.toNat).toNat) = msg.bits
      ∧ msg.length = s.params.outCap.toNat ∧ exec .huffBuild s = .next t1 :=
  ⟨huffMachine 2 6 [0x4F, 0x00], _, book, msg, rfl, by decide, (plain rfl (by decide)).1, by decide, by decide, tableHolds_book,
    book_prefixFree, by decide, by decide, by decide, by decide, (plain rfl (by decide)).1, (plain rfl (by decide)).2, by decide,
    by decide, by decide, by decide, rfl⟩

/-- HB7: the second code, "0", is a prefix of the first, "00"; the table ends with it. -/
theorem test_meets_clashing_code :
    ∃ (s : State) (book : CodeBook) (p : Nat) (code : Byte × List Bool),
      s.inflight = none ∧ s.params.tblRegion.fits = true ∧ s.readsPlain s.params.tblRegion
      ∧ (s.mem.read s.params.tblAddr.toNat).toNat ≤ 7
      ∧ tableHolds s.mem s.params.tblAddr.toNat p book 1
      ∧ tableHolds s.mem s.params.tblAddr.toNat (p + 2 + codeBytes code.2.length) [code] p
      ∧ p < s.params.tblLen.toNat ∧ p + 2 + codeBytes code.2.length = s.params.tblLen.toNat
      ∧ book.prefixFree ∧ book.nodes ≤ s.platform.nodeCap ∧ ∃ e ∈ book, codesClash e.2 code.2 := by
  refine ⟨machine { tblAddr := 0x3000#32, tblLen := 7#32 } (put [] 0x3000 [0x00, 0x41, 0x02, 0x00, 0x42, 0x01, 0x00]),
    [(0x41#8, [false, false])], 4, (0x42#8, [false]), rfl, by decide, (plain rfl (by decide)).1, by decide, ?_, ?_, by decide,
    by decide, ?_, by decide, ?_⟩
  · simp only [tableHolds]; decide
  · simp only [tableHolds]; decide
  · unfold CodeBook.prefixFree codesClash; decide
  · unfold codesClash; decide

/-- HB2 and HB3: no PAD byte, and a PAD of 8. -/
theorem test_meets_bad_pad :
    (∃ s : State, s.inflight = none ∧ s.params.tblRegion.fits = true ∧ s.params.tblLen = 0#32)
    ∧ ∃ s : State, s.inflight = none ∧ s.params.tblRegion.fits = true ∧ s.params.tblLen ≠ 0#32
      ∧ s.readsPlain ⟨s.params.tblAddr.toNat, 1⟩ ∧ (s.mem.read s.params.tblAddr.toNat).toNat = 8 :=
  ⟨⟨machine { tblAddr := 0x3000#32 } [], rfl, by decide, rfl⟩,
    ⟨machine { tblAddr := 0x3000#32, tblLen := 1#32 } (put [] 0x3000 [0x08]), rfl, by decide, by decide, (plain rfl (by decide)).1,
      by decide⟩⟩

/-- One code and then a triple of one byte, of length 0, and of 9 bits with one byte of code. -/
theorem test_meets_bad_triple :
    ∀ bytes ∈ [[0x42], [0x42, 0x00], [0x42, 0x09, 0x00]], ∃ (s : State) (book : CodeBook) (p : Nat),
      s.inflight = none ∧ s.params.tblRegion.fits = true ∧ s.readsPlain s.params.tblRegion
      ∧ (s.mem.read s.params.tblAddr.toNat).toNat ≤ 7
      ∧ tableHolds s.mem s.params.tblAddr.toNat p book 1 ∧ p + bytes.length = s.params.tblLen.toNat
      ∧ book.prefixFree ∧ book.nodes ≤ s.platform.nodeCap
      ∧ (s.params.tblLen.toNat < p + 2 ∨ s.mem.read (s.params.tblAddr.toNat + p + 1) = 0#8
        ∨ s.params.tblLen.toNat < p + 2 + codeBytes (s.mem.read (s.params.tblAddr.toNat + p + 1)).toNat) := by
  intro bytes hb
  refine ⟨machine { tblAddr := 0x3000#32, tblLen := BitVec.ofNat 32 (4 + bytes.length) }
      (put [] 0x3000 ([0x00, 0x41, 0x02, 0x00] ++ bytes)), [(0x41#8, [false, false])], 4, rfl, ?_⟩
  simp only [List.mem_cons, List.not_mem_nil, or_false] at hb
  rcases hb with rfl | rfl | rfl <;>
    refine ⟨by decide, (plain rfl (by decide)).1, by decide, ?_, by decide, ?_, by decide, by decide⟩ <;>
    first
      | (simp only [tableHolds]; decide)
      | (unfold CodeBook.prefixFree codesClash; decide)

/-- HB13: two codes of 255 bits that fill the node store of 511, and a third of two bits. -/
def fullBook : CodeBook := [(0x41#8, List.replicate 255 false), (0x42#8, true :: List.replicate 254 false)]
def fullTable : List Nat :=
  [0x00, 0x41, 0xFF] ++ List.replicate 32 0x00 ++ ([0x42, 0xFF, 0x40] ++ List.replicate 31 0x00) ++ [0x43, 0x02, 0x01]

/-- The tree an insertion leaves. -/
def grown : Inserted → Tree
  | .done t _ => t
  | .conflict | .full _ => .absent

theorem fullBook_nodes : fullBook.nodes = 511 ∧ CodeBook.nodes (fullBook ++ [(0x43#8, [false, true])]) = 512 := by
  have h1 : Tree.root.insert 0x41#8 (List.replicate 255 false) 510
      = .done (grown (Tree.root.insert 0x41#8 (List.replicate 255 false) 510)) 255 := by decide +kernel
  obtain ⟨b1, s1⟩ := Tree.root_ofBook.grown h1
  generalize ht1 : grown _ = t1 at b1 s1
  have h2 : t1.insert 0x42#8 (true :: List.replicate 254 false) 255
      = .done (grown (t1.insert 0x42#8 (true :: List.replicate 254 false) 255)) 255 := by subst ht1; decide +kernel
  obtain ⟨b2, s2⟩ := b1.grown h2
  generalize ht2 : grown _ = t2 at b2 s2
  have h3 : t2.insert 0x43#8 [false, true] 1 = .done (grown (t2.insert 0x43#8 [false, true] 1)) 1 := by
    subst ht2 ht1; decide +kernel
  obtain ⟨b3, s3⟩ := b2.grown h3
  have e0 : Tree.root.size = 1 := rfl
  exact ⟨b2.size_eq.symm.trans (by omega), b3.size_eq.symm.trans (by omega)⟩

/-- HB13: the third code needs a node that the store does not have. -/
theorem test_meets_full_store :
    ∃ (s : State) (book : CodeBook) (p : Nat) (code : Byte × List Bool),
      s.inflight = none ∧ s.params.tblRegion.fits = true ∧ s.readsPlain s.params.tblRegion
      ∧ (s.mem.read s.params.tblAddr.toNat).toNat ≤ 7
      ∧ tableHolds s.mem s.params.tblAddr.toNat p book 1 ∧ p < s.params.tblLen.toNat
      ∧ tableHolds s.mem s.params.tblAddr.toNat (p + 2 + codeBytes code.2.length) [code] p
      ∧ p + 2 + codeBytes code.2.length = s.params.tblLen.toNat
      ∧ book.prefixFree ∧ book.nodes = s.platform.nodeCap ∧ (∀ e ∈ book, ¬ codesClash e.2 code.2)
      ∧ CodeBook.nodes (book ++ [code]) = s.platform.nodeCap + 1 := by
  refine ⟨machine { tblAddr := 0x3000#32, tblLen := 72#32 } (put [] 0x3000 fullTable), fullBook, 69, (0x43#8, [false, true]), rfl,
    by decide, (plain rfl (by decide)).1, by decide, ?_, by decide, ?_, by decide, ?_, fullBook_nodes.1, ?_, fullBook_nodes.2⟩
  · simp only [tableHolds, fullBook]; decide +kernel
  · simp only [tableHolds]; decide +kernel
  · unfold CodeBook.prefixFree codesClash; decide +kernel
  · unfold codesClash; decide +kernel

theorem test_meets_built_tree :
    ∃ s t : State, s.inflight = none ∧ exec .huffBuild s = .next t ∧ t.settled.treeValid = true :=
  ⟨huffMachine 0 0 [], _, rfl, rfl, by decide +kernel⟩

theorem bookTree_spells : bookTree.spells msg := by unfold Tree.spells; decide

/-- What all the statements about HUFF_DECODE ask of the machine, at HB1's tree and HD1's stream, with room for six values
and for five. -/
theorem test_meets_huff_decode :
    ∀ s ∈ [treeMachine 2 6 [0x4F, 0x00], treeMachine 2 5 [0x4F, 0x00]],
      s.inflight = none ∧ s.treeValid = true ∧ s.params.inRegion.fits = true ∧ s.params.outRegion.fits = true
      ∧ regionsClash [s.params.inRegion] [s.params.outRegion] = false
      ∧ s.readsPlain s.params.inRegion ∧ s.writesPlain s.params.outRegion
      ∧ s.tree.spells msg ∧ s.treePad.toNat ≤ 8 * s.params.inLen.toNat
      ∧ s.mem.bits s.params.inAddr.toNat (8 * s.params.inLen.toNat - s.treePad.toNat) = msg.bits
      ∧ 5 ≤ s.params.outCap.toNat ∧ s.params.outCap.toNat ≤ 6 := by
  intro s hs
  rcases List.mem_cons.1 hs with rfl | hs
  · exact ⟨rfl, rfl, by decide, by decide, by decide, (plain rfl (by decide)).1, (plain rfl (by decide)).2, bookTree_spells,
      by decide, by decide, by decide, by decide⟩
  · obtain rfl := List.mem_singleton.1 hs
    exact ⟨rfl, rfl, by decide, by decide, by decide, (plain rfl (by decide)).1, (plain rfl (by decide)).2, bookTree_spells,
      by decide, by decide, by decide, by decide⟩

/-- HuffDecodeWritesTheMessage and LeafPastTheCapacityOverflows: six values, into six bytes and into five. -/
theorem test_meets_message_and_overflow :
    msg.length ≤ 6 ∧ ∃ extra rest, msg = msg.take 5 ++ [extra] ∧ (msg.take 5).length = 5
      ∧ msg.bits = Message.bits (msg.take 5) ++ extra.1 ++ rest :=
  ⟨by decide, ([false], 0x41#8), [], by decide, by decide, by decide⟩

/-- HD5 and HD6: a tree without "11", whose walk of the stream stands at an internal node where the child is absent, and
where the stream ends. -/
theorem test_meets_off_tree_and_truncated :
    ∃ (t : Tree) (front : Message) (part : List Bool), t.spells front ∧ part ≠ []
      ∧ (∃ c0 c1, t.follow part = .node c0 c1) ∧ t.follow (part ++ [true]) = .absent
      ∧ (∃ s : State, s.inflight = none ∧ s.treeValid = true ∧ s.tree = t ∧ s.treePad.toNat ≤ 8 * s.params.inLen.toNat
          ∧ s.params.inRegion.fits = true ∧ s.params.outRegion.fits = true
          ∧ regionsClash [s.params.inRegion] [s.params.outRegion] = false
          ∧ s.readsPlain s.params.inRegion ∧ s.writesPlain s.params.outRegion
          ∧ s.mem.bits s.params.inAddr.toNat (8 * s.params.inLen.toNat - s.treePad.toNat) = front.bits ++ part ++ true :: [true, true, false]
          ∧ front.length ≤ s.params.outCap.toNat)
      ∧ ∃ s : State, s.inflight = none ∧ s.treeValid = true ∧ s.tree = t ∧ s.treePad.toNat ≤ 8 * s.params.inLen.toNat
          ∧ s.params.inRegion.fits = true ∧ s.params.outRegion.fits = true
          ∧ regionsClash [s.params.inRegion] [s.params.outRegion] = false
          ∧ s.readsPlain s.params.inRegion ∧ s.writesPlain s.params.outRegion
          ∧ s.mem.bits s.params.inAddr.toNat (8 * s.params.inLen.toNat - s.treePad.toNat) = front.bits ++ part
          ∧ front.length ≤ s.params.outCap.toNat := by
  refine ⟨.node (.leaf 0x41#8) (.node (.leaf 0x42#8) .absent), msg.take 3, [true], by unfold Tree.spells; decide, by decide,
    ⟨_, _, rfl⟩, by decide, ?_, ?_⟩
  · exact ⟨{ treeMachine 2 3 [0x4F, 0x00] with tree := .node (.leaf 0x41#8) (.node (.leaf 0x42#8) .absent) }, rfl, rfl, rfl,
      by decide, by decide, by decide, by decide, (plain rfl (by decide)).1, (plain rfl (by decide)).2, by decide, by decide⟩
  · exact ⟨{ treeMachine 1 3 [0x4C] with tree := .node (.leaf 0x41#8) (.node (.leaf 0x42#8) .absent), treePad := 3#3 }, rfl, rfl,
      rfl, by decide, by decide, by decide, by decide, (plain rfl (by decide)).1, (plain rfl (by decide)).2, by decide, by decide⟩

/-! #### DECODE_BLOCK -/

theorem test_meets_decode_block :
    (bound [0x00]).inflight = none ∧ (bound [0x00]).frameBound = true
      ∧ (bound [0x00]).params.index.toNat + 1 = (bound [0x00]).frame.count.toNat ∧ (bound [0x00]).params.blkLen ≠ 0#32
      ∧ (bound [0x00]).params.blkRegion.fits = true ∧ (bound [0x00]).params.dbufRegion.fits = true := by decide

/-- DB2: an expansion that just fills the block. -/
theorem test_meets_rle_tag :
    ∃ (s : State) (p : Params) (pairs : List (Byte × Byte)),
      s.inflight = some { op := 0x02#8, params := p } ∧ indexedDepth s.frame.depth = true
      ∧ s.frame.blockSize p.index.toNat ≤ p.dbufCap.toNat ∧ p.blkRegion.fits = true ∧ p.dbufRegion.fits = true
      ∧ regionsClash [p.blkRegion] [⟨p.dbufAddr.toNat, s.frame.blockSize p.index.toNat⟩] = false
      ∧ s.readsPlain p.blkRegion ∧ s.writesPlain ⟨p.dbufAddr.toNat, s.frame.blockSize p.index.toNat⟩
      ∧ p.blkLen.toNat = 1 + 2 * pairs.length
      ∧ s.mem.bytes (p.blkAddr.toNat + 1) (2 * pairs.length) = pairBytes pairs
      ∧ (expanded pairs).length = s.frame.blockSize p.index.toNat :=
  ⟨atTag [0x00, 0x03, 0x07, 0x05, 0x09], faParams 5, [(3#8, 7#8), (5#8, 9#8)], rfl, by decide, by decide, by decide, by decide,
    by decide, (plain rfl (by decide)).1, (plain rfl (by decide)).2, by decide, by decide, by decide⟩

/-- A payload whose last pair is cut short. -/
theorem test_meets_odd_rle_tag :
    ∃ (s : State) (p : Params), s.inflight = some { op := 0x02#8, params := p } ∧ indexedDepth s.frame.depth = true
      ∧ s.frame.blockSize p.index.toNat ≤ p.dbufCap.toNat
      ∧ regionsClash [p.blkRegion] [⟨p.dbufAddr.toNat, s.frame.blockSize p.index.toNat⟩] = false
      ∧ p.blkLen ≠ 0#32 ∧ p.blkLen.toNat % 2 = 0 :=
  ⟨atTag [0x00, 0x03], faParams 2, rfl, by decide, by decide, by decide, by decide, by decide⟩

/-- The second pair passes the block by one byte, and the first does. -/
theorem test_meets_overflowing_rle_tag :
    ∀ c ∈ [([0x00, 0x03, 0x07, 0x06, 0x09], [(3#8, 7#8)], (6#8, 9#8)), ([0x00, 0x09, 0x07], [], (9#8, 7#8))],
      ∃ (s : State) (p : Params), s.inflight = some { op := 0x02#8, params := p } ∧ indexedDepth s.frame.depth = true
        ∧ s.frame.blockSize p.index.toNat ≤ p.dbufCap.toNat ∧ p.blkRegion.fits = true ∧ p.dbufRegion.fits = true
        ∧ regionsClash [p.blkRegion] [⟨p.dbufAddr.toNat, s.frame.blockSize p.index.toNat⟩] = false
        ∧ s.readsPlain p.blkRegion ∧ s.writesPlain ⟨p.dbufAddr.toNat, s.frame.blockSize p.index.toNat⟩
        ∧ p.blkLen.toNat = 1 + 2 * (c.2.1 ++ c.2.2 :: []).length
        ∧ s.mem.bytes (p.blkAddr.toNat + 1) (2 * (c.2.1 ++ c.2.2 :: []).length) = pairBytes (c.2.1 ++ c.2.2 :: [])
        ∧ (expanded c.2.1).length ≤ s.frame.blockSize p.index.toNat
        ∧ s.frame.blockSize p.index.toNat + 1 = (expanded c.2.1).length + c.2.2.1.toNat := by
  intro c hc
  simp only [List.mem_cons, List.not_mem_nil, or_false] at hc
  rcases hc with rfl | rfl
  · exact ⟨atTag [0x00, 0x03, 0x07, 0x06, 0x09], faParams 5, rfl, by decide, by decide, by decide, by decide, by decide,
      (plain rfl (by decide)).1, (plain rfl (by decide)).2, by decide, by decide, by decide, by decide⟩
  · exact ⟨atTag [0x00, 0x09, 0x07], faParams 3, rfl, by decide, by decide, by decide, by decide, by decide,
      (plain rfl (by decide)).1, (plain rfl (by decide)).2, by decide, by decide, by decide, by decide⟩

/-- P3's payload: four codes of two bits. -/
def p3 : List Nat := [0x01, 0x0D, 0x00, 0x00, 0x00, 0x02, 0x00, 0x01, 0x02, 0x01, 0x02, 0x02, 0x02, 0x06, 0x02, 0x03, 0x8D]
def p3Book : CodeBook :=
  [(0x00#8, [false, false]), (0x01#8, [false, true]), (0x02#8, [true, false]), (0x06#8, [true, true])]
def p3Message : Message :=
  [([true, false], 0x02#8), ([false, false], 0x00#8), ([true, true], 0x06#8), ([false, true], 0x01#8)]

theorem test_meets_huffman_tag :
    ∃ (s : State) (p : Params) (tlen : Nat) (book : CodeBook) (msg : Message) (pairs : List (Byte × Byte)),
      s.inflight = some { op := 0x02#8, params := p } ∧ indexedDepth s.frame.depth = true
      ∧ s.frame.blockSize p.index.toNat ≤ p.dbufCap.toNat ∧ p.blkRegion.fits = true ∧ p.dbufRegion.fits = true
      ∧ p.scrRegion.fits = true
      ∧ regionsClash [p.blkRegion] [p.scrRegion, ⟨p.dbufAddr.toNat, s.frame.blockSize p.index.toNat⟩] = false
      ∧ s.readsPlain p.blkRegion ∧ s.readsPlain p.scrRegion ∧ s.writesPlain p.scrRegion
      ∧ s.writesPlain ⟨p.dbufAddr.toNat, s.frame.blockSize p.index.toNat⟩
      ∧ s.mem.bytes (p.blkAddr.toNat + 1) 2 = [BitVec.ofNat 8 tlen, BitVec.ofNat 8 (tlen / 256)] ∧ tlen < 0x10000
      ∧ 0 < tlen ∧ 3 + tlen ≤ p.blkLen.toNat
      ∧ (s.mem.read (p.blkAddr.toNat + 3)).toNat ≤ 7
      ∧ tableHolds s.mem (p.blkAddr.toNat + 3) tlen book 1 ∧ book.prefixFree ∧ book.nodes ≤ s.platform.nodeCap
      ∧ (∀ e ∈ msg, (e.2, e.1) ∈ book)
      ∧ (s.mem.read (p.blkAddr.toNat + 3)).toNat ≤ 8 * (p.blkLen.toNat - 3 - tlen)
      ∧ s.mem.bits (p.blkAddr.toNat + 3 + tlen)
          (8 * (p.blkLen.toNat - 3 - tlen) - (s.mem.read (p.blkAddr.toNat + 3)).toNat) = msg.bits
      ∧ msg.length ≤ p.scrCap.toNat ∧ msg.values = pairBytes pairs
      ∧ (expanded pairs).length = s.frame.blockSize p.index.toNat := by
  refine ⟨atTag p3, faParams 17, 13, p3Book, p3Message, [(2#8, 0#8), (6#8, 1#8)], rfl, by decide, by decide, by decide, by decide,
    by decide, by decide, (plain rfl (by decide)).1, (plain rfl (by decide)).1, (plain rfl (by decide)).2, (plain rfl (by decide)).2,
    by decide, by decide, by decide, by decide, by decide, ?_, ?_, by decide, by decide, by decide, by decide, by decide, by decide,
    by decide⟩
  · simp only [p3Book, tableHolds]; decide
  · unfold CodeBook.prefixFree codesClash; decide

/-- DB14: one code of one bit, eight times. -/
theorem test_meets_huffman_direct_tag :
    ∃ (s : State) (p : Params) (tlen : Nat) (book : CodeBook) (msg : Message),
      s.inflight = some { op := 0x02#8, params := p } ∧ indexedDepth s.frame.depth = true
      ∧ s.frame.blockSize p.index.toNat ≤ p.dbufCap.toNat ∧ p.blkRegion.fits = true ∧ p.dbufRegion.fits = true
      ∧ regionsClash [p.blkRegion] [⟨p.dbufAddr.toNat, s.frame.blockSize p.index.toNat⟩] = false
      ∧ s.readsPlain p.blkRegion ∧ s.writesPlain ⟨p.dbufAddr.toNat, s.frame.blockSize p.index.toNat⟩
      ∧ s.mem.bytes (p.blkAddr.toNat + 1) 2 = [BitVec.ofNat 8 tlen, BitVec.ofNat 8 (tlen / 256)] ∧ tlen < 0x10000
      ∧ 0 < tlen ∧ 3 + tlen ≤ p.blkLen.toNat
      ∧ (s.mem.read (p.blkAddr.toNat + 3)).toNat ≤ 7
      ∧ tableHolds s.mem (p.blkAddr.toNat + 3) tlen book 1 ∧ book.prefixFree ∧ book.nodes ≤ s.platform.nodeCap
      ∧ (∀ e ∈ msg, (e.2, e.1) ∈ book)
      ∧ (s.mem.read (p.blkAddr.toNat + 3)).toNat ≤ 8 * (p.blkLen.toNat - 3 - tlen)
      ∧ s.mem.bits (p.blkAddr.toNat + 3 + tlen)
          (8 * (p.blkLen.toNat - 3 - tlen) - (s.mem.read (p.blkAddr.toNat + 3)).toNat) = msg.bits
      ∧ msg.length = s.frame.blockSize p.index.toNat := by
  refine ⟨atTag [0x03, 0x04, 0x00, 0x00, 0x05, 0x01, 0x00, 0x00], faParams 8, 4, [(5#8, [false])],
    List.replicate 8 ([false], 5#8), rfl, by decide, by decide, by decide, by decide, by decide, (plain rfl (by decide)).1,
    (plain rfl (by decide)).2, by decide, by decide, by decide, by decide, by decide, ?_, ?_, by decide, by decide, by decide,
    by decide, by decide⟩
  · simp only [tableHolds]; decide
  · unfold CodeBook.prefixFree codesClash; decide

/-- P3's table with streams of one pair and of none: expansions shorter than the block, one of them empty. -/
theorem test_meets_short_huffman_tag :
    ∀ c ∈ [(4, [0x80], p3Message.take 2, [(2#8, 0#8)]), (0, [], [], [])],
      let payload := p3.take 3 ++ [c.1] ++ (p3.drop 4).take 12 ++ c.2.1
      let s := atTag payload
      let p := faParams payload.length
      3 + 13 ≤ p.blkLen.toNat ∧ (s.mem.read (p.blkAddr.toNat + 3)).toNat ≤ 7
      ∧ (∀ e ∈ c.2.2.1, (e.2, e.1) ∈ p3Book)
      ∧ (s.mem.read (p.blkAddr.toNat + 3)).toNat ≤ 8 * (p.blkLen.toNat - 3 - 13)
      ∧ s.mem.bits (p.blkAddr.toNat + 3 + 13) (8 * (p.blkLen.toNat - 3 - 13) - (s.mem.read (p.blkAddr.toNat + 3)).toNat)
          = Message.bits c.2.2.1
      ∧ Message.values c.2.2.1 = pairBytes c.2.2.2 ∧ (expanded c.2.2.2).length < s.frame.blockSize p.index.toNat
      ∧ tableHolds s.mem (p.blkAddr.toNat + 3) 13 p3Book 1 := by
  intro c hc
  simp only [List.mem_cons, List.not_mem_nil, or_false] at hc
  rcases hc with rfl | rfl <;> simp only [p3Book, tableHolds] <;> decide

/-- DB15's payload with seven codes, and one with an empty stream. -/
theorem test_meets_short_direct_tag :
    ∀ c ∈ [([0x03, 0x04, 0x00, 0x01, 0x05, 0x01, 0x00, 0x00], 7), ([0x03, 0x04, 0x00, 0x00, 0x05, 0x01, 0x00], 0)],
      let s := atTag c.1
      let p := faParams c.1.length
      3 + 4 ≤ p.blkLen.toNat ∧ (s.mem.read (p.blkAddr.toNat + 3)).toNat ≤ 8 * (p.blkLen.toNat - 3 - 4)
      ∧ s.mem.bits (p.blkAddr.toNat + 3 + 4) (8 * (p.blkLen.toNat - 3 - 4) - (s.mem.read (p.blkAddr.toNat + 3)).toNat)
          = Message.bits (List.replicate c.2 ([false], 5#8))
      ∧ c.2 < s.frame.blockSize p.index.toNat
      ∧ tableHolds s.mem (p.blkAddr.toNat + 3) 4 [(5#8, [false])] 1 := by
  intro c hc
  simp only [List.mem_cons, List.not_mem_nil, or_false] at hc
  rcases hc with rfl | rfl <;> simp only [tableHolds] <;> decide

/-- Section headers that fail: a payload of two bytes, a table of length 0, and a table one byte longer than the payload; for
tags 1 and 3. -/
theorem test_meets_bad_section_header :
    ∀ c ∈ [([0x01, 0x00], 0), ([0x01, 0x00, 0x00, 0x00], 0), ([0x03, 0x02, 0x00, 0x00], 2)],
      ∃ (s : State) (p : Params), s.inflight = some { op := 0x02#8, params := p } ∧ indexedDepth s.frame.depth = true
      ∧ s.frame.blockSize p.index.toNat ≤ p.dbufCap.toNat ∧ p.scrRegion.fits = true
      ∧ regionsClash [p.blkRegion] [p.scrRegion, ⟨p.dbufAddr.toNat, s.frame.blockSize p.index.toNat⟩] = false
      ∧ regionsClash [p.blkRegion] [⟨p.dbufAddr.toNat, s.frame.blockSize p.index.toNat⟩] = false
      ∧ s.readsPlain p.blkRegion
      ∧ s.mem.bytes (p.blkAddr.toNat + 1) 2 = [BitVec.ofNat 8 c.2, BitVec.ofNat 8 (c.2 / 256)]
      ∧ (p.blkLen.toNat + 1 = 3 + c.2 ∨ c.2 = 0) := by
  intro c hc
  simp only [List.mem_cons, List.not_mem_nil, or_false] at hc
  rcases hc with rfl | rfl | rfl
  · exact ⟨atTag [0x01, 0x00], faParams 2, rfl, by decide, by decide, by decide, by decide, by decide, (plain rfl (by decide)).1,
      by decide, by decide⟩
  · exact ⟨atTag [0x01, 0x00, 0x00, 0x00], faParams 4, rfl, by decide, by decide, by decide, by decide, by decide,
      (plain rfl (by decide)).1, by decide, by decide⟩
  · exact ⟨atTag [0x03, 0x02, 0x00, 0x00], faParams 4, rfl, by decide, by decide, by decide, by decide, by decide,
      (plain rfl (by decide)).1, by decide, by decide⟩

/-- DJ1's block just fits DBUF. -/
theorem test_meets_jpeg_tag :
    atJpeg.inflight = some { op := 0x02#8, params := fjParams } ∧ atJpeg.frame.depth = 24#8
      ∧ atJpeg.frame.blockSize fjParams.index.toNat = fjParams.dbufCap.toNat := by decide

/-- Each rejected tag: the first and the last reserved one, JPEG at depth 8, RLE at depth 24; and each valid tag of a block
one byte too large for DBUF. -/
theorem test_meets_rejected_tags :
    ∀ c ∈ [(atTag [0x04], 0x04#8), (atTag [0xFF], 0xFF#8), (atTag [0x02], 0x02#8), ({ atTag [0x00] with frame := fj }, 0x00#8),
        ({ atTag [0x03] with inflight := some { op := 0x02#8, params := { faParams 1 with dbufCap := 7#32 } } }, 0x03#8),
        ({ atJpeg with inflight := some { op := 0x02#8, params := { fjParams with dbufCap := 7#32 } } }, 0x02#8)],
      ∃ p : Params, c.1.inflight = some { op := 0x02#8, params := p } ∧ c.1.readsPlain ⟨p.blkAddr.toNat, 1⟩
        ∧ c.1.mem.read p.blkAddr.toNat = c.2
        ∧ regionsClash (tagRegions c.2 c.1.frame p).1 (tagRegions c.2 c.1.frame p).2 = false
        ∧ ((4 ≤ c.2.toNat ∨ (c.2 = 0x02#8 ∧ c.1.frame.depth ≠ 24#8)
            ∨ (c.2.toNat < 4 ∧ c.2 ≠ 0x02#8 ∧ indexedDepth c.1.frame.depth = false))
          ∨ (((c.2 = 0x02#8 ∧ c.1.frame.depth = 24#8) ∨ (c.2.toNat < 4 ∧ c.2 ≠ 0x02#8 ∧ indexedDepth c.1.frame.depth = true))
            ∧ p.dbufCap.toNat + 1 = c.1.frame.blockSize p.index.toNat)) := by
  intro c hc
  simp only [List.mem_cons, List.not_mem_nil, or_false] at hc
  rcases hc with rfl | rfl | rfl | rfl | rfl | rfl <;>
    exact ⟨_, rfl, (plain rfl (by decide)).1, by decide, by decide, by decide⟩

/-- A tag byte that memory refuses. -/
theorem test_meets_refused_tag :
    ∃ (s : State) (p : Params), s.inflight = some { op := 0x02#8, params := p }
      ∧ s.platform.answersRead p.blkAddr.toNat = false :=
  ⟨{ atTag [0x00] with platform := { Platform.atReset with refusedReads := [⟨0x6000, 1⟩] } }, _, rfl, by decide⟩

/-- A held DECODE_BLOCK, for each of its three ends. -/
theorem test_meets_decode_clause :
    (∃ c : InFlight, c.pos = .held .ok 1 ∧ c.op = 0x02#8)
    ∧ (∃ c : InFlight, c.pos = .held .decodeOverflow 1 ∧ c.op = 0x02#8 ∧ c.wrote = true)
    ∧ ∃ c : InFlight, c.pos = .held .badTable 1 ∧ c.op = 0x02#8 ∧ c.wrote = false :=
  ⟨⟨{ op := 0x02#8, params := {}, pos := .held .ok 1 }, rfl, rfl⟩,
    ⟨{ op := 0x02#8, params := {}, pos := .held .decodeOverflow 1, wrote := true }, rfl, rfl, rfl⟩,
    ⟨{ op := 0x02#8, params := {}, pos := .held .badTable 1 }, rfl, rfl, rfl⟩⟩

/-! #### The compositor -/

/-- The last palette index of depth 4 and the first past it, and a frame of depth 24. -/
theorem test_meets_pal_resolve :
    (∃ s : State, s.inflight = none ∧ s.frameBound = true ∧ s.frame.depth ≠ 24#8
      ∧ s.params.palIndex.toNat + 1 = 2 ^ s.frame.depth.toNat
      ∧ s.readsPlain ⟨s.frame.palAddr.toNat + 4 * s.params.palIndex.toNat, 3⟩)
    ∧ (∃ s : State, s.inflight = none ∧ s.frameBound = true ∧ 2 ^ s.frame.depth.toNat = s.params.palIndex.toNat)
    ∧ ∃ s : State, s.inflight = none ∧ s.frameBound = true ∧ s.frame.depth = 24#8 :=
  ⟨⟨{ bound [] with frame := { fa with depth := 4#8 }, params := { palIdx := 15#32 } }, rfl, rfl, by decide, by decide,
      (plain rfl (by decide)).1⟩,
    ⟨{ bound [] with frame := { fa with depth := 4#8 }, params := { palIdx := 16#32 } }, rfl, rfl, by decide⟩,
    ⟨{ atJpeg with inflight := none }, rfl, rfl, by decide⟩⟩

/-- CV11, CV0 and CV2: drawing without a mirror, with one beside the block, and with one that overlaps it. -/
theorem drawn_canDraw : ∀ s ∈ [drawn 0 0, drawn 2 0, drawn 2 0xFFFC], s.canDraw ∧ s.drawing.empty = false := by
  intro s hs
  simp only [List.mem_cons, List.not_mem_nil, or_false] at hs
  rcases hs with rfl | rfl | rfl <;>
    refine ⟨⟨rfl, rfl, by decide, by decide, ⟨rfl, by decide⟩, by decide, by decide, by decide, fun r hr => ?_,
      (plain rfl (by decide)).2⟩, by decide⟩ <;>
    · have h : r ∈ [⟨0x7000, 8⟩] := hr
      obtain rfl := List.mem_singleton.1 h
      exact (plain rfl (by decide)).1

theorem test_meets_composite :
    ((drawn 0 0).canDraw ∧ (drawn 0 0).params.mirrorEn = false ∧ (drawn 0 0).drawing.empty = false)
    ∧ ((drawn 2 0).canDraw ∧ (drawn 2 0).params.mirrorEn = true ∧ (drawn 2 0).drawing.empty = false)
    ∧ ((drawn 2 0xFFFC).canDraw ∧ (drawn 2 0xFFFC).params.mirrorEn = true ∧ (drawn 2 0xFFFC).drawing.empty = false) :=
  ⟨⟨(drawn_canDraw _ (by simp)).1, by decide, by decide⟩, ⟨(drawn_canDraw _ (by simp)).1, by decide, by decide⟩,
    ⟨(drawn_canDraw _ (by simp)).1, by decide, by decide⟩⟩

/-- The same at depth 8, its cache unresolved. -/
theorem test_meets_composite_indexed :
    ∃ s : State, s.canDraw ∧ indexedDepth s.frame.depth = true ∧ s.params.mirrorEn = false ∧ s.drawing.empty = false := by
  refine ⟨{ drawn 0 0 with frame := { fc with depth := 8#8 } }, ?_, by decide, by decide, by decide⟩
  refine ⟨rfl, rfl, by decide, by decide, ⟨rfl, by decide⟩, by decide, by decide, by decide, ?_, (plain rfl (by decide)).2⟩
  intro r hr
  have h : r ∈ [⟨0x7000, 4⟩, ⟨0x5000, 1024⟩] := hr
  rcases List.mem_cons.1 h with rfl | h
  · exact (plain rfl (by decide)).1
  · obtain rfl := List.mem_singleton.1 h
    exact (plain rfl (by decide)).1

/-- CV13: the clip rectangle misses the block by one row. -/
theorem test_meets_empty_drawing :
    ∃ s : State, s.inflight = none ∧ s.frameBound = true ∧ s.params.index.toNat < s.frame.count.toNat ∧ s.dbufValid = true
      ∧ s.dbufBlock = s.params.index.zeroExtend 32
      ∧ Region.fits ⟨s.params.dbufAddr.toNat, s.frame.blockSize s.params.index.toNat⟩ = true
      ∧ s.params.destRegion.fits = true ∧ s.drawing.empty = true
      ∧ regionsClash (compositeReads s.frame s.params) [s.params.destRegion] = false :=
  ⟨{ drawn 2 0 with params := { fcParams 2 0 with clipMin := 0x00010000#32, clipMax := 0x00010009#32 } }, rfl, rfl, by decide, rfl,
    by decide, by decide, by decide, by decide, by decide⟩

/-! #### Whole-machine statements -/

/-- A COMPOSITE that ends with an error after it filled a slot. -/
theorem test_meets_failed_composite :
    drawRefused.inflight = none ∧ ∃ t, exec .composite drawRefused = .next t ∧ t.settled.err ≠ .ok ∧ t.result2 = 1#32 :=
  ⟨rfl, _, rfl, by decide +kernel, by decide +kernel⟩

/-- An instruction that answers a next state, and a byte outside its write regions; for a tag too. -/
theorem test_meets_frames :
    (∃ t, exec .rleExpand (rleMachine 2 2 [0x02, 0x41]) = .next t)
      ∧ (∀ r ∈ writeRegions .rleExpand (rleMachine 2 2 [0x02, 0x41]), r.has 0x2002 = false)
      ∧ (∃ t, exec .blkRle (atTag [0x00, 0x08, 0x05]) = .next t)
      ∧ ∀ r ∈ writeRegions .blkRle (atTag [0x00, 0x08, 0x05]), r.has 0x7008 = false :=
  ⟨⟨_, rfl⟩, by decide, ⟨_, rfl⟩, by decide⟩

/-- A step that changes ERR: a held completion, whose last step brings a write of STATUS too, a write of CMD, and a reset. -/
theorem test_meets_results_change :
    (∃ s t : State, step s = .next t ∧ t.err ≠ s.err ∧ s.busy = true ∧ t.busy = false ∧ s.inputs = [wr 0x00C 2])
      ∧ (∃ s t : State, step s = .next t ∧ t.err ≠ s.err ∧ s.busy = false ∧ s.inputs = [wr 0x008 0x0B])
      ∧ ∃ s t : State, step s = .next t ∧ t.err ≠ s.err ∧ s.inputs = [.reset] :=
  ⟨⟨held .badCode 1 [wr 0x00C 2], _, rfl, by decide, by decide, by decide, rfl⟩,
    ⟨{ State.reset with inputs := [wr 0x008 0x0B] }, _, rfl, by decide, by decide, rfl⟩,
    ⟨{ State.reset with err := .badCmd, inputs := [.reset] }, _, rfl, by decide, rfl⟩⟩

/-- A step that changes the cache: PCACHE_FLUSH, a reset, and a COMPOSITE that fills slot 0xA0. -/
theorem test_meets_cache_change :
    (∃ s t : State, step s = .next t ∧ t.pcache[7] ≠ s.pcache[7] ∧ s.inputs = [wr 0x008 9])
      ∧ (∃ s t : State, step s = .next t ∧ t.pcache[7] ≠ s.pcache[7] ∧ s.inputs = [.reset])
      ∧ ∃ s t : State, step s = .next t ∧ t.pcache[0xA0] ≠ s.pcache[0xA0] ∧ s.inputs = [wr 0x008 3] :=
  ⟨⟨{ State.reset with pcache := emptyCache.set 7 (some 0x1234#16), inputs := [wr 0x008 9] }, _, rfl, by decide +kernel, rfl⟩,
    ⟨{ State.reset with pcache := emptyCache.set 7 (some 0x1234#16), inputs := [.reset] }, _, rfl, by decide +kernel, rfl⟩,
    ⟨{ drawRefused with platform := Platform.atReset, inputs := [wr 0x008 3] }, _, rfl, by decide +kernel, rfl⟩⟩

end Sys2Proof.Tests
end

section
/-! What an instruction can do, said once for all fifteen: the run it begins, what it leaves of that run as it was, and the
states `exec` can answer. -/

namespace Sys2Proof.Machine

/-! ### The idle machine and the invariant -/

/-- For a machine with no command in flight the invariant asks nothing of one. -/
theorem State.Inv.of_idle {s : State} (hi : s.inflight = none) (mem : s.mem.wf = true) (params : s.params.reservedClear)
    (frame : s.frameBound = true → s.frame.legal) (noBlock : s.dbufValid = false → s.dbufBlock = Machine.noBlock)
    (block : s.dbufValid = true → s.frameBound = true ∧ s.dbufBlock.toNat < s.frame.count.toNat)
    (tree : s.treeValid = true → s.treeLegal) : s.Inv :=
  ⟨mem, params, frame, noBlock, block, tree, fun c hc => by rw [hi] at hc; cases hc⟩

/-- A command that only wrote memory and filled cache slots keeps the invariant. -/
theorem Run.Wrote.inv {W : Nat → Prop} {k : Bool} {b u : Run} (h : b.Wrote W k u) (hb : b.st.Inv)
    (hi : b.st.inflight = none) : u.st.Inv := by
  have hwf := h.wf hb.mem
  rw [h.st] at hwf ⊢
  exact .of_idle hi hwf hb.params hb.frame hb.noBlock hb.block hb.tree

theorem State.Inv.unbindFrame {s : State} (h : s.Inv) (hi : s.inflight = none) : s.unbindFrame.Inv :=
  .of_idle hi h.mem h.params nofun (fun _ => rfl) nofun h.tree

theorem State.Inv.flushCache {s : State} (h : s.Inv) (hi : s.inflight = none) : s.flushCache.Inv :=
  .of_idle hi h.mem h.params h.frame h.noBlock h.block h.tree

/-! ### What an instruction leaves of the run it began with -/

/-- Instruction `i`, begun at run `b`, ends at run `u` with status `code`, and has changed only what its rules name: the
clauses of 10_state.md R66, 42_compositor.md R306 and 60_exceptions.md R404 before completion. -/
structure Run.Left (b : Run) (i : Instr) (code : Code) (u : Run) : Prop where
  st : u.st = { b.st with
    frameBound := u.st.frameBound
    dbufValid := u.st.dbufValid
    dbufBlock := u.st.dbufBlock
    frame := u.st.frame
    tree := u.st.tree
    treePad := u.st.treePad
    pcache := u.st.pcache
    mem := u.st.mem }
  op : u.c.op = b.c.op
  params : u.c.params = b.c.params
  undo : (∀ w ∈ b.c.undo, w.1 < spaceSize) → ∀ w ∈ u.c.undo, w.1 < spaceSize
  frame : i ≠ .bindFrame → u.st.frame = b.st.frame
  frameBound : i ≠ .bindFrame → i ≠ .unbind → u.st.frameBound = b.st.frameBound
  dbuf : i ≠ .bindFrame → i ≠ .unbind → i ≠ .markDecoded →
    u.st.dbufValid = b.st.dbufValid ∧ u.st.dbufBlock = b.st.dbufBlock
  tree : i ≠ .huffBuild → u.st.tree = b.st.tree ∧ u.st.treePad = b.st.treePad
  cache : i ≠ .bindFrame → i ≠ .unbind → i ≠ .pcacheFlush → i ≠ .composite → u.st.pcache = b.st.pcache
  emptied : i = .bindFrame ∨ i = .unbind ∨ i = .pcacheFlush → u.st.pcache = emptyCache
  drew : i = .composite → b.Drew u
  failed : i ≠ .bindFrame → code ≠ .ok → u.st.frame = b.st.frame ∧ u.st.frameBound = b.st.frameBound
    ∧ u.st.pcache = b.st.pcache ∧ u.st.dbufValid = b.st.dbufValid ∧ u.st.dbufBlock = b.st.dbufBlock
  checked : i = .decodeBlock → code = .badParam ∧ u.c.wrote = b.c.wrote
  inv : b.st.Inv → b.st.inflight = none → u.st.Inv
  built : i = .huffBuild → code = .ok → u.st.treeLegal

/-- A stretch of instruction `i`, begun at run `b`, changes only what the rules of `i` name, on every path. -/
abbrev Run.Leaves (b : Run) (i : Instr) (x : Except Stop Run) : Prop :=
  Comes (b.Left i .ok) (b.Left i) True x

/-- An instruction whose rules name no state but memory: it leaves the rest as it was. -/
theorem Run.Wrote.left {W : Nat → Prop} {b u : Run} {code : Code} (h : b.Wrote W false u) {i : Instr}
    (hb : i ≠ .bindFrame) (hu : i ≠ .unbind) (hf : i ≠ .pcacheFlush) (hc : i ≠ .composite) (ht : i ≠ .huffBuild)
    (hd : i = .decodeBlock → code = .badParam ∧ u.c.wrote = b.c.wrote) : b.Left i code u where
  st := by rw [h.st]
  op := h.op
  params := h.params
  undo := h.undo
  frame _ := by rw [h.st]
  frameBound _ _ := by rw [h.st]
  dbuf _ _ _ := by rw [h.st]; exact ⟨rfl, rfl⟩
  tree _ := by rw [h.st]; exact ⟨rfl, rfl⟩
  cache _ _ _ _ := h.cache rfl
  emptied := by rintro (e | e | e) <;> contradiction
  drew e := absurd e hc
  failed _ _ := ⟨by rw [h.st], by rw [h.st], h.cache rfl, by rw [h.st], by rw [h.st]⟩
  checked := hd
  inv := h.inv
  built e := absurd e ht

/-- The same, said of a body that only writes memory. -/
theorem BodyWrites.leaves {W : Nat → Prop} {b : Run} {x : Except Stop Run} (h : BodyWrites W false True b x) {i : Instr}
    (hb : i ≠ .bindFrame) (hu : i ≠ .unbind) (hf : i ≠ .pcacheFlush) (hc : i ≠ .composite) (ht : i ≠ .huffBuild)
    (hd : i ≠ .decodeBlock) : b.Leaves i x :=
  h.mono (fun _ hw => hw.left hb hu hf hc ht fun e => absurd e hd)
    (fun _ _ hw => hw.left hb hu hf hc ht fun e => absurd e hd) id

theorem nopBody_leaves (b : Run) : b.Leaves .nop (.ok b) :=
  (Run.Wrote.refl (W := fun _ => False) b).left (code := .ok) nofun nofun nofun nofun nofun nofun

/-- COMPOSITE: only its destination, and slots of the cache where it finishes OK. -/
theorem Run.Drew.left {b u : Run} {code : Code} (h : b.Drew u) (hok : code ≠ .ok → u.st.pcache = b.st.pcache) :
    b.Left .composite code u where
  st := by rw [h.wrote.st]
  op := h.wrote.op
  params := h.wrote.params
  undo := h.wrote.undo
  frame _ := h.frame
  frameBound _ _ := by rw [h.wrote.st]
  dbuf _ _ _ := by rw [h.wrote.st]; exact ⟨rfl, rfl⟩
  tree _ := by rw [h.wrote.st]; exact ⟨rfl, rfl⟩
  cache _ _ _ hc := absurd rfl hc
  emptied := by rintro (e | e | e) <;> cases e
  drew _ := h
  failed _ hne := ⟨h.frame, by rw [h.wrote.st], hok hne, by rw [h.wrote.st], by rw [h.wrote.st]⟩
  checked := nofun
  inv := h.wrote.inv
  built := nofun

theorem compositeBody_leaves (b : Run) : b.Leaves .composite (compositeBody b) :=
  (compositeBody_drew b fun _ _ _ _ _ => trivial).mono (fun _ h => h.left fun hne => absurd rfl hne)
    (fun _ _ h => h.1.left fun _ => h.2) id

/-- What the checks of BIND_FRAME can do: they pass for a legal frame, or end the command where it stands. -/
theorem bindChecks_comes (f : Frame) (u : Run) : Comes (fun _ => f.legal) (fun code v => code ≠ .ok ∧ v = u) True (bindChecks f u) := by
  have check (cond : Bool) {code : Code} (hne : code ≠ .ok) :
      Comes (fun _ => cond = true) (fun c v => c ≠ .ok ∧ v = u) True (u.require cond code) :=
    (u.require_comes cond code).mono (fun _ h => h) (fun _ _ h => ⟨h.1 ▸ hne, h.2⟩) False.elim
  refine Comes.bind (check _ (by decide)) fun _ hdepth => ?_
  refine Comes.bind (check _ (by decide)) fun _ hnonzero => ?_
  refine Comes.bind (check _ (by decide)) fun _ hlast => ?_
  refine (check _ (by decide)).mono (fun _ hpal => ?_) (fun _ _ h => h) id
  simp only [Bool.and_eq_true, decide_eq_true_eq] at hlast
  simp only [Bool.or_eq_true, beq_iff_eq] at hpal
  exact ⟨hdepth, hnonzero, hlast, hpal⟩

/-- A BIND_FRAME that has unbound the frame, and holds a frame bound only where it is legal. -/
theorem Run.Left.of_unbound {b u : Run} {code : Code} {f : Frame} {bound : Bool}
    (hst : u.st = { b.st.unbindFrame with frame := f, frameBound := bound }) (hop : u.c.op = b.c.op)
    (hparams : u.c.params = b.c.params) (hundo : u.c.undo = b.c.undo) (hlegal : bound = true → f.legal) :
    b.Left .bindFrame code u where
  st := by rw [hst]; rfl
  op := hop
  params := hparams
  undo := hundo ▸ id
  frame := nofun
  frameBound := nofun
  dbuf := nofun
  tree _ := by rw [hst]; exact ⟨rfl, rfl⟩
  cache := nofun
  emptied _ := by rw [hst]; rfl
  drew := nofun
  failed := nofun
  checked := nofun
  inv h hi := by rw [hst]; exact .of_idle hi h.mem h.params hlegal (fun _ => rfl) nofun h.tree
  built := nofun

/-- BIND_FRAME unbinds for every outcome, and binds only a legal frame (43_frame_context.md R351, R352). -/
theorem bindBody_leaves (b : Run) : b.Leaves .bindFrame (bindBody b) := by
  refine Comes.bind ((bindChecks_comes _ _).mono (fun _ h => h) (fun code v h => ?_) id) fun _ hlegal => ?_
  · obtain ⟨_, rfl⟩ := h
    exact Run.Left.of_unbound (bound := false) rfl rfl rfl rfl nofun
  · exact Run.Left.of_unbound (bound := true) rfl rfl rfl rfl fun _ => hlegal

theorem unbindBody_leaves (b : Run) : b.Leaves .unbind (.ok { b with st := b.st.unbindFrame }) :=
  { st := rfl, op := rfl, params := rfl, undo := id
    frame := fun _ => rfl, frameBound := nofun, dbuf := nofun, tree := fun _ => ⟨rfl, rfl⟩, cache := nofun
    emptied := fun _ => rfl, drew := nofun, failed := nofun, checked := nofun
    inv := State.Inv.unbindFrame, built := nofun : b.Left .unbind .ok { b with st := b.st.unbindFrame } }

theorem flushBody_leaves (b : Run) : b.Leaves .pcacheFlush (.ok { b with st := b.st.flushCache }) :=
  { st := rfl, op := rfl, params := rfl, undo := id
    frame := fun _ => rfl, frameBound := fun _ _ => rfl, dbuf := fun _ _ _ => ⟨rfl, rfl⟩, tree := fun _ => ⟨rfl, rfl⟩
    cache := nofun, emptied := fun _ => rfl, drew := nofun, failed := nofun, checked := nofun
    inv := State.Inv.flushCache, built := nofun : b.Left .pcacheFlush .ok { b with st := b.st.flushCache } }

/-- The block that MARK_DECODED and DECODE_BLOCK record is the index they were given. -/
theorem toNat_blockRecord (k : Half) : (k.zeroExtend 32).toNat = k.toNat := by
  have := k.isLt
  simp only [BitVec.truncate_eq_setWidth, BitVec.toNat_setWidth]
  omega

/-- MARK_DECODED records a block of the bound frame, or changes nothing (40_block_decoder.md R235). -/
theorem markBody_leaves (b : Run) : b.Leaves .markDecoded (markBody b) := by
  have check (cond : Bool) (code : Code) : Comes (fun _ => cond = true) (b.Left .markDecoded) True (b.require cond code) :=
    (b.require_wrote (W := fun _ => False) (k := false) cond code).mono (fun _ h => h)
      (fun _ _ h => h.left nofun nofun nofun nofun nofun nofun) id
  refine Comes.bind (check _ _) fun _ hbound => ?_
  refine Comes.bind (check _ _) fun _ hindex => ?_
  rw [decide_eq_true_eq] at hindex
  exact
    { st := rfl, op := rfl, params := rfl, undo := id
      frame := fun _ => rfl, frameBound := fun _ _ => rfl, dbuf := nofun, tree := fun _ => ⟨rfl, rfl⟩
      cache := fun _ _ _ _ => rfl, emptied := nofun, drew := nofun, failed := fun _ hne => absurd rfl hne
      checked := nofun
      inv := fun h hi => .of_idle hi h.mem h.params h.frame nofun
        (fun _ => ⟨hbound, (toNat_blockRecord _).symm ▸ hindex⟩) h.tree
      built := nofun }

/-- A HUFF_BUILD that has left all but the tree and TREE_PAD, and holds a legal tree where one is valid or it finishes OK. -/
theorem Run.Left.of_built {b u : Run} {code : Code} {tree : Tree} {pad : BitVec 3}
    (hst : u.st = { b.st with tree := tree, treePad := pad }) (hop : u.c.op = b.c.op)
    (hparams : u.c.params = b.c.params) (hundo : u.c.undo = b.c.undo)
    (hvalid : b.st.Inv → b.st.treeValid = true → u.st.treeLegal) (hok : code = .ok → u.st.treeLegal) :
    b.Left .huffBuild code u where
  st := by rw [hst]
  op := hop
  params := hparams
  undo := hundo ▸ id
  frame _ := by rw [hst]
  frameBound _ _ := by rw [hst]
  dbuf _ _ _ := by rw [hst]; exact ⟨rfl, rfl⟩
  tree := nofun
  cache _ _ _ _ := by rw [hst]
  emptied := nofun
  drew := nofun
  failed _ _ := by rw [hst]; exact ⟨rfl, rfl, rfl, rfl, rfl⟩
  checked := nofun
  inv h hi := by
    have hlegal := hvalid h
    rw [hst] at hlegal ⊢
    exact .of_idle hi h.mem h.params h.frame h.noBlock h.block hlegal
  built _ := hok

/-- HUFF_BUILD changes the tree and TREE_PAD, and only where it succeeds; it then holds a legal tree (41_huffman.md R270). -/
theorem buildBody_leaves (b : Run) : b.Leaves .huffBuild (buildBody b) := by
  refine (buildBody_comes b True).mono ?_ ?_ id
  · rintro u ⟨⟨tree, pad, hst, hbuilt, hsize, _⟩, hop, hparams, hundo⟩
    have hlegal : u.st.treeLegal := by rw [hst]; exact ⟨hbuilt, hsize⟩
    exact .of_built hst hop hparams hundo (fun _ _ => hlegal) fun _ => hlegal
  · rintro code u ⟨hne, hst, hop, hparams, hundo⟩
    exact .of_built (tree := b.st.tree) (pad := b.st.treePad) hst hop hparams hundo (fun h => hst ▸ h.tree)
      fun hok => absurd hok hne

/-! ### The tags -/

/-- What writes anywhere at all, said without the places. -/
theorem BodyWrites.anywhere {W : Nat → Prop} {k : Bool} {F : Prop} {u : Run} {x : Except Stop Run}
    (h : BodyWrites W k F u x) : BodyWrites (fun _ => True) k F u x :=
  h.mono (fun _ h => h.weaken fun _ _ => trivial) (fun _ _ h => h.weaken fun _ _ => trivial) id

/-- A tag only writes memory where its body does so on a block that DBUF can hold. -/
theorem tagBody_wrote {b : Run} (tag : Byte) (valid : Bool) {body : Run → Except Stop Run}
    (hbody : ∀ v : Run, v.blockSize ≤ v.c.params.dbufCap.toNat → BodyWrites (fun _ => True) false True v (body v)) :
    BodyWrites (fun _ => True) false True b (do body (← tagChecks tag valid b)) :=
  Comes.bind ((tagChecks_wrote tag valid b True).mono (fun _ h => h) (fun _ _ h => h) id) fun v ⟨hv, hsize, _⟩ =>
    (hbody v (by unfold Run.blockSize; rw [hv.st, hv.params]; exact hsize)).after hv

/-- No fault is ruled out. -/
theorem TagFaults.any (u : Run) : TagFaults u True := ⟨fun _ _ _ => trivial, fun _ _ _ => trivial⟩

/-! ### What `exec` can answer -/

/-- Instruction `i`, at machine `s`, begins run `b`: a command written while idle, or a tag at its dispatch. -/
inductive Begins (i : Instr) (s : State) : Run → Prop where
  | command {w : Word} (word : encode i = .command w) (idle : s.inflight = none) (block : i ≠ .decodeBlock) :
      Begins i s (acceptRun (commandCode w) s)
  | decode (block : i = .decodeBlock) (idle : s.inflight = none) : Begins i s (acceptDecode s)
  | tag {v : Byte} {b : Run} (byte : encode i = .tag v) (here : blockAtTag s = some b) : Begins i s b

/-- The next states that instruction `i` has at machine `s`. -/
inductive Executed (i : Instr) (s : State) : State → Prop where
  | dropped {w : Word} (word : encode i = .command w) (busy : s.busy = true) : Executed i s { s with dropped := true }
  | atTag (block : i = .decodeBlock) (idle : s.inflight = none) (named : blockNamed s s.params = true)
      (nonempty : s.params.blkLen ≠ 0#32) (payload : s.params.blkRegion.fits = true)
      (dbuf : s.params.dbufRegion.fits = true) :
      Executed i s { (acceptDecode s).st with inflight := some (acceptDecode s).c }
  | ran {b u : Run} {code : Code} (begins : Begins i s b) (left : b.Left i code u) : Executed i s (settle u code)

/-- A run that leaves what its rules do not name ends in one of the states `Executed` lists. -/
theorem Run.Leaves.executed {b : Run} {i : Instr} {x : Except Stop Run} (hx : b.Leaves i x) {s t : State}
    (hb : Begins i s b) (h : conclude x = .next t) : Executed i s t :=
  (conclude_comes (P := Executed i s) (hx.mono (fun _ hl => .ran hb hl) (fun _ _ hl => .ran hb hl) id)).1 t h

/-- A command is dropped while BUSY, and else runs its body. -/
theorem runCommand_executed {i : Instr} {s t : State} {w : Word} {body : Run → Except Stop Run}
    (hw : encode i = .command w) (hd : i ≠ .decodeBlock) (hbody : ∀ b : Run, b.Leaves i (body b))
    (h : runCommand (commandCode w) body s = .next t) : Executed i s t := by
  cases hi : s.inflight with
  | none => exact (hbody _).executed (.command hw hi hd) (runCommand_idle hi ▸ h)
  | some c =>
    rw [runCommand_busy (by simp [hi])] at h
    cases h
    exact .dropped hw (by simp [State.busy, hi])

/-- A tag runs its body from its dispatch. -/
theorem runTag_executed {i : Instr} {s t : State} {v : Byte} {body : Run → Except Stop Run} (hv : encode i = .tag v)
    (hbody : ∀ b : Run, b.Leaves i (body b)) (h : runTag body s = .next t) : Executed i s t := by
  unfold runTag at h
  split at h
  · next b hb => exact (hbody b).executed (.tag hv hb) h
  · cases h

/-- DECODE_BLOCK is dropped while BUSY; else it comes to its tag dispatch, or fails a check. -/
theorem execDecodeBlock_executed {s t : State} (h : execDecodeBlock s = .next t) : Executed .decodeBlock s t := by
  unfold execDecodeBlock at h
  split at h
  · next hbusy => cases h; exact .dropped rfl hbusy
  · next hbusy =>
    have hi : s.inflight = none := by simpa [State.busy] using hbusy
    have hc := decodeChecks_comes (acceptDecode s)
    split at h
    · next hx =>
      rw [hx] at hc
      obtain ⟨hnamed, hlen, hblk, hdbuf⟩ := hc
      cases h
      exact .atTag rfl hi hnamed hlen hblk hdbuf
    · next e hx =>
      rw [hx] at hc
      match e, hc with
      | .ended code u, hc =>
        obtain ⟨rfl, rfl⟩ := hc
        cases h
        refine .ran (.decode rfl hi) (Run.Wrote.left (W := fun _ => False) ?_ nofun nofun nofun nofun nofun fun _ => ⟨rfl, rfl⟩)
        exact (Run.Wrote.refl _).record _ rfl rfl rfl
      | .refuse r, _ => cases h

/-- Everything `exec` can answer with a next state. -/
theorem exec_executed {i : Instr} {s t : State} (h : exec i s = .next t) : Executed i s t := by
  cases i with
  | nop => exact runCommand_executed rfl nofun nopBody_leaves h
  | bindFrame => exact runCommand_executed rfl nofun bindBody_leaves h
  | decodeBlock => exact execDecodeBlock_executed h
  | composite => exact runCommand_executed rfl nofun compositeBody_leaves h
  | markDecoded => exact runCommand_executed rfl nofun markBody_leaves h
  | huffBuild => exact runCommand_executed rfl nofun buildBody_leaves h
  | huffDecode =>
    exact runCommand_executed rfl nofun
      (fun b => (huffDecodeBody_wrote b True).leaves nofun nofun nofun nofun nofun nofun) h
  | rleExpand =>
    exact runCommand_executed rfl nofun
      (fun b => (rleExpandBody_wrote b True).leaves nofun nofun nofun nofun nofun nofun) h
  | palResolve =>
    exact runCommand_executed rfl nofun
      (fun b => (palResolveBody_wrote b fun _ _ _ _ _ => trivial).leaves nofun nofun nofun nofun nofun nofun) h
  | pcacheFlush => exact runCommand_executed rfl nofun flushBody_leaves h
  | unbind => exact runCommand_executed rfl nofun unbindBody_leaves h
  | blkRle =>
    refine runTag_executed rfl (fun b => (tagBody_wrote _ _ fun v hv => ?_).leaves nofun nofun nofun nofun nofun nofun) h
    exact (rleBlock_wrote v (.any v) hv).anywhere
  | blkHuffman =>
    refine runTag_executed rfl (fun b => (tagBody_wrote _ _ fun v hv => ?_).leaves nofun nofun nofun nofun nofun nofun) h
    exact (huffmanBlock_wrote v (.any v) hv).anywhere
  | blkJpeg =>
    refine runTag_executed rfl (fun b => (tagBody_wrote _ _ fun v _ => ?_).leaves nofun nofun nofun nofun nofun nofun) h
    exact (jpegBlock_wrote v True).anywhere
  | blkHuffmanDirect =>
    refine runTag_executed rfl (fun b => (tagBody_wrote _ _ fun v hv => ?_).leaves nofun nofun nofun nofun nofun nofun) h
    exact (directBlock_wrote v (.any v) hv).anywhere

end Sys2Proof.Machine
end

section
/-! What one step can do: the outside world's turn, the tag dispatch and the engine's turn, each inverted once. -/

namespace Sys2Proof.Machine

/-! ### The register map -/

/-- Offsets from 0x088 up are reserved, and from 0x400 up the slots of the palette cache (10_state.md R31). -/
theorem Reg.ofOffset_high {off : BitVec 11} (h : 0x088 ≤ off.toNat) :
    Reg.ofOffset off = if 0x400 ≤ off.toNat then .pcache (Fin.ofNat 256 ((off.toNat - 0x400) / 4)) else .reserved := by
  unfold Reg.ofOffset
  split <;> try omega
  rfl

/-- CMD stands at offset 0x008 alone. -/
theorem Reg.ofOffset_cmd {off : BitVec 11} (h : Reg.ofOffset off = .cmd) : off = 0x008#11 := by
  by_cases hlow : off.toNat < 0x088
  · have key : ∀ n : Fin 0x088, Reg.ofOffset (BitVec.ofNat 11 n.val) = .cmd → n.val = 8 := by decide
    have := key ⟨off.toNat, hlow⟩ (by simpa using h)
    exact BitVec.eq_of_toNat_eq (by simpa using this)
  · rw [Reg.ofOffset_high (by omega)] at h
    split at h <;> cases h

theorem regAccessWf_iff {off : BitVec 11} {width : AccessWidth} :
    regAccessWf off width = true ↔ width = .word ∧ off.toNat % 4 = 0 := by
  simp [regAccessWf]

/-! ### The outside world's turn -/

/-- What is fetched, run. -/
def Fetched.outcome : Fetched → Host.Outcome State Fault Refusal
  | .run i s => exec i s
  | .plain o => o

theorem step_eq_engineTurn (s : State) : step s = engineTurn s (fetch s).outcome := by
  unfold step
  cases fetch s <;> rfl

/-- The states that the outside world's turn can bring the machine to, before the engine's. -/
inductive Hosted (s : State) : State → Prop where
  /-- Nothing, a read, or a poll. -/
  | read (inputs : List Input) (data : Option Word) : Hosted s { s with inputs := inputs, readData := data }
  /-- A write of a register other than CMD. -/
  | register (inputs : List Input) (r : Reg) (data : Word) : Hosted s ({ s with inputs := inputs }.writeReg r data)
  /-- A store of a byte of memory. -/
  | store (inputs : List Input) (a : Word) (v : Byte) :
      Hosted s { s with inputs := inputs, mem := s.mem.write a.toNat v }
  | reset {rest : List Input} (input : s.inputs = .reset :: rest) : Hosted s (resetBlock { s with inputs := rest })
  /-- A write of CMD with a reserved code. -/
  | reserved {w : Word} {rest : List Input} {t : State} (input : s.inputs = .wr 0x008#11 .word w :: rest)
      (run : reservedCommand (commandCode w) { s with inputs := rest } = .next t) : Hosted s t
  /-- A write of CMD with a command. -/
  | command {w : Word} {rest : List Input} {i : Instr} {t : State} (input : s.inputs = .wr 0x008#11 .word w :: rest)
      (word : decode (.command w) = .instr i) (run : exec i { s with inputs := rest } = .next t) : Hosted s t

/-- A register write of the host comes to one of the states `Hosted` lists. -/
theorem hostWrite_hosted {s t : State} {off : BitVec 11} {width : AccessWidth} {data : Word} {rest : List Input}
    (hin : s.inputs = .wr off width data :: rest)
    (h : (hostWrite off width data { s with inputs := rest }).outcome = .next t) : Hosted s t := by
  unfold hostWrite at h
  split at h
  · next hwf =>
    obtain ⟨rfl, _⟩ := regAccessWf_iff.1 hwf
    split at h
    · next hcmd =>
      cases Reg.ofOffset_cmd hcmd
      unfold fetchCommand at h
      split at h
      · next i hi => exact .command hin hi h
      · exact .reserved hin h
    · cases h; exact .register rest _ data
  · cases h

theorem hostStore_next {s t : State} {a : Word} {v : Byte} (h : hostStore a v s = .next t) :
    t = { s with mem := s.mem.write a.toNat v } := by
  unfold hostStore at h
  split_ifs at h
  cases h; rfl

theorem hostLoad_next {s t : State} {a : Word} (h : hostLoad a s = .next t) : ∃ d, t = { s with readData := d } := by
  unfold hostLoad at h
  split_ifs at h
  cases h; exact ⟨_, rfl⟩

theorem hostRead_next {s t : State} {off : BitVec 11} {width : AccessWidth} (h : hostRead off width s = .next t) :
    ∃ d, t = { s with readData := d } := by
  unfold hostRead at h
  split_ifs at h
  cases h; exact ⟨_, rfl⟩

theorem hostWait_next {s t : State} (h : hostWait s = .next t) :
    ∃ inputs d, t = { s with inputs := inputs, readData := d } := by
  unfold hostWait at h
  split_ifs at h <;> cases h
  · exact ⟨_, _, rfl⟩
  · exact ⟨s.inputs, _, rfl⟩

/-- The outside world's turn comes to one of the states `Hosted` lists. -/
theorem hostTurn_hosted {s t : State} (h : (hostTurn s).outcome = .next t) : Hosted s t := by
  unfold hostTurn at h
  split at h
  · cases h; exact .read s.inputs s.readData
  · next i rest hin =>
    cases i with
    | wr off width data => exact hostWrite_hosted hin h
    | rd off width => obtain ⟨d, rfl⟩ := hostRead_next h; exact .read rest d
    | wait => obtain ⟨inputs, d, rfl⟩ := hostWait_next h; exact .read inputs d
    | memWr a v => cases hostStore_next h; exact .store rest a v
    | memRd a => obtain ⟨d, rfl⟩ := hostLoad_next h; exact .read rest d
    | idle => cases h; exact .read rest s.readData
    | reset => cases h; exact .reset hin

/-! ### One step -/

/-- The engine's turn: the completion held at the start of the step goes one step on. -/
theorem engineTurn_next {s t : State} {o : Host.Outcome State Fault Refusal} (h : engineTurn s o = .next t) :
    ∃ t', o = .next t' ∧ t = if (blockAtTag s).isNone && s.busy then tick t' else t' := by
  unfold engineTurn at h
  split at h
  · next t' =>
    refine ⟨t', rfl, ?_⟩
    split at h <;> cases h
    · next hc => rw [if_pos hc]
    · next hc => rw [if_neg hc]
  · cases h
  · cases h

/-- The next states of one step. -/
inductive Stepped (s : State) : State → Prop where
  /-- A tag of the table at its dispatch. -/
  | tag {b : Run} {i : Instr} {v : Byte} {t : State} (here : blockAtTag s = some b) (byte : encode i = .tag v)
      (run : exec i s = .next t) : Stepped s t
  /-- A tag byte that memory refuses, or that is reserved. -/
  | untagged {b u : Run} {code : Code} (here : blockAtTag s = some b) (wrote : b.Wrote (fun _ => False) false u) :
      Stepped s (settle u code)
  /-- The outside world's turn, with no completion held. -/
  | idle {t : State} (idle : s.inflight = none) (host : Hosted s t) : Stepped s t
  /-- The outside world's turn and then the engine's, while a completion is held. -/
  | held {t : State} (busy : s.busy = true) (host : Hosted s t) : Stepped s (tick t)

/-- The instruction of a tag byte is a tag. -/
theorem encode_of_decodeTag {b : Byte} {i : Instr} (h : decodeTag b = .instr i) : encode i = .tag b := by
  unfold decodeTag at h
  split at h <;> cases h <;> rfl

/-- A reserved tag ends the DECODE_BLOCK with nothing written (40_block_decoder.md R220). -/
theorem reservedTag_next {tag : Byte} {b : Run} {t : State} (h : reservedTag tag b = .next t) :
    ∃ (u : Run) (code : Code), b.Wrote (fun _ => False) false u ∧ t = settle u code := by
  refine (conclude_comes (P := fun t => ∃ (u : Run) (code : Code), b.Wrote (fun _ => False) false u ∧ t = settle u code)
    (F := True) ?_).1 t h
  exact Comes.bind ((tagChecks_wrote tag false b True).mono (fun _ h => h) (fun c u h => ⟨u, c, h, rfl⟩) id) fun v hv =>
    ⟨v, _, hv.1, rfl⟩

/-- The tag dispatch comes to one of the states `Stepped` lists. -/
theorem fetchTag_stepped {s t : State} {b : Run} (hb : blockAtTag s = some b) (h : (fetchTag b s).outcome = .next t) :
    Stepped s t := by
  have hread := b.nameTag.read_comes b.c.params.blkAddr.toNat
  unfold fetchTag at h
  split at h
  · next e he =>
    rw [he] at hread
    match e, hread with
    | .ended code u, hread =>
      obtain ⟨_, rfl⟩ := hread
      cases h
      exact .untagged hb b.nameTag_wrote
    | .refuse _, _ => cases h
    | .fault _, _ => cases h
  · split at h
    · next v _ i hi => exact .tag hb (encode_of_decodeTag hi) h
    · obtain ⟨u, code, hw, rfl⟩ := reservedTag_next h
      exact .untagged hb hw

/-- Everything one step can answer with a next state. -/
theorem step_stepped {s t : State} (h : step s = .next t) : Stepped s t := by
  rw [step_eq_engineTurn] at h
  obtain ⟨t', ho, rfl⟩ := engineTurn_next h
  cases hb : blockAtTag s with
  | some b => rw [fetch_atTag hb] at ho; exact fetchTag_stepped hb ho
  | none =>
    have hhost : Hosted s t' := hostTurn_hosted (by simpa [fetch, hb] using ho)
    cases hi : s.inflight with
    | none => simpa [State.busy, hi] using Stepped.idle hi hhost
    | some c =>
      have hbusy : s.busy = true := by simp [State.busy, hi]
      simpa [hbusy] using Stepped.held hbusy hhost

end Sys2Proof.Machine
end

section
/-! The invariant of the machine: it holds at reset and every step keeps it. -/

namespace Sys2Proof.Machine

/-! ### Completion -/

/-- A completion keeps the invariant where an OK of DECODE_BLOCK is for a block of the bound frame, and one of HUFF_BUILD for
a legal tree. -/
theorem State.Inv.complete {s : State} (h : s.Inv) {c : InFlight} {code : Code}
    (hblock : c.op = 0x02#8 → code = .ok → s.frameBound = true ∧ c.params.index.toNat < s.frame.count.toNat)
    (htree : c.op = 0x05#8 → code = .ok → s.treeLegal) : (complete c code s).Inv := by
  by_cases h2 : c.op = 0x02#8
  · by_cases hok : code = .ok
    · subst hok
      obtain ⟨hbound, hindex⟩ := hblock h2 rfl
      rw [complete_decode_ok _ _ h2]
      exact .of_idle rfl h.mem h.params h.frame nofun (fun _ => ⟨hbound, (toNat_blockRecord _).symm ▸ hindex⟩) h.tree
    · by_cases hdrop : code = .jpegHandoff ∨ c.wrote = true
      · rw [complete_decode_drop _ _ _ h2 hok hdrop]
        exact .of_idle rfl h.mem h.params h.frame (fun _ => rfl) nofun h.tree
      · obtain ⟨hjpeg, hwrote⟩ := not_or.1 hdrop
        rw [complete_decode_keep _ _ _ h2 hok hjpeg (Bool.eq_false_of_not_eq_true hwrote)]
        exact .of_idle rfl h.mem h.params h.frame h.noBlock h.block h.tree
  · by_cases h5 : c.op = 0x05#8
    · rw [complete_build _ _ _ h5]
      exact .of_idle rfl h.mem h.params h.frame h.noBlock h.block fun e => htree h5 (beq_iff_eq.1 e)
    · rw [complete_plain _ _ _ h2 h5]
      exact .of_idle rfl h.mem h.params h.frame h.noBlock h.block h.tree

/-- A running command as the invariant allows it, without its in-flight record: what its end rests on. -/
structure Run.Legal (u : Run) : Prop where
  inv : u.st.Inv
  idle : u.st.inflight = none
  params : u.c.params.reservedClear
  undo : ∀ w ∈ u.c.undo, w.1 < spaceSize
  notDone : u.st.done = false
  decode : u.c.op = 0x02#8 → u.st.treeValid = false

/-- The end of a legal command, completed or held, keeps the invariant. -/
theorem Run.Legal.settle {u : Run} (h : u.Legal) {code : Code}
    (hblock : u.c.op = 0x02#8 → code = .ok → u.st.frameBound = true ∧ u.c.params.index.toNat < u.st.frame.count.toNat)
    (htree : u.c.op = 0x05#8 → code = .ok → u.st.treeLegal) : (settle u code).Inv := by
  unfold Machine.settle
  split
  · exact h.inv.complete hblock htree
  · next hlatency =>
    refine ⟨h.inv.mem, h.inv.params, h.inv.frame, h.inv.noBlock, h.inv.block, h.inv.tree, fun c hc => ?_⟩
    cases hc
    refine ⟨h.params, h.undo, h.notDone, h.decode, nofun, ?_⟩
    rintro _ _ ⟨⟩
    exact ⟨Nat.pos_of_ne_zero hlatency, hblock, htree⟩

/-- The engine's turn keeps the invariant. -/
theorem State.Inv.tick {s : State} (h : s.Inv) : (tick s).Inv := by
  cases hi : s.inflight with
  | none => simpa [Machine.tick, hi] using h
  | some c =>
    obtain ⟨hparams, hundo, hdone, hdecode, _, hheld⟩ := h.inflight c hi
    cases hp : c.pos with
    | atTag => simpa [Machine.tick, hi, hp] using h
    | held code left =>
      obtain ⟨_, hblock, htree⟩ := hheld code left hp
      by_cases hlast : left ≤ 1
      · simpa [Machine.tick, hi, hp, hlast] using h.complete hblock htree
      · simp only [Machine.tick, hi, hp, hlast, if_false]
        refine ⟨h.mem, h.params, h.frame, h.noBlock, h.block, h.tree, fun c' hc' => ?_⟩
        cases hc'
        refine ⟨hparams, hundo, hdone, hdecode, nofun, ?_⟩
        rintro _ _ ⟨⟩
        exact ⟨by omega, hblock, htree⟩

/-! ### The outside world -/

/-- What the host writes keeps the invariant: parameter registers without reserved bits, memory in canonical form, and
STATUS bits it clears. -/
theorem State.Inv.host {s : State} (h : s.Inv) {params : Params} {mem : Memory} {done : Bool} (dropped : Bool)
    (inputs : List Input) (data : Option Word) (hparams : params.reservedClear) (hmem : mem.wf = true)
    (hdone : s.done = false → done = false) :
    ({ s with
      params := params, mem := mem, done := done, dropped := dropped, inputs := inputs, readData := data }).Inv :=
  ⟨hmem, hparams, h.frame, h.noBlock, h.block, h.tree, fun c hc =>
    have hc := h.inflight c hc
    ⟨hc.params, hc.undo, hdone hc.notDone, hc.decode, hc.atTag, hc.held⟩⟩

/-- A register that takes only its fields has no reserved bit set. -/
theorem Params.reservedClear_set {p : Params} (h : p.reservedClear) (r : ParamReg) (data : Word) :
    (p.set r (data &&& r.mask)).reservedClear := by
  intro q
  rw [Params.get_set]
  split
  · next hq => rw [hq, BitVec.and_assoc, BitVec.and_not_self]; exact BitVec.and_zero
  · exact h q

/-- Registers that are all 0 have no reserved bit set. -/
theorem Params.reservedClear_zero : ({} : Params).reservedClear := by
  intro r
  cases r <;> rfl

/-- A reset keeps memory in canonical form, whatever it takes back (70_reset_and_hazards.md R451). -/
theorem State.Inv.memoryAtReset {s : State} (h : s.Inv) : (memoryAtReset s).wf = true := by
  unfold Machine.memoryAtReset
  split
  · next c hc => exact undoWrites_wf h.mem fun w hw => (h.inflight c hc).undo w (List.mem_of_mem_take hw)
  · exact h.mem

theorem State.Inv.resetBlock {s : State} (h : s.Inv) : (resetBlock s).Inv :=
  .of_idle rfl h.memoryAtReset Params.reservedClear_zero nofun (fun _ => rfl) nofun nofun

/-! ### The instructions -/

/-- Only DECODE_BLOCK's word has command code 0x02, and only HUFF_BUILD's 0x05 (30_encoding.md R112). -/
theorem commandCode_encode {i : Instr} {w : Word} (h : encode i = .command w) :
    (commandCode w = 0x02#8 → i = .decodeBlock) ∧ (commandCode w = 0x05#8 → i = .huffBuild) := by
  cases i <;> cases h <;> decide

/-- A DECODE_BLOCK at its tag dispatch is legal, and names a block of the bound frame. -/
theorem State.Inv.blockAtTag {s : State} (h : s.Inv) {b : Run} (hb : blockAtTag s = some b) :
    b.Legal ∧ b.c.op = 0x02#8 ∧ b.st.frameBound = true ∧ b.c.params.index.toNat < b.st.frame.count.toNat := by
  obtain ⟨c, hc, hp, rfl⟩ := blockAtTag_some hb
  have hl := h.inflight c hc
  obtain ⟨heq, hbound, hindex, _⟩ := hl.atTag hp
  have hop : c.op = 0x02#8 := by rw [heq]
  exact ⟨⟨.of_idle rfl h.mem h.params h.frame h.noBlock h.block h.tree, rfl, hl.params, hl.undo, hl.notDone, hl.decode⟩,
    hop, hbound, hindex⟩

/-- A command accepted by an idle machine is legal. -/
theorem State.Inv.acceptRun {s : State} (h : s.Inv) {op : Byte} (hop : op = 0x02#8 → s.treeValid = false) :
    (acceptRun op s).Legal :=
  ⟨.of_idle rfl h.mem h.params h.frame h.noBlock h.block h.tree, rfl, h.params, nofun, rfl, hop⟩

/-- An idle machine without a valid tree keeps the invariant. -/
theorem State.Inv.dropTree {s : State} (h : s.Inv) (hi : s.inflight = none) : ({ s with treeValid := false }).Inv :=
  .of_idle hi h.mem h.params h.frame h.noBlock h.block nofun

/-- An instruction begins a legal run; under DECODE_BLOCK's code, once past its checks, it is a tag and names a block of the
bound frame, and only HUFF_BUILD runs under its own code. -/
theorem Begins.legal {i : Instr} {s : State} {b : Run} (hb : Begins i s b) (h : s.Inv) :
    b.Legal
      ∧ (b.c.op = 0x02#8 → i ≠ .decodeBlock → (∃ v, encode i = .tag v)
        ∧ b.st.frameBound = true ∧ b.c.params.index.toNat < b.st.frame.count.toNat)
      ∧ (b.c.op = 0x05#8 → i = .huffBuild) := by
  cases hb with
  | command hw hi hd =>
    obtain ⟨hdecode, hbuild⟩ := commandCode_encode hw
    exact ⟨h.acceptRun fun e => absurd (hdecode e) hd, fun e => absurd (hdecode e), hbuild⟩
  | decode hd hi => exact ⟨(h.dropTree hi).acceptRun fun _ => rfl, fun _ hne => absurd hd hne, nofun⟩
  | tag hv hb =>
    obtain ⟨hl, hop, hnamed⟩ := h.blockAtTag hb
    exact ⟨hl, fun _ _ => ⟨⟨_, hv⟩, hnamed⟩, fun e => by rw [hop] at e; cases e⟩

/-- A legal command stays legal under what leaves its record's code and parameters, and DONE, TREE_VALID and the in-flight
record of its machine. -/
theorem Run.Legal.of_same {b u : Run} (hb : b.Legal) (hinv : u.st.Inv)
    (hst : u.st.inflight = b.st.inflight ∧ u.st.done = b.st.done ∧ u.st.treeValid = b.st.treeValid)
    (hop : u.c.op = b.c.op) (hparams : u.c.params = b.c.params) (hundo : ∀ w ∈ u.c.undo, w.1 < spaceSize) : u.Legal := by
  obtain ⟨hinflight, hdone, hvalid⟩ := hst
  exact ⟨hinv, hinflight.trans hb.idle, hparams ▸ hb.params, hundo, hdone.trans hb.notDone, by
    rw [hop, hvalid]; exact hb.decode⟩

theorem Run.Left.legal {b u : Run} {i : Instr} {code : Code} (h : b.Left i code u) (hb : b.Legal) : u.Legal :=
  hb.of_same (h.inv hb.inv hb.idle) (by rw [h.st]; exact ⟨rfl, rfl, rfl⟩) h.op h.params (h.undo hb.undo)

theorem Run.Wrote.legal {W : Nat → Prop} {k : Bool} {b u : Run} (h : b.Wrote W k u) (hb : b.Legal) : u.Legal :=
  hb.of_same (h.inv hb.inv hb.idle) (by rw [h.st]; exact ⟨rfl, rfl, rfl⟩) h.op h.params (h.undo hb.undo)

/-- A DECODE_BLOCK that passes its checks stands legally at its tag dispatch. -/
theorem State.Inv.atTag {s : State} (h : s.Inv) (hi : s.inflight = none) (hnamed : blockNamed s s.params = true)
    (hlen : s.params.blkLen ≠ 0#32) (hblk : s.params.blkRegion.fits = true) (hdbuf : s.params.dbufRegion.fits = true) :
    ({ (acceptDecode s).st with inflight := some (acceptDecode s).c }).Inv := by
  have hl : (acceptDecode s).Legal := (h.dropTree hi).acceptRun fun _ => rfl
  simp only [blockNamed, Bool.and_eq_true, decide_eq_true_eq] at hnamed
  refine ⟨h.mem, h.params, h.frame, h.noBlock, h.block, nofun, fun c hc => ?_⟩
  cases hc
  exact ⟨hl.params, hl.undo, rfl, fun _ => rfl, fun _ => ⟨rfl, hnamed.1, hnamed.2, hlen, hblk, hdbuf⟩, nofun⟩

/-- Every instruction keeps the invariant. -/
theorem Executed.inv {i : Instr} {s t : State} (ht : Executed i s t) (h : s.Inv) : t.Inv := by
  cases ht with
  | dropped => exact h.host true s.inputs s.readData h.params h.mem id
  | atTag _ hi hnamed hlen hblk hdbuf => exact h.atTag hi hnamed hlen hblk hdbuf
  | @ran b u code hb hleft =>
    obtain ⟨hlegal, hblock, hbuild⟩ := hb.legal h
    refine (hleft.legal hlegal).settle (fun hop hok => ?_) (fun hop hok => ?_)
    · rw [hleft.op] at hop
      by_cases hd : i = .decodeBlock
      · rw [(hleft.checked hd).1] at hok; cases hok
      · obtain ⟨⟨v, hv⟩, hnamed⟩ := hblock hop hd
        have hbind : i ≠ .bindFrame := by rintro rfl; cases hv
        have hunbind : i ≠ .unbind := by rintro rfl; cases hv
        rw [hleft.params, hleft.frame hbind, hleft.frameBound hbind hunbind]
        exact hnamed
    · exact hleft.built (hbuild (hleft.op ▸ hop)) hok

/-! ### The step -/

theorem State.Inv.writeReg {s : State} (h : s.Inv) (r : Reg) (data : Word) : (s.writeReg r data).Inv := by
  unfold State.writeReg
  split
  · exact h.host s.dropped s.inputs s.readData (Params.reservedClear_set h.params _ data) h.mem id
  · exact h.host _ s.inputs s.readData h.params h.mem fun e => by rw [e]; rfl
  all_goals exact h

/-- A reserved command code keeps the invariant (30_encoding.md R113). -/
theorem State.Inv.reservedCommand {s t : State} {op : Byte} (h : s.Inv) (ht : reservedCommand op s = .next t) : t.Inv := by
  unfold Machine.reservedCommand at ht
  split at ht
  · cases ht
    exact h.host true s.inputs s.readData h.params h.mem id
  · cases ht
    exact State.Inv.complete (s := (Machine.acceptRun op s).st)
      (.of_idle rfl h.mem h.params h.frame h.noBlock h.block h.tree) nofun nofun

/-- The outside world's turn keeps the invariant. -/
theorem Hosted.inv {s t : State} (ht : Hosted s t) (h : s.Inv) : t.Inv := by
  have taken (inputs : List Input) : ({ s with inputs := inputs }).Inv :=
    h.host s.dropped inputs s.readData h.params h.mem id
  cases ht with
  | read inputs data => exact h.host s.dropped inputs data h.params h.mem id
  | register inputs r data => exact (taken inputs).writeReg r data
  | store inputs a v => exact h.host s.dropped inputs s.readData h.params (Memory.wf_write v h.mem a.isLt) id
  | reset => exact (taken _).resetBlock
  | reserved _ run => exact (taken _).reservedCommand run
  | command _ _ run => exact (exec_executed run).inv (taken _)

/-- Every step keeps the invariant. -/
theorem Stepped.inv {s t : State} (ht : Stepped s t) (h : s.Inv) : t.Inv := by
  cases ht with
  | tag _ _ run => exact (exec_executed run).inv h
  | untagged hb hw =>
    obtain ⟨hlegal, hop, hnamed⟩ := h.blockAtTag hb
    refine (hw.legal hlegal).settle (fun _ _ => ?_) fun e => ?_
    · rw [hw.params, hw.st]; exact hnamed
    · rw [hw.op, hop] at e; cases e
  | idle _ host => exact host.inv h
  | held _ host => exact (host.inv h).tick

/-- Settles O59: the invariant goes through every case of the step. -/
theorem everyStepKeepsTheInvariant : Obligations.EveryStepKeepsTheInvariant :=
  fun _ _ h ht => (step_stepped ht).inv h

/-- Settles O58: the base case of O59. -/
theorem resetMeetsTheInvariant : Obligations.ResetMeetsTheInvariant :=
  .of_idle rfl rfl Params.reservedClear_zero nofun (fun _ => rfl) nofun nofun

end Sys2Proof.Machine
end

section
/-! What an instruction leaves as it was in the machine, whatever its outcome, seen past its completion; and what an accepted
command leaves while its completion is held. -/

namespace Sys2Proof.Machine

/-! ### What completion leaves -/

@[simp] theorem settled_pcache (s : State) : s.settled.pcache = s.pcache := by
  unfold State.settled
  split
  · split
    · exact complete_pcache _ _ _
    · rfl
  · rfl

/-- Only DECODE_BLOCK has a completion clause about DBUF (40_block_decoder.md R204). -/
theorem complete_dbuf {c : InFlight} (h : c.op ≠ 0x02#8) (code : Code) (s : State) :
    (complete c code s).dbufValid = s.dbufValid ∧ (complete c code s).dbufBlock = s.dbufBlock := by
  by_cases h5 : c.op = 0x05#8
  · rw [complete_build _ _ _ h5]; exact ⟨rfl, rfl⟩
  · rw [complete_plain _ _ _ h h5]; exact ⟨rfl, rfl⟩

/-- Only HUFF_BUILD has a completion clause about TREE_VALID (41_huffman.md R270). -/
theorem complete_treeValid_same {c : InFlight} (h : c.op ≠ 0x05#8) (code : Code) (s : State) :
    (complete c code s).treeValid = s.treeValid := by
  rw [complete_treeValid, completionClause]
  split
  · exact decodeClause_treeValid _ _ _
  · rfl

/-! ### What an instruction leaves -/

/-- A run begins at the machine as it is, but for DONE, TREE_VALID and the in-flight record. -/
theorem Begins.st {i : Instr} {s : State} {b : Run} (h : Begins i s b) :
    b.st = { s with done := b.st.done, treeValid := b.st.treeValid, inflight := none } := by
  cases h with
  | command => rfl
  | decode => rfl
  | tag _ hb => obtain ⟨c, _, _, rfl⟩ := blockAtTag_some hb; rfl

theorem Begins.treeValid {i : Instr} {s : State} {b : Run} (h : Begins i s b) (hd : i ≠ .decodeBlock) :
    b.st.treeValid = s.treeValid := by
  cases h with
  | command => rfl
  | decode he => exact absurd he hd
  | tag _ hb => obtain ⟨c, _, _, rfl⟩ := blockAtTag_some hb; rfl

/-- What an idle machine begins is the command of the instruction's own word. -/
theorem Begins.op {i : Instr} {s : State} {b : Run} (h : Begins i s b) (hi : s.inflight = none) :
    (b.c.op = 0x02#8 → i = .decodeBlock) ∧ (b.c.op = 0x05#8 → i = .huffBuild) ∧ b.c.wrote = false := by
  cases h with
  | command hw => exact ⟨(commandCode_encode hw).1, (commandCode_encode hw).2, rfl⟩
  | decode hd => exact ⟨fun _ => hd, nofun, rfl⟩
  | tag _ hb =>
    obtain ⟨c, hc, _⟩ := blockAtTag_some hb
    rw [hi] at hc; cases hc

/-- Of a command begun while idle, the completion leaves the DBUF state as the command left it. -/
theorem Run.Left.settled_dbuf {b u : Run} {i : Instr} {code : Code} (h : b.Left i code u) {s : State} (hb : Begins i s b)
    (hi : s.inflight = none) :
    (settle u code).settled.dbufValid = u.st.dbufValid ∧ (settle u code).settled.dbufBlock = u.st.dbufBlock := by
  obtain ⟨hdecode, _, hwrote⟩ := hb.op hi
  rw [settled_settle]
  by_cases h2 : u.c.op = 0x02#8
  · obtain ⟨rfl, hsame⟩ := h.checked (hdecode (h.op ▸ h2))
    rw [complete_decode_keep _ _ _ h2 (by decide) (by decide) (hsame.trans hwrote)]
    exact ⟨rfl, rfl⟩
  · exact complete_dbuf h2 code u.st

theorem Run.Left.settled_treeValid {b u : Run} {i : Instr} {code : Code} (h : b.Left i code u) {s : State}
    (hb : Begins i s b) (hi : s.inflight = none) (hbuild : i ≠ .huffBuild) (hdecode : i ≠ .decodeBlock) :
    (settle u code).settled.treeValid = s.treeValid := by
  rw [settled_settle, complete_treeValid_same fun e => hbuild ((hb.op hi).2.1 (h.op ▸ e)), h.st]
  exact hb.treeValid hdecode

/-- An unresolved slot's colour is that of its palette entry. -/
theorem slotColor_unresolved {s : State} {k : Fin 256} (h : s.pcache[k] = none) (op : Byte) :
    (acceptRun op s).entryColor k.val = slotColor s (BitVec.ofNat 8 k.val) := by
  have hk : (BitVec.ofNat 8 k.val).toNat = k.val := by simp
  have hslot : s.pcache[k.val] = none := h
  simp only [slotColor, hk, hslot]
  rfl

/-- COMPOSITE keeps every resolved slot, and a slot it fills holds its palette entry's colour (42_compositor.md R305). -/
theorem Run.Left.slots {b u : Run} {code : Code} (h : b.Left .composite code u) {s : State}
    (hb : Begins .composite s b) (k : Fin 256) :
    (s.pcache[k] ≠ none → u.st.pcache[k] = s.pcache[k])
    ∧ (s.pcache[k] = none → u.st.pcache[k] = none ∨ u.st.pcache[k] = some (slotColor s (BitVec.ofNat 8 k.val))) := by
  cases hb with
  | decode hd => cases hd
  | tag hv => cases hv
  | command =>
    have hdrew := h.drew rfl
    refine ⟨fun hne => ?_, fun hn => ?_⟩
    · obtain ⟨color, hcolor⟩ := Option.ne_none_iff_exists'.1 hne
      rw [hcolor]
      exact hdrew.wrote.resolved k color hcolor
    · rw [← slotColor_unresolved hn]
      exact hdrew.filled k hn

/-- Settles O54, along the three ways an instruction can answer. -/
theorem instructionsChangeOnlyWhatTheirRulesName : Obligations.InstructionsChangeOnlyWhatTheirRulesName := by
  intro i s t h
  cases exec_executed h with
  | dropped hw hbusy =>
    have busy {p : Prop} (hi : s.inflight = none) : p := by simp [State.busy, hi] at hbusy
    exact ⟨rfl, rfl, rfl, rfl, .inr ⟨_, hw, hbusy⟩, fun _ => rfl, fun _ _ => rfl, fun _ _ _ _ => rfl,
      fun _ _ => ⟨fun _ => rfl, .inl⟩, fun _ _ => ⟨rfl, rfl, rfl, settled_pcache _, busy⟩, fun _ => ⟨rfl, rfl⟩,
      fun _ _ => busy, fun _ _ _ => busy⟩
  | atTag hd =>
    exact ⟨rfl, rfl, rfl, rfl, .inl rfl, fun _ => rfl, fun _ _ => rfl, fun _ _ _ _ => rfl,
      fun _ _ => ⟨fun _ => rfl, .inl⟩, fun _ _ => ⟨rfl, rfl, rfl, settled_pcache _, fun _ => ⟨rfl, rfl⟩⟩, fun _ => ⟨rfl, rfl⟩,
      fun _ hne => absurd hd hne, fun _ _ _ _ => ⟨rfl, rfl⟩⟩
  | @ran b u code hb hl =>
    refine ⟨by rw [settle_params, hl.st, hb.st], by rw [settle_platform, hl.st, hb.st],
      by rw [settle_inputs, hl.st, hb.st], by rw [settle_readData, hl.st, hb.st],
      .inl (by rw [settle_dropped, hl.st, hb.st]), fun hbind => by rw [settle_frame, hl.frame hbind, hb.st],
      fun hbind hunbind => by rw [settle_frameBound, hl.frameBound hbind hunbind, hb.st],
      fun hbind hunbind hflush hcomposite => by rw [settle_pcache, hl.cache hbind hunbind hflush hcomposite, hb.st],
      ?slots, fun hbind herr => ?failed, ?tree,
      fun hbuild hdecode hi => hl.settled_treeValid hb hi hbuild hdecode, fun hbind hunbind hmark hi => ?dbuf⟩
    case slots => rintro rfl k; rw [settle_pcache]; exact hl.slots hb k
    case failed =>
      rw [settled_settle, complete_err] at herr
      obtain ⟨hframe, hbound, hcache, hvalid, hblock⟩ := hl.failed hbind herr
      refine ⟨by rw [settle_frame, hframe, hb.st], by rw [settle_frameBound, hbound, hb.st],
        by rw [settle_pcache, hcache, hb.st], by rw [settled_pcache, settle_pcache, hcache, hb.st], fun hi => ?_⟩
      obtain ⟨hvalid', hblock'⟩ := hl.settled_dbuf hb hi
      rw [hvalid', hblock', hvalid, hblock, hb.st]
      exact ⟨rfl, rfl⟩
    case tree =>
      intro hbuild
      obtain ⟨htree, hpad⟩ := hl.tree hbuild
      rw [settle_tree, settle_treePad, htree, hpad, hb.st]
      exact ⟨rfl, rfl⟩
    case dbuf =>
      obtain ⟨hvalid, hblock⟩ := hl.dbuf hbind hunbind hmark
      obtain ⟨hvalid', hblock'⟩ := hl.settled_dbuf hb hi
      rw [hvalid', hblock', hvalid, hblock, hb.st]
      exact ⟨rfl, rfl⟩

/-- Settles O15: the command is held with the machine it left, whose results and status no run touches. -/
theorem acceptedCommandLatchesAndHoldsItsResults : Obligations.AcceptedCommandLatchesAndHoldsItsResults := by
  intro s t i w hw hi hlatency h
  cases exec_executed h with
  | dropped _ hbusy => simp [State.busy, hi] at hbusy
  | atTag hd =>
    subst hd; cases hw
    exact ⟨_, rfl, rfl, rfl, fun hne => absurd rfl hne, rfl, rfl, rfl, rfl, rfl, rfl, rfl⟩
  | @ran b u code hb hl =>
    have hplatform : u.st.platform = s.platform := by rw [hl.st, hb.st]
    have hbegun : b.c.op = w.extractLsb' 0 8 ∧ b.c.params = s.params ∧ b.st.done = false := by
      cases hb with
      | command hw' => cases hw.symm.trans hw'; exact ⟨rfl, rfl, rfl⟩
      | decode hd => subst hd; cases hw; exact ⟨rfl, rfl, rfl⟩
      | tag hv => cases hw.symm.trans hv
    obtain ⟨hop, hparams, hdone⟩ := hbegun
    have hheld : settle u code = { u.st with inflight := some { u.c with pos := .held code s.platform.cmdLatency } } := by
      rw [settle, hplatform, if_neg hlatency]
    rw [hheld, hl.st, hb.st]
    exact ⟨_, rfl, hl.op.trans hop, hl.params.trans hparams, fun _ => ⟨code, rfl⟩, hdone, rfl, rfl, rfl, rfl, rfl, rfl⟩

end Sys2Proof.Machine
end

section
/-! What a whole step can change of the results, the status and the palette cache. -/

namespace Sys2Proof.Machine

/-! ### Results and status -/

/-- RESULT0 to RESULT2 and ERR are those of the machine before. -/
def State.SameResults (s t : State) : Prop :=
  t.result0 = s.result0 ∧ t.result1 = s.result1 ∧ t.result2 = s.result2 ∧ t.err = s.err

/-- The machine as a completion leaves it: BUSY 0 and DONE 1. -/
def State.Finished (t : State) : Prop := t.busy = false ∧ t.done = true

theorem State.SameResults.refl (s : State) : s.SameResults s := ⟨rfl, rfl, rfl, rfl⟩

theorem State.SameResults.trans {s t u : State} (h : s.SameResults t) (h' : t.SameResults u) : s.SameResults u := by
  obtain ⟨h0, h1, h2, herr⟩ := h
  obtain ⟨h0', h1', h2', herr'⟩ := h'
  exact ⟨h0'.trans h0, h1'.trans h1, h2'.trans h2, herr'.trans herr⟩

theorem complete_finished (c : InFlight) (code : Code) (s : State) : (complete c code s).Finished := ⟨rfl, rfl⟩

/-- A command's end completes it or leaves the results. -/
theorem settle_results (u : Run) (code : Code) : u.st.SameResults (settle u code) ∨ (settle u code).Finished := by
  unfold settle
  split
  · exact .inr (complete_finished _ _ _)
  · exact .inl (.refl u.st)

/-- The engine's turn completes a command or leaves the results. -/
theorem tick_results (s : State) : s.SameResults (tick s) ∨ (tick s).Finished := by
  unfold tick
  split
  · split
    · split
      · exact .inr (complete_finished _ _ _)
      · exact .inl (.refl s)
    · exact .inl (.refl s)
  · exact .inl (.refl s)

/-- An instruction completes or leaves the results. -/
theorem Executed.results {i : Instr} {s t : State} (h : Executed i s t) : s.SameResults t ∨ t.Finished := by
  cases h with
  | dropped => exact .inl (.refl s)
  | atTag => exact .inl (.refl s)
  | @ran b u code hb hl =>
    have hsame : s.SameResults u.st := by rw [hl.st, hb.st]; exact .refl s
    exact (settle_results u code).imp_left hsame.trans

/-- The instruction of a command word is a command. -/
theorem encode_of_decodeCommand {w : Word} {i : Instr} (h : decodeCommand w = .instr i) : ∃ v, encode i = .command v := by
  unfold decodeCommand decodeCode at h
  split at h <;> cases h <;> exact ⟨_, rfl⟩

/-- A busy machine does nothing with a command but flag it dropped (30_encoding.md R111). -/
theorem Executed.eq_dropped {i : Instr} {s t : State} {w : Word} (h : Executed i s t) (hw : encode i = .command w)
    (hbusy : s.busy = true) : t = { s with dropped := true } := by
  have idle {p : Prop} (hi : s.inflight = none) : p := by simp [State.busy, hi] at hbusy
  cases h with
  | dropped => rfl
  | atTag _ hi => exact idle hi
  | ran hb =>
    cases hb with
    | command _ hi => exact idle hi
    | decode _ hi => exact idle hi
    | tag hv => cases hw.symm.trans hv

/-- The outside world's turn leaves the results but for a command that an idle machine completes, and a reset. -/
theorem Hosted.results {s t : State} (h : Hosted s t) :
    s.SameResults t
    ∨ (s.busy = false ∧ t.Finished ∧ ∃ (w : Word) (rest : List Input), s.inputs = .wr 0x008#11 .word w :: rest)
    ∨ ∃ rest, s.inputs = .reset :: rest := by
  cases h with
  | read => exact .inl (.refl s)
  | register inputs r data => left; cases r <;> exact .refl s
  | store => exact .inl (.refl s)
  | reset hin => exact .inr (.inr ⟨_, hin⟩)
  | @reserved w rest _ hin run =>
    unfold reservedCommand at run
    split at run
    · cases run; exact .inl (.refl s)
    · next hidle =>
      cases run
      exact .inr (.inl ⟨Bool.eq_false_of_not_eq_true hidle, complete_finished _ _ _, w, rest, hin⟩)
  | @command w rest i _ hin hword run =>
    obtain ⟨v, hv⟩ := encode_of_decodeCommand hword
    cases hbusy : s.busy with
    | true => rw [(exec_executed run).eq_dropped hv hbusy]; exact .inl (.refl s)
    | false => exact (exec_executed run).results.imp_right fun hfin => .inl ⟨rfl, hfin, w, rest, hin⟩

theorem busy_of_blockAtTag {s : State} {b : Run} (h : blockAtTag s = some b) : s.busy = true := by
  obtain ⟨c, hc, _⟩ := blockAtTag_some h
  simp [State.busy, hc]

/-- Every step leaves the results but for a completion and a reset. -/
theorem Stepped.results {s t : State} (h : Stepped s t) :
    s.SameResults t
    ∨ (t.Finished
      ∧ (s.busy = true ∨ ∃ (w : Word) (rest : List Input), s.inputs = .wr 0x008#11 .word w :: rest))
    ∨ ∃ rest, s.inputs = .reset :: rest := by
  cases h with
  | tag hb _ run => exact (exec_executed run).results.imp_right fun hfin => .inl ⟨hfin, .inl (busy_of_blockAtTag hb)⟩
  | @untagged b u code hb hw =>
    have hsame : s.SameResults u.st := by
      obtain ⟨c, _, _, rfl⟩ := blockAtTag_some hb
      rw [hw.st]; exact .refl s
    exact (settle_results u code).imp hsame.trans fun hfin => .inl ⟨hfin, .inl (busy_of_blockAtTag hb)⟩
  | idle _ host => exact host.results.imp_right (.imp_left fun ⟨_, hfin, hcmd⟩ => ⟨hfin, .inr hcmd⟩)
  | @held t hbusy host =>
    rcases host.results with hsame | ⟨hidle, _⟩ | hreset
    · exact (tick_results t).imp hsame.trans fun hfin => .inl ⟨hfin, .inl hbusy⟩
    · rw [hbusy] at hidle; cases hidle
    · exact .inr (.inr hreset)

/-- Settles O56: what changes the results is neither of the cases that leave them. -/
theorem resultsChangeOnlyAtCompletion : Obligations.ResultsChangeOnlyAtCompletion := by
  intro s t h hchange
  rcases (step_stepped h).results with ⟨h0, h1, h2, herr⟩ | ⟨⟨hidle, hdone⟩, hcause⟩ | hreset
  · rcases hchange with hc | hc | hc | hc <;> contradiction
  · exact .inl ⟨hidle, hdone, hcause⟩
  · exact .inr hreset

/-! ### The palette cache -/

theorem emptyCache_get (k : Fin 256) : emptyCache[k] = none :=
  Vector.getElem_replicate k.isLt

/-- How instruction `i` changes the palette cache of `s` to that of `t`: a COMPOSITE that finishes OK keeps every resolved
slot, and the flushing commands leave none (42_compositor.md R306). -/
def CacheChange (i : Instr) (s t : State) : Prop :=
  (i = .composite ∧ t.settled.err = .ok
    ∧ ∀ (k : Fin 256) (color : Half), s.pcache[k] = some color → t.pcache[k] = some color)
  ∨ ((i = .bindFrame ∨ i = .unbind ∨ i = .pcacheFlush) ∧ ∀ k : Fin 256, t.pcache[k] = none)

/-- An instruction that changes the cache does so by its rule, and only an idle machine runs it. -/
theorem Executed.cache {i : Instr} {s t : State} (h : Executed i s t) (hne : t.pcache ≠ s.pcache) :
    s.inflight = none ∧ CacheChange i s t := by
  cases h with
  | dropped => exact absurd rfl hne
  | atTag => exact absurd rfl hne
  | @ran b u code hb hl =>
    have hstart : b.st.pcache = s.pcache := by rw [hb.st]
    have hchange : u.st.pcache ≠ b.st.pcache := by rwa [settle_pcache, ← hstart] at hne
    have hrule : CacheChange i s (settle u code) := by
      unfold CacheChange
      rw [settled_settle, complete_err, settle_pcache, ← hstart]
      by_cases hflush : i = .bindFrame ∨ i = .unbind ∨ i = .pcacheFlush
      · exact .inr ⟨hflush, fun k => by rw [hl.emptied hflush]; exact emptyCache_get k⟩
      · obtain ⟨hbind, hunbind, hpcache⟩ : i ≠ .bindFrame ∧ i ≠ .unbind ∧ i ≠ .pcacheFlush := by simpa using hflush
        have hcomposite : i = .composite := by
          by_contra hc
          exact hchange (hl.cache hbind hunbind hpcache hc)
        have hok : code = .ok := by
          by_contra hc
          exact hchange (hl.failed hbind hc).2.2.1
        exact .inl ⟨hcomposite, hok, (hl.drew hcomposite).wrote.resolved⟩
    refine ⟨?_, hrule⟩
    cases hb with
    | command _ hi => exact hi
    | decode _ hi => exact hi
    | tag hv => rcases hrule with ⟨rfl, _⟩ | ⟨rfl | rfl | rfl, _⟩ <;> cases hv

@[simp] theorem tick_pcache (s : State) : (tick s).pcache = s.pcache := by
  unfold tick
  split
  · split
    · split
      · exact complete_pcache _ _ _
      · rfl
    · rfl
  · rfl

/-- The outside world changes the cache by a reset, or by a command that an idle machine runs. -/
theorem Hosted.cache {s t : State} (h : Hosted s t) (hne : t.pcache ≠ s.pcache) :
    ((∃ rest, s.inputs = .reset :: rest) ∧ ∀ k : Fin 256, t.pcache[k] = none)
    ∨ (s.inflight = none ∧ ∃ (w : Word) (rest : List Input) (i : Instr), s.inputs = .wr 0x008#11 .word w :: rest
      ∧ decode (.command w) = .instr i ∧ CacheChange i s t) := by
  cases h with
  | read => exact absurd rfl hne
  | register inputs r data => exact absurd (by cases r <;> rfl) hne
  | store => exact absurd rfl hne
  | reset hin => exact .inl ⟨⟨_, hin⟩, emptyCache_get⟩
  | reserved _ run =>
    unfold reservedCommand at run
    split at run
    · cases run; exact absurd rfl hne
    · cases run; exact absurd (complete_pcache _ _ _) hne
  | @command w rest i _ hin hword run =>
    obtain ⟨hi, hchange⟩ := (exec_executed run).cache hne
    exact .inr ⟨hi, w, rest, i, hin, hword, hchange⟩

/-- Settles O57: of the cases of a step only the outside world's turn changes the cache. -/
theorem cacheChangesOnlyByItsCommands : Obligations.CacheChangesOnlyByItsCommands := by
  intro s t h hne
  cases step_stepped h with
  | tag hb _ run =>
    obtain ⟨hi, _⟩ := (exec_executed run).cache hne
    obtain ⟨c, hc, _⟩ := blockAtTag_some hb
    rw [hi] at hc; cases hc
  | untagged hb hw =>
    obtain ⟨c, _, _, rfl⟩ := blockAtTag_some hb
    exact absurd ((settle_pcache _ _).trans (hw.cache rfl)) hne
  | held hbusy host =>
    rw [tick_pcache] at hne ⊢
    rcases host.cache hne with hreset | ⟨hi, _⟩
    · exact .inl hreset
    · simp [State.busy, hi] at hbusy
  | idle _ host =>
    refine (host.cache hne).imp_right ?_
    rintro ⟨_, w, rest, i, hin, hword, hchange⟩
    refine ⟨w, rest, hin, hchange.imp ?_ ?_⟩
    · rintro ⟨rfl, hok⟩; exact ⟨hword, hok⟩
    · rintro ⟨rfl | rfl | rfl, hempty⟩ <;> exact ⟨by simp [hword], hempty⟩

end Sys2Proof.Machine
end

section
/-! The registers as the host sees them: the map, reads, writes, STATUS, the interrupt and the reset input. -/

namespace Sys2Proof.Machine

/-! ### A transaction, idle and held -/

/-- The outside world takes its next transaction. -/
theorem hostTurn_cons {s : State} {i : Input} {rest : List Input} (h : s.inputs = i :: rest) :
    hostTurn s = hostInput i { s with inputs := rest } := by
  simp only [hostTurn, h]

/-- A transaction that brings no instruction, while idle: its own effect. -/
theorem step_idle {s t : State} (h : s.inflight = none) (ht : hostTurn s = .plain (.next t)) : step s = .next t := by
  rw [step_eq_engineTurn, fetch_idle h, ht, engineTurn_idle h]
  rfl

/-- A step that is not at a tag dispatch is the outside world's turn first. -/
theorem fetch_of_blockAtTag_none {s : State} (h : blockAtTag s = none) : fetch s = hostTurn s := by
  simp [fetch, h]

/-- A transaction that is refused refuses the step. -/
theorem step_refused {s : State} {r : Refusal} (h : blockAtTag s = none) (ht : hostTurn s = .plain (.refused r)) :
    step s = .refused r := by
  rw [step_eq_engineTurn, fetch_of_blockAtTag_none h, ht]
  rfl

/-- Completion leaves the parameter registers. -/
@[simp] theorem settled_params (s : State) : s.settled.params = s.params := by
  unfold State.settled
  split
  · split
    · exact complete_params _ _ _
    · rfl
  · rfl

@[simp] theorem oneStepOn_params (s : State) (c : InFlight) (code : Code) (n : Nat) :
    (s.oneStepOn c code n).params = s.params := by
  unfold State.oneStepOn
  split
  · exact settled_params s
  · rfl

/-! ### Reads -/

theorem regAccessWf_word {off : BitVec 11} (h : off.toNat % 4 = 0) : regAccessWf off .word = true :=
  regAccessWf_iff.2 ⟨rfl, h⟩

/-- A 32-bit read returns the register's value and changes nothing. -/
theorem hostTurn_rd {s : State} {off : BitVec 11} {rest : List Input} (hin : s.inputs = .rd off .word :: rest)
    (h : off.toNat % 4 = 0) :
    hostTurn s = .plain (.next { s with inputs := rest, readData := some (s.readReg (Reg.ofOffset off)) }) := by
  rw [hostTurn_cons hin, hostInput, hostRead, if_pos (regAccessWf_word h)]
  cases Reg.ofOffset off <;> rfl

/-- Slot `i` of the palette cache stands at offset 0x400 + 4 i. -/
theorem Reg.ofOffset_pcache (i : Fin 256) : Reg.ofOffset (BitVec.ofNat 11 (0x400 + 4 * i.val)) = .pcache i := by
  have := i.isLt
  have hoff : (BitVec.ofNat 11 (0x400 + 4 * i.val)).toNat = 0x400 + 4 * i.val := by
    rw [BitVec.toNat_ofNat]; omega
  rw [Reg.ofOffset_high (by omega), if_pos (by omega), hoff]
  congr 1
  ext
  simp only [Fin.ofNat, Nat.add_sub_cancel_left]
  omega

/-- The offsets between the parameter registers and the palette cache are reserved. -/
theorem Reg.ofOffset_reserved {n : Nat} (h0 : 0x088 ≤ n) (h1 : n ≤ 0x3FC) :
    Reg.ofOffset (BitVec.ofNat 11 n) = .reserved := by
  have hoff : (BitVec.ofNat 11 n).toNat = n := by rw [BitVec.toNat_ofNat]; omega
  rw [Reg.ofOffset_high (by omega), if_neg (by omega)]

/-- Settles O3: a read is the outside world's turn of its step, idle and held. -/
theorem registersStandAndReadAtTheirOffsets : Obligations.RegistersStandAndReadAtTheirOffsets := by
  refine ⟨⟨rfl, rfl, rfl, rfl, rfl, rfl, rfl⟩, fun r => ⟨Reg.ofOffset_param r, by cases r <;> rfl⟩, Reg.ofOffset_pcache,
    fun n h0 h1 _ => Reg.ofOffset_reserved h0 h1, fun s off rest hi hoff hin => step_idle hi (hostTurn_rd hin hoff),
    fun s c code n off rest hc hp hoff hin => step_held hc hp (hostTurn_rd hin hoff) rfl,
    fun s => ⟨rfl, rfl, rfl, rfl, fun i => ⟨fun hslot => ?_, fun color hslot => ?_⟩⟩⟩
  · simp only [State.readReg, hslot]; rfl
  · simp only [State.readReg, hslot]; rfl

/-! ### Writes of a parameter register -/

/-- The machine with a parameter register written, the transaction taken (10_state.md R70). -/
def State.paramWritten (s : State) (rest : List Input) (r : ParamReg) (data : Word) : State :=
  { s with inputs := rest, params := s.params.set r (data &&& r.mask) }

theorem hostTurn_param {s : State} {r : ParamReg} {data : Word} {rest : List Input}
    (hin : s.inputs = .wr r.offset .word data :: rest) :
    hostTurn s = .plain (.next (s.paramWritten rest r data)) := by
  rw [hostTurn_cons hin, hostInput, hostWrite_param]
  rfl

/-- A parameter register holds the fields written to it, and no other is changed. -/
theorem paramWritten_get (s : State) (rest : List Input) (r : ParamReg) (data : Word) :
    (s.paramWritten rest r data).params.get r = data &&& r.mask
    ∧ ∀ q : ParamReg, q ≠ r → (s.paramWritten rest r data).params.get q = s.params.get q := by
  refine ⟨?_, fun q hq => ?_⟩
  · rw [State.paramWritten, Params.get_set, if_pos rfl]
  · rw [State.paramWritten, Params.get_set, if_neg hq]

/-- A read of a parameter register that holds only fields returns them. -/
theorem readReg_param_of_get {s : State} {r : ParamReg} {data : Word} (h : s.params.get r = data &&& r.mask) :
    s.readReg (.param r) = data &&& r.mask := by
  rw [State.readReg, h, BitVec.and_assoc, BitVec.and_self]

/-- Settles O4: the write is `State.paramWritten`, whose registers are known. -/
theorem parameterWriteIsReadBackWithoutReservedBits : Obligations.ParameterWriteIsReadBackWithoutReservedBits := by
  refine ⟨fun s r data rest hi hin => ?_, fun r => by cases r <;> rfl⟩
  obtain ⟨hget, hother⟩ := paramWritten_get s rest r data
  exact ⟨_, step_idle hi (hostTurn_param hin), rfl, readReg_param_of_get hget, hget, hother⟩

/-- Settles O18: the write is the host's, before the engine's turn takes the command's record one step on. -/
theorem parameterWriteWhileBusySparesTheCommand : Obligations.ParameterWriteWhileBusySparesTheCommand := by
  intro s c code n r data rest hc hp hin
  obtain ⟨hget, hother⟩ := paramWritten_get s rest r data
  exact ⟨_, step_held hc hp (hostTurn_param hin) rfl, rfl, readReg_param_of_get hget,
    readReg_param_of_get (by rw [oneStepOn_params]; exact hget), hother⟩

/-! ### Ignored and refused accesses -/

/-- A register that ignores writes: reserved, or read-only (10_state.md R32). -/
def Reg.ignoresWrites : Reg → Prop
  | .reserved | .id | .result0 | .result1 | .result2 | .dbufBlock | .pcache _ => True
  | .cmd | .status | .param _ => False

/-- A 32-bit write to a register that ignores writes changes nothing. -/
theorem hostTurn_ignored {s : State} {off : BitVec 11} {data : Word} {rest : List Input}
    (hin : s.inputs = .wr off .word data :: rest) (h : off.toNat % 4 = 0) (hr : (Reg.ofOffset off).ignoresWrites) :
    hostTurn s = .plain (.next { s with inputs := rest }) := by
  rw [hostTurn_cons hin, hostInput, hostWrite, if_pos (regAccessWf_word h)]
  cases ho : Reg.ofOffset off with
  | cmd => rw [ho] at hr; exact hr.elim
  | status => rw [ho] at hr; exact hr.elim
  | param q => rw [ho] at hr; exact hr.elim
  | _ => rfl

/-- An access of another width or alignment is refused (10_state.md R32). -/
theorem hostTurn_odd {s : State} {off : BitVec 11} {width : AccessWidth} {data : Word} {rest : List Input}
    (hodd : width ≠ .word ∨ off.toNat % 4 ≠ 0)
    (hin : s.inputs = .wr off width data :: rest ∨ s.inputs = .rd off width :: rest) :
    hostTurn s = .plain (.refused .registerAccess) := by
  have hwf : ¬ regAccessWf off width = true := by rw [regAccessWf_iff]; tauto
  rcases hin with hin | hin
  · rw [hostTurn_cons hin, hostInput, hostWrite, if_neg hwf]
  · rw [hostTurn_cons hin, hostInput, hostRead, if_neg hwf]

/-- Settles O5: an ignored write is a transaction without effect, and an odd access a refused one. -/
theorem reservedAndReadOnlyOffsetsAndOddAccesses : Obligations.ReservedAndReadOnlyOffsetsAndOddAccesses := by
  refine ⟨fun s off data rest hoff hin hreg => ?_, fun s => ⟨rfl, rfl, rfl⟩,
    fun s off width data rest hb hodd hin => step_refused hb (hostTurn_odd hodd hin)⟩
  have hignored : (Reg.ofOffset off).ignoresWrites := by
    rcases hreg with h | h | h | h | h | h | ⟨i, h⟩ <;> rw [h] <;> trivial
  have hturn := hostTurn_ignored hin hoff hignored
  exact ⟨fun hi => step_idle hi hturn, fun c code n hc hp => step_held hc hp hturn rfl⟩

/-! ### STATUS and the interrupt -/

/-- The flags of STATUS, and its reserved bit 3 (10_state.md R36). -/
theorem statusWord_flags (s : State) :
    s.statusWord.getLsbD 0 = s.busy ∧ s.statusWord.getLsbD 1 = s.done ∧ s.statusWord.getLsbD 2 = s.dropped
      ∧ s.statusWord.getLsbD 3 = false ∧ s.statusWord.getLsbD 8 = s.frameBound ∧ s.statusWord.getLsbD 9 = s.dbufValid
      ∧ s.statusWord.getLsbD 10 = s.treeValid := by
  simp only [State.statusWord, BitVec.getLsbD_append, BitVec.getLsbD_ofBool, BitVec.getLsbD_zero]
  simp

/-- ERR stands in bits 7:4 of STATUS. -/
theorem statusWord_err (s : State) : s.statusWord.extractLsb' 4 4 = s.err.bits := by
  refine BitVec.eq_of_getLsbD_eq fun i hi => ?_
  simp only [State.statusWord, BitVec.getLsbD_extractLsb', BitVec.getLsbD_append]
  interval_cases i <;> simp

/-- The bits of STATUS from 11 up are reserved. -/
theorem statusWord_reserved (s : State) {i : Nat} (hi : 11 ≤ i) : s.statusWord.getLsbD i = false := by
  obtain ⟨k, rfl⟩ := Nat.exists_eq_add_of_le' hi
  simp only [State.statusWord, BitVec.getLsbD_append]
  simp

/-- Settles O6 from the layout of the STATUS word. -/
theorem statusWordShowsTheFlags : Obligations.StatusWordShowsTheFlags := by
  refine ⟨fun s => ?_, rfl, rfl, rfl, rfl, rfl, rfl, rfl, rfl, rfl, rfl, rfl, rfl, rfl, rfl, rfl, rfl⟩
  obtain ⟨hbusy, hdone, hdropped, hgap, hframe, hdbuf, htree⟩ := statusWord_flags s
  exact ⟨hbusy, hdone, hdropped, hgap, statusWord_err s, hframe, hdbuf, htree, fun _ hi => statusWord_reserved s hi⟩

/-- A write of STATUS clears its write-one-to-clear bits and does nothing else. -/
theorem hostTurn_status {s : State} {data : Word} {rest : List Input}
    (hin : s.inputs = .wr 0x00C#11 .word data :: rest) :
    hostTurn s = .plain (.next ({ s with inputs := rest }.clearStatus data)) := by
  rw [hostTurn_cons hin, hostInput, hostWrite_status]

/-- Clearing a bit where the data has a 1. -/
theorem clear_eq_ite (flag b : Bool) : (flag && !b) = if b then false else flag := by
  cases b <;> simp

/-- Settles O7: the write is `State.clearStatus`, before the engine's turn. -/
theorem statusWriteAcknowledges : Obligations.StatusWriteAcknowledges := by
  rintro s _ data rest hin rfl
  have hturn := hostTurn_status hin
  rw [State.clearStatus, clear_eq_ite, clear_eq_ite] at hturn
  refine ⟨fun hi => step_idle hi hturn, fun c code n hc hp => step_held hc hp hturn rfl, fun hack => ?_⟩
  simp [State.irq, hack]

/-- Settles O8: DONE is bit 1 of STATUS, and IRQ_EN a field of CTRL. -/
theorem interruptIsDoneAndEnabled : Obligations.InterruptIsDoneAndEnabled := by
  intro s
  obtain ⟨_, hdone, _⟩ := statusWord_flags s
  have henable : (s.readReg (.param .ctrl)).getLsbD 2 = s.params.ctrl.getLsbD 2 := by
    simp [State.readReg, Params.get, ParamReg.mask]
  rw [henable, State.readReg, hdone, State.irq, Bool.and_eq_true]

/-! ### The reset input -/

/-- A reset clears every parameter register. -/
theorem resetBlock_get (s : State) (r : ParamReg) : (resetBlock s).params.get r = 0#32 := by
  cases r <;> rfl

theorem resetBlock_readReg_param (s : State) (r : ParamReg) : (resetBlock s).readReg (.param r) = 0#32 := by
  rw [State.readReg, resetBlock_get]
  exact BitVec.zero_and

/-- A reset leaves every slot of the palette cache unresolved. -/
theorem resetBlock_readReg_pcache (s : State) (i : Fin 256) : (resetBlock s).readReg (.pcache i) = 0xFFFFFFFF#32 := by
  have hslot : (resetBlock s).pcache[i] = none := emptyCache_get i
  rw [State.readReg, hslot]
  rfl

theorem resetBlock_statusWord (s : State) : (resetBlock s).statusWord = 0#32 :=
  show State.reset.statusWord = 0#32 by decide

/-- A reset leaves nothing for the engine's turn. -/
theorem step_reset {s : State} {rest : List Input} (hb : blockAtTag s = none) (hin : s.inputs = .reset :: rest) :
    step s = .next (resetBlock { s with inputs := rest }) := by
  rw [step_eq_engineTurn, fetch_of_blockAtTag_none hb, hostTurn_cons hin, hostInput, Fetched.outcome, engineTurn]
  split <;> rfl

/-- Settles O1, register by register. -/
theorem resetInputLeavesTheListedState : Obligations.ResetInputLeavesTheListedState := by
  intro s
  refine ⟨fun r => ?_, resetBlock_get s, emptyCache_get, rfl, rfl, rfl, rfl, rfl, rfl, rfl, rfl, rfl, rfl, fun hi => ?_,
    fun rest hb hin => step_reset hb hin⟩
  · cases r with
    | param q => exact resetBlock_readReg_param s q
    | pcache i => exact resetBlock_readReg_pcache s i
    | status => exact resetBlock_statusWord s
    | _ => rfl
  · change memoryAtReset s = s.mem
    simp only [memoryAtReset, hi]

end Sys2Proof.Machine
end

section
/-! The host's accesses to system memory: a plain byte stored and loaded, and the regions of a command in flight. -/

namespace Sys2Proof.Machine

/-- A plain byte lies outside the register block. -/
theorem regWindow_of_not_isDevice {p : Platform} {a : Nat} (h : p.isDevice a = false) : p.regWindow.has a = false := by
  unfold Platform.isDevice at h
  exact (Bool.or_eq_false_iff.1 h).1

theorem Region.has_self (a : Nat) : Region.has ⟨a, 1⟩ a = true := Region.has_mk (i := 0) Nat.one_pos

/-- A host store to a plain byte is refused only where a command in flight reads or writes it. -/
theorem hostTurn_store {s : State} {a : Word} {v : Byte} {rest : List Input} (hin : s.inputs = .memWr a v :: rest)
    (h : s.writesPlain ⟨a.toNat, 1⟩) :
    hostTurn s = .plain (if s.regionWritten a.toNat || s.regionRead a.toNat then .refused .hostTouchesRegion
      else .next { s with inputs := rest, mem := s.mem.write a.toNat v }) := by
  obtain ⟨_, hanswers, hdevice⟩ := h _ (Region.has_self _)
  simp only [hostTurn_cons hin, hostInput, hostStore, regWindow_of_not_isDevice hdevice, hanswers, hdevice]
  rfl

/-- A host load of a plain byte is refused only where a command in flight writes it. -/
theorem hostTurn_load {s : State} {a : Word} {rest : List Input} (hin : s.inputs = .memRd a :: rest)
    (h : s.readsPlain ⟨a.toNat, 1⟩) :
    hostTurn s = .plain (if s.regionWritten a.toNat then .refused .hostTouchesRegion
      else .next { s with inputs := rest, readData := some ((s.mem.read a.toNat).zeroExtend 32) }) := by
  obtain ⟨_, hanswers, hdevice⟩ := h _ (Region.has_self _)
  simp only [hostTurn_cons hin, hostInput, hostLoad, regWindow_of_not_isDevice hdevice, hanswers, hdevice]
  rfl

theorem regionWritten_iff {s : State} {c : InFlight} (hc : s.inflight = some c) {a : Nat} :
    s.regionWritten a = true ↔ ∃ r ∈ c.writes, r.has a = true := by
  simp [State.regionWritten, hc]

theorem regionRead_iff {s : State} {c : InFlight} (hc : s.inflight = some c) {a : Nat} :
    s.regionRead a = true ↔ ∃ r ∈ c.reads, r.has a = true := by
  simp [State.regionRead, hc]

/-- An idle machine keeps the host off no byte. -/
theorem regionWritten_idle {s : State} (hi : s.inflight = none) (a : Nat) : s.regionWritten a = false := by
  simp [State.regionWritten, hi]

theorem regionRead_idle {s : State} (hi : s.inflight = none) (a : Nat) : s.regionRead a = false := by
  simp [State.regionRead, hi]

/-- Settles O19: the host's turn is refused, and with it the step. -/
theorem hostAccessToRegionsInFlightIsRefused : Obligations.HostAccessToRegionsInFlightIsRefused := by
  intro s c code n a v rest hc hp hreads hwrites haccess
  have hb : blockAtTag s = none := by simp [blockAtTag, hc, hp]
  have hwritten := regionWritten_iff hc (a := a.toNat)
  have hread := regionRead_iff hc (a := a.toNat)
  refine step_refused hb ?_
  rcases haccess with ⟨hin, hregion⟩ | ⟨hin, hregion⟩
  · rw [hostTurn_store hin hwrites, if_pos]
    rw [Bool.or_eq_true]
    exact hregion.imp hwritten.2 hread.2
  · rw [hostTurn_load hin hreads, if_pos]
    exact hwritten.2 hregion

/-- An idle machine stores the host's byte. -/
theorem step_store {s : State} {a : Word} {v : Byte} {rest : List Input} (hi : s.inflight = none)
    (hin : s.inputs = .memWr a v :: rest) (h : s.writesPlain ⟨a.toNat, 1⟩) :
    step s = .next { s with inputs := rest, mem := s.mem.write a.toNat v } :=
  step_idle hi (by simp [hostTurn_store hin h, regionWritten_idle hi, regionRead_idle hi])

/-- An idle machine gives the host the byte it loads. -/
theorem step_load {s : State} {a : Word} {rest : List Input} (hi : s.inflight = none) (hin : s.inputs = .memRd a :: rest)
    (h : s.readsPlain ⟨a.toNat, 1⟩) :
    step s = .next { s with inputs := rest, readData := some ((s.mem.read a.toNat).zeroExtend 32) } :=
  step_idle hi (by simp [hostTurn_load hin h, regionWritten_idle hi])

/-- Settles O20: a store and then a load of an idle machine. -/
theorem hostStoreIsLoadedBack : Obligations.HostStoreIsLoadedBack := by
  intro s a v rest hi hreads hwrites hin
  have hload := step_load (s := { s with inputs := .memRd a :: rest, mem := s.mem.write a.toNat v }) hi rfl hreads
  rw [Memory.read_write_self] at hload
  exact ⟨_, _, by rw [run_next (step_store hi hin hwrites), run_next hload]; rfl, rfl, Memory.read_write_self _ _ _,
    fun x hx => Memory.read_write_other _ _ hx⟩

end Sys2Proof.Machine
end

section
/-! Where an instruction writes memory, and that it stays inside the address space: one lemma over the fifteen instructions
gives both. -/

namespace Sys2Proof.Machine

/-! ### The bytes a body leaves as they were -/

/-- The bytes at addresses without `W` read in `n` as in `m`. -/
def Memory.Spares (W : Nat → Prop) (m n : Memory) : Prop := ∀ a, ¬ W a → n.read a = m.read a

theorem Memory.Spares.refl (W : Nat → Prop) (m : Memory) : m.Spares W m := fun _ _ => rfl

/-- A body writes only at addresses with `W`, on every path, and faults only if `F`. -/
abbrev Run.Spares (W : Nat → Prop) (F : Prop) (b : Run) (x : Except Stop Run) : Prop :=
  Comes (fun u => b.st.mem.Spares W u.st.mem) (fun _ u => b.st.mem.Spares W u.st.mem) F x

theorem BodyWrites.spares {W : Nat → Prop} {k : Bool} {F : Prop} {b : Run} {x : Except Stop Run}
    (h : BodyWrites W k F b x) : b.Spares W F x :=
  h.mono (fun _ h => h.mem) (fun _ _ h => h.mem) id

/-- A check writes nothing. -/
theorem Run.require_spares {W : Nat → Prop} {F : Prop} (b : Run) (cond : Bool) (code : Code) :
    Comes (fun _ => True) (fun _ u => b.st.mem.Spares W u.st.mem) F (b.require cond code) :=
  (b.require_wrote (W := W) (k := false) cond code).mono (fun _ _ => trivial) (fun _ _ h => h.mem) id

/-- BIND_FRAME writes no memory. -/
theorem bindBody_spares {W : Nat → Prop} {F : Prop} (b : Run) : b.Spares W F (bindBody b) := by
  have check (cond : Bool) (code : Code) : Comes (fun _ => True) (fun _ u => b.st.mem.Spares W u.st.mem) F
      (({ b with st := b.st.unbindFrame } : Run).require cond code) := Run.require_spares _ cond code
  refine Comes.bind (P := fun _ => True) ?_ fun _ _ => Memory.Spares.refl W b.st.mem
  refine Comes.bind (check _ _) fun _ _ => ?_
  refine Comes.bind (check _ _) fun _ _ => ?_
  refine Comes.bind (check _ _) fun _ _ => ?_
  exact check _ _

/-- MARK_DECODED writes no memory. -/
theorem markBody_spares {W : Nat → Prop} {F : Prop} (b : Run) : b.Spares W F (markBody b) := by
  refine Comes.bind (b.require_spares _ _) fun _ _ => ?_
  refine Comes.bind (b.require_spares _ _) fun _ _ => ?_
  exact Memory.Spares.refl W b.st.mem

/-- HUFF_BUILD writes no memory. -/
theorem buildBody_spares {W : Nat → Prop} {F : Prop} (b : Run) : b.Spares W F (buildBody b) := by
  refine (buildBody_comes b F).mono ?_ ?_ id
  · rintro u ⟨⟨_, _, hst, _⟩, _⟩
    rw [hst]
    exact Memory.Spares.refl W _
  · rintro _ u ⟨_, hst, _⟩
    rw [hst]
    exact Memory.Spares.refl W _

/-! ### The tags -/

/-- The same block, under the same parameters. -/
structure Run.SameBlock (b v : Run) : Prop where
  params : v.c.params = b.c.params
  size : v.blockSize = b.blockSize

theorem Run.Wrote.sameBlock {W : Nat → Prop} {k : Bool} {b v : Run} (h : b.Wrote W k v) : b.SameBlock v :=
  ⟨h.params, by unfold Run.blockSize; rw [h.st, h.params]⟩

theorem Run.SameBlock.tagWrites {b v : Run} (h : b.SameBlock v) (scr : Bool) : tagWrites v scr = tagWrites b scr := by
  unfold Machine.tagWrites
  rw [h.params, h.size]

theorem Run.SameBlock.tagFaults {b v : Run} {F : Prop} (h : b.SameBlock v) (hF : TagFaults b F) : TagFaults v F :=
  ⟨h.params ▸ hF.blk, h.params ▸ hF.dbuf⟩

/-- A tag writes and faults where its body does, on a block that DBUF can hold. -/
theorem tagBody_writes {W : Nat → Prop} {F : Prop} {b : Run} (tag : Byte) (valid : Bool) {body : Run → Except Stop Run}
    (hbody : ∀ v, b.SameBlock v → v.blockSize ≤ v.c.params.dbufCap.toNat → BodyWrites W false F v (body v)) :
    BodyWrites W false F b (do body (← tagChecks tag valid b)) :=
  Comes.bind (tagChecks_wrote tag valid b F) fun v ⟨hv, hsize, _⟩ =>
    (hbody v hv.sameBlock (by rw [hv.sameBlock.size, hv.params]; exact hsize)).after hv

/-! ### What `exec` leaves of memory -/

/-- An outcome writes only at addresses with `W`, and is a fault only if `F`. -/
def OutcomeSpares (W : Nat → Prop) (F : Prop) (s : State) (o : Host.Outcome State Fault Refusal) : Prop :=
  (∀ t, o = .next t → s.mem.Spares W t.mem) ∧ ∀ f, o = .fault f → F

theorem OutcomeSpares.of_next {W : Nat → Prop} {F : Prop} {s t : State} (h : t.mem = s.mem) :
    OutcomeSpares W F s (.next t) :=
  ⟨fun _ e => by cases e; rw [h]; exact Memory.Spares.refl W _, nofun⟩

theorem OutcomeSpares.of_refused {W : Nat → Prop} {F : Prop} {s : State} {r : Refusal} : OutcomeSpares W F s (.refused r) :=
  ⟨fun _ e => (nomatch e), fun _ e => (nomatch e)⟩

theorem Run.Spares.conclude {W : Nat → Prop} {F : Prop} {b : Run} {s : State} {x : Except Stop Run} (h : b.Spares W F x)
    (hs : b.st.mem = s.mem) : OutcomeSpares W F s (conclude x) :=
  conclude_comes (P := fun t => s.mem.Spares W t.mem)
    (h.mono (fun u h => by rw [settle_mem, ← hs]; exact h) (fun _ u h => by rw [settle_mem, ← hs]; exact h) id)

/-- A command is dropped while BUSY, and else writes what its body writes. -/
theorem runCommand_spares {W : Nat → Prop} {F : Prop} {op : Byte} {body : Run → Except Stop Run} {s : State}
    (h : (acceptRun op s).Spares W F (body (acceptRun op s))) : OutcomeSpares W F s (runCommand op body s) := by
  cases hi : s.inflight with
  | none => rw [runCommand_idle hi]; exact h.conclude rfl
  | some c => rw [runCommand_busy (by simp [hi])]; exact .of_next rfl

/-- A tag writes what its body writes. -/
theorem runTag_spares {W : Nat → Prop} {F : Prop} {body : Run → Except Stop Run} {s : State}
    (h : ∀ b, blockAtTag s = some b → b.Spares W F (body b)) : OutcomeSpares W F s (runTag body s) := by
  unfold runTag
  split
  · next b hb => exact (h b hb).conclude (by obtain ⟨c, _, _, rfl⟩ := blockAtTag_some hb; rfl)
  · exact .of_refused

/-- DECODE_BLOCK up to its tag dispatch writes nothing. -/
theorem execDecodeBlock_spares (W : Nat → Prop) (F : Prop) (s : State) : OutcomeSpares W F s (execDecodeBlock s) := by
  have hc := decodeChecks_comes (acceptDecode s)
  unfold execDecodeBlock
  split
  · exact .of_next rfl
  · split
    · exact .of_next rfl
    · next e he =>
      rw [he] at hc
      refine Run.Spares.conclude (b := acceptDecode s) ?_ rfl
      match e, hc with
      | .ended code u, hc => obtain ⟨_, rfl⟩ := hc; exact Memory.Spares.refl W _
      | .refuse _, _ => trivial

/-! ### What the invariant keeps inside the address space -/

/-- A bound frame with a palette has it inside the address space (43_frame_context.md R351, R352). -/
theorem State.Inv.palette_lt {s : State} (h : s.Inv) (hbound : s.frameBound = true) (hd : s.frame.depth ≠ 24#8) {i : Nat}
    (hi : i < paletteBytes s.frame.depth) : s.frame.palAddr.toNat + i < spaceSize :=
  Region.fits_lt ((h.frame hbound).palette.resolve_left hd) hi

theorem ne_24_of_indexedDepth {d : Byte} (h : indexedDepth d = true) : d ≠ 24#8 := by
  rintro rfl
  cases h

/-- A DECODE_BLOCK at its tag dispatch has its payload and DBUF inside the address space (40_block_decoder.md R200). -/
theorem tagFaults_of_blockAtTag {s : State} {b : Run} (hb : blockAtTag s = some b) : TagFaults b (¬ s.Inv) := by
  obtain ⟨c, hc, hp, rfl⟩ := blockAtTag_some hb
  have fits (hinv : s.Inv) : c.params.blkRegion.fits = true ∧ c.params.dbufRegion.fits = true := by
    obtain ⟨_, _, _, _, hblk, hdbuf⟩ := (hinv.inflight c hc).atTag hp
    exact ⟨hblk, hdbuf⟩
  exact ⟨fun i hi hs hinv => absurd hs (Nat.not_le.2 (Region.fits_lt (fits hinv).1 hi)),
    fun i hi hs hinv => absurd hs (Nat.not_le.2 (Region.fits_lt (fits hinv).2 hi))⟩

/-- The bytes an instruction may write: those of its write regions. -/
def mayWrite (i : Instr) (s : State) (a : Nat) : Prop := ∃ r ∈ writeRegions i s, r.has a = true

/-- Tags 0 and 3 may write the block in DBUF. -/
theorem mayWrite_block {s : State} {b : Run} (hb : blockAtTag s = some b) {i : Instr}
    (hi : i = .blkRle ∨ i = .blkHuffmanDirect) {a : Nat} (ha : tagWrites b false a) : mayWrite i s a := by
  rcases hi with rfl | rfl <;> simpa [mayWrite, writeRegions, hb, tagWrites] using ha

/-- Tag 1 may write SCR and the block in DBUF. -/
theorem mayWrite_scr {s : State} {b : Run} (hb : blockAtTag s = some b) {a : Nat} (ha : tagWrites b true a) :
    mayWrite .blkHuffman s a := by
  simpa [mayWrite, writeRegions, hb, tagWrites] using ha

/-- A body that writes only what an instruction may. -/
theorem BodyWrites.weaken {W W' : Nat → Prop} {k : Bool} {F : Prop} {b : Run} {x : Except Stop Run}
    (h : BodyWrites W k F b x) (hW : ∀ a, W a → W' a) : BodyWrites W' k F b x :=
  h.mono (fun _ h => h.weaken hW) (fun _ _ h => h.weaken hW) id

/-- Every instruction writes only its write regions, and makes an access outside the address space only where the invariant
does not hold. -/
theorem exec_spares (i : Instr) (s : State) : OutcomeSpares (mayWrite i s) (¬ s.Inv) s (exec i s) := by
  have region {i : Instr} {r : Region} (hr : r ∈ writeRegions i s) (a : Nat) (ha : r.has a = true) : mayWrite i s a :=
    ⟨r, hr, ha⟩
  cases i with
  | nop => exact runCommand_spares (Memory.Spares.refl _ s.mem)
  | bindFrame => exact runCommand_spares (bindBody_spares _)
  | decodeBlock => exact execDecodeBlock_spares _ _ s
  | composite =>
    refine runCommand_spares ((compositeBody_wrote _ fun hbound hd i hi hs hinv => ?_).weaken
      (region (List.mem_singleton.2 rfl))).spares
    exact absurd hs (Nat.not_le.2 (hinv.palette_lt hbound (ne_24_of_indexedDepth hd) hi))
  | markDecoded => exact runCommand_spares (markBody_spares _)
  | huffBuild => exact runCommand_spares (buildBody_spares _)
  | huffDecode =>
    exact runCommand_spares ((huffDecodeBody_wrote _ _).weaken (region (List.mem_singleton.2 rfl))).spares
  | rleExpand =>
    exact runCommand_spares ((rleExpandBody_wrote _ _).weaken (region (List.mem_singleton.2 rfl))).spares
  | palResolve =>
    refine runCommand_spares ((palResolveBody_wrote _ fun hbound hd i hi hs hinv => ?_).weaken fun _ => False.elim).spares
    exact absurd hs (Nat.not_le.2 (hinv.palette_lt hbound hd hi))
  | pcacheFlush =>
    exact runCommand_spares (body := fun u => .ok { u with st := u.st.flushCache }) (Memory.Spares.refl _ s.mem)
  | unbind =>
    exact runCommand_spares (body := fun u => .ok { u with st := u.st.unbindFrame }) (Memory.Spares.refl _ s.mem)
  | blkRle =>
    refine runTag_spares fun b hb => (tagBody_writes _ _ fun v hv hsize => ?_).spares
    exact (rleBlock_wrote v (hv.tagFaults (tagFaults_of_blockAtTag hb)) hsize).weaken fun a ha =>
      mayWrite_block hb (.inl rfl) (hv.tagWrites false ▸ ha)
  | blkHuffman =>
    refine runTag_spares fun b hb => (tagBody_writes _ _ fun v hv hsize => ?_).spares
    exact (huffmanBlock_wrote v (hv.tagFaults (tagFaults_of_blockAtTag hb)) hsize).weaken fun a ha =>
      mayWrite_scr hb (hv.tagWrites true ▸ ha)
  | blkJpeg =>
    refine runTag_spares fun b _ => (tagBody_writes _ _ fun v _ _ => ?_).spares
    exact (jpegBlock_wrote v _).weaken fun _ => False.elim
  | blkHuffmanDirect =>
    refine runTag_spares fun b hb => (tagBody_writes _ _ fun v hv hsize => ?_).spares
    exact (directBlock_wrote v (hv.tagFaults (tagFaults_of_blockAtTag hb)) hsize).weaken fun a ha =>
      mayWrite_block hb (.inr rfl) (hv.tagWrites false ▸ ha)

/-- Settles O53: the first half of `exec_spares`. -/
theorem noByteOutsideTheWriteRegionsChanges : Obligations.NoByteOutsideTheWriteRegionsChanges := by
  intro i s t ht a ha
  refine (exec_spares i s).1 t ht a ?_
  rintro ⟨r, hr, hhas⟩
  rw [ha r hr] at hhas
  cases hhas

/-! ### Where a step can fault -/

theorem engineTurn_fault {s : State} {o : Host.Outcome State Fault Refusal} {f : Fault} (h : engineTurn s o = .fault f) :
    o = .fault f := by
  unfold engineTurn at h
  split at h
  · split at h <;> cases h
  · exact h
  · cases h

theorem reservedCommand_ne_fault (op : Byte) (s : State) (f : Fault) : reservedCommand op s ≠ .fault f := by
  unfold reservedCommand
  split <;> nofun

/-- A register write faults only in an instruction written to CMD. -/
theorem hostWrite_fault {s : State} {off : BitVec 11} {width : AccessWidth} {data : Word} {f : Fault}
    (h : (hostWrite off width data s).outcome = .fault f) : ∃ i, exec i s = .fault f := by
  unfold hostWrite at h
  split at h
  · split at h
    · unfold fetchCommand at h
      split at h
      · exact ⟨_, h⟩
      · exact absurd h (reservedCommand_ne_fault _ _ _)
    · cases h
  · cases h

/-- The outside world's turn faults only in an instruction that the host has written to CMD. -/
theorem hostTurn_fault {s : State} {f : Fault} (h : (hostTurn s).outcome = .fault f) :
    ∃ i rest, exec i { s with inputs := rest } = .fault f := by
  unfold hostTurn at h
  split at h
  · cases h
  · next input rest _ =>
    cases input with
    | wr off width data => obtain ⟨i, hi⟩ := hostWrite_fault h; exact ⟨i, rest, hi⟩
    | rd off width => simp only [hostInput, Fetched.outcome, hostRead] at h; split_ifs at h
    | wait => simp only [hostInput, Fetched.outcome, hostWait] at h; split_ifs at h
    | memWr a v => simp only [hostInput, Fetched.outcome, hostStore] at h; split_ifs at h
    | memRd a => simp only [hostInput, Fetched.outcome, hostLoad] at h; split_ifs at h
    | idle => cases h
    | reset => cases h

theorem reservedTag_ne_fault (tag : Byte) (b : Run) (f : Fault) : reservedTag tag b ≠ .fault f := by
  refine (conclude_comes (P := fun _ => True) (F := False) ?_).2 f
  exact Comes.bind ((tagChecks_wrote (W := fun _ => False) tag false b False).mono (fun _ _ => trivial)
    (fun _ _ _ => trivial) id) fun _ _ => trivial

/-- The tag dispatch faults only in a tag's instruction: BLK_ADDR is a 32-bit address (20_memory.md R80). -/
theorem fetchTag_fault {s : State} {b : Run} {f : Fault} (h : (fetchTag b s).outcome = .fault f) :
    ∃ i, exec i s = .fault f := by
  have hread := b.nameTag.read_comes b.c.params.blkAddr.toNat
  unfold fetchTag at h
  split at h
  · next e he =>
    rw [he] at hread
    match e, hread with
    | .ended _ _, _ => cases h
    | .refuse _, _ => cases h
    | .fault _, hspace => exact absurd b.c.params.blkAddr.isLt (Nat.not_lt.2 hspace)
  · split at h
    · exact ⟨_, h⟩
    · exact absurd h (reservedTag_ne_fault _ _ _)

/-- Settles O60: a step faults only in an instruction, and by `exec_spares` none faults under the invariant. -/
theorem wellFormedMachinesNeverFault : Obligations.WellFormedMachinesNeverFault := by
  intro s f hinv h
  rw [step_eq_engineTurn] at h
  have ho := engineTurn_fault h
  cases hb : blockAtTag s with
  | some b =>
    rw [fetch_atTag hb] at ho
    obtain ⟨i, hi⟩ := fetchTag_fault ho
    exact (exec_spares i s).2 f hi hinv
  | none =>
    rw [fetch_of_blockAtTag_none hb] at ho
    obtain ⟨i, rest, hi⟩ := hostTurn_fault ho
    exact (exec_spares i _).2 f hi (hinv.host s.dropped rest s.readData hinv.params hinv.mem id)

end Sys2Proof.Machine
end

section
/-! Commands whose regions overlap are refused, before anything else they do (20_memory.md R93). -/

namespace Sys2Proof.Machine

/-! ### Regions that share a byte -/

theorem Region.meets_of_has {r q : Region} {a : Nat} (hr : r.has a = true) (hq : q.has a = true) : q.meets r = true := by
  by_contra h
  rw [Region.apart (Bool.eq_false_of_not_eq_true h) hr] at hq
  cases hq

/-- Two write regions that share a byte overlap. -/
theorem regionsClash_of_writes {reads ws : List Region} {r w : Region} {a : Nat} (hr : r ∈ ws) (hra : r.has a = true)
    (hwa : w.has a = true) : regionsClash reads (w :: ws) = true := by
  have hany : ws.any w.meets = true := List.any_eq_true.2 ⟨r, hr, Region.meets_of_has hra hwa⟩
  simp [regionsClash, hany]

/-- The rows of tags 0, 1 and 3 overlap where the payload and DBUF share a byte (20_memory.md R81). -/
theorem tagRegionsWith_clash_block {dbuf : List Region} {tag : Byte} {p : Params} {r : Region} {a : Nat}
    (htag : tag = 0x00#8 ∨ tag = 0x01#8 ∨ tag = 0x03#8) (hr : r ∈ dbuf) (hblk : p.blkRegion.has a = true)
    (hdbuf : r.has a = true) : regionsClash (tagRegionsWith dbuf tag p).1 (tagRegionsWith dbuf tag p).2 = true := by
  rcases htag with rfl | rfl | rfl
  · exact regionsClash_of_has (reads := [p.blkRegion]) (writes := dbuf) (List.mem_singleton.2 rfl) hr hblk hdbuf
  · exact regionsClash_of_has (reads := [p.blkRegion]) (writes := p.scrRegion :: dbuf) (List.mem_singleton.2 rfl)
      (List.mem_cons_of_mem _ hr) hblk hdbuf
  · exact regionsClash_of_has (reads := [p.blkRegion]) (writes := dbuf) (List.mem_singleton.2 rfl) hr hblk hdbuf

/-- The row of tag 1 overlaps where SCR shares a byte with the payload or with DBUF (20_memory.md R81). -/
theorem tagRegionsWith_clash_scr {dbuf : List Region} {p : Params} {a : Nat} (hscr : p.scrRegion.has a = true)
    (h : p.blkRegion.has a = true ∨ ∃ r ∈ dbuf, r.has a = true) :
    regionsClash (tagRegionsWith dbuf 0x01#8 p).1 (tagRegionsWith dbuf 0x01#8 p).2 = true := by
  change regionsClash [p.blkRegion] (p.scrRegion :: dbuf) = true
  rcases h with hblk | ⟨r, hr, hdbuf⟩
  · exact regionsClash_of_has (List.mem_singleton.2 rfl) List.mem_cons_self hblk hscr
  · exact regionsClash_of_writes hr hdbuf hscr

/-! ### Refused commands -/

theorem declare_bind_clash {α : Type} {u : Run} {reads writes : List Region} (f : Run → Except Stop α)
    (h : regionsClash reads writes = true) : u.declare reads writes >>= f = .error (.refuse .regionOverlap) := by
  rw [Run.declare_clash h]
  rfl

/-- A command whose body is refused is refused. -/
theorem runCommand_refused {op : Byte} {body : Run → Except Stop Run} {s : State} {r : Refusal} (hi : s.inflight = none)
    (h : body (acceptRun op s) = .error (.refuse r)) : runCommand op body s = .refused r := by
  rw [runCommand_idle hi, h]
  rfl

/-- COMPOSITE over the regions it is known to read is refused. -/
theorem compositeBody_clash {u : Run} (h : regionsClash (compositeKnown u.st u.c.params) [u.c.params.destRegion] = true) :
    compositeBody u = .error (.refuse .regionOverlap) := by
  rw [compositeBody, compositeDraw, declare_bind_clash _ h]
  rfl

/-- A tag runs its body from its dispatch. -/
theorem runTag_of {s : State} {u : Run} (hb : blockAtTag s = some u) (body : Run → Except Stop Run) :
    runTag body s = conclude (body u) := by
  simp only [runTag, hb]

/-- A tag whose regions overlap is refused. -/
theorem runTag_clash {s : State} {u : Run} (hb : blockAtTag s = some u) (tag : Byte) (valid : Run → Bool)
    (body : Run → Except Stop Run)
    (h : regionsClash (tagRegions tag u.st.frame u.c.params).1 (tagRegions tag u.st.frame u.c.params).2 = true) :
    runTag (fun u => do body (← tagChecks tag (valid u) u)) s = .refused .regionOverlap := by
  have hchecks : tagChecks tag (valid u) u = .error (.refuse .regionOverlap) := declare_bind_clash _ h
  rw [runTag_of hb, hchecks]
  rfl

theorem blockNamed_eq_false {s : State} {p : Params} :
    blockNamed s p = false ↔ s.frameBound = false ∨ s.frame.count.toNat ≤ p.index.toNat := by
  rw [blockNamed, Bool.and_eq_false_iff, decide_eq_false_iff_not, Nat.not_lt]

/-- The regions of a DECODE_BLOCK whose tag byte memory answers. -/
theorem decodeKnown_plain {s : State} {p : Params} (hlen : p.blkLen ≠ 0#32) (h : s.readsPlain ⟨p.blkAddr.toNat, 1⟩) :
    decodeKnown s p = tagRegionsWith
      (if blockNamed s p then [⟨p.dbufAddr.toNat, s.frame.blockSize p.index.toNat⟩] else [])
      (s.mem.read p.blkAddr.toNat) p := by
  obtain ⟨_, hanswers, hdevice⟩ := h _ (Region.has_self _)
  simp [decodeKnown, hlen, hanswers, hdevice]

/-- A DECODE_BLOCK that fails a check, and whose known regions overlap, is refused. -/
theorem execDecodeBlock_clash {s : State} (hi : s.inflight = none)
    (hfail : blockNamed s s.params = false ∨ s.params.blkRegion.fits = false ∨ s.params.dbufRegion.fits = false)
    (hclash : regionsClash (decodeKnown s s.params).1 (decodeKnown s s.params).2 = true) :
    execDecodeBlock s = .refused .regionOverlap := by
  have hchecks : decodeChecks (acceptDecode s) = .error (.refuse .regionOverlap) := by
    rw [decodeChecks_fail (hfail.imp_right .inr)]
    exact declare_bind_clash _ hclash
  simp [execDecodeBlock, State.busy, hi, hchecks, conclude]

/-- RLE_EXPAND and HUFF_DECODE are refused where input and output share a byte. -/
theorem inOut_clash {s : State} (hi : s.inflight = none)
    (h : ∃ a, s.params.inRegion.has a = true ∧ s.params.outRegion.has a = true) :
    exec .rleExpand s = .refused .regionOverlap ∧ exec .huffDecode s = .refused .regionOverlap := by
  obtain ⟨a, hin, hout⟩ := h
  have hclash : regionsClash [s.params.inRegion] [s.params.outRegion] = true :=
    regionsClash_of_has (List.mem_singleton.2 rfl) (List.mem_singleton.2 rfl) hin hout
  exact ⟨runCommand_refused hi (declare_bind_clash _ hclash), runCommand_refused hi (declare_bind_clash _ hclash)⟩

/-- COMPOSITE is refused where its destination shares a byte with the bound frame's palette or with a block of it. -/
theorem composite_clash {s : State} (hi : s.inflight = none) (hbound : s.frameBound = true) {a : Nat}
    (hdest : s.params.destRegion.has a = true)
    (h : (indexedDepth s.frame.depth = true ∧ s.frame.palRegion.has a = true)
      ∨ (s.params.index.toNat < s.frame.count.toNat
        ∧ Region.has ⟨s.params.dbufAddr.toNat, s.frame.blockSize s.params.index.toNat⟩ a = true)) :
    exec .composite s = .refused .regionOverlap := by
  have hknown : ∃ r ∈ compositeKnown s s.params, r.has a = true := by
    unfold compositeKnown compositeReads paletteReads
    rcases h with ⟨hindexed, hpal⟩ | ⟨hindex, hblock⟩
    · exact ⟨_, by split_ifs <;> simp, hpal⟩
    · exact ⟨_, by simp [hbound, hindex], hblock⟩
  obtain ⟨r, hr, hra⟩ := hknown
  exact runCommand_refused hi (compositeBody_clash (regionsClash_of_has hr (List.mem_singleton.2 rfl) hra hdest))

/-- Settles O55: each command names its regions before it does anything else. -/
theorem overlappingRegionsAreRefused : Obligations.OverlappingRegionsAreRefused := by
  refine ⟨fun s hi h => inOut_clash hi h, fun s hi hbound ⟨a, hdest, h⟩ => composite_clash hi hbound hdest h,
    fun s p hc => ?_, fun s tag hi hlen hplain htag hfail => ?_⟩
  · have hb := blockAtTag_of hc rfl
    refine ⟨fun ⟨a, hblk, hdbuf⟩ => ?_, fun ⟨a, hscr, h⟩ => ?_⟩
    · have clash {tag : Byte} (htag : tag = 0x00#8 ∨ tag = 0x01#8 ∨ tag = 0x03#8) :=
        tagRegionsWith_clash_block htag (List.mem_singleton.2 rfl) hblk hdbuf
      exact ⟨runTag_clash hb _ _ _ (clash (.inl rfl)), runTag_clash hb _ _ _ (clash (.inr (.inr rfl))),
        runTag_clash hb _ _ _ (clash (.inr (.inl rfl)))⟩
    · exact runTag_clash hb _ _ _ (tagRegionsWith_clash_scr hscr (by simpa using h))
  · have hnamed : blockNamed s s.params = false ∨ s.params.blkRegion.fits = false ∨ s.params.dbufRegion.fits = false := by
      rwa [blockNamed_eq_false, or_assoc]
    have hknown := decodeKnown_plain hlen hplain
    rw [htag] at hknown
    refine ⟨fun hkind hbound hindex ⟨a, hblk, hdbuf⟩ => execDecodeBlock_clash hi hnamed ?_,
      fun hone ⟨a, hscr, h⟩ => execDecodeBlock_clash hi hnamed ?_⟩
    · rw [hknown]
      exact tagRegionsWith_clash_block hkind (by simp [blockNamed, hbound, hindex]) hblk hdbuf
    · rw [hknown, hone]
      refine tagRegionsWith_clash_scr hscr (h.imp_right fun ⟨hbound, hindex, hdbuf⟩ => ⟨_, ?_, hdbuf⟩)
      simp [blockNamed, hbound, hindex]

end Sys2Proof.Machine
end

section
/-! The tag dispatch of DECODE_BLOCK, and the tags it rejects: what a tag's checks report, with nothing written. -/

namespace Sys2Proof.Machine

/-! ### The tag dispatch -/

/-- The tag is valid at the depth (40_block_decoder.md R201); a reserved tag is valid at none (R220). -/
def tagValid (tag depth : Byte) : Bool :=
  if tag = 0x02#8 then depth == 24#8 else decide (tag.toNat < 4) && indexedDepth depth

theorem tagValid_iff {tag depth : Byte} :
    tagValid tag depth = true ↔
      (tag = 0x02#8 ∧ depth = 24#8) ∨ (tag.toNat < 4 ∧ tag ≠ 0x02#8 ∧ indexedDepth depth = true) := by
  unfold tagValid
  split <;> simp [*]

theorem decodeTag_reserved {tag : Byte} (h : 4 ≤ tag.toNat) : decodeTag tag = .reservedTag tag := by
  unfold decodeTag
  split
  · exact absurd h (by decide)
  · exact absurd h (by decide)
  · exact absurd h (by decide)
  · exact absurd h (by decide)
  · rfl

/-- A step at a tag dispatch is the tag's alone. -/
theorem step_atTag {s : State} {u : Run} (hb : blockAtTag s = some u) : step s = (fetchTag u s).outcome := by
  rw [step_eq_engineTurn, engineTurn_atTag hb, fetch_atTag hb]

/-- A DECODE_BLOCK whose tag byte memory refuses ends with BUS_ERROR (60_exceptions.md R401). -/
theorem fetchTag_refused {s : State} {u : Run} (h : u.st.platform.answersRead u.c.params.blkAddr.toNat = false) :
    (fetchTag u s).outcome = .next (settle u.nameTag .busError) := by
  rw [fetchTag, Run.read_refused (u := u.nameTag) u.c.params.blkAddr.isLt h]
  rfl

/-- A tag byte that memory answers: its checks, and then what the tag goes on with. -/
theorem fetchTag_checks {s : State} {u : Run} {tag : Byte} (hb : blockAtTag s = some u)
    (h : u.st.readsPlain ⟨u.c.params.blkAddr.toNat, 1⟩) (htag : u.st.mem.read u.c.params.blkAddr.toNat = tag) :
    ∃ body : Run → Except Stop Run,
      (fetchTag u s).outcome = conclude (tagChecks tag (tagValid tag u.st.frame.depth) u >>= body) := by
  have hread : u.nameTag.read u.c.params.blkAddr.toNat = .ok tag := by
    rw [← htag]
    exact Run.read_region (u := u.nameTag) h (Region.has_self _)
  rw [fetchTag, hread]
  by_cases hreserved : 4 ≤ tag.toNat
  · have hvalid : tagValid tag u.st.frame.depth = false := by
      have htwo : tag ≠ 0x02#8 := by rintro rfl; exact absurd hreserved (by decide)
      simp [tagValid, htwo, hreserved]
    simp only [decodeTag_reserved hreserved, hvalid]
    exact ⟨fun v => .error (.ended .unsupportedEncoding v), rfl⟩
  · have hcases : tag = 0x00#8 ∨ tag = 0x01#8 ∨ tag = 0x02#8 ∨ tag = 0x03#8 := by
      simp only [← BitVec.toNat_inj, BitVec.toNat_ofNat]
      omega
    rcases hcases with rfl | rfl | rfl | rfl
    · exact ⟨rleBlock, runTag_of hb _⟩
    · exact ⟨huffmanBlock, runTag_of hb _⟩
    · exact ⟨jpegBlock, runTag_of hb _⟩
    · exact ⟨directBlock, runTag_of hb _⟩

/-- The running DECODE_BLOCK with the regions of its tag, and the tag as its result 1. -/
def Run.withTag (u : Run) (tag : Byte) : Run :=
  { u with c := { u.c with
      reads := (tagRegions tag u.st.frame u.c.params).1
      writes := (tagRegions tag u.st.frame u.c.params).2
      r1 := tag.toNat } }

/-- The checks of a tag whose regions are apart, written out. -/
theorem tagChecks_apart {u : Run} {tag : Byte} {valid : Bool}
    (h : regionsClash (tagRegions tag u.st.frame u.c.params).1 (tagRegions tag u.st.frame u.c.params).2 = false) :
    tagChecks tag valid u = (do
      (u.withTag tag).require valid .unsupportedEncoding
      (u.withTag tag).require (u.blockSize ≤ u.c.params.dbufCap.toNat) .allocFailure
      pure (u.withTag tag)) := by
  rw [tagChecks, Run.declare_apart h]
  rfl

/-- A tag that is not valid at the depth ends with UNSUPPORTED_ENCODING. -/
theorem tagChecks_invalid {u : Run} {tag : Byte}
    (h : regionsClash (tagRegions tag u.st.frame u.c.params).1 (tagRegions tag u.st.frame u.c.params).2 = false) :
    tagChecks tag false u = .error (.ended .unsupportedEncoding (u.withTag tag)) := by
  rw [tagChecks_apart h]
  rfl

/-- A valid tag whose block DBUF cannot hold ends with ALLOC_FAILURE. -/
theorem tagChecks_small {u : Run} {tag : Byte}
    (h : regionsClash (tagRegions tag u.st.frame u.c.params).1 (tagRegions tag u.st.frame u.c.params).2 = false)
    (hsmall : u.c.params.dbufCap.toNat < u.blockSize) :
    tagChecks tag true u = .error (.ended .allocFailure (u.withTag tag)) := by
  rw [tagChecks_apart h, decide_eq_false (Nat.not_le.2 hsmall)]
  rfl

/-! ### Rejected tags -/

/-- A held completion keeps the regions its command has named. -/
theorem settle_inflight_regions {u : Run} {code : Code} {c : InFlight}
    (hc : (settle u code).inflight = some c) : c.reads = u.c.reads ∧ c.writes = u.c.writes := by
  unfold settle at hc
  split at hc
  · cases hc
  · cases hc
    exact ⟨rfl, rfl⟩

/-- A DECODE_BLOCK that ends with an error before any byte of DBUF is written leaves the machine as it was, but for its
completion (40_block_decoder.md R204). -/
theorem settle_unwritten {s : State} {u : Run} {code : Code} (hst : u.st = { s with inflight := none })
    (hop : u.c.op = 0x02#8) (hwrote : u.c.wrote = false) (hok : code ≠ .ok) (hjpeg : code ≠ .jpegHandoff) :
    (settle u code).settled = s.finishing code u.c.r0 u.c.r1 u.c.r2 ∧ (settle u code).mem = s.mem
      ∧ ∀ c, (settle u code).inflight = some c → c.reads = u.c.reads ∧ c.writes = u.c.writes := by
  refine ⟨?_, ?_, fun c hc => settle_inflight_regions hc⟩
  · rw [settled_settle, complete_decode_keep _ _ _ hop hok hjpeg hwrote, hst]
    rfl
  · rw [settle_mem, hst]

/-- The running DECODE_BLOCK of a machine that stands at its tag dispatch with these parameters. -/
def State.dispatchRun (s : State) (p : Params) : Run :=
  { st := { s with inflight := none }, c := { op := 0x02#8, params := p } }

theorem blockAtTag_dispatchRun {s : State} {p : Params} (hc : s.inflight = some { op := 0x02#8, params := p }) :
    blockAtTag s = some (s.dispatchRun p) := blockAtTag_of hc rfl

/-- A tag that fails its checks with this status: nothing written, DBUF state and all else as it was, RESULT1 the tag, and
the row of the tag in the table of 20_memory.md R81 named. -/
theorem step_tagChecks_fail {s : State} {p : Params} {tag : Byte} {code : Code}
    (hc : s.inflight = some { op := 0x02#8, params := p }) (h : s.readsPlain ⟨p.blkAddr.toNat, 1⟩)
    (htag : s.mem.read p.blkAddr.toNat = tag) (hok : code ≠ .ok) (hjpeg : code ≠ .jpegHandoff)
    (hfail : tagChecks tag (tagValid tag s.frame.depth) (s.dispatchRun p)
      = .error (.ended code ((s.dispatchRun p).withTag tag))) :
    ∃ t, step s = .next t ∧ t.settled = s.finishing code 0 tag.toNat 0 ∧ t.mem = s.mem
      ∧ ∀ c, t.inflight = some c → (c.reads, c.writes) = tagRegions tag s.frame p := by
  have hb := blockAtTag_dispatchRun hc
  obtain ⟨body, hbody⟩ : ∃ body : Run → Except Stop Run, (fetchTag (s.dispatchRun p) s).outcome
      = conclude (tagChecks tag (tagValid tag s.frame.depth) (s.dispatchRun p) >>= body) := fetchTag_checks hb h htag
  rw [hfail] at hbody
  obtain ⟨hsettled, hmem, hregions⟩ := settle_unwritten (u := (s.dispatchRun p).withTag tag) (s := s) rfl rfl rfl hok hjpeg
  refine ⟨_, (step_atTag hb).trans hbody, hsettled, hmem, fun c hc => ?_⟩
  obtain ⟨hreads, hwrites⟩ := hregions c hc
  rw [hreads, hwrites]
  rfl

/-- The rows of DECODE_BLOCK in the table of 20_memory.md R81, by the tag's number. -/
theorem tagRegions_eq (f : Frame) (p : Params) (b : Byte) :
    (b.toNat = 0 ∨ b.toNat = 3 →
      tagRegions b f p = ([p.blkRegion], [⟨p.dbufAddr.toNat, f.blockSize p.index.toNat⟩]))
    ∧ (b.toNat = 1 →
      tagRegions b f p = ([p.blkRegion], [p.scrRegion, ⟨p.dbufAddr.toNat, f.blockSize p.index.toNat⟩]))
    ∧ (b.toNat ≠ 0 → b.toNat ≠ 1 → b.toNat ≠ 3 → tagRegions b f p = ([⟨p.blkAddr.toNat, 1⟩], [])) := by
  have number (v : Byte) : b = v ↔ b.toNat = v.toNat := BitVec.toNat_inj.symm
  simp only [tagRegions, tagRegionsWith, number, BitVec.toNat_ofNat]
  refine ⟨fun h => if_pos h, fun h => ?_, fun h0 h1 h3 => ?_⟩
  · rw [if_neg (by omega), if_pos h]
  · rw [if_neg (by omega), if_neg h1]

/-- Settles O46: the byte that memory refuses, the two failing checks, and the table of regions. -/
theorem rejectedTagsLeaveTheBlockAsItWas : Obligations.RejectedTagsLeaveTheBlockAsItWas := by
  refine ⟨fun s p b hc => ⟨fun hrefused => ?_, fun h htag hapart => ⟨fun hinvalid => ?_, fun hvalid hsmall => ?_⟩⟩,
    fun f p b => ?_⟩
  · exact ⟨_, (step_atTag (blockAtTag_dispatchRun hc)).trans (fetchTag_refused hrefused),
      settle_unwritten (u := (s.dispatchRun p).nameTag) rfl rfl rfl nofun nofun⟩
  · have hinvalid : tagValid b s.frame.depth = false := by
      rw [← Bool.not_eq_true, tagValid_iff]
      rcases hinvalid with hreserved | ⟨rfl, hdepth⟩ | ⟨_, htwo, hindexed⟩
      · have htwo : b ≠ 0x02#8 := by rintro rfl; exact absurd hreserved (by decide)
        simp [htwo, hreserved]
      · simp [hdepth]
      · simp [htwo, hindexed]
    refine step_tagChecks_fail hc h htag nofun nofun ?_
    rw [hinvalid]
    exact tagChecks_invalid hapart
  · refine step_tagChecks_fail hc h htag nofun nofun ?_
    rw [tagValid_iff.2 hvalid]
    exact tagChecks_small hapart hsmall
  · obtain ⟨hrle, hhuffman, hother⟩ := tagRegions_eq f p b
    split
    · next h0 => exact hrle (.inl h0)
    · next h3 => exact hrle (.inr h3)
    · next h1 => exact hhuffman h1
    · next h0 h3 h1 => exact hother h0 h1 h3

end Sys2Proof.Machine
end

section
/-! An RLE_EXPAND one of whose output bytes memory refuses: the pair that byte is of, and the bytes stored before it. -/

namespace Sys2Proof.Machine

/-! ### The pair that a byte of the expansion is of -/

theorem expanded_append (ps qs : List (Byte × Byte)) : expanded (ps ++ qs) = expanded ps ++ expanded qs :=
  List.flatMap_append

theorem pairBytes_append (ps qs : List (Byte × Byte)) : pairBytes (ps ++ qs) = pairBytes ps ++ pairBytes qs :=
  List.flatMap_append

/-- Byte `j` of an expansion is of the copies of some pair. -/
theorem exists_pair_of_lt_expanded {pairs : List (Byte × Byte)} {j : Nat} (h : j < (expanded pairs).length) :
    ∃ ps p qs, pairs = ps ++ p :: qs ∧ (expanded ps).length ≤ j ∧ j < (expanded ps).length + p.1.toNat := by
  induction pairs generalizing j with
  | nil => simp [expanded] at h
  | cons p pairs ih =>
    have hlen : (expanded (p :: pairs)).length = p.1.toNat + (expanded pairs).length := by simp [expanded_cons]
    by_cases hj : j < p.1.toNat
    · exact ⟨[], p, pairs, rfl, Nat.zero_le _, by simpa [expanded] using hj⟩
    · obtain ⟨ps, q, qs, rfl, hle, hlt⟩ := ih (j := j - p.1.toNat) (by omega)
      have hlen' : (expanded (p :: ps)).length = p.1.toNat + (expanded ps).length := by simp [expanded_cons]
      exact ⟨p :: ps, q, qs, rfl, by omega, by omega⟩

/-- The first bytes of an expansion, up to a byte of some pair's copies. -/
theorem take_expanded {ps qs : List (Byte × Byte)} {p : Byte × Byte} {i : Nat} (hi : i ≤ p.1.toNat) :
    (expanded (ps ++ p :: qs)).take ((expanded ps).length + i) = expanded ps ++ List.replicate i p.2 := by
  rw [expanded_append, expanded_cons, List.take_length_add_append, List.take_append_of_le_length (by simpa using hi),
    List.take_replicate, Nat.min_eq_left hi]

/-! ### Memory, in two parts -/

theorem Memory.bytes_add (m : Memory) (a n k : Nat) : m.bytes a (n + k) = m.bytes a n ++ m.bytes (a + n) k := by
  simp [Memory.bytes, List.range_add, Nat.add_assoc]

/-- Where the bytes of pairs stand, those of its parts stand one after the other. -/
theorem bytes_pairs_append {m : Memory} {a : Nat} {ps qs : List (Byte × Byte)}
    (h : m.bytes a (2 * (ps ++ qs).length) = pairBytes (ps ++ qs)) :
    m.bytes a (2 * ps.length) = pairBytes ps ∧ m.bytes (a + 2 * ps.length) (2 * qs.length) = pairBytes qs := by
  rw [List.length_append, Nat.mul_add, Memory.bytes_add, pairBytes_append] at h
  exact List.append_inj h (by simp [Memory.bytes, pairBytes_length])

theorem bytes_pair {m : Memory} {a n : Nat} {p : Byte × Byte} {qs : List (Byte × Byte)}
    (h : m.bytes a (2 * (n + 1)) = pairBytes (p :: qs)) : m.read a = p.1 ∧ m.read (a + 1) = p.2 := by
  rw [Nat.mul_add, Memory.bytes_cons, Memory.bytes_cons, pairBytes_cons] at h
  injection h with h0 h
  injection h with h1 _
  exact ⟨h0, h1⟩

/-! ### The refused byte -/

/-- A pair whose copies memory refuses at the `i`-th: the copies before it are stored, and the command ends with BUS_ERROR. -/
theorem rlePairs_refused {rin : Region} {a o cap : Nat} (left : Nat) {q count i : Nat} {p : Byte × Byte} {u : Run}
    (hr : u.st.readsPlain rin) (hin : rin.has (a + 2 * q) = true ∧ rin.has (a + 2 * q + 1) = true)
    (hp : u.st.mem.read (a + 2 * q) = p.1 ∧ u.st.mem.read (a + 2 * q + 1) = p.2) (hcap : count + p.1.toNat ≤ cap)
    (hi : i < p.1.toNat) (hw : u.st.writesPlain ⟨o + count, i⟩) (hs : o + count + i < spaceSize)
    (hrefused : u.st.platform.answersWrite (o + count + i) = false) :
    ∃ w, rlePairs a o cap (left + 1) q count u = .error (.ended .busError w)
      ∧ u.Stores w (o + count) (List.replicate i p.2) := by
  have hread0 := Run.read_region hr hin.1
  have hread1 := Run.read_region hr hin.2
  rw [hp.1] at hread0
  rw [hp.2] at hread1
  obtain ⟨w, hcopies, hstores⟩ := writeCopies_refused p.2 p.1.toNat i hi hw hs hrefused
  refine ⟨w, ?_, hstores⟩
  simp only [rlePairs, hread0, hread1, bind, Except.bind, if_neg (Nat.not_lt.2 hcap), hcopies]

/-- What is stored in a region leaves the bytes outside it. -/
theorem Run.Stores.read_apart {u v : Run} {o n x : Nat} {bs : List Byte} (h : u.Stores v o bs)
    (hx : Region.has ⟨o, n⟩ x = false) (hn : bs.length ≤ n) : v.st.mem.read x = u.st.mem.read x := by
  rw [← Bool.not_eq_true, Region.has_iff] at hx
  rw [h.st]
  refine Memory.read_store_other _ _ ?_
  simp only at hx
  omega

/-- An expansion that memory refuses at its `j`-th byte: the bytes before it are stored, and the command ends with
BUS_ERROR (60_exceptions.md R401, 20_memory.md R86). -/
theorem rleExpand_refused {u : Run} {a o cap j : Nat} {pairs : List (Byte × Byte)}
    (hr : u.st.readsPlain ⟨a, 2 * pairs.length⟩) (hb : u.st.mem.bytes a (2 * pairs.length) = pairBytes pairs)
    (hapart : ∀ x, Region.has ⟨a, 2 * pairs.length⟩ x = true → Region.has ⟨o, j⟩ x = false)
    (hcap : (expanded pairs).length ≤ cap) (hj : j < (expanded pairs).length) (hw : u.st.writesPlain ⟨o, j⟩)
    (hs : o + j < spaceSize) (hrefused : u.st.platform.answersWrite (o + j) = false) :
    ∃ w, rleExpand u a (2 * pairs.length) o cap = .error (.ended .busError w)
      ∧ u.Stores w o ((expanded pairs).take j) := by
  obtain ⟨ps, p, qs, rfl, hle, hlt⟩ := exists_pair_of_lt_expanded hj
  obtain ⟨i, rfl⟩ := Nat.exists_eq_add_of_le hle
  have hi : i < p.1.toNat := by omega
  obtain ⟨hbs, hbp⟩ := bytes_pairs_append hb
  have hp := bytes_pair hbp
  have hlen : (ps ++ p :: qs).length = ps.length + (qs.length + 1) := by simp
  have hsum : (expanded (ps ++ p :: qs)).length = (expanded ps).length + (p.1.toNat + (expanded qs).length) := by
    simp [expanded_append, expanded_cons]
  have hin (k : Nat) (hk : k < 2 * (ps ++ p :: qs).length) : Region.has ⟨a, 2 * (ps ++ p :: qs).length⟩ (a + k) = true :=
    Region.has_mk hk
  obtain ⟨v, hrun, hstores⟩ := rlePairs_run (o := o) (cap := cap) (q := 0) (count := 0) (u := u) (qs.length + 1) ps hr
    (fun k hk => hin k (by omega)) hw (fun k hk => Region.has_mk (by omega)) hapart hbs (by omega)
  have hplatform : v.st.platform = u.st.platform := by rw [hstores.st]
  have hkept (k : Nat) (hk : k < 2 * (ps ++ p :: qs).length) : v.st.mem.read (a + k) = u.st.mem.read (a + k) :=
    hstores.read_apart (hapart _ (hin k hk)) (by omega)
  obtain ⟨w, hend, hstores'⟩ := rlePairs_refused (a := a) (o := o) (cap := cap) (q := ps.length)
    (count := (expanded ps).length) (u := v) (p := p) (i := i) qs.length (State.readsPlain_of hr hplatform)
    ⟨hin _ (by omega), hin (2 * ps.length + 1) (by omega)⟩
    ⟨(hkept _ (by omega)).trans hp.1, (hkept (2 * ps.length + 1) (by omega)).trans hp.2⟩ (by omega) hi
    (fun x hx => hplatform ▸ hw x (by rw [Region.has_iff] at hx ⊢; simp only at hx ⊢; omega)) (by omega)
    (by rw [hplatform, Nat.add_assoc]; exact hrefused)
  refine ⟨w, ?_, ?_⟩
  · rw [rleExpand_even (by omega), Nat.mul_div_cancel_left _ Nat.two_pos, hlen, hrun]
    simpa using hend
  · rw [take_expanded hi.le]
    exact hstores.trans hstores'

/-- RLE_EXPAND, accepted, with its regions named (20_memory.md R81). -/
def State.rleExpandRun (s : State) : Run :=
  { st := (acceptRun 0x07#8 s).st
    c := { op := 0x07#8, params := s.params, reads := [s.params.inRegion], writes := [s.params.outRegion] } }

/-- An RLE_EXPAND whose regions are apart and well-formed ends where its expansion ends it. -/
theorem exec_rleExpand_ended {s : State} {w : Run} {code : Code} (hi : s.inflight = none)
    (hapart : regionsClash [s.params.inRegion] [s.params.outRegion] = false) (hin : s.params.inRegion.fits = true)
    (hout : s.params.outRegion.fits = true)
    (h : rleExpand s.rleExpandRun s.params.inAddr.toNat s.params.inLen.toNat s.params.outAddr.toNat
      s.params.outCap.toNat = .error (.ended code w)) :
    exec .rleExpand s = .next (settle w code) := by
  have hdeclare : (acceptRun 0x07#8 s).declare [s.params.inRegion] [s.params.outRegion] = .ok s.rleExpandRun :=
    Run.declare_apart hapart
  have hfits : (s.rleExpandRun.c.params.inRegion.fits && s.rleExpandRun.c.params.outRegion.fits) = true :=
    Bool.and_eq_true_iff.2 ⟨hin, hout⟩
  have hexpand : rleExpand s.rleExpandRun s.rleExpandRun.c.params.inRegion.base s.rleExpandRun.c.params.inRegion.len
      s.rleExpandRun.c.params.outRegion.base s.rleExpandRun.c.params.outRegion.len = .error (.ended code w) := h
  have hbody : rleExpandBody (acceptRun 0x07#8 s) = .error (.ended code w) := by
    simp only [rleExpandBody, acceptRun_c, hdeclare, hfits, hexpand, Run.require_true, bind, Except.bind]
  exact (runCommand_idle hi).trans (by rw [hbody]; rfl)

/-- Settles O32: the bytes before the refused one are stored, and the command's results are those it was accepted with. -/
theorem refusedByteEndsRleExpandWithBusError : Obligations.RefusedByteEndsRleExpandWithBusError := by
  intro s pairs j hi hin hout hapart hr hlen hb hcap hj hw hrefused
  have hr' : s.readsPlain ⟨s.params.inAddr.toNat, 2 * pairs.length⟩ := hlen ▸ hr
  rw [hlen] at hb
  have hspace : s.params.outAddr.toNat + j < spaceSize := Region.fits_lt hout (hj.trans_le hcap)
  have hsub (x : Nat) (hx : Region.has ⟨s.params.inAddr.toNat, 2 * pairs.length⟩ x = true) :
      Region.has ⟨s.params.outAddr.toNat, j⟩ x = false := by
    have hx' : s.params.outRegion.has x = false := regionsClash_one hapart (by rw [Params.inRegion, hlen]; exact hx)
    rw [← Bool.not_eq_true, Region.has_iff] at hx' ⊢
    simp only [Params.outRegion] at hx' ⊢
    omega
  obtain ⟨w, hend, hstores⟩ := rleExpand_refused (u := s.rleExpandRun) hr' hb hsub hcap hj hw hspace hrefused
  rw [← hlen] at hend
  have htake : ((expanded pairs).take j).length = j := List.length_take_of_le hj.le
  have hbytes := Memory.bytes_store s.mem s.params.outAddr.toNat ((expanded pairs).take j)
  have hframe := Memory.sameOutside_store s.mem s.params.outAddr.toNat ((expanded pairs).take j)
  rw [htake] at hbytes hframe
  refine ⟨_, _, exec_rleExpand_ended hi hapart hin hout hend, ?_, ?_, hbytes, hframe⟩
  · rw [settle_mem, hstores.st]
    rfl
  · rw [settled_plain 0x07#8 (by rw [hstores.c]; rfl) (by decide) (by decide), hstores.st, hstores.c]
    rfl

end Sys2Proof.Machine
end

section
/-! The two decoders, characterised: the words that decode to an instruction, and the reserved ones. -/

namespace Sys2Proof.Machine

/-! ### What decodes to an instruction -/

/-- The round trip of all the instructions, each by its own lemma. -/
theorem decode_encode {i : Instr} (h : i.wf = true) : decode (encode i) = .instr i := by
  cases i with
  | nop => exact Laws.RoundTrip.nop h
  | bindFrame => exact Laws.RoundTrip.bindFrame h
  | decodeBlock => exact Laws.RoundTrip.decodeBlock h
  | composite => exact Laws.RoundTrip.composite h
  | markDecoded => exact Laws.RoundTrip.markDecoded h
  | huffBuild => exact Laws.RoundTrip.huffBuild h
  | huffDecode => exact Laws.RoundTrip.huffDecode h
  | rleExpand => exact Laws.RoundTrip.rleExpand h
  | palResolve => exact Laws.RoundTrip.palResolve h
  | pcacheFlush => exact Laws.RoundTrip.pcacheFlush h
  | unbind => exact Laws.RoundTrip.unbind h
  | blkRle => exact Laws.RoundTrip.blkRle h
  | blkHuffman => exact Laws.RoundTrip.blkHuffman h
  | blkJpeg => exact Laws.RoundTrip.blkJpeg h
  | blkHuffmanDirect => exact Laws.RoundTrip.blkHuffmanDirect h

/-- No instruction has an operand field, so none is ill-formed. -/
theorem instr_wf (i : Instr) : i.wf = true := by cases i <;> rfl

/-- A command's own word is its code with the ignored bits 0. -/
theorem encode_of_decodeCode {code : Byte} {i : Instr} (h : decodeCode code = .instr i) :
    encode i = .command (code.zeroExtend 32) := by
  unfold decodeCode at h
  split at h <;> cases h <;> rfl

theorem commandCode_zeroExtend (code : Byte) : commandCode (code.zeroExtend 32) = code := by
  refine BitVec.eq_of_getLsbD_eq fun k hk => ?_
  simp [commandCode, hk, hk.trans (show 8 < 32 by decide)]

/-- A command word decodes by its low byte alone, to the command whose own word has that byte (30_encoding.md R110). -/
theorem decodeCommand_eq_instr_iff {w : Word} {i : Instr} :
    decodeCommand w = .instr i ↔ ∃ v, encode i = .command v ∧ commandCode w = commandCode v := by
  constructor
  · intro h
    exact ⟨_, encode_of_decodeCode h, (commandCode_zeroExtend _).symm⟩
  · rintro ⟨v, hv, hcode⟩
    have hround : decode (.command v) = .instr i := hv ▸ decode_encode (instr_wf i)
    rw [decodeCommand, hcode]
    exact hround

theorem decodeTag_eq_instr_iff {b : Byte} {i : Instr} : decodeTag b = .instr i ↔ encode i = .tag b := by
  refine ⟨encode_of_decodeTag, fun h => ?_⟩
  have hround : decode (.tag b) = .instr i := h ▸ decode_encode (instr_wf i)
  exact hround

/-! ### What is reserved -/

/-- The reserved command codes are those from 0x0B up (30_encoding.md R113). -/
theorem decodeCode_eq_reserved_iff {code : Byte} : decodeCode code = .reservedCommand code ↔ 0x0B ≤ code.toNat := by
  unfold decodeCode
  split
  case h_12 =>
    refine iff_of_true rfl ?_
    simp only [imp_false, ← BitVec.toNat_inj, BitVec.toNat_ofNat] at *
    omega
  all_goals exact iff_of_false nofun (by decide)

/-- The reserved tags are those from 0x04 up (30_encoding.md R124). -/
theorem decodeTag_eq_reserved_iff {b : Byte} : decodeTag b = .reservedTag b ↔ 0x04 ≤ b.toNat := by
  refine ⟨fun h => ?_, decodeTag_reserved⟩
  unfold decodeTag at h
  split at h
  case h_5 =>
    simp only [imp_false, ← BitVec.toNat_inj, BitVec.toNat_ofNat] at *
    omega
  all_goals cases h

/-- Settles O9, from what each decoder reads. -/
theorem decodingReadsExactlyTheLowByte : Obligations.DecodingReadsExactlyTheLowByte :=
  ⟨fun _ _ => decodeCommand_eq_instr_iff, fun _ _ => decodeTag_eq_instr_iff, fun _ => decodeCode_eq_reserved_iff,
    fun _ => decodeTag_eq_reserved_iff, fun _ => decode_encode⟩

/-- Settles O10: each word has the low byte of its instruction's own word, or one that is reserved. -/
theorem writtenOutWordsDecode : Obligations.WrittenOutWordsDecode := by
  obtain ⟨hcommand, htag, hcode, hreserved, _⟩ := decodingReadsExactlyTheLowByte
  exact ⟨(hcommand _ _).2 ⟨_, rfl, rfl⟩, (hcommand _ _).2 ⟨_, rfl, rfl⟩, (hcommand _ _).2 ⟨_, rfl, rfl⟩,
    (hcommand _ _).2 ⟨_, rfl, rfl⟩, (hcode _).2 (by decide), (htag _ _).2 rfl, (hreserved _).2 (by decide)⟩

end Sys2Proof.Machine
end

section
/-! A write of CMD, step by step: the command it runs, its drop while BUSY, a reserved code, and a held completion's end. -/

namespace Sys2Proof.Machine

/-! ### A write of CMD -/

theorem hostTurn_cmd {s : State} {w : Word} {rest : List Input} (hin : s.inputs = .wr 0x008#11 .word w :: rest) :
    hostTurn s = fetchCommand w { s with inputs := rest } := by
  rw [hostTurn_cons hin, hostInput, hostWrite_cmd]

theorem fetchCommand_instr {w : Word} {i : Instr} (h : decode (.command w) = .instr i) (s : State) :
    fetchCommand w s = .run i s := by
  have hcommand : decodeCommand w = .instr i := h
  simp only [fetchCommand, hcommand]

theorem fetchCommand_reserved {w : Word} (h : 0x0B ≤ (commandCode w).toNat) (s : State) :
    fetchCommand w s = .plain (reservedCommand (commandCode w) s) := by
  have hcommand : decodeCommand w = .reservedCommand (commandCode w) := decodeCode_eq_reserved_iff.2 h
  simp only [fetchCommand, hcommand]

/-- Settles O11: the fetch brings the decoded command, and the engine has no turn where no completion is held. -/
theorem stepRunsTheCommandWritten : Obligations.StepRunsTheCommandWritten := by
  intro s w i rest hb hin hword _
  have hfetch : fetch s = .run i { s with inputs := rest } := by
    rw [fetch_of_blockAtTag_none hb, hostTurn_cmd hin, fetchCommand_instr hword]
  exact ⟨step_run hfetch, fun hi => (step_run hfetch).trans (engineTurn_idle hi)⟩

/-! ### While BUSY -/

/-- Every command is dropped while BUSY, and flagged (30_encoding.md R111). -/
theorem exec_busy {s : State} {i : Instr} {w : Word} (hw : encode i = .command w) (h : s.inflight.isSome = true) :
    exec i s = .next { s with dropped := true } := by
  cases i with
  | decodeBlock => exact if_pos h
  | nop | bindFrame | composite | markDecoded | huffBuild | huffDecode | rleExpand | palResolve =>
    exact runCommand_busy h
  | pcacheFlush => rw [exec, execPcacheFlush, runCommand_busy h]
  | unbind => rw [exec, execUnbind, runCommand_busy h]
  | blkRle | blkHuffman | blkJpeg | blkHuffmanDirect => cases hw

/-- So is a write of CMD of any word, one with a reserved code among them. -/
theorem fetchCommand_busy (w : Word) {s : State} (h : s.inflight.isSome = true) :
    (fetchCommand w s).outcome = .next { s with dropped := true } := by
  unfold fetchCommand
  split
  · next i hi =>
    obtain ⟨v, hv⟩ := encode_of_decodeCommand hi
    exact exec_busy hv h
  · exact if_pos h

/-- A transaction while a completion is held, an instruction's too: its own effect, and the completion one step on. -/
theorem step_held_outcome {s t : State} {c : InFlight} {code : Code} {n : Nat} (h : s.inflight = some c)
    (hp : c.pos = .held code (n + 1)) (ht : (hostTurn s).outcome = .next t) (hc : t.inflight = s.inflight) :
    step s = .next (t.oneStepOn c code n) := by
  rw [step_eq_engineTurn, fetch_held h hp, ht, engineTurn_held h hp, tick_oneStepOn (hc.trans h) hp]

/-- Settles O13: the write is dropped in the host's turn, before the completion goes one step on. -/
theorem commandWhileBusyIsDropped : Obligations.CommandWhileBusyIsDropped := by
  refine ⟨fun s i w hw h => exec_busy hw h, fun s c code n w rest hc hp hin => ?_⟩
  have hturn : (hostTurn s).outcome = .next { s with inputs := rest, dropped := true } := by
    rw [hostTurn_cmd hin]
    exact fetchCommand_busy w (by simp [hc])
  exact step_held_outcome hc hp hturn rfl

/-! ### Completion -/

/-- A result that fits 32 bits is shown as it is (10_state.md R37). -/
theorem resultWord_of_lt {n : Nat} (h : n < 2 ^ 32) : resultWord n = BitVec.ofNat 32 n := if_pos h

/-- A completion while idle changes only ERR, DONE and the results. -/
theorem finishing_idle {s : State} (hi : s.inflight = none) (code : Code) (r0 r1 r2 : Nat) :
    s.finishing code r0 r1 r2 =
      { s with err := code, result0 := resultWord r0, result1 := resultWord r1, result2 := resultWord r2, done := true } := by
  rw [State.finishing, ← hi]

/-- A reserved code has no completion clause (30_encoding.md R113). -/
theorem reservedCommand_idle {op : Byte} {s : State} (hi : s.inflight = none) (h : 0x0B ≤ op.toNat) :
    reservedCommand op s = .next (s.finishing .badCmd 0 0 0) := by
  have h2 : op ≠ 0x02#8 := by rintro rfl; exact absurd h (by decide)
  have h5 : op ≠ 0x05#8 := by rintro rfl; exact absurd h (by decide)
  rw [reservedCommand, if_neg (by simp [State.busy, hi]), complete_plain (c := (acceptRun op s).c) _ _ h2 h5]
  rfl

/-- Settles O14: a reserved code's completion, in the step of the write. -/
theorem reservedCodeCompletesWithBadCmd : Obligations.ReservedCodeCompletesWithBadCmd := by
  intro s w rest hi hin (hcode : 0x0B ≤ (commandCode w).toNat)
  have htaken : ({ s with inputs := rest } : State).inflight = none := hi
  have hturn := hostTurn_cmd hin
  rw [fetchCommand_reserved hcode, reservedCommand_idle htaken hcode, finishing_idle htaken] at hturn
  exact step_idle hi hturn

/-- Settles O16: with no transaction, the last held step is the completion. -/
theorem completionWritesResultsAndStatusInOneStep : Obligations.CompletionWritesResultsAndStatusInOneStep := by
  intro s c code hc hp hin h2 h5 hr0 hr1 hr2
  have hturn : hostTurn s = .plain (.next s) := by simp only [hostTurn, hin]
  have hsettled : s.oneStepOn c code 0 = complete c code s := by simp [State.oneStepOn, State.settled, hc, hp]
  rw [step_held hc hp hturn rfl, hsettled, complete_plain _ _ _ h2 h5, State.finishing, resultWord_of_lt hr0,
    resultWord_of_lt hr1, resultWord_of_lt hr2]

end Sys2Proof.Machine
end

section
/-! How a command ends that reports a status or finishes without a byte written: the checks made before any access. -/

namespace Sys2Proof.Machine

/-! ### A command that only reports -/

/-- A run that has named its regions (20_memory.md R81). -/
def Run.named (u : Run) (reads writes : List Region) : Run :=
  { u with c := { u.c with reads := reads, writes := writes } }

theorem declare_bind_apart {α : Type} {u : Run} {reads writes : List Region} (f : Run → Except Stop α)
    (h : regionsClash reads writes = false) : u.declare reads writes >>= f = f (u.named reads writes) := by
  rw [Run.declare_apart h]
  rfl

/-- A stretch that comes to a value goes on from it. -/
theorem bind_of_ok {α β : Type} {x : Except Stop α} {a : α} (f : α → Except Stop β) (h : x = .ok a) : x >>= f = f a := by
  rw [h]
  rfl

/-- A check that holds. -/
theorem require_bind_true {α : Type} {u : Run} {cond : Bool} {code : Code} (f : Unit → Except Stop α) (h : cond = true) :
    u.require cond code >>= f = f () := by
  rw [h]
  rfl

/-- A check that fails ends the command where it stands. -/
theorem require_bind_false {α : Type} {u : Run} {cond : Bool} {code : Code} (f : Unit → Except Stop α) (h : cond = false) :
    u.require cond code >>= f = .error (.ended code u) := by
  rw [h]
  rfl

/-- A command without a completion clause that fails with nothing but its regions named: results 0, and the machine as it
was but for the completion. -/
theorem runCommand_fails {op : Byte} {body : Run → Except Stop Run} {s : State} {code : Code} (reads writes : List Region)
    (hi : s.inflight = none) (h2 : op ≠ 0x02#8) (h5 : op ≠ 0x05#8)
    (h : body (acceptRun op s) = .error (.ended code ((acceptRun op s).named reads writes))) :
    ∃ t, runCommand op body s = .next t ∧ t.settled = s.finishing code 0 0 0 ∧ t.mem = s.mem := by
  refine ⟨settle ((acceptRun op s).named reads writes) code, ?_, settled_plain op rfl h2 h5, settle_mem _ _⟩
  rw [runCommand_idle hi, h]
  rfl

/-! ### COMPOSITE -/

/-- COMPOSITE of no block of a bound frame. -/
theorem compositeChecks_unnamed {u : Run} (h : blockNamed u.st u.c.params = false) :
    compositeChecks u = .error (.ended .badParam u) := by
  cases hbound : u.st.frameBound with
  | false => exact require_bind_false _ hbound
  | true =>
    rw [compositeChecks, require_bind_true _ hbound]
    exact require_bind_false _ (by simpa [blockNamed, hbound] using h)

/-- COMPOSITE of a block that DBUF does not hold. -/
theorem compositeChecks_undecoded {u : Run} (hnamed : blockNamed u.st u.c.params = true)
    (h : (u.st.dbufValid && u.st.dbufBlock == u.c.params.index.zeroExtend 32) = false) :
    compositeChecks u = .error (.ended .notDecoded u) := by
  obtain ⟨hbound, hindex⟩ := Bool.and_eq_true_iff.1 hnamed
  rw [compositeChecks, require_bind_true _ hbound, require_bind_true _ hindex]
  exact require_bind_false _ h

/-- COMPOSITE of a block or to a destination that passes 2^32. -/
theorem compositeChecks_unfit {u : Run} (hnamed : blockNamed u.st u.c.params = true)
    (hheld : (u.st.dbufValid && u.st.dbufBlock == u.c.params.index.zeroExtend 32) = true)
    (h : (Region.fits ⟨u.c.params.dbufAddr.toNat, u.st.frame.blockSize u.c.params.index.toNat⟩
      && u.c.params.destRegion.fits) = false) :
    compositeChecks u = .error (.ended .badParam u) := by
  obtain ⟨hbound, hindex⟩ := Bool.and_eq_true_iff.1 hnamed
  rw [compositeChecks, require_bind_true _ hbound, require_bind_true _ hindex, require_bind_true _ hheld, Run.require, h]
  rfl

/-- A COMPOSITE that fails a check, the regions it is known to read and its destination apart. -/
theorem exec_composite_fails {s : State} {code : Code} {reads : List Region} (hi : s.inflight = none)
    (hreads : compositeKnown s s.params = reads) (hapart : regionsClash reads [s.params.destRegion] = false)
    (h : compositeChecks ((acceptRun 0x03#8 s).named reads [s.params.destRegion])
      = .error (.ended code ((acceptRun 0x03#8 s).named reads [s.params.destRegion]))) :
    ∃ t, exec .composite s = .next t ∧ t.settled = s.finishing code 0 0 0 ∧ t.mem = s.mem := by
  subst hreads
  refine runCommand_fails (body := compositeBody) (compositeKnown s s.params) [s.params.destRegion] hi (by decide) (by decide) ?_
  have hdraw : compositeDraw (acceptRun 0x03#8 s)
      = .error (.ended code ((acceptRun 0x03#8 s).named (compositeKnown s s.params) [s.params.destRegion])) := by
    refine (declare_bind_apart _ hapart).trans ?_
    rw [h]
    rfl
  rw [compositeBody, hdraw]
  rfl

theorem blockNamed_eq_true {s : State} {p : Params} :
    blockNamed s p = true ↔ s.frameBound = true ∧ p.index.toNat < s.frame.count.toNat := by
  rw [blockNamed, Bool.and_eq_true_iff, decide_eq_true_iff]

theorem compositeKnown_named {s : State} {p : Params} (h : blockNamed s p = true) :
    compositeKnown s p = compositeReads s.frame p := by
  obtain ⟨hbound, hindex⟩ := blockNamed_eq_true.1 h
  rw [compositeKnown, if_pos hbound, if_pos hindex]

theorem compositeKnown_unbound {s : State} {p : Params} (h : s.frameBound = false) : compositeKnown s p = [] :=
  if_neg (by simp [h])

theorem compositeKnown_past {s : State} {p : Params} (hbound : s.frameBound = true)
    (h : s.frame.count.toNat ≤ p.index.toNat) : compositeKnown s p = paletteReads s.frame := by
  rw [compositeKnown, if_pos hbound, if_neg (Nat.not_lt.2 h)]

/-! ### DECODE_BLOCK -/

/-- A DECODE_BLOCK that fails its first checks, its known regions apart, ends with BAD_PARAM; only TREE_VALID is cleared
(40_block_decoder.md R200, R221). -/
theorem exec_decodeBlock_fails {s : State} (hi : s.inflight = none)
    (hfail : blockNamed s s.params = false ∨ s.params.blkLen = 0#32 ∨ s.params.blkRegion.fits = false
      ∨ s.params.dbufRegion.fits = false)
    (hapart : regionsClash (decodeKnown s s.params).1 (decodeKnown s s.params).2 = false) :
    ∃ t, exec .decodeBlock s = .next t
      ∧ t.settled = ({ s with treeValid := false }).finishing .badParam 0 0 0 ∧ t.mem = s.mem := by
  have hchecks : decodeChecks (acceptDecode s)
      = .error (.ended .badParam ((acceptDecode s).named (decodeKnown s s.params).1 (decodeKnown s s.params).2)) := by
    rw [decodeChecks_fail hfail]
    exact declare_bind_apart _ hapart
  obtain ⟨hsettled, hmem, _⟩ := settle_unwritten
    (u := (acceptDecode s).named (decodeKnown s s.params).1 (decodeKnown s s.params).2)
    (s := (acceptDecode s).st) (code := .badParam) rfl rfl rfl nofun nofun
  refine ⟨_, ?_, hsettled, hmem⟩
  simp only [exec, execDecodeBlock, State.busy, hi, hchecks, conclude, Option.isSome_none, Bool.false_eq_true, if_false]

/-- Settles O41: the first checks pass, and nothing but acceptance has happened. -/
theorem decodeBlockComesToItsTagDispatch : Obligations.DecodeBlockComesToItsTagDispatch := by
  intro s hi hbound hindex hlen hblk hdbuf
  have hchecks : decodeChecks (acceptDecode s) = .ok () := by
    have hnamed : blockNamed (acceptDecode s).st (acceptDecode s).c.params = true := blockNamed_eq_true.2 ⟨hbound, hindex⟩
    have hfits : ((acceptDecode s).c.params.blkRegion.fits && (acceptDecode s).c.params.dbufRegion.fits) = true :=
      Bool.and_eq_true_iff.2 ⟨hblk, hdbuf⟩
    have hlen' : ((acceptDecode s).c.params.blkLen != 0#32) = true := bne_iff_ne.2 hlen
    rw [decodeChecks, hnamed, hfits, hlen']
    rfl
  simp only [exec, execDecodeBlock, State.busy, hi, hchecks, Option.isSome_none, Bool.false_eq_true, if_false]
  rfl

/-! ### MARK_DECODED -/

/-- MARK_DECODED of no block of a bound frame (40_block_decoder.md R235). -/
theorem markBody_unnamed {u : Run} (h : blockNamed u.st u.c.params = false) : markBody u = .error (.ended .badParam u) := by
  cases hbound : u.st.frameBound with
  | false => exact require_bind_false _ hbound
  | true =>
    rw [markBody, require_bind_true _ hbound]
    exact require_bind_false _ (by simpa [blockNamed, hbound] using h)

/-- MARK_DECODED of a block of the bound frame records it (40_block_decoder.md R235). -/
theorem markBody_named {u : Run} (h : blockNamed u.st u.c.params = true) :
    markBody u = .ok { u with st := { u.st with dbufValid := true, dbufBlock := u.c.params.index.zeroExtend 32 } } := by
  obtain ⟨hbound, hindex⟩ := blockNamed_eq_true.1 h
  rw [markBody, require_bind_true _ hbound, require_bind_true _ (decide_eq_true hindex)]
  rfl

theorem exec_markDecoded_unnamed {s : State} (hi : s.inflight = none) (h : blockNamed s s.params = false) :
    ∃ t, exec .markDecoded s = .next t ∧ t.settled = s.finishing .badParam 0 0 0 ∧ t.mem = s.mem :=
  runCommand_fails [] [] hi (by decide) (by decide) (markBody_unnamed (u := acceptRun 0x04#8 s) h)

/-- Settles O28: the two checks pass, or the index fails the second. -/
theorem markDecodedRecordsTheBlock : Obligations.MarkDecodedRecordsTheBlock := by
  intro s hi hbound
  refine ⟨fun hindex => ?_, fun hpast => exec_markDecoded_unnamed hi (blockNamed_eq_false.2 (.inr hpast))⟩
  have hnamed : blockNamed (acceptRun 0x04#8 s).st (acceptRun 0x04#8 s).c.params = true :=
    blockNamed_eq_true.2 ⟨hbound, hindex⟩
  refine ⟨_, (runCommand_idle hi).trans (congrArg conclude (markBody_named hnamed)), ?_, settle_mem _ _⟩
  exact settled_plain 0x04#8 rfl (by decide) (by decide)

/-! ### The Huffman and run-length commands -/

/-- HUFF_DECODE with no held tree (41_huffman.md R272). -/
theorem huffDecodeBody_noTree {u : Run} (hapart : regionsClash [u.c.params.inRegion] [u.c.params.outRegion] = false)
    (htree : u.st.treeValid = false) :
    huffDecodeBody u = .error (.ended .noTree (u.named [u.c.params.inRegion] [u.c.params.outRegion])) :=
  (declare_bind_apart _ hapart).trans (require_bind_false _ htree)

/-- HUFF_DECODE with a region that passes 2^32 (41_huffman.md R272). -/
theorem huffDecodeBody_unfit {u : Run} (hapart : regionsClash [u.c.params.inRegion] [u.c.params.outRegion] = false)
    (htree : u.st.treeValid = true) (hfits : (u.c.params.inRegion.fits && u.c.params.outRegion.fits) = false) :
    huffDecodeBody u = .error (.ended .badParam (u.named [u.c.params.inRegion] [u.c.params.outRegion])) :=
  (declare_bind_apart _ hapart).trans ((require_bind_true _ htree).trans (require_bind_false _ hfits))

/-- HUFF_DECODE of a stream shorter than TREE_PAD (41_huffman.md R264). -/
theorem huffDecodeBody_overPadded {u : Run} (hapart : regionsClash [u.c.params.inRegion] [u.c.params.outRegion] = false)
    (htree : u.st.treeValid = true) (hfits : (u.c.params.inRegion.fits && u.c.params.outRegion.fits) = true)
    (hpad : 8 * u.c.params.inLen.toNat < u.st.treePad.toNat) :
    huffDecodeBody u = .error (.ended .badTable
      { u with c := { u.c with
        r0 := 0, r1 := 0, reads := [u.c.params.inRegion], writes := [u.c.params.outRegion] } }) := by
  have hdecode (v : Run) (a o cap : Nat) : huffDecode v u.st.tree u.st.treePad a u.c.params.inLen.toNat o cap
      = .ok (⟨.badTable, 0, 0⟩, v) := if_pos hpad
  refine (declare_bind_apart _ hapart).trans ((require_bind_true _ htree).trans ((require_bind_true _ hfits).trans ?_))
  exact bind_of_ok _ (hdecode _ _ _ _)

/-- RLE_EXPAND with a region that passes 2^32 (40_block_decoder.md R230). -/
theorem rleExpandBody_unfit {u : Run} (hapart : regionsClash [u.c.params.inRegion] [u.c.params.outRegion] = false)
    (hfits : (u.c.params.inRegion.fits && u.c.params.outRegion.fits) = false) :
    rleExpandBody u = .error (.ended .badParam (u.named [u.c.params.inRegion] [u.c.params.outRegion])) :=
  (declare_bind_apart _ hapart).trans (require_bind_false _ hfits)

/-- A HUFF_BUILD whose table passes 2^32 ends with BAD_PARAM and no held tree (41_huffman.md R270). -/
theorem exec_huffBuild_unfit {s : State} (hi : s.inflight = none) (hfits : s.params.tblRegion.fits = false) :
    ∃ t, exec .huffBuild s = .next t
      ∧ t.settled = ({ s with treeValid := false }).finishing .badParam 0 0 0 ∧ t.mem = s.mem := by
  have hbody : buildBody (acceptRun 0x05#8 s) = .error (.ended .badParam ((acceptRun 0x05#8 s).named [s.params.tblRegion] [])) :=
    (declare_bind_apart _ rfl).trans (require_bind_false _ hfits)
  refine ⟨_, (runCommand_idle hi).trans (congrArg conclude hbody), ?_, settle_mem _ _⟩
  rw [settled_settle, complete_build _ _ _ rfl]
  rfl

/-! ### PAL_RESOLVE, and the unbound frame -/

/-- PAL_RESOLVE with no frame bound (42_compositor.md R303). -/
theorem palResolveBody_unbound {u : Run} (h : u.st.frameBound = false) : palResolveBody u = .error (.ended .badParam u) :=
  require_bind_false _ h

/-- Settles O26: with no frame bound no block is named. -/
theorem unboundCommandsEndWithBadParam : Obligations.UnboundCommandsEndWithBadParam := by
  intro s hi hunbound
  have hnamed : blockNamed s s.params = false := blockNamed_eq_false.2 (.inl hunbound)
  refine ⟨?_, exec_decodeBlock_fails hi (.inl hnamed)⟩
  rintro i (rfl | rfl | rfl)
  · exact exec_composite_fails hi (compositeKnown_unbound hunbound) rfl (compositeChecks_unnamed hnamed)
  · exact exec_markDecoded_unnamed hi hnamed
  · exact runCommand_fails [] [] hi (by decide) (by decide) (palResolveBody_unbound (u := acceptRun 0x08#8 s) hunbound)

/-! ### DECODE_BLOCK's tag dispatch and completion -/

/-- Settles O12: the fetch reads and decodes the tag, and the engine has no second turn. -/
theorem stepRunsTheTagOfThePayload : Obligations.StepRunsTheTagOfThePayload := by
  intro s c i hc hpos hplain hdecode _
  have hb := blockAtTag_of hc hpos
  have hread : ({ st := { s with inflight := none }, c := c } : Run).nameTag.read c.params.blkAddr.toNat
      = .ok (s.mem.read c.params.blkAddr.toNat) :=
    Run.read_region (u := ({ st := { s with inflight := none }, c := c } : Run).nameTag) hplain (Region.has_self _)
  have htag : decodeTag (s.mem.read c.params.blkAddr.toNat) = .instr i := hdecode
  rw [step_atTag hb]
  simp only [fetchTag, hread, htag, Fetched.outcome]

/-- Settles O47: the three ends of `complete` for DECODE_BLOCK. -/
theorem decodeBlockCompletionClause : Obligations.DecodeBlockCompletionClause := by
  intro s c code n hc hpos hop
  have hsettled : s.settled = complete c code s := by simp only [State.settled, hc, hpos]
  rw [hsettled]
  refine ⟨?_, fun hok hdrop => ?_, fun hok hjpeg hwrote => ?_⟩
  · rintro rfl
    rw [complete_decode_ok _ _ hop]
    exact ⟨rfl, rfl⟩
  · rw [complete_decode_drop _ _ _ hop hok hdrop]
    exact ⟨rfl, rfl⟩
  · rw [complete_decode_keep _ _ _ hop hok hjpeg hwrote]
    exact ⟨rfl, rfl⟩

end Sys2Proof.Machine
end

section
/-! What a stage of the decoder does on a well-formed input: pairs expanded, or up to the pair that does not fit; and
RLE_EXPAND, which is one such stage. -/

namespace Sys2Proof.Machine

/-! ### A stage's input and output -/

/-- The `n` bytes at `a` answer reads, the `cap` bytes at `o` answer writes, and no byte is of both. -/
structure State.CanPass (s : State) (a n o cap : Nat) : Prop where
  reads : s.readsPlain ⟨a, n⟩
  writes : s.writesPlain ⟨o, cap⟩
  apart : ∀ x, Region.has ⟨a, n⟩ x = true → Region.has ⟨o, cap⟩ x = false

/-- A part of a plain region is plain. -/
theorem State.readsPlain_part {s : State} {r : Region} (h : s.readsPlain r) {a n : Nat} (ha : r.base ≤ a)
    (hn : a + n ≤ r.base + r.len) : s.readsPlain ⟨a, n⟩ :=
  fun x hx => h x (by rw [Region.has_iff] at hx ⊢; simp only at hx; omega)

/-- A stage from a part of a plain region to another region apart from it. -/
theorem State.CanPass.of_part {s : State} {r : Region} {o cap : Nat} (hr : s.readsPlain r) (hw : s.writesPlain ⟨o, cap⟩)
    (hapart : regionsClash [r] [⟨o, cap⟩] = false) {a n : Nat} (ha : r.base ≤ a) (hn : a + n ≤ r.base + r.len) :
    s.CanPass a n o cap where
  reads := State.readsPlain_part hr ha hn
  writes := hw
  apart x hx := regionsClash_one hapart (by rw [Region.has_iff] at hx ⊢; simp only at hx; omega)

/-- A stage needs nothing of the machine but its platform. -/
theorem State.CanPass.of_platform {s t : State} {a n o cap : Nat} (h : s.CanPass a n o cap) (e : t.platform = s.platform) :
    t.CanPass a n o cap :=
  ⟨State.readsPlain_of h.reads e, State.writesPlain_of h.writes e, h.apart⟩

/-! ### The expansion -/

/-- How far the pairs in front of the last `k` bring an expansion whose output holds theirs (40_block_decoder.md R205). -/
theorem rleExpand_front {u : Run} {a o cap : Nat} {front back : List (Byte × Byte)}
    (h : u.st.CanPass a (2 * (front ++ back).length) o cap)
    (hb : u.st.mem.bytes a (2 * (front ++ back).length) = pairBytes (front ++ back)) (hc : (expanded front).length ≤ cap) :
    ∃ v, rleExpand u a (2 * (front ++ back).length) o cap
        = rlePairs a o cap back.length front.length (expanded front).length v
      ∧ u.Stores v o (expanded front) := by
  have hlen : (front ++ back).length = front.length + back.length := List.length_append
  obtain ⟨v, hrun, hstores⟩ := rlePairs_run (o := o) (cap := cap) (q := 0) (count := 0) back.length front
    h.reads
    (fun i hi => Region.has_mk (by omega)) h.writes (fun i hi => Region.has_mk (by omega)) h.apart
    (bytes_pairs_append hb).1 (by omega)
  refine ⟨v, ?_, hstores⟩
  rw [rleExpand_even (by omega), Nat.mul_div_cancel_left _ Nat.two_pos, hlen, hrun, Nat.zero_add, Nat.zero_add]

/-- Pairs whose expansion fits are expanded to the last (40_block_decoder.md R205, R206). -/
theorem rleExpand_fits {u : Run} {a o cap : Nat} {pairs : List (Byte × Byte)} (h : u.st.CanPass a (2 * pairs.length) o cap)
    (hb : u.st.mem.bytes a (2 * pairs.length) = pairBytes pairs) (hc : (expanded pairs).length ≤ cap) :
    ∃ v, rleExpand u a (2 * pairs.length) o cap = .ok (⟨.ok, (expanded pairs).length, pairs.length⟩, v)
      ∧ u.Stores v o (expanded pairs) := by
  rw [← List.append_nil pairs] at h hb
  obtain ⟨v, hrun, hstores⟩ := rleExpand_front h hb hc
  rw [List.append_nil] at hrun
  exact ⟨v, hrun, hstores⟩

/-- A pair that would pass the capacity ends the expansion before any byte of it is written (40_block_decoder.md R208). -/
theorem rleExpand_overflows {u : Run} {a o cap : Nat} {front back : List (Byte × Byte)} {pair : Byte × Byte}
    (h : u.st.CanPass a (2 * (front ++ pair :: back).length) o cap)
    (hb : u.st.mem.bytes a (2 * (front ++ pair :: back).length) = pairBytes (front ++ pair :: back))
    (hc : (expanded front).length ≤ cap) (hover : cap < (expanded front).length + pair.1.toNat) :
    ∃ v, rleExpand u a (2 * (front ++ pair :: back).length) o cap
        = .ok (⟨.decodeOverflow, (expanded front).length, front.length⟩, v)
      ∧ u.Stores v o (expanded front) := by
  obtain ⟨v, hrun, hstores⟩ := rleExpand_front h hb hc
  refine ⟨v, hrun.trans ?_, hstores⟩
  have hin (k : Nat) (hk : k < 2 * (front ++ pair :: back).length) :
      Region.has ⟨a, 2 * (front ++ pair :: back).length⟩ (a + k) = true := Region.has_mk hk
  have hlen : (front ++ pair :: back).length = front.length + (back.length + 1) := by simp
  have hread (k : Nat) (hk : k < 2 * (front ++ pair :: back).length) : v.read (a + k) = .ok (u.st.mem.read (a + k)) := by
    have hkept : v.st.mem.read (a + k) = u.st.mem.read (a + k) := hstores.read_apart (h.apart _ (hin k hk)) hc
    rw [← hkept]
    exact Run.read_region (State.readsPlain_of h.reads (by rw [hstores.st])) (hin k hk)
  obtain ⟨hcount, _⟩ := bytes_pair (bytes_pairs_append hb).2
  have hread0 := hread (2 * front.length) (by omega)
  have hread1 := hread (2 * front.length + 1) (by omega)
  rw [hcount] at hread0
  rw [← Nat.add_assoc] at hread1
  simp only [List.length_cons, rlePairs, hread0, hread1, bind, Except.bind, if_pos hover]
  rfl

/-- An input of odd length ends the expansion before any access (40_block_decoder.md R207). -/
theorem rleExpand_odd {u : Run} {a n o cap : Nat} (h : n % 2 = 1) : rleExpand u a n o cap = .ok (⟨.rleOdd, 0, 0⟩, u) :=
  if_pos h

/-! ### RLE_EXPAND -/

/-- The last lines of a body that ends with its stage's status, OK among them. -/
theorem conclude_status (u : Run) (code : Code) :
    conclude (do u.require (code == .ok) code; pure u) = .next (settle u code) := by
  by_cases h : code = .ok
  · subst h
    rfl
  · rw [require_bind_false _ (beq_eq_false_iff_ne.2 h)]
    rfl

/-- An RLE_EXPAND whose regions are apart and well-formed ends with the status, the counts and the stored bytes of its
expansion; nothing else changes. -/
theorem exec_rleExpand_stores {s : State} {w : Run} {res : RleResult} {bs : List Byte} (hi : s.inflight = none)
    (hapart : regionsClash [s.params.inRegion] [s.params.outRegion] = false) (hin : s.params.inRegion.fits = true)
    (hout : s.params.outRegion.fits = true)
    (h : rleExpand s.rleExpandRun s.params.inAddr.toNat s.params.inLen.toNat s.params.outAddr.toNat
      s.params.outCap.toNat = .ok (res, w))
    (hstores : s.rleExpandRun.Stores w s.params.outAddr.toNat bs) :
    ∃ t, exec .rleExpand s = .next t ∧ t.mem = s.mem.store s.params.outAddr.toNat bs
      ∧ t.settled = ({ s with mem := s.mem.store s.params.outAddr.toNat bs }).finishing res.code res.count res.pairs 0 := by
  have hbody : rleExpandBody (acceptRun 0x07#8 s) = (do
      let v : Run := { w with c := { w.c with r0 := res.count, r1 := res.pairs } }
      v.require (res.code == .ok) res.code
      pure v) :=
    (declare_bind_apart _ hapart).trans ((require_bind_true _ (Bool.and_eq_true_iff.2 ⟨hin, hout⟩)).trans
      (bind_of_ok _ h))
  refine ⟨_, (runCommand_idle hi).trans ((congrArg conclude hbody).trans (conclude_status _ _)), ?_, ?_⟩
  · rw [settle_mem, hstores.st]
    rfl
  · have hop : w.c.op = 0x07#8 := by rw [hstores.c]; rfl
    have hr2 : w.c.r2 = 0 := by rw [hstores.c]; rfl
    rw [settled_plain 0x07#8 (by exact hop) (by decide) (by decide), hstores.st, hr2]
    rfl

/-- RLE_EXPAND's expansion is a stage from its input region to its output region. -/
theorem rleExpandRun_canPass {s : State} (hr : s.readsPlain s.params.inRegion) (hw : s.writesPlain s.params.outRegion)
    (hapart : regionsClash [s.params.inRegion] [s.params.outRegion] = false) {n : Nat} (hn : s.params.inLen.toNat = n) :
    s.rleExpandRun.st.CanPass s.params.inAddr.toNat n s.params.outAddr.toNat s.params.outCap.toNat :=
  hn ▸ State.CanPass.of_platform (s := s) (.of_part hr hw hapart (Nat.le_refl _) (Nat.le_refl _)) rfl

/-- Settles O29: the expansion runs to its end. -/
theorem rleExpandWritesTheExpansion : Obligations.RleExpandWritesTheExpansion := by
  intro s pairs hi hin hout hapart hr hw hlen hb hc
  rw [hlen] at hb
  obtain ⟨w, hrun, hstores⟩ := rleExpand_fits (u := s.rleExpandRun) (rleExpandRun_canPass hr hw hapart hlen) hb hc
  rw [← hlen] at hrun
  obtain ⟨t, hexec, hmem, hsettled⟩ := exec_rleExpand_stores hi hapart hin hout hrun hstores
  exact ⟨t, _, hexec, hmem, hsettled, Memory.bytes_store _ _ _, Memory.sameOutside_store _ _ _⟩

/-- Settles O30: the expansion stops at the pair. -/
theorem rleOverflowStopsBeforeThePair : Obligations.RleOverflowStopsBeforeThePair := by
  intro s front back pair hi hin hout hapart hr hw hlen hb hc hover
  rw [hlen] at hb
  obtain ⟨w, hrun, hstores⟩ := rleExpand_overflows (u := s.rleExpandRun) (rleExpandRun_canPass hr hw hapart hlen) hb hc hover
  rw [← hlen] at hrun
  obtain ⟨t, hexec, hmem, hsettled⟩ := exec_rleExpand_stores hi hapart hin hout hrun hstores
  exact ⟨t, _, hexec, hmem, hsettled, Memory.bytes_store _ _ _, Memory.sameOutside_store _ _ _⟩

/-- Settles O31: the expansion ends with nothing stored. -/
theorem oddRleInputIsReportedBeforeAnyAccess : Obligations.OddRleInputIsReportedBeforeAnyAccess := by
  intro s hi hin hout hapart hodd
  obtain ⟨t, hexec, hmem, hsettled⟩ :=
    exec_rleExpand_stores hi hapart hin hout (rleExpand_odd hodd) (Run.Stores.refl s.rleExpandRun _)
  exact ⟨t, hexec, hsettled, hmem⟩

end Sys2Proof.Machine
end

section
/-! The block tags of DECODE_BLOCK whose checks pass: how each ends, with what it stored, and its completion. -/

namespace Sys2Proof.Machine

/-! ### From a tag's checks to its completion -/

/-- The DECODE_BLOCK of a machine that stands at its dispatch, past the checks of this tag. -/
def State.tagRun (s : State) (p : Params) (tag : Byte) : Run := (s.dispatchRun p).withTag tag

/-- A tag that passes its checks goes on with its body, its regions and the tag in the record. -/
theorem runTag_passes {s : State} {p : Params} {tag : Byte} {valid : Run → Bool} (body : Run → Except Stop Run)
    (hc : s.inflight = some { op := 0x02#8, params := p }) (hvalid : valid (s.dispatchRun p) = true)
    (hsize : s.frame.blockSize p.index.toNat ≤ p.dbufCap.toNat)
    (hapart : regionsClash (tagRegions tag s.frame p).1 (tagRegions tag s.frame p).2 = false) :
    runTag (fun u => do body (← tagChecks tag (valid u) u)) s = conclude (body (s.tagRun p tag)) := by
  rw [runTag_of (blockAtTag_dispatchRun hc), tagChecks_ok (u := s.dispatchRun p) hvalid hsize hapart]
  rfl

/-- The DECODE_BLOCK of machine `s` under parameters `p`, run to its end: nothing but memory has changed, it is now `m`, and
the results are these. -/
structure Run.DecodedTo (u : Run) (s : State) (p : Params) (m : Memory) (wrote : Bool) (r0 r1 r2 : Nat) : Prop where
  st : u.st = { s with inflight := none, mem := m }
  op : u.c.op = 0x02#8
  params : u.c.params = p
  wrote : u.c.wrote = wrote
  r0 : u.c.r0 = r0
  r1 : u.c.r1 = r1
  r2 : u.c.r2 = r2

theorem State.tagRun_decodedTo (s : State) (p : Params) (tag : Byte) :
    (s.tagRun p tag).DecodedTo s p s.mem false 0 tag.toNat 0 :=
  ⟨rfl, rfl, rfl, rfl, rfl, rfl, rfl⟩

namespace Run.DecodedTo

variable {u : Run} {s : State} {p : Params} {m : Memory} {wrote : Bool} {r0 r1 r2 : Nat}

theorem blockSize (h : u.DecodedTo s p m wrote r0 r1 r2) : u.blockSize = s.frame.blockSize p.index.toNat := by
  rw [Run.blockSize, h.st, h.params]

theorem mem (h : u.DecodedTo s p m wrote r0 r1 r2) : u.st.mem = m := by rw [h.st]

theorem platform (h : u.DecodedTo s p m wrote r0 r1 r2) : u.st.platform = s.platform := by rw [h.st]

/-- A stage that stores bytes; those of DBUF count as written. -/
theorem stores (h : u.DecodedTo s p m wrote r0 r1 r2) {v : Run} {a : Nat} {bs : List Byte} (hs : u.Stores v a bs) :
    v.DecodedTo s p (m.store a bs) (wrote || (u.c.toDbuf && !bs.isEmpty)) r0 r1 r2 where
  st := by rw [hs.st, h.st]
  op := by rw [hs.c]; exact h.op
  params := by rw [hs.c]; exact h.params
  wrote := by rw [hs.wrote, h.wrote]
  r0 := by rw [hs.c]; exact h.r0
  r1 := by rw [hs.c]; exact h.r1
  r2 := by rw [hs.c]; exact h.r2

theorem result0 (h : u.DecodedTo s p m wrote r0 r1 r2) (n : Nat) :
    ({ u with c := { u.c with r0 := n } } : Run).DecodedTo s p m wrote n r1 r2 :=
  ⟨h.st, h.op, h.params, h.wrote, rfl, h.r1, h.r2⟩

theorem result2 (h : u.DecodedTo s p m wrote r0 r1 r2) (n : Nat) :
    ({ u with c := { u.c with r2 := n } } : Run).DecodedTo s p m wrote r0 r1 n :=
  ⟨h.st, h.op, h.params, h.wrote, h.r0, h.r1, rfl⟩

theorem settle_mem (h : u.DecodedTo s p m wrote r0 r1 r2) (code : Code) : (settle u code).mem = m := by
  rw [Machine.settle_mem, h.st]

/-- OK records the block (40_block_decoder.md R204). -/
theorem settled_ok (h : u.DecodedTo s p m wrote r0 r1 r2) :
    (settle u .ok).settled
      = ({ s with mem := m, dbufValid := true, dbufBlock := p.index.zeroExtend 32 }).finishing .ok r0 r1 r2 := by
  rw [settled_settle, complete_decode_ok _ _ h.op, h.st, h.params, h.r0, h.r1, h.r2]
  rfl

/-- JPEG_HANDOFF, or an error after a byte of DBUF was written, drops the block (40_block_decoder.md R204). -/
theorem settled_drop (h : u.DecodedTo s p m wrote r0 r1 r2) {code : Code} (hok : code ≠ .ok)
    (hdrop : code = .jpegHandoff ∨ wrote = true) :
    (settle u code).settled
      = ({ s with mem := m, dbufValid := false, dbufBlock := 0xFFFFFFFF#32 }).finishing code r0 r1 r2 := by
  rw [settled_settle, complete_decode_drop _ _ _ h.op hok (h.wrote.symm ▸ hdrop), h.st, h.r0, h.r1, h.r2]
  rfl

/-- An error before that leaves the DBUF state (40_block_decoder.md R204). -/
theorem settled_keep (h : u.DecodedTo s p m wrote r0 r1 r2) {code : Code} (hok : code ≠ .ok) (hjpeg : code ≠ .jpegHandoff)
    (hwrote : wrote = false) : (settle u code).settled = ({ s with mem := m }).finishing code r0 r1 r2 := by
  rw [settled_settle, complete_decode_keep _ _ _ h.op hok hjpeg (h.wrote.trans hwrote), h.st, h.r0, h.r1, h.r2]
  rfl

end Run.DecodedTo

/-- The status of a tag that has to fill its block (40_block_decoder.md R210, R215). -/
def sizeStatus (count size : Nat) : Code := if count = size then .ok else .sizeMismatch

/-- The last line of such a tag. -/
theorem conclude_sizeStatus {u : Run} {count size : Nat} (h : u.blockSize = size) :
    conclude (do u.require (count == u.blockSize) .sizeMismatch; pure u) = .next (settle u (sizeStatus count size)) := by
  subst h
  by_cases he : count = u.blockSize
  · rw [require_bind_true _ (beq_iff_eq.2 he), sizeStatus, if_pos he]
    rfl
  · rw [require_bind_false _ (beq_eq_false_iff_ne.2 he), sizeStatus, if_neg he]
    rfl

theorem sizeStatus_short {count size : Nat} (h : count < size) : sizeStatus count size = .sizeMismatch :=
  if_neg (Nat.ne_of_lt h)

/-! ### Tag 2 -/

/-- Settles O45: the checks pass, and JPEG_HANDOFF drops the block. -/
theorem jpegTagHandsTheBlockOff : Obligations.JpegTagHandsTheBlockOff := by
  intro s p hc hdepth hsize
  have hbytes : s.frame.blockSize p.index.toNat = 2 * s.frame.w.toNat * s.frame.rows p.index.toNat := by
    simp [Frame.blockSize, blockBytes, hdepth]
  have hend := (s.tagRun_decodedTo p 0x02#8).result0 (s.frame.blockSize p.index.toNat)
  rw [← hbytes]
  exact ⟨_, runTag_passes (valid := fun u => u.st.frame.depth == 24#8) jpegBlock hc (beq_iff_eq.2 hdepth) hsize rfl,
    hend.settled_drop nofun (.inl rfl), hend.settle_mem _⟩

/-! ### Tag 0 -/

/-- The stage whose output goes to DBUF (40_block_decoder.md R200). -/
def Run.toBlock (u : Run) : Run := { u with c := { u.c with toDbuf := true } }

theorem Run.DecodedTo.toBlock {u : Run} {s : State} {p : Params} {m : Memory} {wrote : Bool} {r0 r1 r2 : Nat}
    (h : u.DecodedTo s p m wrote r0 r1 r2) : u.toBlock.DecodedTo s p m wrote r0 r1 r2 :=
  ⟨h.st, h.op, h.params, h.wrote, h.r0, h.r1, h.r2⟩

/-- The running RLE block of a machine at its dispatch, its output DBUF. -/
def State.rleRun (s : State) (p : Params) : Run := (s.tagRun p 0x00#8).toBlock

/-- A tag 0 that passes its checks ends with the status, the count and the stored bytes of its expansion. -/
theorem exec_blkRle_stores {s : State} {p : Params} {w : Run} {code : Code} {count pairs : Nat} {bs : List Byte}
    (hc : s.inflight = some { op := 0x02#8, params := p }) (hdepth : indexedDepth s.frame.depth = true)
    (hsize : s.frame.blockSize p.index.toNat ≤ p.dbufCap.toNat)
    (hapart : regionsClash [p.blkRegion] [⟨p.dbufAddr.toNat, s.frame.blockSize p.index.toNat⟩] = false)
    (h : rleExpand (s.rleRun p) (p.blkAddr.toNat + 1) (p.blkLen.toNat - 1) p.dbufAddr.toNat
      (s.frame.blockSize p.index.toNat) = .ok (⟨code, count, pairs⟩, w))
    (hstores : (s.rleRun p).Stores w p.dbufAddr.toNat bs) :
    ∃ v : Run, exec .blkRle s = .next (settle v code)
      ∧ v.DecodedTo s p (s.mem.store p.dbufAddr.toNat bs) (!bs.isEmpty) count 0 0 := by
  have hbody : rleBlock (s.tagRun p 0x00#8) = (do
      let v : Run := { w with c := { w.c with r0 := count } }
      v.require (code == .ok) code
      pure v) := bind_of_ok _ h
  refine ⟨_, ?_, ((s.tagRun_decodedTo p 0x00#8).toBlock.stores hstores).result0 count⟩
  exact (runTag_passes (tag := 0x00#8) (valid := fun u => indexedDepth u.st.frame.depth) rleBlock hc hdepth hsize hapart).trans
    ((congrArg conclude hbody).trans (conclude_status _ _))

/-- Settles O42: the pairs run to their end, their number is odd, or one does not fit. -/
theorem rleTagDecodesTheBlock : Obligations.RleTagDecodesTheBlock := by
  refine ⟨fun s p pairs hc hdepth hsize _ _ hapart hr hw hlen hb hfits => ?_,
    fun s p hc hdepth hsize hapart hne heven => ?_,
    fun s p front back pair hc hdepth hsize _ _ hapart hr hw hlen hb hfits hover => ?_⟩
  · have hpass : s.CanPass (p.blkAddr.toNat + 1) (2 * pairs.length) p.dbufAddr.toNat (s.frame.blockSize p.index.toNat) :=
      .of_part hr hw hapart (Nat.le_add_right _ 1) (by simp only [Params.blkRegion]; omega)
    obtain ⟨w, hrun, hstores⟩ := rleExpand_fits (u := s.rleRun p) (hpass.of_platform rfl) hb hfits
    rw [show 2 * pairs.length = p.blkLen.toNat - 1 by omega] at hrun
    obtain ⟨v, hexec, hend⟩ := exec_blkRle_stores hc hdepth hsize hapart hrun hstores
    exact ⟨_, _, hexec, hend.settle_mem _, hend.settled_ok, Memory.bytes_store _ _ _, Memory.sameOutside_store _ _ _⟩
  · have hpos : p.blkLen.toNat ≠ 0 := fun h => hne (BitVec.eq_of_toNat_eq h)
    obtain ⟨v, hexec, hend⟩ := exec_blkRle_stores hc hdepth hsize hapart (rleExpand_odd (by omega))
      (Run.Stores.refl (s.rleRun p) _)
    exact ⟨_, hexec, hend.settled_keep nofun nofun rfl, hend.settle_mem _⟩
  · have hpass : s.CanPass (p.blkAddr.toNat + 1) (2 * (front ++ pair :: back).length) p.dbufAddr.toNat
        (s.frame.blockSize p.index.toNat) :=
      .of_part hr hw hapart (Nat.le_add_right _ 1) (by simp only [Params.blkRegion]; omega)
    obtain ⟨w, hrun, hstores⟩ := rleExpand_overflows (u := s.rleRun p) (hpass.of_platform rfl) hb hfits hover
    rw [show 2 * (front ++ pair :: back).length = p.blkLen.toNat - 1 by omega] at hrun
    obtain ⟨v, hexec, hend⟩ := exec_blkRle_stores hc hdepth hsize hapart hrun hstores
    refine ⟨_, _, hexec, hend.settle_mem _, fun hsome => hend.settled_drop nofun (.inr ?_), fun hnone => ?_,
      Memory.bytes_store _ _ _, Memory.sameOutside_store _ _ _⟩
    · simpa using hsome
    · rw [hend.settled_keep (code := .decodeOverflow) nofun nofun (by simp [hnone]), hnone]
      rfl

end Sys2Proof.Machine
end

section
/-! The Huffman tags of DECODE_BLOCK: the section header, its table and its stream, for tags 1 and 3; and tag 1's second
stage. -/

namespace Sys2Proof.Machine

/-! ### The section header -/

/-- Two bytes, the low one first, are the number they were made of (20_memory.md R82). -/
theorem toNat_append_ofNat {n : Nat} (h : n < 0x10000) :
    (BitVec.ofNat 8 (n / 256) ++ BitVec.ofNat 8 n : BitVec 16).toNat = n := by
  rw [BitVec.toNat_append, ← Nat.shiftLeft_add_eq_or_of_lt (BitVec.isLt _), Nat.shiftLeft_eq, BitVec.toNat_ofNat,
    BitVec.toNat_ofNat]
  omega

/-- A 16-bit read in a plain region. -/
theorem Run.read16_region {u : Run} {r : Region} {a n : Nat} (hr : u.st.readsPlain r) (h0 : r.has a = true)
    (h1 : r.has (a + 1) = true) (hb : u.st.mem.bytes a 2 = [BitVec.ofNat 8 n, BitVec.ofNat 8 (n / 256)]) :
    u.read16 a = .ok (BitVec.ofNat 8 (n / 256) ++ BitVec.ofNat 8 n) := by
  rw [Memory.bytes_cons, Memory.bytes_cons] at hb
  injection hb with hlo hb
  injection hb with hhi _
  simp only [Run.read16, Run.read_region hr h0, Run.read_region hr h1, hlo, hhi, bind, Except.bind, pure, Except.pure]

/-- The section header, read from a payload of at least three bytes: whether its table fits (40_block_decoder.md R211). -/
theorem sectionHeader_eq {u : Run} {tlen : Nat} (hr : u.st.readsPlain u.c.params.blkRegion)
    (hb : u.st.mem.bytes (u.c.params.blkAddr.toNat + 1) 2 = [BitVec.ofNat 8 tlen, BitVec.ofNat 8 (tlen / 256)])
    (hlt : tlen < 0x10000) (h3 : 3 ≤ u.c.params.blkLen.toNat) :
    sectionHeader u = (do
      u.require (3 + tlen ≤ u.c.params.blkLen.toNat) .badTable
      pure tlen) := by
  have hin (i : Nat) (hi : i < 3) : u.c.params.blkRegion.has (u.c.params.blkAddr.toNat + i) = true :=
    Region.has_mk (hi.trans_le h3)
  rw [sectionHeader, require_bind_true _ (decide_eq_true h3), Run.read16_region hr (hin 1 (by omega)) (hin 2 (by omega)) hb]
  simp only [bind, Except.bind, toNat_append_ofNat hlt]

theorem sectionHeader_ok {u : Run} {tlen : Nat} (hr : u.st.readsPlain u.c.params.blkRegion)
    (hb : u.st.mem.bytes (u.c.params.blkAddr.toNat + 1) 2 = [BitVec.ofNat 8 tlen, BitVec.ofNat 8 (tlen / 256)])
    (hlt : tlen < 0x10000) (h : 3 + tlen ≤ u.c.params.blkLen.toNat) : sectionHeader u = .ok tlen := by
  rw [sectionHeader_eq hr hb hlt (by omega), require_bind_true _ (decide_eq_true h)]
  rfl

/-- A payload too short for the section header or its table (40_block_decoder.md R211). -/
theorem sectionHeader_short {u : Run} {tlen : Nat} (hr : u.st.readsPlain u.c.params.blkRegion)
    (hb : u.st.mem.bytes (u.c.params.blkAddr.toNat + 1) 2 = [BitVec.ofNat 8 tlen, BitVec.ofNat 8 (tlen / 256)])
    (hlt : tlen < 0x10000) (h : u.c.params.blkLen.toNat < 3 + tlen) : sectionHeader u = .error (.ended .badTable u) := by
  by_cases h3 : 3 ≤ u.c.params.blkLen.toNat
  · rw [sectionHeader_eq hr hb hlt h3]
    exact require_bind_false _ (decide_eq_false (Nat.not_le.2 h))
  · exact require_bind_false _ (decide_eq_false h3)

/-- A section whose header or whose table of length 0 fails, before anything else is done with it. -/
theorem section_bad {α : Type} {u : Run} {tlen : Nat} (f : Nat → BuildResult → Except Stop α)
    (hr : u.st.readsPlain u.c.params.blkRegion)
    (hb : u.st.mem.bytes (u.c.params.blkAddr.toNat + 1) 2 = [BitVec.ofNat 8 tlen, BitVec.ofNat 8 (tlen / 256)])
    (hlt : tlen < 0x10000) (h : u.c.params.blkLen.toNat < 3 + tlen ∨ tlen = 0) :
    (do let n ← sectionHeader u
        let bt ← sectionTree u n
        f n bt) = .error (.ended .badTable u) := by
  by_cases hshort : u.c.params.blkLen.toNat < 3 + tlen
  · rw [sectionHeader_short hr hb hlt hshort]
    rfl
  · rw [sectionHeader_ok hr hb hlt (Nat.not_lt.1 hshort), h.resolve_left hshort]
    rfl

/-! ### The section -/

/-- The payload of a tag 1 or 3: a header, a table of `tlen` bytes that holds a code book, and a stream that is a
message in its codes (40_block_decoder.md R210, R211, R215). -/
structure State.HoldsSection (s : State) (p : Params) (tlen : Nat) (book : CodeBook) (msg : Message) : Prop where
  reads : s.readsPlain p.blkRegion
  header : s.mem.bytes (p.blkAddr.toNat + 1) 2 = [BitVec.ofNat 8 tlen, BitVec.ofNat 8 (tlen / 256)]
  lenLt : tlen < 0x10000
  nonempty : 0 < tlen
  within : 3 + tlen ≤ p.blkLen.toNat
  padLe : (s.mem.read (p.blkAddr.toNat + 3)).toNat ≤ 7
  table : tableHolds s.mem (p.blkAddr.toNat + 3) tlen book 1
  prefixFree : book.prefixFree
  nodes : book.nodes ≤ s.platform.nodeCap
  codes : ∀ e ∈ msg, (e.2, e.1) ∈ book
  padWithin : (s.mem.read (p.blkAddr.toNat + 3)).toNat ≤ 8 * (p.blkLen.toNat - 3 - tlen)
  bits : s.mem.bits (p.blkAddr.toNat + 3 + tlen)
    (8 * (p.blkLen.toNat - 3 - tlen) - (s.mem.read (p.blkAddr.toNat + 3)).toNat) = msg.bits

/-- A message in the codes of a tree's book spells in the tree. -/
theorem Tree.OfBook.spells {t : Tree} {book : CodeBook} (h : t.OfBook book) {msg : Message}
    (hm : ∀ e ∈ msg, (e.2, e.1) ∈ book) : t.spells msg := by
  intro e he
  have hleaf : t.follow e.1 = .leaf e.2 := (h.codes _ _).2 (hm e he)
  refine ⟨fun hnil => ?_, hleaf⟩
  rw [hnil, Tree.follow_nil] at hleaf
  have hnode := h.isNode
  rw [hleaf] at hnode
  cases hnode

/-- A PAD byte of at most 7 is kept in three bits. -/
theorem toNat_pad {b : Byte} (h : b.toNat ≤ 7) : (b.extractLsb' 0 3).toNat = b.toNat := by
  simp only [BitVec.extractLsb'_toNat, Nat.shiftRight_zero]
  omega

/-- The table of a section builds its book's tree. -/
theorem sectionTree_ok {u : Run} {tlen : Nat} {book : CodeBook} {msg : Message}
    (h : u.st.HoldsSection u.c.params tlen book msg) :
    ∃ bt, sectionTree u tlen = .ok bt ∧ bt.tree.OfBook book
      ∧ bt.pad.toNat = (u.st.mem.read (u.c.params.blkAddr.toNat + 3)).toNat := by
  have hin (i : Nat) (hi : i < tlen) : u.c.params.blkRegion.has (u.c.params.blkAddr.toNat + 3 + i) = true := by
    rw [Nat.add_assoc]
    exact Region.has_mk ((Nat.add_lt_add_left hi 3).trans_le h.within)
  obtain ⟨tree, hbuild, hbook⟩ := buildTree_ok h.reads hin h.nonempty h.padLe h.table h.prefixFree h.nodes
  exact ⟨_, bind_of_ok _ hbuild, hbook, toNat_pad h.padLe⟩

/-- A stream that is a message is decoded to its values (41_huffman.md R260 to R265). -/
theorem huffDecode_message {u : Run} {root : Tree} {pad : BitVec 3} {a n o cap : Nat} {msg : Message}
    (h : u.st.CanPass a n o cap) (hpad : pad.toNat ≤ 8 * n) (hbits : u.st.mem.bits a (8 * n - pad.toNat) = msg.bits)
    (hm : root.spells msg) (hc : msg.length ≤ cap) :
    ∃ v, huffDecode u root pad a n o cap = .ok (⟨.ok, msg.length, 8 * n - pad.toNat⟩, v) ∧ u.Stores v o msg.values := by
  obtain ⟨hat, hlen⟩ := BitsAt_of_bits hbits
  obtain ⟨v, byte, hrun, _, hstores⟩ := huffBits_run (root := root) (cap := cap) (count := 0) (byte := 0#8) 0 msg h.reads
    h.writes h.apart (fun i hi => Region.has_mk (by omega)) (fun hj => absurd rfl hj) hat hm (by omega)
    (fun i hi => Region.has_mk (by omega))
  refine ⟨v, ?_, hstores⟩
  rw [huffDecode_within hpad, ← hlen]
  simp only [Nat.add_zero, Nat.zero_add] at hrun
  exact hrun

/-- A section is decoded to its message's values, wherever there is room for them. -/
theorem section_decodes {u : Run} {tlen : Nat} {book : CodeBook} {msg : Message} {o cap : Nat}
    (h : u.st.HoldsSection u.c.params tlen book msg) (hw : u.st.writesPlain ⟨o, cap⟩)
    (hapart : regionsClash [u.c.params.blkRegion] [⟨o, cap⟩] = false) (hc : msg.length ≤ cap) :
    ∃ bt bits, sectionHeader u = .ok tlen ∧ sectionTree u tlen = .ok bt ∧ ∀ v : Run, v.st = u.st →
      ∃ w, huffDecode v bt.tree bt.pad (u.c.params.blkAddr.toNat + 3 + tlen) (u.c.params.blkLen.toNat - 3 - tlen) o cap
          = .ok (⟨.ok, msg.length, bits⟩, w)
        ∧ v.Stores w o msg.values := by
  obtain ⟨bt, htree, hbook, hpad⟩ := sectionTree_ok h
  refine ⟨bt, 8 * (u.c.params.blkLen.toNat - 3 - tlen) - bt.pad.toNat,
    sectionHeader_ok h.reads h.header h.lenLt h.within, htree, fun v hv => ?_⟩
  have hwithin := h.within
  have hpass : u.st.CanPass (u.c.params.blkAddr.toNat + 3 + tlen) (u.c.params.blkLen.toNat - 3 - tlen) o cap :=
    .of_part h.reads hw hapart (by simp only [Params.blkRegion]; omega) (by simp only [Params.blkRegion]; omega)
  exact huffDecode_message (hv ▸ hpass) (hpad ▸ h.padWithin) (by rw [hv, hpad]; exact h.bits) (hbook.spells h.codes) hc

/-! ### How a tag that has to fill its block ends -/

/-- A tag that has to fill its block ends with OK where it did, and else with SIZE_MISMATCH; DBUF then holds no block where
any byte was written (40_block_decoder.md R204, R210, R215). -/
theorem Run.DecodedTo.settled_sizeStatus {u : Run} {s : State} {p : Params} {m : Memory} {wrote : Bool} {count r1 r2 size : Nat}
    (h : u.DecodedTo s p m wrote count r1 r2) :
    (count = size → (settle u (sizeStatus count size)).settled
      = ({ s with mem := m, dbufValid := true, dbufBlock := p.index.zeroExtend 32 }).finishing .ok count r1 r2)
    ∧ (count < size → wrote = true → (settle u (sizeStatus count size)).settled
      = ({ s with mem := m, dbufValid := false, dbufBlock := 0xFFFFFFFF#32 }).finishing .sizeMismatch count r1 r2)
    ∧ (count < size → wrote = false → (settle u (sizeStatus count size)).settled
      = ({ s with mem := m }).finishing .sizeMismatch count r1 r2) := by
  refine ⟨fun heq => ?_, fun hlt hwrote => ?_, fun hlt hwrote => ?_⟩
  · rw [sizeStatus, if_pos heq]
    exact h.settled_ok
  · rw [sizeStatus_short hlt]
    exact h.settled_drop nofun (.inr hwrote)
  · rw [sizeStatus_short hlt]
    exact h.settled_keep nofun nofun hwrote

/-! ### Tag 3 -/

theorem values_length (msg : Message) : msg.values.length = msg.length := List.length_map _

theorem values_isEmpty (msg : Message) : (!msg.values.isEmpty) = true ↔ msg ≠ [] := by
  cases msg <;> simp [Message.values]

/-- Tag 3 past its section's stages: the last line is left. -/
theorem directBlock_eq {u w : Run} {tlen count bits : Nat} {bt : BuildResult} (hheader : sectionHeader u = .ok tlen)
    (htree : sectionTree u tlen = .ok bt)
    (hdecode : huffDecode u.toBlock bt.tree bt.pad (u.c.params.blkAddr.toNat + 3 + tlen) (u.c.params.blkLen.toNat - 3 - tlen)
      u.c.params.dbufAddr.toNat u.blockSize = .ok (⟨.ok, count, bits⟩, w)) :
    directBlock u = (do
      let v : Run := { w with c := { w.c with r0 := count, r2 := count } }
      v.require (count == v.blockSize) .sizeMismatch
      pure v) :=
  (bind_of_ok _ hheader).trans ((bind_of_ok _ htree).trans (bind_of_ok _ hdecode))

/-- A tag 3 whose section decodes to no more than the block. -/
theorem exec_blkHuffmanDirect_decodes {s : State} {p : Params} {tlen : Nat} {book : CodeBook} {msg : Message}
    (hc : s.inflight = some { op := 0x02#8, params := p }) (hdepth : indexedDepth s.frame.depth = true)
    (hsize : s.frame.blockSize p.index.toNat ≤ p.dbufCap.toNat)
    (hapart : regionsClash [p.blkRegion] [⟨p.dbufAddr.toNat, s.frame.blockSize p.index.toNat⟩] = false)
    (hw : s.writesPlain ⟨p.dbufAddr.toNat, s.frame.blockSize p.index.toNat⟩) (h : s.HoldsSection p tlen book msg)
    (hfits : msg.length ≤ s.frame.blockSize p.index.toNat) :
    ∃ v : Run, exec .blkHuffmanDirect s
        = .next (settle v (sizeStatus msg.length (s.frame.blockSize p.index.toNat)))
      ∧ v.DecodedTo s p (s.mem.store p.dbufAddr.toNat msg.values) (!msg.values.isEmpty) msg.length 3 msg.length := by
  have hsection : (s.tagRun p 0x03#8).st.HoldsSection (s.tagRun p 0x03#8).c.params tlen book msg := { h with }
  obtain ⟨bt, bits, hheader, htree, hdecode⟩ := section_decodes hsection hw hapart hfits
  obtain ⟨w, hdecode, hstores⟩ := hdecode (s.tagRun p 0x03#8).toBlock rfl
  have hend := (((s.tagRun_decodedTo p 0x03#8).toBlock.stores hstores).result0 msg.length).result2 msg.length
  refine ⟨_, ?_, hend⟩
  exact (runTag_passes (tag := 0x03#8) (valid := fun u => indexedDepth u.st.frame.depth) directBlock hc hdepth hsize
    hapart).trans ((congrArg conclude (directBlock_eq hheader htree hdecode)).trans (conclude_sizeStatus hend.blockSize))

/-- A tag of an indexed depth that ends with an error before any write leaves the machine as it was, but for its
completion. -/
theorem runTag_fails {s : State} {p : Params} {tag : Byte} {code : Code} {body : Run → Except Stop Run}
    (hc : s.inflight = some { op := 0x02#8, params := p }) (hdepth : indexedDepth s.frame.depth = true)
    (hsize : s.frame.blockSize p.index.toNat ≤ p.dbufCap.toNat)
    (hapart : regionsClash (tagRegions tag s.frame p).1 (tagRegions tag s.frame p).2 = false) (hok : code ≠ .ok)
    (hjpeg : code ≠ .jpegHandoff) (h : body (s.tagRun p tag) = .error (.ended code (s.tagRun p tag))) :
    ∃ t, runTag (fun u => do body (← tagChecks tag (indexedDepth u.st.frame.depth) u)) s = .next t
      ∧ t.settled = s.finishing code 0 tag.toNat 0 ∧ t.mem = s.mem := by
  have hend := s.tagRun_decodedTo p tag
  refine ⟨_, ?_, hend.settled_keep hok hjpeg rfl, hend.settle_mem code⟩
  exact (runTag_passes (valid := fun u => indexedDepth u.st.frame.depth) body hc hdepth hsize hapart).trans
    (congrArg conclude h)

/-- Settles O44: the section is decoded to the block, or its header fails. -/
theorem huffmanDirectTagDecodesTheBlock : Obligations.HuffmanDirectTagDecodesTheBlock := by
  refine ⟨fun s p tlen book msg hc hdepth hsize _ _ hapart hr hw hheader hlt hpos hwithin hpad htable hfree hnodes hcodes
    hpadWithin hbits hfits => ?_, fun s p tlen hc hdepth hsize hapart hr hheader hlt hbad => ?_⟩
  · obtain ⟨v, hexec, hend⟩ := exec_blkHuffmanDirect_decodes hc hdepth hsize hapart hw
      ⟨hr, hheader, hlt, hpos, hwithin, hpad, htable, hfree, hnodes, hcodes, hpadWithin, hbits⟩ hfits
    obtain ⟨hfull, hshort, hempty⟩ := hend.settled_sizeStatus (size := s.frame.blockSize p.index.toNat)
    have hbytes := Memory.bytes_store s.mem p.dbufAddr.toNat msg.values
    have hframe := Memory.sameOutside_store s.mem p.dbufAddr.toNat msg.values
    rw [values_length] at hbytes hframe
    refine ⟨_, _, hexec, hend.settle_mem _, hfull, fun hlt hne => hshort hlt ((values_isEmpty msg).2 hne), ?_, hbytes, hframe⟩
    rintro hlt rfl
    exact hempty hlt rfl
  · exact runTag_fails hc hdepth hsize hapart nofun nofun (section_bad (u := s.tagRun p 0x03#8) _ hr hheader hlt hbad)

/-! ### Tag 1 -/

/-- The regions of tag 1 are apart, two by two (20_memory.md R93). -/
theorem regionsClash_pair {r w v : Region} (h : regionsClash [r] [w, v] = false) :
    regionsClash [r] [w] = false ∧ regionsClash [r] [v] = false ∧ regionsClash [w] [v] = false := by
  have hcomm : v.meets w = w.meets v := by
    rw [Bool.eq_iff_iff]
    simp only [Region.meets, Bool.and_eq_true, bne_iff_ne, decide_eq_true_eq]
    tauto
  simp only [regionsClash, List.any_cons, List.any_nil, Bool.or_false, Bool.or_eq_false_iff] at h ⊢
  obtain ⟨⟨hw, hwv⟩, hv⟩ := h
  exact ⟨hw, hv, hcomm.trans hwv⟩

/-- Tag 1 past both its stages: the last line is left. -/
theorem huffmanBlock_eq {u v w : Run} {tlen hcount bits count pairs : Nat} {bt : BuildResult}
    (hscr : u.c.params.scrRegion.fits = true) (hheader : sectionHeader u = .ok tlen) (htree : sectionTree u tlen = .ok bt)
    (hdecode : huffDecode u bt.tree bt.pad (u.c.params.blkAddr.toNat + 3 + tlen) (u.c.params.blkLen.toNat - 3 - tlen)
      u.c.params.scrAddr.toNat u.c.params.scrCap.toNat = .ok (⟨.ok, hcount, bits⟩, v))
    (hexpand : rleExpand ({ v with c := { v.c with r2 := hcount } } : Run).toBlock v.c.params.scrAddr.toNat hcount
      v.c.params.dbufAddr.toNat v.blockSize = .ok (⟨.ok, count, pairs⟩, w)) :
    huffmanBlock u = (do
      let z : Run := { w with c := { w.c with r0 := count } }
      z.require (count == z.blockSize) .sizeMismatch
      pure z) :=
  (require_bind_true _ hscr).trans ((bind_of_ok _ hheader).trans ((bind_of_ok _ htree).trans ((bind_of_ok _ hdecode).trans
    (bind_of_ok _ hexpand))))

/-- A stage that expands pairs whose expansion fits into DBUF. -/
theorem Run.DecodedTo.expands {u : Run} {s : State} {p : Params} {m : Memory} {r0 r1 r2 a o cap : Nat}
    {pairs : List (Byte × Byte)} (h : u.DecodedTo s p m false r0 r1 r2) (hdbuf : u.c.toDbuf = true)
    (hpass : s.CanPass a (2 * pairs.length) o cap) (hb : m.bytes a (2 * pairs.length) = pairBytes pairs)
    (hfits : (expanded pairs).length ≤ cap) :
    ∃ v, rleExpand u a (2 * pairs.length) o cap = .ok (⟨.ok, (expanded pairs).length, pairs.length⟩, v)
      ∧ v.DecodedTo s p (m.store o (expanded pairs)) (!(expanded pairs).isEmpty) r0 r1 r2 := by
  obtain ⟨v, hexpand, hstores⟩ := rleExpand_fits (hpass.of_platform h.platform) (h.mem.symm ▸ hb) hfits
  have hend := h.stores hstores
  rw [hdbuf] at hend
  exact ⟨v, hexpand, hend⟩

/-- The memory a tag 1 leaves: its pairs in SCR, and then their expansion in DBUF. -/
def State.afterStages (s : State) (p : Params) (pairs : List (Byte × Byte)) : Memory :=
  (s.mem.store p.scrAddr.toNat (pairBytes pairs)).store p.dbufAddr.toNat (expanded pairs)

/-- The expansion leaves the pairs in SCR, where SCR and the block are apart. -/
theorem afterStages_scr {s : State} {p : Params} {size : Nat} {pairs : List (Byte × Byte)}
    (hapart : regionsClash [p.scrRegion] [⟨p.dbufAddr.toNat, size⟩] = false)
    (hroom : (pairBytes pairs).length ≤ p.scrCap.toNat) (hfits : (expanded pairs).length ≤ size) :
    (s.afterStages p pairs).bytes p.scrAddr.toNat (pairBytes pairs).length = pairBytes pairs := by
  refine (Memory.bytes_congr fun i hi => Memory.read_store_other _ _ ?_).trans
    (Memory.bytes_store s.mem p.scrAddr.toNat (pairBytes pairs))
  have hscr : p.scrRegion.has (p.scrAddr.toNat + i) = true := Region.has_mk (hi.trans_le hroom)
  have hdbuf := regionsClash_one hapart hscr
  rw [← Bool.not_eq_true, Region.has_iff] at hdbuf
  simp only at hdbuf
  omega

/-- A tag 1 whose section decodes to pairs that SCR can hold, and they to no more than the block. -/
theorem exec_blkHuffman_decodes {s : State} {p : Params} {tlen : Nat} {book : CodeBook} {msg : Message}
    {pairs : List (Byte × Byte)} (hc : s.inflight = some { op := 0x02#8, params := p })
    (hdepth : indexedDepth s.frame.depth = true) (hsize : s.frame.blockSize p.index.toNat ≤ p.dbufCap.toNat)
    (hscr : p.scrRegion.fits = true)
    (hapart : regionsClash [p.blkRegion] [p.scrRegion, ⟨p.dbufAddr.toNat, s.frame.blockSize p.index.toNat⟩] = false)
    (hscrReads : s.readsPlain p.scrRegion) (hscrWrites : s.writesPlain p.scrRegion)
    (hw : s.writesPlain ⟨p.dbufAddr.toNat, s.frame.blockSize p.index.toNat⟩) (h : s.HoldsSection p tlen book msg)
    (hroom : msg.length ≤ p.scrCap.toNat) (hpairs : msg.values = pairBytes pairs)
    (hfits : (expanded pairs).length ≤ s.frame.blockSize p.index.toNat) :
    ∃ v : Run, exec .blkHuffman s
        = .next (settle v (sizeStatus (expanded pairs).length (s.frame.blockSize p.index.toNat)))
      ∧ v.DecodedTo s p (s.afterStages p pairs) (!(expanded pairs).isEmpty) (expanded pairs).length 1 msg.length := by
  have hsection : (s.tagRun p 0x01#8).st.HoldsSection (s.tagRun p 0x01#8).c.params tlen book msg := { h with }
  obtain ⟨hblkScr, _, hscrDbuf⟩ := regionsClash_pair hapart
  have hlen : msg.length = 2 * pairs.length := by rw [← values_length, hpairs, pairBytes_length]
  obtain ⟨bt, bits, hheader, htree, hdecode⟩ := section_decodes hsection hscrWrites hblkScr hroom
  obtain ⟨v, hdecode, hstores⟩ := hdecode (s.tagRun p 0x01#8) rfl
  have hfirst := (s.tagRun_decodedTo p 0x01#8).stores hstores
  rw [hpairs] at hfirst
  have hpass : s.CanPass p.scrAddr.toNat (2 * pairs.length) p.dbufAddr.toNat (s.frame.blockSize p.index.toNat) :=
    .of_part hscrReads hw hscrDbuf (Nat.le_refl _) (Nat.add_le_add_left (hlen ▸ hroom) _)
  have hbytes := Memory.bytes_store s.mem p.scrAddr.toNat (pairBytes pairs)
  rw [pairBytes_length] at hbytes
  obtain ⟨w, hexpand, hend⟩ := (hfirst.result2 msg.length).toBlock.expands rfl hpass hbytes hfits
  have hend := hend.result0 (expanded pairs).length
  rw [← hlen] at hexpand
  refine ⟨_, ?_, hend⟩
  exact (runTag_passes (tag := 0x01#8) (valid := fun u => indexedDepth u.st.frame.depth) huffmanBlock hc hdepth hsize
    hapart).trans ((congrArg conclude (huffmanBlock_eq hscr hheader htree hdecode
      (by rw [hfirst.params, hfirst.blockSize]; exact hexpand))).trans (conclude_sizeStatus hend.blockSize))

/-- Settles O43: the section is decoded to pairs and they to the block, or its header fails. -/
theorem huffmanTagDecodesTheBlock : Obligations.HuffmanTagDecodesTheBlock := by
  refine ⟨fun s p tlen book msg pairs hc hdepth hsize _ _ hscr hapart hr hscrReads hscrWrites hw hheader hlt hpos hwithin hpad
    htable hfree hnodes hcodes hpadWithin hbits hroom hpairs hfits => ?_,
    fun s p tlen hc hdepth hsize hscr hapart hr hheader hlt hbad => ?_⟩
  · obtain ⟨v, hexec, hend⟩ := exec_blkHuffman_decodes hc hdepth hsize hscr hapart hscrReads hscrWrites hw
      ⟨hr, hheader, hlt, hpos, hwithin, hpad, htable, hfree, hnodes, hcodes, hpadWithin, hbits⟩ hroom hpairs hfits
    obtain ⟨hfull, hshort, hempty⟩ := hend.settled_sizeStatus (size := s.frame.blockSize p.index.toNat)
    obtain ⟨_, _, hscrDbuf⟩ := regionsClash_pair hapart
    have hlen : (pairBytes pairs).length = msg.length := by rw [← hpairs, values_length]
    refine ⟨_, _, hexec, hend.settle_mem _, hfull, fun hlt hne => hshort hlt (by simpa using hne), fun hlt hnone => ?_,
      Memory.bytes_store _ _ _, ?_, fun a hdbuf hscr => ?_⟩
    · rw [hempty hlt (by simp [hnone]), hnone]
      rfl
    · rw [hpairs, ← hlen]
      exact afterStages_scr hscrDbuf (hlen ▸ hroom) hfits
    · exact (Memory.read_store_other _ _ hdbuf).trans (Memory.read_store_other _ _ (hlen ▸ hscr))
  · have hbody : huffmanBlock (s.tagRun p 0x01#8) = .error (.ended .badTable (s.tagRun p 0x01#8)) :=
      (require_bind_true _ hscr).trans (section_bad (u := s.tagRun p 0x01#8) _ hr hheader hlt hbad)
    exact runTag_fails hc hdepth hsize hapart nofun nofun hbody

end Sys2Proof.Machine
end

section
/-! The checks that every command and tag makes before any access, together. -/

namespace Sys2Proof.Machine

/-- A tag 1 whose SCR passes 2^32 ends with BAD_PARAM before any access (40_block_decoder.md R210). -/
theorem exec_blkHuffman_unfit {s : State} {p : Params} (hc : s.inflight = some { op := 0x02#8, params := p })
    (hdepth : indexedDepth s.frame.depth = true) (hsize : s.frame.blockSize p.index.toNat ≤ p.dbufCap.toNat)
    (hscr : p.scrRegion.fits = false)
    (hapart : regionsClash [p.blkRegion] [p.scrRegion, ⟨p.dbufAddr.toNat, s.frame.blockSize p.index.toNat⟩] = false) :
    ∃ t, exec .blkHuffman s = .next t ∧ t.settled = s.finishing .badParam 0 1 0 ∧ t.mem = s.mem :=
  runTag_fails hc hdepth hsize hapart nofun nofun (require_bind_false _ hscr)

/-- COMPOSITE of a block that DBUF does not hold (42_compositor.md R310). -/
theorem exec_composite_undecoded {s : State} (hi : s.inflight = none) (hnamed : blockNamed s s.params = true)
    (hapart : regionsClash (compositeReads s.frame s.params) [s.params.destRegion] = false)
    (h : s.dbufValid = false ∨ s.dbufBlock ≠ s.params.index.zeroExtend 32) :
    ∃ t, exec .composite s = .next t ∧ t.settled = s.finishing .notDecoded 0 0 0 ∧ t.mem = s.mem := by
  have hheld : (s.dbufValid && s.dbufBlock == s.params.index.zeroExtend 32) = false :=
    Bool.and_eq_false_iff.2 (h.imp_right beq_eq_false_iff_ne.2)
  exact exec_composite_fails hi (compositeKnown_named hnamed) hapart (compositeChecks_undecoded hnamed hheld)

/-- COMPOSITE of a block in DBUF with a region that passes 2^32 (42_compositor.md R310). -/
theorem exec_composite_unfit {s : State} (hi : s.inflight = none) (hnamed : blockNamed s s.params = true)
    (hapart : regionsClash (compositeReads s.frame s.params) [s.params.destRegion] = false) (hvalid : s.dbufValid = true)
    (hblock : s.dbufBlock = s.params.index.zeroExtend 32)
    (h : Region.fits ⟨s.params.dbufAddr.toNat, s.frame.blockSize s.params.index.toNat⟩ = false
      ∨ s.params.destRegion.fits = false) :
    ∃ t, exec .composite s = .next t ∧ t.settled = s.finishing .badParam 0 0 0 ∧ t.mem = s.mem := by
  have hheld : (s.dbufValid && s.dbufBlock == s.params.index.zeroExtend 32) = true :=
    Bool.and_eq_true_iff.2 ⟨hvalid, beq_iff_eq.2 hblock⟩
  exact exec_composite_fails hi (compositeKnown_named hnamed) hapart
    (compositeChecks_unfit hnamed hheld (Bool.and_eq_false_iff.2 h))

/-- A HUFF_DECODE that fails with nothing but its regions named. -/
theorem exec_huffDecode_fails {s : State} {code : Code} (hi : s.inflight = none)
    (h : huffDecodeBody (acceptRun 0x06#8 s)
      = .error (.ended code ((acceptRun 0x06#8 s).named [s.params.inRegion] [s.params.outRegion]))) :
    ∃ t, exec .huffDecode s = .next t ∧ t.settled = s.finishing code 0 0 0 ∧ t.mem = s.mem :=
  runCommand_fails _ _ hi (by decide) (by decide) h

/-- Settles O27: each command's checks, in their order. -/
theorem failedPreconditionsAreReported : Obligations.FailedPreconditionsAreReported := by
  refine ⟨fun s hi => ⟨fun hbound hindex hapart h => ?_, fun hbound hpast hapart => ?_,
    fun hbound hindex hvalid hblock hapart h => ?_, fun _ hfail hapart => ?_, fun htree hapart => ?_,
    fun hfits hapart => ⟨fun htree => ?_, ?_⟩, fun htree hin hout hapart hpad => ?_, exec_huffBuild_unfit hi⟩,
    fun s p hc hdepth hsize hscr hapart => exec_blkHuffman_unfit hc hdepth hsize hscr hapart⟩
  · exact exec_composite_undecoded hi (blockNamed_eq_true.2 ⟨hbound, hindex⟩) hapart h
  · exact exec_composite_fails hi (compositeKnown_past hbound hpast) hapart
      (compositeChecks_unnamed (blockNamed_eq_false.2 (.inr hpast)))
  · exact exec_composite_unfit hi (blockNamed_eq_true.2 ⟨hbound, hindex⟩) hapart hvalid hblock h
  · exact exec_decodeBlock_fails hi (hfail.imp_left fun hpast => blockNamed_eq_false.2 (.inr hpast)) hapart
  · exact exec_huffDecode_fails hi (huffDecodeBody_noTree hapart htree)
  · exact exec_huffDecode_fails hi (huffDecodeBody_unfit hapart htree (Bool.and_eq_false_iff.2 hfits))
  · exact runCommand_fails _ _ hi (by decide) (by decide)
      (rleExpandBody_unfit (u := acceptRun 0x07#8 s) hapart (Bool.and_eq_false_iff.2 hfits))
  · exact exec_huffDecode_fails hi (huffDecodeBody_overPadded hapart htree (Bool.and_eq_true_iff.2 ⟨hin, hout⟩) hpad)

end Sys2Proof.Machine
end

section
/-! HUFF_BUILD: the two ways it ends once its table fits, the triples of a code book and what follows them, and what it
leaves behind for any table. -/

namespace Sys2Proof.Machine

/-! ### From BuildTree to the completion -/

/-- The running HUFF_BUILD of a machine, its table region named. -/
def State.huffBuildRun (s : State) : Run := (acceptRun 0x05#8 s).named [s.params.tblRegion] []

/-- The machine after the completion of a HUFF_BUILD that succeeded, holding this tree (41_huffman.md R270). -/
def State.builtWith (s : State) (tree : Tree) (pad : BitVec 3) (ncodes nodes : Nat) : State :=
  ({ s with tree := tree, treePad := pad, treeValid := true }).finishing .ok ncodes nodes 0

/-- A HUFF_BUILD whose tree BuildTree returns holds it (41_huffman.md R270). -/
theorem exec_huffBuild_ok {s : State} {tree : Tree} {pad : BitVec 3} {ncodes nodes p : Nat} (hi : s.inflight = none)
    (hfits : s.params.tblRegion.fits = true)
    (h : buildTree s.huffBuildRun s.params.tblAddr.toNat s.params.tblLen.toNat = .ok ⟨.ok, tree, pad, ncodes, nodes, p⟩) :
    ∃ t, exec .huffBuild s = .next t
      ∧ t.settled = s.builtWith tree pad ncodes nodes ∧ t.mem = s.mem := by
  have hbody : buildBody (acceptRun 0x05#8 s) = .ok
      { st := { s.huffBuildRun.st with tree := tree, treePad := pad }
        c := { s.huffBuildRun.c with r0 := ncodes, r1 := nodes, r2 := 0 } } :=
    (declare_bind_apart _ rfl).trans ((require_bind_true _ hfits).trans (bind_of_ok _ h))
  refine ⟨_, (runCommand_idle hi).trans (congrArg conclude hbody), ?_, settle_mem _ _⟩
  rw [settled_settle, complete_build _ _ _ rfl]
  rfl

/-- A HUFF_BUILD whose table BuildTree rejects reports how far it came, and holds no tree (41_huffman.md R270). -/
theorem exec_huffBuild_rejects {s : State} {code : Code} {tree : Tree} {pad : BitVec 3} {ncodes nodes p : Nat}
    (hi : s.inflight = none) (hfits : s.params.tblRegion.fits = true) (hcode : code ≠ .ok)
    (h : buildTree s.huffBuildRun s.params.tblAddr.toNat s.params.tblLen.toNat = .ok ⟨code, tree, pad, ncodes, nodes, p⟩) :
    ∃ t, exec .huffBuild s = .next t
      ∧ t.settled = ({ s with treeValid := false }).finishing code ncodes nodes p ∧ t.mem = s.mem := by
  have hbody : buildBody (acceptRun 0x05#8 s) = .error (.ended code
      { s.huffBuildRun with c := { s.huffBuildRun.c with r0 := ncodes, r1 := nodes, r2 := p } }) :=
    (declare_bind_apart _ rfl).trans ((require_bind_true _ hfits).trans ((bind_of_ok _ h).trans (if_neg hcode)))
  refine ⟨_, (runCommand_idle hi).trans (congrArg conclude hbody), ?_, settle_mem _ _⟩
  rw [settled_settle, complete_build _ _ _ rfl, beq_eq_false_iff_ne.2 hcode]
  rfl

/-! ### A table that is a code book -/

/-- The triples bring BuildTree to the end of the table, with the book's tree. -/
theorem exec_huffBuild_book {s : State} {book : CodeBook} (hi : s.inflight = none)
    (hfits : s.params.tblRegion.fits = true) (hreads : s.readsPlain s.params.tblRegion) (hpos : 0 < s.params.tblLen.toNat)
    (hpad : (s.mem.read s.params.tblAddr.toNat).toNat ≤ 7)
    (htable : tableHolds s.mem s.params.tblAddr.toNat s.params.tblLen.toNat book 1) (hfree : book.prefixFree)
    (hnodes : book.nodes ≤ s.platform.nodeCap) :
    ∃ t tree, exec .huffBuild s = .next t
      ∧ t.settled = s.builtWith tree ((s.mem.read s.params.tblAddr.toNat).extractLsb' 0 3) book.length book.nodes
      ∧ tree.OfBook book ∧ t.mem = s.mem := by
  obtain ⟨tree, hbuild, hbook⟩ := buildTree_ok (u := s.huffBuildRun) hreads (fun _ h => Region.has_mk h) hpos hpad htable
    hfree hnodes
  obtain ⟨t, hexec, hsettled, hmem⟩ := exec_huffBuild_ok hi hfits hbuild
  exact ⟨t, tree, hexec, hsettled, hbook, hmem⟩

/-- Settles O33: the tree of a book has its codes as leaves and their prefixes as nodes. -/
theorem huffBuildHoldsTheCodeBook : Obligations.HuffBuildHoldsTheCodeBook := by
  intro s book hi hfits hreads hpos hpad htable hfree hnodes
  obtain ⟨t, tree, hexec, hsettled, hbook, hmem⟩ := exec_huffBuild_book hi hfits hreads hpos hpad htable hfree hnodes
  exact ⟨t, tree, hexec, hsettled, hbook.codes, hbook.size_eq, hmem⟩

/-! ### The first bad triple -/

/-- A triple's code, as long as its length byte says, is not empty. -/
theorem tableHolds_code_ne_nil {m : Memory} {t stop p : Nat} {code : Byte × List Bool} (h : tableHolds m t stop [code] p) :
    code.2 ≠ [] := by
  obtain ⟨hlen, _⟩ := h
  exact List.length_pos_iff.1 hlen

/-- The table of `tlen` bytes at `t` begins with the triples of a good code book, which end at offset `p` and not yet at its
end. -/
structure Run.HoldsBookTo (u : Run) (t tlen p : Nat) (book : CodeBook) : Prop where
  reads : u.st.readsPlain ⟨t, tlen⟩
  padLe : (u.st.mem.read t).toNat ≤ 7
  table : tableHolds u.st.mem t p book 1
  more : p < tlen
  prefixFree : book.prefixFree
  nodes : book.nodes ≤ u.st.platform.nodeCap

section

variable {u : Run} {t tlen p : Nat} {book : CodeBook}

/-- BuildTree comes to the triple at `p`, with the book's tree. -/
theorem Run.HoldsBookTo.reaches (h : u.HoldsBookTo t tlen p book) :
    ∃ tree fuel, buildTree u t tlen
        = buildTriples u t tlen u.st.platform.nodeCap ((u.st.mem.read t).extractLsb' 0 3) (fuel + 1) tree book.length
            book.nodes p
      ∧ tree.OfBook book := by
  have hmore := h.more
  obtain ⟨tree, fuel, hrun, hbook, hfuel⟩ := buildTree_run h.reads (fun _ hi => Region.has_mk hi) (by omega) h.padLe
    h.table hmore.le h.prefixFree h.nodes
  obtain ⟨fuel, rfl⟩ : ∃ k, fuel = k + 1 := ⟨fuel - 1, by omega⟩
  exact ⟨tree, fuel, hrun, hbook⟩

/-- A triple that is cut short, or whose length is 0 (41_huffman.md R251, R254). -/
theorem buildTree_malformed (h : u.HoldsBookTo t tlen p book)
    (hbad : tlen < p + 2 ∨ u.st.mem.read (t + p + 1) = 0#8
      ∨ tlen < p + 2 + codeBytes (u.st.mem.read (t + p + 1)).toNat) :
    ∃ tree pad, buildTree u t tlen = .ok ⟨.badTable, tree, pad, book.length, book.nodes, p⟩ := by
  obtain ⟨tree, fuel, hrun, _⟩ := h.reaches
  exact ⟨tree, _, hrun.trans (buildTriples_bad fuel _ _ _ h.reads (fun _ hi => Region.has_mk hi) h.more hbad)⟩

variable {code : Byte × List Bool} (h : u.HoldsBookTo t tlen p book)
  (hcode : tableHolds u.st.mem t (p + 2 + codeBytes code.2.length) [code] p)
  (hend : p + 2 + codeBytes code.2.length ≤ tlen)
include h hcode hend

/-- A code that clashes with one of the book (41_huffman.md R252). -/
theorem buildTree_clashing (hclash : ∃ e ∈ book, codesClash e.2 code.2) :
    ∃ tree pad, buildTree u t tlen = .ok ⟨.badTable, tree, pad, book.length, book.nodes, p⟩ := by
  obtain ⟨tree, fuel, hrun, hbook⟩ := h.reaches
  rw [buildTriples_step fuel h.reads (fun _ hi => Region.has_mk hi) hcode hend, hbook.rejects hclash] at hrun
  exact ⟨tree, _, hrun⟩

/-- A code that the node store has no room for: it takes all the room there was (41_huffman.md R256). -/
theorem buildTree_overfull (hapart : ∀ e ∈ book, ¬ codesClash e.2 code.2)
    (hover : u.st.platform.nodeCap < CodeBook.nodes (book ++ [code])) :
    ∃ tree pad, buildTree u t tlen = .ok ⟨.allocFailure, tree, pad, book.length, u.st.platform.nodeCap, p⟩ := by
  obtain ⟨tree, fuel, hrun, hbook⟩ := h.reaches
  have htaken : book.nodes + (u.st.platform.nodeCap - book.nodes) = u.st.platform.nodeCap := Nat.add_sub_cancel' h.nodes
  have hroom : tree.size + (u.st.platform.nodeCap - book.nodes) < CodeBook.nodes (book ++ [code]) := by
    rwa [hbook.size_eq, htaken]
  rw [buildTriples_step fuel h.reads (fun _ hi => Region.has_mk hi) hcode hend,
    hbook.overflows (tableHolds_code_ne_nil hcode) hapart hroom] at hrun
  simp only [htaken] at hrun
  exact ⟨tree, _, hrun⟩

end

/-- Settles O34: a table without a good PAD byte; and, past a good code book, a malformed triple, a code that clashes with
one of the book, or one that the node store cannot hold. -/
theorem huffBuildReportsTheFirstBadTriple : Obligations.HuffBuildReportsTheFirstBadTriple := by
  refine ⟨fun s hi hfits hbad => ?_, fun s book p hi hfits hreads hpad htable hp hfree hcap => ?_⟩
  · refine exec_huffBuild_rejects hi hfits nofun (buildTree_bad (r := ⟨s.params.tblAddr.toNat, 1⟩) ?_)
    refine hbad.imp (congrArg BitVec.toNat) fun ⟨hne, hread, h7⟩ => ⟨?_, hread, Region.has_self _, h7⟩
    exact Nat.pos_of_ne_zero fun h0 => hne (BitVec.eq_of_toNat_eq h0)
  · have hbook : s.huffBuildRun.HoldsBookTo s.params.tblAddr.toNat s.params.tblLen.toNat p book :=
      ⟨hreads, hpad, htable, hp, hfree, hcap⟩
    refine ⟨fun hbad => ?_, fun code hcode hend => ⟨fun hclash => ?_, fun hapart hover => ?_⟩⟩
    · obtain ⟨tree, pad, hbuild⟩ := buildTree_malformed hbook hbad
      exact exec_huffBuild_rejects hi hfits nofun hbuild
    · obtain ⟨tree, pad, hbuild⟩ := buildTree_clashing hbook hcode hend hclash
      exact exec_huffBuild_rejects hi hfits nofun hbuild
    · obtain ⟨tree, pad, hbuild⟩ := buildTree_overfull hbook hcode hend hapart hover
      exact exec_huffBuild_rejects hi hfits nofun hbuild

/-! ### Any table -/

/-- A machine that holds no tree but a built one in a node store of `cap`, its size in RESULT1 (41_huffman.md R252, R256). -/
def State.HoldsBuilt (cap : Nat) (t : State) : Prop :=
  t.treeValid = true →
    t.tree.built = true ∧ t.tree.size ≤ cap ∧ t.result1 = resultWord t.tree.size ∧ t.err = .ok

/-- Settles O35: a HUFF_BUILD sets TREE_VALID only where its body comes to its last line, with a built tree. -/
theorem builtTreesArePrefixCodes : Obligations.BuiltTreesArePrefixCodes := by
  intro s t hi hexec
  have hends : Comes (fun u => (settle u .ok).settled.HoldsBuilt s.platform.nodeCap)
      (fun code u => (settle u code).settled.HoldsBuilt s.platform.nodeCap) True (buildBody (acceptRun 0x05#8 s)) := by
    refine (buildBody_comes (acceptRun 0x05#8 s) True).mono (fun u h _ => ?_) (fun code u h hvalid => ?_) id
    · obtain ⟨⟨tree, pad, hst, hbuilt, hsize, hr1⟩, _⟩ := h
      rw [settled_settle, complete_tree, complete_result1, complete_err, hst, hr1]
      exact ⟨hbuilt, hsize, rfl, rfl⟩
    · obtain ⟨hcode, _, hop, _⟩ := h
      rw [settled_settle, complete_build _ _ _ hop] at hvalid
      exact absurd (beq_iff_eq.1 hvalid) hcode
  exact (conclude_comes (P := fun t => t.settled.HoldsBuilt s.platform.nodeCap) hends).1 t ((runCommand_idle hi).symm.trans hexec)

end Sys2Proof.Machine
end

section
/-! HUFF_DECODE: how far a message and the beginning of one more code bring it, the ways it ends there, and the round trip
through HUFF_BUILD. -/

namespace Sys2Proof.Machine

/-! ### From HuffDecode to the completion -/

/-- The running HUFF_DECODE of a machine, its regions named. -/
def State.huffDecodeRun (s : State) : Run :=
  (acceptRun 0x06#8 s).named [s.params.inRegion] [s.params.outRegion]

/-- An idle machine whose HUFF_DECODE passes its checks and meets no refused byte: a held tree, regions that fit and are
apart, memory that answers, a stream no shorter than TREE_PAD (41_huffman.md R264, R272). -/
structure State.CanHuffDecode (s : State) : Prop where
  idle : s.inflight = none
  treeValid : s.treeValid = true
  inFits : s.params.inRegion.fits = true
  outFits : s.params.outRegion.fits = true
  apart : regionsClash [s.params.inRegion] [s.params.outRegion] = false
  reads : s.readsPlain s.params.inRegion
  writes : s.writesPlain s.params.outRegion
  padWithin : s.treePad.toNat ≤ 8 * s.params.inLen.toNat

/-- The bits of the stream, those of TREE_PAD trimmed. -/
def State.streamBits (s : State) : List Bool :=
  s.mem.bits s.params.inAddr.toNat (8 * s.params.inLen.toNat - s.treePad.toNat)

/-- The HUFF_DECODE of this machine ends with this status, the values of this message at OUT_ADDR and nothing outside them,
their number and the number of bits read; nothing else changes. -/
def State.HuffDecodesTo (s : State) (code : Code) (msg : Message) (bits : Nat) : Prop :=
  ∃ t m, exec .huffDecode s = .next t ∧ t.mem = m
    ∧ t.settled = ({ s with mem := m }).finishing code msg.length bits 0
    ∧ m.bytes s.params.outAddr.toNat msg.length = msg.values
    ∧ Memory.sameOutside s.mem m s.params.outAddr.toNat msg.length

/-- HuffDecode on the operands of this machine's HUFF_DECODE (41_huffman.md R272). -/
def State.huffDecoded (s : State) : Except Stop (HuffResult × Run) :=
  huffDecode s.huffDecodeRun s.tree s.treePad s.params.inAddr.toNat s.params.inLen.toNat s.params.outAddr.toNat
    s.params.outCap.toNat

/-- A HUFF_DECODE that passes its checks ends as its HuffDecode ends. -/
theorem State.CanHuffDecode.decodesTo {s : State} (hs : s.CanHuffDecode) {w : Run} {code : Code} {bits : Nat}
    {msg : Message} (h : s.huffDecoded = .ok (⟨code, msg.length, bits⟩, w))
    (hstores : s.huffDecodeRun.Stores w s.params.outAddr.toNat msg.values) : s.HuffDecodesTo code msg bits := by
  have hbody : huffDecodeBody (acceptRun 0x06#8 s) = (do
      let v : Run := { w with c := { w.c with r0 := msg.length, r1 := bits } }
      v.require (code == .ok) code
      pure v) :=
    (declare_bind_apart _ hs.apart).trans ((require_bind_true _ hs.treeValid).trans
      ((require_bind_true _ (Bool.and_eq_true_iff.2 ⟨hs.inFits, hs.outFits⟩)).trans (bind_of_ok _ h)))
  have hbytes := Memory.bytes_store s.mem s.params.outAddr.toNat msg.values
  have hframe := Memory.sameOutside_store s.mem s.params.outAddr.toNat msg.values
  rw [values_length] at hbytes hframe
  refine ⟨_, _, (runCommand_idle hs.idle).trans ((congrArg conclude hbody).trans (conclude_status _ _)), ?_, ?_, hbytes,
    hframe⟩
  · rw [settle_mem, hstores.st]
    rfl
  · have hop : w.c.op = 0x06#8 := by rw [hstores.c]; rfl
    have hr2 : w.c.r2 = 0 := by rw [hstores.c]; rfl
    rw [settled_plain 0x06#8 (by exact hop) (by decide) (by decide), hstores.st, hr2]
    rfl

/-- Its HuffDecode is a stage from its input region to its output region. -/
theorem State.CanHuffDecode.canPass {s : State} (hs : s.CanHuffDecode) :
    s.huffDecodeRun.st.CanPass s.params.inAddr.toNat s.params.inLen.toNat s.params.outAddr.toNat s.params.outCap.toNat :=
  State.CanPass.of_platform (s := s) (.of_part hs.reads hs.writes hs.apart (Nat.le_refl _) (Nat.le_refl _)) rfl

/-! ### A message, and the beginning of one more code -/

/-- HuffDecode past a message and part of one more code, with the bits `left` of its stream to go: the values of the message
are written, and it holds the stream byte `byte`. -/
structure State.DecodesUpTo (s : State) (msg : Message) (part left : List Bool) (v : Run) (byte : Byte) : Prop where
  run : s.huffDecoded = huffBits s.tree s.params.inAddr.toNat s.params.outAddr.toNat s.params.outCap.toNat left.length
    (msg.bits.length + part.length) msg.length byte (s.tree.follow part) (!part.isEmpty) v
  held : HeldByte s.params.inRegion v s.params.inAddr.toNat (msg.bits.length + part.length) byte
  stores : s.huffDecodeRun.Stores v s.params.outAddr.toNat msg.values
  reads : v.st.readsPlain s.params.inRegion
  bits : BitsAt v.st.mem s.params.inAddr.toNat (msg.bits.length + part.length) left
  within : ∀ j < msg.bits.length + (part.length + left.length),
    s.params.inRegion.has (s.params.inAddr.toNat + j / 8) = true

/-- A message of codes of the held tree, and then bits that lead to an internal node. -/
theorem State.CanHuffDecode.reaches {s : State} (hs : s.CanHuffDecode) {msg : Message} {part left : List Bool}
    (hbits : s.streamBits = msg.bits ++ part ++ left) (hm : s.tree.spells msg) (hc : msg.length ≤ s.params.outCap.toNat)
    (hpart : ∃ c0 c1, s.tree.follow part = .node c0 c1) : ∃ v byte, s.DecodesUpTo msg part left v byte := by
  obtain ⟨c0, c1, hnode⟩ := hpart
  have hpass := hs.canPass
  obtain ⟨hat, hlen⟩ := BitsAt_of_bits hbits
  rw [List.append_assoc] at hat hlen
  obtain ⟨hmsg, hmore⟩ := BitsAt_append.1 hat
  simp only [List.length_append] at hlen
  rw [Nat.zero_add] at hmore
  have hin (j : Nat) (hj : j < msg.bits.length + (part.length + left.length)) :
      s.params.inRegion.has (s.params.inAddr.toNat + j / 8) = true := Region.has_mk (by omega)
  obtain ⟨v, byte, hrun, hheld, hstores⟩ := huffBits_run (root := s.tree) (o := s.params.outAddr.toNat)
    (cap := s.params.outCap.toNat) (count := 0) (byte := 0#8) (part.length + left.length) msg hpass.reads hpass.writes
    hpass.apart (fun i hi => hin _ (by omega)) (fun hj => absurd rfl hj) hmsg hm (by omega) (fun i hi => Region.has_mk (by omega))
  simp only [Nat.zero_add] at hrun hheld
  have hreads : v.st.readsPlain s.params.inRegion := State.readsPlain_of hs.reads (by rw [hstores.st]; rfl)
  have hkept : BitsAt v.st.mem s.params.inAddr.toNat msg.bits.length (part ++ left) :=
    BitsAt_congr (fun i _ hi => hstores.read_apart (hpass.apart _ (hin i (by simpa using hi))) (by rwa [values_length])) hmore
  obtain ⟨hpartBits, hleft⟩ := BitsAt_append.1 hkept
  obtain ⟨byte', hwalk, hheld'⟩ := huffBits_walk (o := s.params.outAddr.toNat) (cap := s.params.outCap.toNat)
    (root := s.tree) (count := msg.length) (mid := false) left.length part hreads (fun i hi => hin _ (by omega)) hheld
    hpartBits hnode
  refine ⟨v, byte', ?_, hheld', hstores, hreads, hleft, hin⟩
  rw [State.huffDecoded, huffDecode_within hs.padWithin, ← hlen, hrun, hwalk, hnode, Bool.false_or]

section

variable {s : State} {msg : Message} {part rest : List Bool} {v : Run} {byte : Byte}

/-- The stream ends there: TRUNCATED_CODE where it ends inside a code (41_huffman.md R262). -/
theorem State.DecodesUpTo.truncated (h : s.DecodesUpTo msg part [] v byte) (hpart : part ≠ []) :
    s.huffDecoded = .ok (⟨.truncatedCode, msg.length, msg.bits.length + part.length⟩, v) := by
  rw [h.run, List.length_nil, huffBits, List.isEmpty_eq_false_iff.2 hpart]
  rfl

/-- One bit off the tree: BAD_CODE (41_huffman.md R261). -/
theorem State.DecodesUpTo.badCode {bit : Bool} (h : s.DecodesUpTo msg part (bit :: rest) v byte)
    (habsent : s.tree.follow (part ++ [bit]) = .absent) :
    s.huffDecoded = .ok (⟨.badCode, msg.length, msg.bits.length + part.length + 1⟩, v) := by
  have hchild : (s.tree.follow part).child bit = .absent := by rwa [Tree.follow_append] at habsent
  obtain ⟨hbit, _⟩ := h.bits
  rw [h.run, List.length_cons, huffBits_step h.reads (h.within _ (by simp)) h.held, hbit, hchild]

/-- One bit to a leaf, with no room for its value: DECODE_OVERFLOW (41_huffman.md R263). -/
theorem State.DecodesUpTo.overflows {bit : Bool} {value : Byte} (h : s.DecodesUpTo msg part (bit :: rest) v byte)
    (hleaf : s.tree.follow (part ++ [bit]) = .leaf value) (hfull : msg.length = s.params.outCap.toNat) :
    s.huffDecoded = .ok (⟨.decodeOverflow, msg.length, msg.bits.length + part.length + 1⟩, v) := by
  have hchild : (s.tree.follow part).child bit = .leaf value := by rwa [Tree.follow_append] at hleaf
  obtain ⟨hbit, _⟩ := h.bits
  rw [h.run, List.length_cons, huffBits_step h.reads (h.within _ (by simp)) h.held, hbit, hchild]
  exact if_pos hfull

end

/-- All but the last bit of a code lead to an internal node. -/
theorem Tree.follow_node_of_concat_leaf {t : Tree} {part : List Bool} {bit : Bool} {value : Byte}
    (h : t.follow (part ++ [bit]) = .leaf value) : ∃ c0 c1, t.follow part = .node c0 c1 := by
  rw [Tree.follow_append] at h
  match hnode : t.follow part with
  | .node c0 c1 => exact ⟨c0, c1, rfl⟩
  | .leaf _ | .absent => rw [hnode] at h; cases h

/-! ### HUFF_DECODE -/

/-- Settles O36: the message takes the decode to the end of the stream. -/
theorem huffDecodeWritesTheMessage : Obligations.HuffDecodeWritesTheMessage := by
  intro s msg hi hvalid hin hout hapart hr hw hm hpad hbits hc
  have hs : s.CanHuffDecode := ⟨hi, hvalid, hin, hout, hapart, hr, hw, hpad⟩
  obtain ⟨v, hdecode, hstores⟩ := huffDecode_message hs.canPass hpad hbits hm hc
  obtain ⟨_, hlen⟩ := BitsAt_of_bits hbits
  rw [← hlen] at hdecode
  exact hs.decodesTo hdecode hstores

/-- Settles O37: past the message and part of a code, the next bit has no child. -/
theorem offTreeBitStopsTheDecode : Obligations.OffTreeBitStopsTheDecode := by
  intro s msg part bit rest hi hvalid hin hout hapart hr hw hm hpad hbits hc hnode habsent
  have hs : s.CanHuffDecode := ⟨hi, hvalid, hin, hout, hapart, hr, hw, hpad⟩
  obtain ⟨v, byte, hreach⟩ := hs.reaches hbits hm hc hnode
  exact hs.decodesTo (hreach.badCode habsent) hreach.stores

/-- Settles O38: past the message and part of a code, no bit is left. -/
theorem streamEndingInsideACodeIsTruncated : Obligations.StreamEndingInsideACodeIsTruncated := by
  intro s msg part hi hvalid hin hout hapart hr hw hm hpad hbits hc hpart hnode
  have hs : s.CanHuffDecode := ⟨hi, hvalid, hin, hout, hapart, hr, hw, hpad⟩
  obtain ⟨v, byte, hreach⟩ := hs.reaches (hbits.trans (List.append_nil _).symm) hm hc hnode
  exact hs.decodesTo (hreach.truncated hpart) hreach.stores

/-- Settles O39: past the message and all but the last bit of a code, that bit leads to its leaf. -/
theorem leafPastTheCapacityOverflows : Obligations.LeafPastTheCapacityOverflows := by
  intro s msg extra rest hi hvalid hin hout hapart hr hw hm hpad hbits hfull
  have hs : s.CanHuffDecode := ⟨hi, hvalid, hin, hout, hapart, hr, hw, hpad⟩
  obtain ⟨hne, hleaf⟩ := hm extra (by simp)
  obtain ⟨part, bit, hcode⟩ : ∃ part bit, extra.1 = part ++ [bit] := ⟨_, _, (List.dropLast_append_getLast hne).symm⟩
  rw [hcode] at hleaf hbits
  have hsplit : s.streamBits = msg.bits ++ part ++ bit :: rest := hbits.trans (by simp)
  obtain ⟨v, byte, hreach⟩ := hs.reaches hsplit (fun e he => hm e (List.mem_append_left _ he)) hfull.le
    (Tree.follow_node_of_concat_leaf hleaf)
  rw [hcode, List.length_append]
  exact hs.decodesTo (hreach.overflows hleaf hfull) hreach.stores

/-! ### The round trip -/

/-- Settles O40: the HUFF_BUILD leaves the book's tree, in which the message spells. -/
theorem huffmanRoundTrip : Obligations.HuffmanRoundTrip := by
  intro s t1 book msg hi htbl htblReads hpos hpad htable hfree hnodes hin hout hapart hr hw hcodes hpadWithin hbits hc hexec
  obtain ⟨t, tree, hbuild, hsettled, hbook, _⟩ := exec_huffBuild_book hi htbl htblReads hpos hpad htable hfree hnodes
  obtain rfl : t = t1 := by injection hbuild.symm.trans hexec
  have hspells : tree.spells msg := hbook.spells hcodes
  rw [← toNat_pad hpad] at hpadWithin hbits
  obtain ⟨t2, m, hdecode, rfl, hend, hbytes, hframe⟩ := huffDecodeWritesTheMessage
    (s.builtWith tree ((s.mem.read s.params.tblAddr.toNat).extractLsb' 0 3) book.length book.nodes) msg rfl rfl hin hout
    hapart hr hw hspells hpadWithin hbits hc
  have hcount : msg.length < 2 ^ 32 := hc.trans_lt s.params.outCap.isLt
  refine ⟨t2, hsettled ▸ hdecode, ?_, ?_, hbytes, hframe⟩
  · rw [hend]
    rfl
  · rw [hend]
    exact resultWord_of_lt hcount

end Sys2Proof.Machine
end

section
/-! The compositor's commands: the channels of a resolved colour, PAL_RESOLVE and PCACHE_FLUSH, a COMPOSITE of no pixel, and
what a COMPOSITE that nothing stops leaves, with and without a mirror. -/

namespace Sys2Proof.Machine

/-! ### Palette resolution -/

section

variable (b g r : Byte)

theorem packColor_red : (packColor b g r).extractLsb' 11 5 = r.extractLsb' 3 5 :=
  (BitVec.extractLsb'_append_eq_of_le (by decide)).trans BitVec.extractLsb'_append_eq_left

theorem packColor_green : (packColor b g r).extractLsb' 5 6 = g.extractLsb' 2 6 :=
  (BitVec.extractLsb'_append_eq_of_le (xhi := r.extractLsb' 3 5 ++ g.extractLsb' 2 6) (le_refl 5)).trans
    BitVec.extractLsb'_append_eq_right

theorem packColor_blue : (packColor b g r).extractLsb' 0 5 = b.extractLsb' 3 5 :=
  BitVec.extractLsb'_append_eq_right

end

theorem swapBytes_low (c : Half) : (swapBytes c).extractLsb' 0 8 = c.extractLsb' 8 8 :=
  BitVec.extractLsb'_append_eq_right

theorem swapBytes_high (c : Half) : (swapBytes c).extractLsb' 8 8 = c.extractLsb' 0 8 :=
  BitVec.extractLsb'_append_eq_left

/-- Settles O48: the fields of `packColor`, the exchange of `swapBytes`, and eight evaluations. -/
theorem resolvedColourHasItsChannels : Obligations.ResolvedColourHasItsChannels := by
  refine ⟨fun b g r => ⟨packColor_red b g r, packColor_green b g r, packColor_blue b g r, swapBytes_low _, swapBytes_high _⟩, ?_⟩
  decide

/-! ### PAL_RESOLVE and PCACHE_FLUSH -/

/-- The three bytes of a palette entry in ordinary memory resolve to its colour (42_compositor.md R301). -/
theorem resolveColor_region {u : Run} {base i : Nat} (swap : Bool) (h : u.st.readsPlain ⟨base + 4 * i, 3⟩) :
    resolveColor u base i swap = .ok (paletteColor (u.st.mem.read (base + 4 * i)) (u.st.mem.read (base + 4 * i + 1))
      (u.st.mem.read (base + 4 * i + 2)) swap) := by
  have hb := Run.read_region h (Region.has_mk (i := 0) (by decide))
  have hg := Run.read_region h (Region.has_mk (i := 1) (by decide))
  have hr := Run.read_region h (Region.has_mk (i := 2) (by decide))
  exact (bind_of_ok _ hb).trans ((bind_of_ok _ hg).trans (bind_of_ok _ hr))

/-- The region of a palette entry that PAL_RESOLVE reads (20_memory.md R81). -/
def State.entryRegion (s : State) : Region := ⟨s.frame.palAddr.toNat + 4 * s.params.palIndex.toNat, 3⟩

/-- PAL_RESOLVE of an index of the bound palette reports the entry's colour (42_compositor.md R303). -/
theorem palResolveBody_resolves {s : State} (hbound : s.frameBound = true) (hdepth : s.frame.depth ≠ 24#8)
    (hindex : s.params.palIndex.toNat < 2 ^ s.frame.depth.toNat) (h : s.readsPlain s.entryRegion) :
    palResolveBody (acceptRun 0x08#8 s) = .ok
      { st := (acceptRun 0x08#8 s).st
        c := { ((acceptRun 0x08#8 s).named [s.entryRegion] []).c with
          r0 := ((acceptRun 0x08#8 s).entryColor s.params.palIndex.toNat).toNat } } := by
  have hcolor := resolveColor_region (u := (acceptRun 0x08#8 s).named [s.entryRegion] []) s.params.swap h
  exact (require_bind_true _ hbound).trans ((require_bind_true _ (bne_iff_ne.2 hdepth)).trans
    ((require_bind_true _ (decide_eq_true hindex)).trans ((declare_bind_apart _ rfl).trans (bind_of_ok _ hcolor))))

/-- PAL_RESOLVE at depth 24, or of an index past the palette (42_compositor.md R303). -/
theorem palResolveBody_outside {u : Run} (hbound : u.st.frameBound = true)
    (h : u.st.frame.depth = 24#8 ∨ 2 ^ u.st.frame.depth.toNat ≤ u.c.params.palIndex.toNat) :
    palResolveBody u = .error (.ended .badParam u) := by
  refine (require_bind_true _ hbound).trans ?_
  by_cases hdepth : u.st.frame.depth = 24#8
  · exact require_bind_false _ (bne_eq_false_iff_eq.2 hdepth)
  · have hpast := h.resolve_left hdepth
    exact (require_bind_true _ (bne_iff_ne.2 hdepth)).trans (require_bind_false _ (decide_eq_false (Nat.not_lt.2 hpast)))

/-- Settles O49: the entry is read, or one of the two checks fails. -/
theorem palResolveReportsTheColour : Obligations.PalResolveReportsTheColour := by
  intro s hi hbound
  refine ⟨fun hdepth hindex hread => ?_, fun houtside => ?_⟩
  · exact ⟨_, (runCommand_idle hi).trans (congrArg conclude (palResolveBody_resolves hbound hdepth hindex hread)),
      settled_plain 0x08#8 rfl (by decide) (by decide), settle_mem _ _⟩
  · exact runCommand_fails [] [] hi (by decide) (by decide) (palResolveBody_outside (u := acceptRun 0x08#8 s) hbound houtside)

/-- Settles O22: the body is `State.flushCache`. -/
theorem pcacheFlushEmptiesTheCache : Obligations.PcacheFlushEmptiesTheCache := by
  intro s hi
  refine ⟨_, runCommand_idle (op := 0x09#8) (body := fun u => .ok { u with st := u.st.flushCache }) hi, ?_, fun i => ?_,
    settle_mem _ _⟩
  · rw [settle_pcache]
    exact settled_plain 0x09#8 rfl (by decide) (by decide)
  · simp only [settle_pcache]
    exact emptyCache_get i

/-! ### A COMPOSITE that passes its checks -/

/-- A machine whose COMPOSITE comes to its drawing: a block of the bound frame, held in DBUF, and regions that fit and are
apart (42_compositor.md R310, 20_memory.md R93). -/
structure State.CanComposite (s : State) : Prop where
  idle : s.inflight = none
  named : blockNamed s s.params = true
  held : (s.dbufValid && s.dbufBlock == s.params.index.zeroExtend 32) = true
  fits : (Region.fits ⟨s.params.dbufAddr.toNat, s.frame.blockSize s.params.index.toNat⟩ && s.params.destRegion.fits) = true
  apart : regionsClash (compositeReads s.frame s.params) [s.params.destRegion] = false

theorem State.canDraw.canComposite {s : State} (h : s.canDraw) : s.CanComposite where
  idle := h.idle
  named := blockNamed_eq_true.2 ⟨h.bound, h.index⟩
  held := Bool.and_eq_true_iff.2 ⟨h.decoded.1, beq_iff_eq.2 h.decoded.2⟩
  fits := Bool.and_eq_true_iff.2 ⟨h.dbufFits, h.destFits⟩
  apart := h.apart

/-- The running COMPOSITE of a machine, its regions named. -/
def State.compositeRun (s : State) : Run :=
  (acceptRun 0x03#8 s).named (compositeReads s.frame s.params) [s.params.destRegion]

theorem State.CanComposite.checks {s : State} (h : s.CanComposite) : compositeChecks s.compositeRun = .ok () := by
  obtain ⟨hbound, hindex⟩ := blockNamed_eq_true.1 h.named
  exact (require_bind_true _ hbound).trans ((require_bind_true _ (decide_eq_true hindex)).trans
    ((require_bind_true _ h.held).trans (congrArg (s.compositeRun.require · .badParam) h.fits)))

/-- Past its checks a COMPOSITE is its drawing. -/
theorem State.CanComposite.draw_eq {s : State} (h : s.CanComposite) :
    compositeDraw (acceptRun 0x03#8 s) =
      if s.drawing.empty then .ok s.compositeRun
      else drawRows s.drawing (s.drawing.y2 - s.drawing.y1 + 1).toNat s.drawing.y1 s.compositeRun := by
  have hknown : compositeKnown (acceptRun 0x03#8 s).st (acceptRun 0x03#8 s).c.params = compositeReads s.frame s.params :=
    compositeKnown_named (s := (acceptRun 0x03#8 s).st) h.named
  rw [compositeDraw, hknown]
  exact (declare_bind_apart _ h.apart).trans (bind_of_ok _ h.checks)

/-- A COMPOSITE whose drawing comes to its end finishes OK there. -/
theorem State.CanComposite.exec_eq {s : State} (h : s.CanComposite) {u : Run}
    (hdraw : compositeDraw (acceptRun 0x03#8 s) = .ok u) : exec .composite s = .next (settle u .ok) := by
  refine (runCommand_idle h.idle).trans ?_
  rw [compositeBody, hdraw]
  rfl

/-- Settles O52: past the checks there is nothing to draw. -/
theorem emptyDrawingDoesNoWork : Obligations.EmptyDrawingDoesNoWork := by
  intro s hi hbound hindex hvalid hblock hdbuf hdest hempty hapart
  have hs : s.CanComposite := ⟨hi, blockNamed_eq_true.2 ⟨hbound, hindex⟩,
    Bool.and_eq_true_iff.2 ⟨hvalid, beq_iff_eq.2 hblock⟩, Bool.and_eq_true_iff.2 ⟨hdbuf, hdest⟩, hapart⟩
  exact ⟨_, hs.exec_eq (hs.draw_eq.trans (if_pos hempty)), settled_plain 0x03#8 rfl (by decide) (by decide), settle_mem _ _⟩

/-! ### The whole rectangle drawn -/

/-- Nothing is drawn yet. -/
theorem drawn_none (s : State) : Drawn s (fun _ _ => False) s.compositeRun where
  within _ _ := False.elim
  st := rfl
  op := rfl
  params := rfl
  shown _ _ _ h := h.1.elim
  rest _ _ := rfl
  cache i := ⟨fun _ => rfl, fun _ hi => by obtain ⟨_, _, _, hnone, _⟩ := hi; exact hnone.elim, fun hi _ => hi⟩
  count := by
    symm
    refine Finset.card_eq_zero.2 (Finset.filter_eq_empty_iff.2 fun i _ hi => ?_)
    exact hi.2 hi.1

theorem Drawing.empty_eq_false {d : Drawing} : d.empty = false ↔ d.x1 ≤ d.x2 ∧ d.y1 ≤ d.y2 := by
  simp [Drawing.empty]

/-- A COMPOSITE that nothing stops has drawn the rectangle when it finishes OK (42_compositor.md R310, R314). -/
theorem State.canDraw.exec_drawn {s : State} (hs : s.canDraw) (hne : s.drawing.empty = false) :
    ∃ u, exec .composite s = .next (settle u .ok) ∧ Drawn s s.drawing.has u
      ∧ u.c.r0 = ((s.drawing.x2 - s.drawing.x1 + 1) * (s.drawing.y2 - s.drawing.y1 + 1)).toNat
      ∧ u.c.r1 = mirrorCount s s.drawing.x1 (s.drawing.x2 - s.drawing.x1 + 1).toNat * (s.drawing.y2 - s.drawing.y1 + 1).toNat := by
  obtain ⟨hx, hy⟩ := Drawing.empty_eq_false.1 hne
  obtain ⟨u, hrows, hdrawn, h0, h1⟩ := drawRows_ok hs (s.drawing.y2 - s.drawing.y1 + 1).toNat (drawn_none s)
    (y := s.drawing.y1) (fun x hx1 hx2 i hi => ⟨hx1, hx2, by omega, by omega⟩) (fun _ _ => False.elim)
  have hc := hs.canComposite
  refine ⟨u, hc.exec_eq (hc.draw_eq.trans ((if_neg (by simp [hne])).trans hrows)), hdrawn.congr fun x y => ?_, ?_, ?_⟩
  · simp only [Drawing.has, false_or]
    omega
  · rw [h0, Int.toNat_mul (by omega) (by omega), Nat.mul_comm]
    exact Nat.zero_add _
  · rw [h1, Nat.mul_comm]
    exact Nat.zero_add _

/-- The slots newly resolved, counted over the list of slots. -/
theorem newSlots_eq_length (s : State) (cache : Vector (Option Half) 256) :
    newSlots s cache = ((List.finRange 256).filter fun i => decide (s.pcache[i] = none ∧ cache[i] ≠ none)).length := by
  rw [← List.toFinset_card_of_nodup ((List.nodup_finRange 256).filter _), newSlots]
  congr 1
  ext i
  simp

/-- The machine after the completion of a COMPOSITE that has drawn the points of `D`. -/
theorem Drawn.settled_ok {s : State} {D : Int → Int → Prop} {u : Run} (h : Drawn s D u) :
    (settle u .ok).settled = ({ s with mem := u.st.mem, pcache := u.st.pcache }).finishing .ok u.c.r0 u.c.r1
      ((List.finRange 256).filter fun i => decide (s.pcache[i] = none ∧ u.st.pcache[i] ≠ none)).length := by
  rw [settled_plain 0x03#8 h.op (by decide) (by decide), ← newSlots_eq_length, ← h.count]
  conv_lhs => rw [h.st]
  rfl

/-! ### Without a mirror -/

theorem mirrorsAt_of_disabled {s : State} (h : s.params.mirrorEn = false) (x : Int) : mirrorsAt s x = false := by
  simp [mirrorsAt, h]

theorem mirrorCount_of_disabled {s : State} (h : s.params.mirrorEn = false) (x : Int) (n : Nat) : mirrorCount s x n = 0 := by
  induction n generalizing x with
  | zero => rfl
  | succ n ih => simp [mirrorCount, mirrorsAt_of_disabled h, ih]

/-- Without a mirror only a column's own point writes it. -/
theorem shows_of_disabled {s : State} (h : s.params.mirrorEn = false) {x y : Int} (hxy : s.drawing.has x y) :
    Shows s s.drawing.has x y x := by
  refine ⟨hxy, .inl rfl, fun z _ hz => ?_⟩
  rcases hz with rfl | ⟨hm, _⟩
  · exact le_rfl
  · rw [mirrorsAt_of_disabled h] at hm
    cases hm

/-- Settles O50: each drawn point is the last to write its pixel, and no mirror writes any. -/
theorem compositeDrawsTheClippedBlock : Obligations.CompositeDrawsTheClippedBlock := by
  intro s hs hmirror hne
  obtain ⟨u, hexec, hdrawn, h0, h1⟩ := hs.exec_drawn hne
  rw [mirrorCount_of_disabled hmirror, Nat.zero_mul] at h1
  refine ⟨_, _, u.st.pcache, hexec, settle_mem _ _, ?_, fun x y hxy => ?_, fun a ha => ?_, hdrawn.cache⟩
  · rw [hdrawn.settled_ok, h0, h1]
  · exact hdrawn.shown x y x (shows_of_disabled hmirror hxy)
  · refine hdrawn.rest a fun ⟨x, y, hxy, hbyte⟩ => ?_
    obtain ⟨hlow, hhigh⟩ := ha x y hxy
    rcases hbyte with hbyte | hbyte | ⟨hm, _⟩
    · exact hlow hbyte
    · exact hhigh hbyte
    · rw [mirrorsAt_of_disabled hmirror] at hm
      cases hm

/-! ### With a mirror -/

theorem mirrorsAt_iff {s : State} (h : s.params.mirrorEn = true) {x : Int} : mirrorsAt s x = true ↔ mirrorFits s x := by
  simp [mirrorsAt, mirrorFits, h]

/-- A column is the mirror of its mirror (42_compositor.md R312). -/
theorem mirrorPoint_mirrorPoint (s : State) (x : Int) : mirrorPoint s (mirrorPoint s x) = x := by
  simp only [mirrorPoint, mirrorColumn, mirrorCol]
  omega

/-- The mirror copy of a drawn column's mirror point falls on that drawn column, so it lies in the stride. -/
theorem mirrorFits_mirrorPoint {s : State} {x y : Int} (hxy : s.drawing.has x y) : mirrorFits s (mirrorPoint s x) := by
  obtain ⟨_, _, hcol, _⟩ := drawing_has (f := s.frame) (p := s.params) hxy
  have hback : mirrorColumn s (mirrorPoint s x) = x - s.drawing.dx0 := eq_sub_of_add_eq (mirrorPoint_mirrorPoint s x)
  rw [mirrorFits, hback]
  exact hcol

/-- Two points that write one column are the same, or each the mirror of the other. -/
theorem eq_or_mirrorPoint_of_paints {s : State} {x z c : Int} (hx : Paints s x c) (hz : Paints s z c) :
    z = x ∨ z = mirrorPoint s x := by
  rcases hx with rfl | ⟨_, rfl⟩ <;> rcases hz with rfl | ⟨_, hz⟩
  · exact .inl rfl
  · exact .inr (by rw [← hz, mirrorPoint_mirrorPoint])
  · exact .inr rfl
  · exact .inl (by rw [← mirrorPoint_mirrorPoint s z, hz, mirrorPoint_mirrorPoint])

/-- What one drawn point writes, its mirror point writes too. -/
theorem paints_mirrorPoint {s : State} (h : s.params.mirrorEn = true) {x y c : Int} (hxy : s.drawing.has x y)
    (hx : Paints s x c) : Paints s (mirrorPoint s x) c := by
  rcases hx with rfl | ⟨_, rfl⟩
  · exact .inr ⟨(mirrorsAt_iff h).2 (mirrorFits_mirrorPoint hxy), mirrorPoint_mirrorPoint s _⟩
  · exact .inl rfl

/-- The column a drawn point writes last shows the point of its `shownColumn` (42_compositor.md R316). -/
theorem shows_shownColumn {s : State} (h : s.params.mirrorEn = true) {x y c : Int} (hxy : s.drawing.has x y)
    (hx : Paints s x c) : Shows s s.drawing.has c y (shownColumn s x) := by
  have hmirror := paints_mirrorPoint h hxy hx
  have ⟨_, _, hrow⟩ := hxy
  rw [shownColumn]
  split
  · next hin =>
    refine ⟨?_, ?_, fun z _ hz => ?_⟩
    · exact max_rec' (fun z => s.drawing.has z y) hxy ⟨hin.1, hin.2, hrow⟩
    · exact max_rec' (fun z => Paints s z c) hx hmirror
    · rcases eq_or_mirrorPoint_of_paints hx hz with rfl | rfl
      · exact le_max_left _ _
      · exact le_max_right _ _
  · next hout =>
    refine ⟨hxy, hx, fun z ⟨hz1, hz2, _⟩ hz => ?_⟩
    rcases eq_or_mirrorPoint_of_paints hx hz with rfl | rfl
    · exact le_rfl
    · exact absurd ⟨hz1, hz2⟩ hout

/-- The columns counted are those of a run of `n` from `x` whose mirror copy is drawn. -/
theorem mirrorCount_eq_card (s : State) (x : Int) (n : Nat) :
    mirrorCount s x n = ((Finset.Ico x (x + n)).filter fun z => mirrorsAt s z = true).card := by
  induction n generalizing x with
  | zero => simp [mirrorCount]
  | succ n ih =>
    have hrun : Finset.Ico x (x + (n + 1 : Nat)) = insert x (Finset.Ico (x + 1) (x + 1 + n)) := by
      ext z
      simp only [Finset.mem_Ico, Finset.mem_insert]
      omega
    have hnew : x ∉ (Finset.Ico (x + 1) (x + 1 + n)).filter fun z => mirrorsAt s z = true := by simp
    rw [mirrorCount, ih, hrun, Finset.filter_insert]
    split
    · rw [Finset.card_insert_of_notMem hnew, Nat.add_comm]
    · exact Nat.zero_add _

/-- The mirror columns counted for a row of the drawing (42_compositor.md R313). -/
theorem mirrorCount_row {s : State} (h : s.params.mirrorEn = true) (hne : s.drawing.empty = false) :
    ∃ xs : Finset Int, xs.card = mirrorCount s s.drawing.x1 (s.drawing.x2 - s.drawing.x1 + 1).toNat
      ∧ ∀ x, x ∈ xs ↔ s.drawing.x1 ≤ x ∧ x ≤ s.drawing.x2 ∧ mirrorFits s x := by
  obtain ⟨hx, _⟩ := Drawing.empty_eq_false.1 hne
  refine ⟨_, (mirrorCount_eq_card s _ _).symm, fun x => ?_⟩
  rw [Finset.mem_filter, Finset.mem_Ico, mirrorsAt_iff h, and_assoc]
  refine and_congr_right fun _ => and_congr_left fun _ => ?_
  omega

/-- Settles O51: the points that write a pixel are a drawn point and its mirror point, and the later one stays. -/
theorem compositeMirrorsTheClippedBlock : Obligations.CompositeMirrorsTheClippedBlock := by
  intro s hs hmirror hne
  obtain ⟨u, hexec, hdrawn, h0, h1⟩ := hs.exec_drawn hne
  refine ⟨_, _, u.st.pcache, _, hexec, settle_mem _ _, ?_, mirrorCount_row hmirror hne, fun x y hxy => ⟨?_, fun hfits => ?_⟩,
    fun a ha => ?_, hdrawn.cache⟩
  · rw [hdrawn.settled_ok, h0, h1]
  · exact hdrawn.shown x y _ (shows_shownColumn hmirror hxy (.inl rfl))
  · rw [mirrorAddr_eq]
    exact hdrawn.shown _ y _ (shows_shownColumn hmirror hxy (.inr ⟨(mirrorsAt_iff hmirror).2 hfits, rfl⟩))
  · refine hdrawn.rest a fun ⟨x, y, hxy, hbyte⟩ => ?_
    obtain ⟨hlow, hhigh, hcopy⟩ := ha x y hxy
    rcases hbyte with hbyte | hbyte | ⟨hm, hbyte⟩
    · exact hlow hbyte
    · exact hhigh hbyte
    · obtain ⟨hcopyLow, hcopyHigh⟩ := hcopy ((mirrorsAt_iff hmirror).1 hm)
      exact hbyte.elim hcopyLow hcopyHigh

end Sys2Proof.Machine
end

section
/-! The frame context commands: what BIND_FRAME's checks come to for a legal and an illegal frame, the end that it shares with
UNBIND, and NOP. -/

namespace Sys2Proof.Machine

/-! ### The checks of BIND_FRAME -/

/-- The frame passes the header checks of BIND_FRAME, all but the palette's (43_frame_context.md R351, R352). -/
abbrev Frame.headerLegal (f : Frame) : Prop :=
  legalDepth f.depth = true ∧ f.nonzero = true ∧ 1 ≤ f.last ∧ f.last ≤ f.blkH.toNat

theorem Frame.legal_iff {f : Frame} : f.legal ↔ f.headerLegal ∧ (f.depth == 24#8 || f.palRegion.fits) = true := by
  rw [Bool.or_eq_true, beq_iff_eq]
  exact ⟨fun h => ⟨⟨h.depth, h.nonzero, h.last⟩, h.palette⟩, fun ⟨⟨hdepth, hnonzero, hlast⟩, hpal⟩ =>
    ⟨hdepth, hnonzero, hlast, hpal⟩⟩

/-- After the header checks, only the palette's is left (60_exceptions.md R411). -/
theorem bindChecks_headerLegal {f : Frame} (u : Run) (h : f.headerLegal) :
    bindChecks f u = u.require (f.depth == 24#8 || f.palRegion.fits) .badParam := by
  obtain ⟨hdepth, hnonzero, hlow, hhigh⟩ := h
  have hlast : (decide (1 ≤ f.last) && decide (f.last ≤ f.blkH.toNat)) = true :=
    Bool.and_eq_true_iff.2 ⟨decide_eq_true hlow, decide_eq_true hhigh⟩
  exact (require_bind_true _ hdepth).trans ((require_bind_true _ hnonzero).trans (require_bind_true _ hlast))

/-- Whichever header check is the first to fail, the status is the same (43_frame_context.md R352). -/
theorem bindChecks_headerIllegal {f : Frame} (u : Run) (h : ¬ f.headerLegal) :
    bindChecks f u = .error (.ended .invalidHeader u) := by
  by_cases hdepth : legalDepth f.depth = true
  · refine (require_bind_true _ hdepth).trans ?_
    by_cases hnonzero : f.nonzero = true
    · have hlast : (decide (1 ≤ f.last) && decide (f.last ≤ f.blkH.toNat)) = false := by
        rw [← Bool.decide_and]
        exact decide_eq_false fun hlast => h ⟨hdepth, hnonzero, hlast⟩
      exact (require_bind_true _ hnonzero).trans (require_bind_false _ hlast)
    · exact require_bind_false _ (Bool.eq_false_iff.2 hnonzero)
  · exact require_bind_false _ (Bool.eq_false_iff.2 hdepth)

theorem bindChecks_legal {f : Frame} (u : Run) (h : f.legal) : bindChecks f u = .ok () := by
  obtain ⟨hheader, hpal⟩ := Frame.legal_iff.1 h
  rw [bindChecks_headerLegal u hheader, hpal, Run.require_true]

/-- The status of the first check that fails (60_exceptions.md R411). -/
theorem bindChecks_illegal {f : Frame} (u : Run) (h : ¬ f.legal) :
    bindChecks f u = .error (.ended (if f.headerLegal then .badParam else .invalidHeader) u) := by
  by_cases hheader : f.headerLegal
  · have hpal := Bool.eq_false_iff.2 fun hpal => h (Frame.legal_iff.2 ⟨hheader, hpal⟩)
    rw [if_pos hheader, bindChecks_headerLegal u hheader, hpal, Run.require_false]
  · rw [if_neg hheader, bindChecks_headerIllegal u hheader]

/-! ### A command that unbinds -/

/-- A run that has unbound the frame and then holds frame `f`, bound or not, with these results (43_frame_context.md R351). -/
def Run.rebound (u : Run) (f : Frame) (bound : Bool) (r0 r1 : Nat) : Run :=
  { st := { u.st.unbindFrame with frame := f, frameBound := bound }, c := { u.c with r0 := r0, r1 := r1 } }

/-- A command without a completion clause that ends so, with any status: the palette cache is empty, DBUF is not valid, and
but for the frame and the completion nothing else has changed. -/
theorem runCommand_rebinds {op : Byte} {body : Run → Except Stop Run} {s : State} {code : Code} {f : Frame} {bound : Bool}
    {r0 r1 : Nat} (hi : s.inflight = none) (h2 : op ≠ 0x02#8) (h5 : op ≠ 0x05#8)
    (h : conclude (body (acceptRun op s)) = .next (settle ((acceptRun op s).rebound f bound r0 r1) code)) :
    ∃ t, runCommand op body s = .next t
      ∧ t.settled = ({ s with
            frame := f
            frameBound := bound
            pcache := t.pcache
            dbufValid := false
            dbufBlock := noBlock }).finishing code r0 r1 0
      ∧ (∀ i : Fin 256, t.pcache[i] = none) ∧ t.mem = s.mem := by
  have hcache : (settle ((acceptRun op s).rebound f bound r0 r1) code).pcache = emptyCache := settle_pcache _ _
  refine ⟨_, (runCommand_idle hi).trans h, ?_, fun i => ?_, settle_mem _ _⟩
  · rw [hcache]
    exact settled_plain op rfl h2 h5
  · simp only [hcache]
    exact emptyCache_get i

/-! ### The commands -/

/-- Settles O21: the body does nothing. -/
theorem nopOnlyCompletes : Obligations.NopOnlyCompletes := by
  intro s hi
  exact ⟨_, runCommand_idle (op := 0x00#8) (body := fun u => .ok u) hi, settled_plain 0x00#8 rfl (by decide) (by decide),
    settle_mem _ _⟩

/-- Settles O23: the body is `State.unbindFrame`. -/
theorem unbindReturnsToUnbound : Obligations.UnbindReturnsToUnbound := by
  intro s hi
  exact runCommand_rebinds (op := 0x0A#8) (body := fun u => .ok { u with st := u.st.unbindFrame }) (f := s.frame)
    hi (by decide) (by decide) rfl

/-- Settles O24: the checks pass, and the frame is bound. -/
theorem bindFrameBindsALegalFrame : Obligations.BindFrameBindsALegalFrame := by
  intro s hi hlegal
  exact runCommand_rebinds (op := 0x01#8) (body := bindBody) hi (by decide) (by decide)
    (congrArg conclude (bind_of_ok _ (bindChecks_legal _ hlegal)))

/-- Settles O25: the first check that fails ends the command, with the frame unbound before it. -/
theorem bindFrameOfAnIllegalFrameUnbinds : Obligations.BindFrameOfAnIllegalFrameUnbinds := by
  intro s hi hillegal
  refine runCommand_rebinds (op := 0x01#8) (body := bindBody) (f := s.frame) hi (by decide) (by decide) ?_
  have hchecks := bindChecks_illegal (f := s.params.frame) ((acceptRun 0x01#8 s).rebound s.frame false 0 0) hillegal
  exact congrArg (fun x => conclude (x >>= _)) hchecks

end Sys2Proof.Machine
end

section
/-! Reset and time: the memory that a reset leaves of an abandoned command, and the steps that a completion is held for. -/

namespace Sys2Proof.Machine

/-! ### Byte writes in order, and taking the newest back -/

/-- A write that succeeds is inside the address space, stores the byte and keeps the one it replaced. -/
theorem Run.write_ok {u v : Run} {a : Nat} {b : Byte} (h : u.write a b = .ok v) :
    a < spaceSize ∧ v.st.mem = u.st.mem.write a b ∧ v.c.undo = (a, u.st.mem.read a) :: u.c.undo := by
  have hcomes := u.write_comes a b
  rw [h] at hcomes
  obtain ⟨ha, rfl⟩ := hcomes
  exact ⟨ha, rfl, rfl⟩

/-- The last write is made by the run that the writes before it leave. -/
theorem Run.writeAll_concat (u : Run) (ws : List Host.Cell) (w : Host.Cell) :
    u.writeAll (ws ++ [w]) = u.writeAll ws >>= fun t => t.write w.1 w.2 := by
  induction ws generalizing u with
  | nil =>
    change (match u.write w.1 w.2 with | .ok t => t.writeAll [] | .error e => .error e) = u.write w.1 w.2
    cases u.write w.1 w.2 <;> rfl
  | cons x ws ih =>
    rw [List.cons_append, Run.writeAll, Run.writeAll]
    cases u.write x.1 x.2 with
    | ok t => exact ih t
    | error e => rfl

theorem Run.writeAll_concat_ok {u v : Run} {ws : List Host.Cell} {w : Host.Cell} (h : u.writeAll (ws ++ [w]) = .ok v) :
    ∃ t, u.writeAll ws = .ok t ∧ t.write w.1 w.2 = .ok v := by
  rw [Run.writeAll_concat] at h
  match hws : u.writeAll ws with
  | .ok t => rw [hws] at h; exact ⟨t, rfl, h⟩
  | .error e => rw [hws] at h; cases h

/-- Writes keep the canonical form of memory. -/
theorem Run.writeAll_wf {u v : Run} {ws : List Host.Cell} (hwf : u.st.mem.wf = true) (h : u.writeAll ws = .ok v) :
    v.st.mem.wf = true := by
  induction ws using List.reverseRecOn generalizing v with
  | nil => cases h; exact hwf
  | append_singleton ws w ih =>
    obtain ⟨t, ht, hw⟩ := Run.writeAll_concat_ok h
    obtain ⟨ha, hmem, -⟩ := Run.write_ok hw
    rw [hmem]
    exact Memory.wf_write _ (ih ht) ha

/-- Taking back the `k` newest writes of a run leaves the memory that the writes before them made: each write taken back
restores the byte that it replaced. -/
theorem Run.undoWrites_writeAll {u v : Run} {ws : List Host.Cell} (hwf : u.st.mem.wf = true) (hundo : u.c.undo = [])
    (h : u.writeAll ws = .ok v) (k : Nat) :
    ∃ t, u.writeAll (ws.take (ws.length - k)) = .ok t ∧ undoWrites v.st.mem (v.c.undo.take k) = t.st.mem := by
  induction ws using List.reverseRecOn generalizing v k with
  | nil =>
    cases h
    exact ⟨u, by rw [List.take_nil]; rfl, by rw [hundo, List.take_nil]; rfl⟩
  | append_singleton ws w ih =>
    obtain ⟨t, ht, hw⟩ := Run.writeAll_concat_ok h
    obtain ⟨ha, hmem, htaken⟩ := Run.write_ok hw
    cases k with
    | zero => exact ⟨v, by rw [Nat.sub_zero, List.take_length, h], rfl⟩
    | succ k =>
      obtain ⟨r, hr, hback⟩ := ih ht k
      have htake : (ws ++ [w]).take ((ws ++ [w]).length - (k + 1)) = ws.take (ws.length - k) := by
        rw [List.length_append, List.length_singleton, Nat.add_sub_add_right,
          List.take_append_of_le_length (Nat.sub_le _ _)]
      refine ⟨r, by rw [htake, hr], ?_⟩
      rw [hmem, htaken, List.take_succ_cons, undoWrites, Memory.write_back _ (Run.writeAll_wf hwf ht) ha, hback]

/-- Settles O2: the free value says how many of the newest writes are taken back. -/
theorem abandonedCommandLeavesAPrefixOfItsWrites : Obligations.AbandonedCommandLeavesAPrefixOfItsWrites := by
  intro s u u' ws hwf hundo hws hmem hc
  obtain ⟨v, hv, hback⟩ := Run.undoWrites_writeAll hwf hundo hws (Config.unmadeWrites s.freeIndex)
  refine ⟨rfl, _, Nat.sub_le _ _, v, hv, ?_⟩
  change memoryAtReset s = v.st.mem
  rw [← hback, memoryAtReset, hc, hmem]

/-! ### The steps that a completion is held for -/

/-- A machine with no transaction left takes a held completion one step on. -/
theorem step_held_quiet {s : State} {c : InFlight} {code : Code} {n : Nat} (h : s.inflight = some c)
    (hp : c.pos = .held code (n + 1)) (hin : s.inputs = []) : step s = .next (s.oneStepOn c code n) :=
  step_held h hp (by simp only [hostTurn, hin]) rfl

theorem settled_held {s : State} {c : InFlight} {code : Code} {n : Nat} (h : s.inflight = some c)
    (hp : c.pos = .held code n) : s.settled = complete c code s := by
  simp only [State.settled, h, hp]

/-- Going on from a machine that holds a completion for other steps comes to the same as going on from the machine itself. -/
theorem oneStepOn_replaced {s : State} {c : InFlight} {code : Code} {m : Nat} (h : s.inflight = some c)
    (hp : c.pos = .held code m) (n left : Nat) :
    ({ s with inflight := some { c with pos := .held code n } } : State).oneStepOn { c with pos := .held code n } code left
      = s.oneStepOn c code left := by
  cases left with
  | zero => exact (complete_held s c code _ _).trans (settled_held h hp).symm
  | succ left => rfl

/-- `k + 1` steps of a machine with no transaction left take a held completion that many steps on. -/
theorem run_held_quiet (k : Nat) {s : State} {c : InFlight} {code : Code} {left : Nat} (h : s.inflight = some c)
    (hp : c.pos = .held code (left + k + 1)) (hin : s.inputs = []) :
    Host.Core.run core (k + 1) s = .next (s.oneStepOn c code left) := by
  induction k generalizing s c with
  | zero => exact run_next (step_held_quiet h hp hin)
  | succ k ih =>
    rw [run_next (step_held_quiet h hp hin)]
    have hrest := ih (s := s.oneStepOn c code (left + k + 1)) (c := { c with pos := .held code (left + k + 1) }) rfl rfl hin
    exact hrest.trans (congrArg _ (oneStepOn_replaced h hp _ left))

/-- A completion with steps still to go keeps BUSY set. -/
theorem oneStepOn_busy (s : State) (c : InFlight) (code : Code) {left : Nat} (h : left ≠ 0) :
    (s.oneStepOn c code left).busy = true := by
  rw [State.oneStepOn, if_neg h]
  rfl

/-- Settles O17: of the `n + 1` steps the last is the completion, and every earlier one leaves steps to go. -/
theorem heldCompletionComesInTime : Obligations.HeldCompletionComesInTime := by
  intro n s c code h hp hin
  have hsettled := settled_held h hp
  refine ⟨run_held_quiet n (left := 0) h (by rw [hp, Nat.zero_add]) hin, by rw [hsettled]; rfl, by rw [hsettled]; rfl,
    fun k hk => ?_⟩
  cases k with
  | zero => exact ⟨s, rfl, by rw [State.busy, h]; rfl⟩
  | succ k =>
    have hleft : n - k + k = n := Nat.sub_add_cancel (Nat.le_of_succ_le hk)
    exact ⟨_, run_held_quiet k (left := n - k) h (by rw [hp, hleft]) hin,
      oneStepOn_busy s c code (Nat.sub_ne_zero_of_lt hk)⟩

end Sys2Proof.Machine
end
